-- ==== Sys2Proof/Word.lean ====
section
/-! DEFINITION. The two word types: the 32-bit word of the local bus (R138) and the byte that memory cells hold. -/

namespace Sys2Proof

/-- One byte of the Exchange Memory's list of cells. -/
abbrev Byte := BitVec 8

/-- One word of the local bus, the Exchange Memory and the registers (R138, R171). -/
abbrev Word := BitVec 32

end Sys2Proof
end

