-- ==== Sys2Proof/Config.lean ====
section
/-! DEFINITION. The one free value of the model: what the Exchange Memory holds after power-on. -/

namespace Sys2Proof

/-- The contents of the Exchange Memory after the n-th power-on, as (byte offset, byte) cells.
R138: "After power-on the contents of the whole memory are undefined." No value is known of it; the model takes the
cells at offsets 0000h to FFFFh (log entry 5). -/
opaque Config.powerOnContents : Nat → List Host.Cell

end Sys2Proof
end

