-- ==== Sys2Proof/Syntax.lean ====
section
/-! DEFINITION. The commands of the W3208, one constructor per row of spec/opcode_table.json. -/

namespace Sys2Proof

/-- How much of a use of the memory port one command stands for (R144, R145; log entry 3).
A `request` reaches the Memory Arbiter and is granted or waits; a `finish` ends the use that was granted;
`whole` is a request and, when it is granted at once, its end. -/
inductive Phase where
  | whole
  | request
  | finish
deriving DecidableEq, Repr

/-- How much of one evaluation a command stands for (R82; log entry 3): the take of the head of the queue with the
reading of the inputs, the stages to the end, or both. -/
inductive EvalPhase where
  | whole
  | take
  | finish
deriving DecidableEq, Repr

/-- A host access to one word: a read, or a write of a word. -/
inductive BusOp where
  | read
  | write (data : Word)
deriving DecidableEq, Repr

/-- A host access to the Exchange Memory: one of its 16,384 words (R138). -/
structure HostAccess where
  word : BitVec 14
  op : BusOp
deriving DecidableEq, Repr

/-- One row of spec/opcode_table.json each, in the table's order. -/
inductive Instr where
  /-- POWER_ON (R179). -/
  | powerOn
  /-- RESET_N (R179): the pin goes low; `made` word accesses of the transaction it cuts were made (R146). -/
  | resetN (made : Fin 16)
  /-- RESET_N_RELEASE (R179): the pin returns high. -/
  | resetNRelease
  /-- FULL_RESET (R179): the RUN_CTL word written, and the word accesses made by the transaction it cuts (R146). -/
  | fullReset (value : Word) (made : Fin 16)
  /-- RESTART (R178): the RUN_CTL word written, and the word accesses made by the transaction it cuts (R146). -/
  | restart (value : Word) (made : Fin 16)
  /-- RUN_SET (R174): the RUN_CTL word written. -/
  | runSet (value : Word)
  /-- RUN_CLEAR (R177): the RUN_CTL word written. -/
  | runClear (value : Word)
  /-- SWEEP_NOW (R147): the RUN_CTL word written. -/
  | sweepNow (value : Word)
  /-- ATTN_WRITE (R167). -/
  | attnWrite (value : Word)
  /-- SHELF_CHG_WRITE (R167). -/
  | shelfChgWrite (value : Word)
  /-- ATTN_EN_WRITE (R169). -/
  | attnEnWrite (value : Word)
  /-- MSCLK_L_READ (R180). -/
  | msclkLRead
  /-- REGISTER_WRITE_REFUSED (R171): an access to the word at offset 10000h + 4 × `reg`. -/
  | registerWriteRefused (reg : BitVec 14) (op : BusOp)
  /-- HOST_MEMORY_ACCESS (R144). -/
  | hostMemoryAccess (access : HostAccess) (ph : Phase)
  /-- TICK (R180). -/
  | tick
  /-- REPORT_DEADLINE_EXPIRY (R26) of the candidate at flat index `k`. -/
  | reportDeadlineExpiry (k : Fin 256)
  /-- HOLD_OFF_EXPIRY (R31). -/
  | holdOffExpiry (k : Fin 256)
  /-- WTR_EXPIRY (R34). -/
  | wtrExpiry (k : Fin 256)
  /-- ACQUISITION_EXPIRY (R74) of shelf `i`. -/
  | acquisitionExpiry (i : Fin 32)
  /-- LEARNING_EXPIRY (R75). -/
  | learningExpiry (i : Fin 32)
  /-- HOLDOVER_DEADLINE_EXPIRY (R76). -/
  | holdoverDeadlineExpiry (i : Fin 32)
  /-- SWEEP_DEADLINE_EXPIRY (R147). -/
  | sweepDeadlineExpiry
  /-- GLOBAL_RECORD (R154). -/
  | globalRecord (ph : Phase)
  /-- COMMAND_TAKE (R119). -/
  | commandTake (ph : Phase)
  /-- SHELF_CONFIGURATION (R66). -/
  | shelfConfiguration (ph : Phase)
  /-- CANDIDATE_CONFIGURATION (R38). -/
  | candidateConfiguration (ph : Phase)
  /-- SHELF_REPORT (R71). -/
  | shelfReport (ph : Phase)
  /-- OBSERVATION (R21). -/
  | observation (ph : Phase)
  /-- ACQUISITION_FAILURE_REQUEST (R35) for the candidate at flat index `k`. -/
  | acquisitionFailureRequest (k : Fin 256)
  /-- LOCK_LOST_REQUEST (R36). -/
  | lockLostRequest (k : Fin 256)
  /-- CLEAR_WTR_REQUEST (R37). -/
  | clearWtrRequest (k : Fin 256)
  /-- EVALUATION (R82). -/
  | evaluation (ph : EvalPhase)
  /-- SHELF_RESULT_WRITE (R162). -/
  | shelfResultWrite (ph : Phase)
  /-- CANDIDATE_RESULT_WRITE (R161). -/
  | candidateResultWrite (ph : Phase)
  /-- LOG_ENTRY_WRITE (R165). -/
  | logEntryWrite (ph : Phase)
  /-- LOG_CONTROL_WRITE (R166). -/
  | logControlWrite (ph : Phase)
  /-- COMMAND_COMPLETION (R121). -/
  | commandCompletion (ph : Phase)
  /-- ABORTED_COMPLETION (R123). -/
  | abortedCompletion (ph : Phase)
  /-- STARTUP_GLOBAL_READ (R175). -/
  | startupGlobalRead (ph : Phase)
deriving DecidableEq, Repr

end Sys2Proof
end

