-- ==== Sys2Proof/Decode.lean ====
section
/-! DEFINITION. The command that a word spells. No row of spec/opcode_table.json gives bits ("n_rows_with_fixed": 0), so no
word spells one; and the fields of the words that the register rows carry (R171). -/

namespace Sys2Proof

/-- The command that the `nbits` bits of `w` spell by the table's bits: none, since no row of the table gives any (log
entry 24). -/
def decodeTableWord (_nbits _w : Nat) : Option Instr := none

/-- RUN_CTL.RUN as written (R171). -/
def runBit (w : Word) : Bool := w.getLsbD 0

/-- RUN_CTL.SWEEP_NOW as written (R171). -/
def sweepNowBit (w : Word) : Bool := w.getLsbD 1

/-- RUN_CTL.RESTART as written (R171). -/
def restartBit (w : Word) : Bool := w.getLsbD 2

/-- RUN_CTL.FULL_RESET as written (R171). -/
def fullResetBit (w : Word) : Bool := w.getLsbD 3

/-- Whether the register port refuses the access with a bus error: a write to PART_ID, ENGINE_STS, MSCLK_L or MSCLK_H,
or any access to an unimplemented offset (R171). `reg` counts words from offset 10000h. -/
def busRefused (reg : BitVec 14) : BusOp → Bool
  | .read => decide (8 ≤ reg.toNat)
  | .write _ => decide (8 ≤ reg.toNat) || reg == 0 || reg == 2 || reg == 6 || reg == 7

end Sys2Proof
end

