-- ==== Sys2Proof/Machine/State.lean ====
section
/-! DEFINITION. The state of the W3208 as plain data: every register, table, queue, deadline and buffer the spec names, and
State.reset, the part right after power-on. -/

namespace Sys2Proof.Machine

/-! ### Value sets -/

/-- Quality classes, best first (R1). -/
inductive Quality where
  | qc1 | qc2 | qc3 | qc4 | qc5 | qc6
deriving DecidableEq, Repr

/-- Reference kinds (R3). Only PEER holds a source shelf. -/
inductive Kind where
  | off | line | station | satellite
  | peer (source : Fin 32)
deriving DecidableEq, Repr

/-- Candidate states (R19). -/
inductive CandState where
  | off | unknown | available | suspect | failed | restoring
deriving DecidableEq, Repr

/-- Shelf states (R62). -/
inductive ShelfState where
  | disabled | freeRun | acquiring | locked | holdover
deriving DecidableEq, Repr

/-- Shelf modes with the manual or forced slot, which is present exactly in MANUAL and FORCED (R126). -/
inductive Mode where
  | auto
  | manual (slot : Fin 8)
  | forced (slot : Fin 8)
  | hold
deriving DecidableEq, Repr

/-- Switch policies (R61). -/
inductive Policy where
  | direct | guarded | fixed
deriving DecidableEq, Repr

/-- Causes of a refused configuration record (R151, R152). -/
inductive RejectCause where
  | badKind | badClass | badPolicy | badSource | badFrequency
deriving DecidableEq, Repr

/-- Configuration outcome of a shelf or candidate (R18, R61). -/
inductive CfgOutcome where
  | none | applied | appliedClamped
  | rejected (cause : RejectCause)
deriving DecidableEq, Repr

/-- Outcome of the global record (R154, R159); it has no reject cause. -/
inductive GlobalOutcome where
  | none | applied | appliedClamped | rejected
deriving DecidableEq, Repr

/-- Change reasons (R62, R79). -/
inductive ChangeReason where
  | start | policy | failure | command | acqFail | lockLost | holdoverExpiry | config
deriving DecidableEq, Repr

/-- Log event kinds (chapter 8, value codes). -/
inductive LogKind where
  | select | lock | acqFail | lockLost | holdover | freeRun | holdoverExpired | disabled
deriving DecidableEq, Repr

/-- Barring with its target (R14). -/
inductive Barring where
  | none
  | slot (target : Fin 8)
  | shelf (target : Fin 32)
deriving DecidableEq, Repr

/-- Eligibility codes (R84). -/
inductive EligCode where
  | eligible | off | lockedOut | notReady | holdingOff | barred | belowFloor | sourceOff | loop | tooDeep
deriving DecidableEq, Repr

/-- Command outcomes (R125). -/
inductive CmdOutcome where
  | accepted | badCommand | badSlot | shelfOff | overridden | lockedOut | ineligible | inUse | notApplicable | aborted
deriving DecidableEq, Repr

/-- Halt causes (R171). -/
inductive HaltCause where
  | none | layout
deriving DecidableEq, Repr

/-- The start-up step in progress (R174). Steps 2, 4, 6 and 7 happen with the end of the step before them (log entry 9). -/
inductive StartStep where
  /-- Step 1. -/
  | readGlobal
  /-- Step 3, with the next command slot to examine. -/
  | slots (next : Fin 32)
  /-- Step 5. -/
  | sweep
deriving DecidableEq, Repr

/-- Engine states (R173). -/
inductive EngineState where
  | halted
  | starting (step : StartStep)
  | running
  | stopping
deriving DecidableEq, Repr

/-! ### Registers of the Local Bus Port -/

/-- The five latched attention causes (R167). -/
structure Causes where
  result : Bool
  command : Bool
  log : Bool
  intake : Bool
  halt : Bool
deriving DecidableEq, Repr

/-- The enables of ATTN_EN: one for each latched cause and one for ALARM (R169). -/
structure Enables where
  causes : Causes
  alarm : Bool
deriving DecidableEq, Repr

/-- What the port answered to the last host access it completed: the word of a read, and whether it was a bus error.
The model's own view of the bus (log entry 7). -/
structure BusAnswer where
  data : Option Word
  error : Bool
deriving DecidableEq, Repr

/-! ### Timer Bank -/

/-- A deadline that is present: its time on the millisecond clock, and whether a tick has found it due (R181; log entry 12). -/
structure Deadline where
  time : Nat
  due : Bool
deriving DecidableEq, Repr

/-! ### Exchange Memory and Memory Arbiter -/

/-- The Exchange Memory as (byte offset, byte) cells, offsets rising, no cell holding the 0 that an unlisted offset
reads as (log entries 4 and 6). -/
abbrev Memory := List Host.Cell

/-- What the Result Writer uses the port for: the item at the head of its list, or the ABORTED completion of one slot
(R123), with whether the step 3 that asked for it is still in progress. -/
inductive WriterJob where
  | item
  | abort (slot : Fin 32) (live : Bool)
deriving DecidableEq, Repr

/-- The current owner of the memory port (R144). -/
inductive Owner where
  | none
  | localBus
  | intake
  | writer (job : WriterJob)
deriving DecidableEq, Repr

/-- The internal turn (R144). -/
inductive Turn where
  | intake | writer
deriving DecidableEq, Repr

/-- The Memory Arbiter (R144, R145): the two values it holds and the requests that wait. -/
structure Arbiter where
  owner : Owner
  turn : Turn
  host : Option HostAccess
  intakeWaits : Bool
  writerWaits : Bool
deriving DecidableEq, Repr

/-! ### Intake Unit -/

/-- Global values (R154). -/
structure Globals where
  shelfCount : Nat
  period : Nat
  logEnable : Bool
deriving DecidableEq, Repr

/-- A position of a sweep (R148). -/
inductive Position where
  | global
  | slot (i : Fin 32)
  | shelfConfig (i : Fin 32)
  | candConfig (k : Fin 256)
  | report (i : Fin 32)
  | obs (k : Fin 256)
deriving DecidableEq, Repr

/-- The Intake Unit (R158), its Last-Taken Table in five parts (R142). -/
structure Intake where
  lastGlobal : Option Word
  lastShelfConfig : Vector (Option Word) 32
  lastCandConfig : Vector (Option Word) 256
  lastReport : Vector (Option Word) 32
  lastObs : Vector (Option Word) 256
  applied : Globals
  pendingGlobals : Option Globals
  sweepDeadline : Option Deadline
  position : Option Position
  furtherSweep : Bool
deriving DecidableEq, Repr

/-! ### Candidate Monitor -/

/-- The active configuration copy of a candidate (R18). -/
structure CandConfig where
  kind : Kind
  priority : Nat
  cap : Quality
  frequency : Nat
  limit : Nat
  timeout : Nat
deriving DecidableEq, Repr

/-- A set of failure reasons (R19). -/
structure Reasons where
  signal : Bool
  stale : Bool
  freq : Bool
deriving DecidableEq, Repr

/-- One entry of the Candidate Table (R18, R19). In the fault history, oldest first, `true` is "fault". -/
structure Candidate where
  config : CandConfig
  outcome : CfgOutcome
  state : CandState
  reasons : Reasons
  history : List Bool
  received : Option Quality
  average : Option Int
  lastRaw : Option Int
  lastObs : Option Nat
  reportDeadline : Option Deadline
  stateDeadline : Option Deadline
deriving DecidableEq, Repr

/-- The monitoring parameter set of a shelf (R20). -/
structure MonitorParams where
  window : Nat
  threshold : Nat
  exponent : Nat
  holdOff : Nat
  waitToRestore : Nat
deriving DecidableEq, Repr

/-- A request of the Selection Engine to the Candidate Monitor (chapter 2, section 2.5). -/
inductive Request where
  | acqFailure (k : Fin 256)
  | lockLost (k : Fin 256)
  | clearWtr (k : Fin 256)
deriving DecidableEq, Repr

/-! ### Selection Engine -/

/-- The active configuration of a shelf (R61); its five monitoring fields are a parameter set (R20). -/
structure ShelfConfig where
  enable : Bool
  policy : Policy
  guardClass : Quality
  floorClass : Quality
  holdoverClass : Quality
  monitor : MonitorParams
  learningTime : Nat
  holdoverLimit : Nat
  acqTimeout : Nat
deriving DecidableEq, Repr

/-- A taken command: the command word as the take read it, code and slot argument (R119, R140). -/
structure TakenCommand where
  code : Nat
  arg : Nat
deriving DecidableEq, Repr

/-- The Engine's copy of the values last published for a shelf (R62, R97). -/
structure Published where
  state : ShelfState
  mode : Mode
  selected : Option (Fin 8)
  outputClass : Quality
  barring : Barring
  path : List (Fin 32)
  historyValid : Bool
  holdoverExpired : Bool
  switchCount : Nat
  lastReason : ChangeReason
  lastTime : Nat
  outcome : CfgOutcome
  outcomeSeq : Word
deriving DecidableEq, Repr

/-- One entry of the Shelf Table (R61, R62, R101). -/
structure Shelf where
  config : ShelfConfig
  outcome : CfgOutcome
  outcomeSeq : Word
  state : ShelfState
  mode : Mode
  selected : Option (Fin 8)
  lockout : Vector Bool 8
  historyValid : Bool
  holdoverExpired : Bool
  taken : Option TakenCommand
  acqDeadline : Option Deadline
  learnDeadline : Option Deadline
  holdDeadline : Option Deadline
  pendingReason : Option ChangeReason
  switchCount : Nat
  lastReason : ChangeReason
  lastTime : Nat
  followed : Option (Fin 32)
  published : Published
deriving DecidableEq, Repr

/-- The Engine's kept judgement of a candidate (R10, R87). -/
structure Judgement where
  cls : Quality
  code : EligCode
  lockedOut : Bool
deriving DecidableEq, Repr

/-- The inputs an evaluation read at its start (R82). The entry of the shelf itself takes no event while it is under
evaluation (R63), so it is read where it stands; the taken command of the start is kept apart. -/
structure EvalInputs where
  shelf : Fin 32
  time : Nat
  taken : Option TakenCommand
  cands : Vector Candidate 8
  shelves : Vector Shelf 32
  shelfCount : Nat
deriving DecidableEq, Repr

/-! ### Result Writer -/

/-- A numbered log entry (R164). -/
structure LogEntry where
  number : Word
  time : Nat
  shelf : Fin 32
  kind : LogKind
  previous : Option (Fin 8)
  new : Option (Fin 8)
  cls : Quality
  reason : ChangeReason
deriving DecidableEq, Repr

/-- An item of the write list (R160). -/
inductive WriteItem where
  | shelfResult (i : Fin 32)
  | candResult (k : Fin 256)
  | logControl
  | completion (i : Fin 32) (outcome : CmdOutcome)
  | logEntry (entry : LogEntry)
deriving DecidableEq, Repr

/-- The Result Writer (R159). -/
structure Writer where
  publication : Word
  nextEntry : Word
  loggedEntry : Word
  lastEntryTime : Nat
  logEnable : Bool
  globalOutcome : GlobalOutcome
  globalSeq : Word
  list : List WriteItem
  written : Vector ShelfState 32
deriving DecidableEq, Repr

/-! ### The whole part -/

/-- The W3208: all its state, and the queue of commands that wait. -/
structure State where
  /-- RUN_CTL.RUN (R172). -/
  run : Bool
  /-- The engine state (R173). -/
  engine : EngineState
  /-- ENGINE_STS halt cause (R171). -/
  haltCause : HaltCause
  /-- The RESET_N pin is held low (R179). -/
  resetLow : Bool
  /-- The answer of the last host access (log entry 7). -/
  bus : BusAnswer
  /-- The latched causes of ATTN (R167). -/
  causes : Causes
  /-- ATTN_EN (R169). -/
  enables : Enables
  /-- SHELF_CHG (R162). -/
  shelfChg : Word
  /-- MSCLK_H, the latched clock bits 47:32 (R180). -/
  msclkH : BitVec 16
  /-- The prescaler of the input clock (R180). -/
  prescaler : Nat
  /-- The 48-bit millisecond clock (R180). -/
  clock : Nat
  /-- The Exchange Memory (R138). -/
  mem : Memory
  /-- The Memory Arbiter (R144). -/
  arbiter : Arbiter
  /-- The Intake Unit (R158). -/
  intake : Intake
  /-- The Candidate Table, by flat index (R18, R19). -/
  cands : Vector Candidate 256
  /-- The monitoring parameter sets (R20). -/
  params : Vector MonitorParams 32
  /-- Requests of the Engine that the Monitor has not taken, oldest first (R35 to R37). -/
  requests : List Request
  /-- The Shelf Table (R61, R62). -/
  shelves : Vector Shelf 32
  /-- The kept judgements, by flat index (R10, R87). -/
  judged : Vector Judgement 256
  /-- The Evaluation Queue, oldest first (R113). -/
  queue : List (Fin 32)
  /-- The evaluation in progress (R82). -/
  evaluating : Option EvalInputs
  /-- The Result Writer (R159). -/
  writer : Writer
  /-- The model's own: how many POWER_ON commands were run, which picks the free memory contents (log entry 5). -/
  powerOns : Nat
  /-- The commands that wait, first in, first out. -/
  pending : List Instr
deriving DecidableEq, Repr

/-! ### Why a step can stop -/

/-- No event of the spec stops the part, so there is no fault (safe: no command can end in one). -/
inductive Fault where
deriving DecidableEq, Repr

/-- Reasons for which a command has no meaning. -/
inductive Refusal where
  /-- Raised by exec alone, for a row that has no meaning yet; safe, since the model stops. No arm raises it. -/
  | notModelled (mnemonic : String)
deriving DecidableEq, Repr

/-! ### Reset values -/

/-- R18. -/
def CandConfig.reset : CandConfig where
  kind := .off
  priority := 8
  cap := .qc1
  frequency := 10000000
  limit := 2000
  timeout := 2000

/-- R18, R19. -/
def Candidate.reset : Candidate where
  config := .reset
  outcome := .none
  state := .off
  reasons := ⟨false, false, false⟩
  history := []
  received := none
  average := none
  lastRaw := none
  lastObs := none
  reportDeadline := none
  stateDeadline := none

/-- R20. -/
def MonitorParams.reset : MonitorParams where
  window := 8
  threshold := 3
  exponent := 2
  holdOff := 20
  waitToRestore := 300

/-- R61. -/
def ShelfConfig.reset : ShelfConfig where
  enable := false
  policy := .direct
  guardClass := .qc3
  floorClass := .qc5
  holdoverClass := .qc3
  monitor := .reset
  learningTime := 600
  holdoverLimit := 240
  acqTimeout := 30

/-- The copy of the published values after a reset (R62). -/
def Published.reset (i : Fin 32) : Published where
  state := .disabled
  mode := .auto
  selected := none
  outputClass := .qc6
  barring := .none
  path := [i]
  historyValid := false
  holdoverExpired := false
  switchCount := 0
  lastReason := .start
  lastTime := 0
  outcome := .none
  outcomeSeq := 0

/-- R61, R62, R101. -/
def Shelf.reset (i : Fin 32) : Shelf where
  config := .reset
  outcome := .none
  outcomeSeq := 0
  state := .disabled
  mode := .auto
  selected := none
  lockout := .replicate 8 false
  historyValid := false
  holdoverExpired := false
  taken := none
  acqDeadline := none
  learnDeadline := none
  holdDeadline := none
  pendingReason := none
  switchCount := 0
  lastReason := .start
  lastTime := 0
  followed := none
  published := .reset i

/-- R10, R87. -/
def Judgement.reset : Judgement where
  cls := .qc6
  code := .off
  lockedOut := false

/-- R158. -/
def Arbiter.reset : Arbiter where
  owner := .none
  turn := .writer
  host := none
  intakeWaits := false
  writerWaits := false

/-- R158. -/
def Intake.reset : Intake where
  lastGlobal := none
  lastShelfConfig := .replicate 32 none
  lastCandConfig := .replicate 256 none
  lastReport := .replicate 32 none
  lastObs := .replicate 256 none
  applied := { shelfCount := 0, period := 100, logEnable := false }
  pendingGlobals := none
  sweepDeadline := none
  position := none
  furtherSweep := false

/-- R159, after power-on and full reset. -/
def Writer.reset : Writer where
  publication := 1
  nextEntry := 0
  loggedEntry := 0
  lastEntryTime := 0
  logEnable := false
  globalOutcome := .none
  globalSeq := 0
  list := []
  written := .replicate 32 .disabled

/-- The part right after power-on with the RESET_N pin high (R179): HALTED, every table at its reset value, the clock at 0.
The memory lists nothing, and an unlisted byte reads 0 (log entry 4). -/
def State.reset : State where
  run := false
  engine := .halted
  haltCause := .none
  resetLow := false
  bus := { data := none, error := false }
  causes := ⟨false, false, false, false, false⟩
  enables := ⟨⟨false, false, false, false, false⟩, false⟩
  shelfChg := 0
  msclkH := 0
  prescaler := 0
  clock := 0
  mem := []
  arbiter := .reset
  intake := .reset
  cands := .replicate 256 .reset
  params := .replicate 32 .reset
  requests := []
  shelves := .ofFn Shelf.reset
  judged := .replicate 256 .reset
  queue := []
  evaluating := none
  writer := .reset
  powerOns := 0
  pending := []

end Sys2Proof.Machine
end

