-- ==== Sys2Proof/Machine/Ops.lean ====
section
/-! DEFINITION. The shared operations: memory cells and words, table indexes and updates, deadlines, the Evaluation Queue, the
write list, log handover, requests. -/

namespace Sys2Proof.Machine

/-! ### Exchange Memory (R138) -/

/-- What an offset that no cell lists reads as (log entry 4). -/
def Memory.unlisted : Byte := 0

/-- The byte at an offset. -/
def Memory.readByte : Memory → Nat → Byte
  | [], _ => Memory.unlisted
  | (b, v) :: rest, a => if a = b then v else Memory.readByte rest a

/-- Puts a byte at an offset, keeping the canonical form: a byte that an unlisted offset would read is not listed. -/
def Memory.writeByte : Memory → Nat → Byte → Memory
  | [], a, v => if v = Memory.unlisted then [] else [(a, v)]
  | (b, w) :: rest, a, v =>
    if a < b then (if v = Memory.unlisted then (b, w) :: rest else (a, v) :: (b, w) :: rest)
    else if a = b then (if v = Memory.unlisted then rest else (a, v) :: rest)
    else (b, w) :: Memory.writeByte rest a v

/-- The cells from `low` on are listed in rising order, below 10000h, and none holds the unlisted byte. -/
def Memory.wfFrom : Nat → Memory → Bool
  | _, [] => true
  | low, (a, v) :: rest =>
    decide (low ≤ a) && decide (a < 65536) && decide (v ≠ Memory.unlisted) && Memory.wfFrom (a + 1) rest

/-- The canonical form of a memory. -/
def Memory.wf (m : Memory) : Bool := Memory.wfFrom 0 m

/-- The memory that holds the given cells, those above FFFFh left out. -/
def Memory.ofCells (cells : List Host.Cell) : Memory :=
  cells.foldl (fun m c => if c.1 < 65536 then m.writeByte c.1 c.2 else m) []

/-- A word of the memory; the byte at the lowest offset is the least significant (log entry 6). -/
def Memory.readWord (m : Memory) (w : BitVec 14) : Word :=
  m.readByte (4 * w.toNat + 3) ++ m.readByte (4 * w.toNat + 2) ++ m.readByte (4 * w.toNat + 1) ++ m.readByte (4 * w.toNat)

/-- Writes a word of the memory. -/
def Memory.writeWord (m : Memory) (w : BitVec 14) (v : Word) : Memory :=
  (((m.writeByte (4 * w.toNat) (v.extractLsb' 0 8)).writeByte (4 * w.toNat + 1) (v.extractLsb' 8 8)).writeByte
    (4 * w.toNat + 2) (v.extractLsb' 16 8)).writeByte (4 * w.toNat + 3) (v.extractLsb' 24 8)

/-- Writes the words of a list of (word address, word) pairs in order. -/
def Memory.writeWords (m : Memory) (ws : List (BitVec 14 × Word)) : Memory :=
  ws.foldl (fun m p => m.writeWord p.1 p.2) m

/-- The word address of word `n` of record `i` in a region at byte offset `base` with records of `size` bytes (R138). -/
def wordAddr (base size i n : Nat) : BitVec 14 := BitVec.ofNat 14 ((base + size * i) / 4 + n)

/-! ### Indexes: shelf, slot and flat index (00_scope.md) -/

/-- The flat index of a candidate: shelf × 8 + slot. -/
def flat (i : Fin 32) (j : Fin 8) : Fin 256 := ⟨i.val * 8 + j.val, by omega⟩

/-- The shelf of a candidate. -/
def shelfOf (k : Fin 256) : Fin 32 := ⟨k.val / 8, by omega⟩

/-- The slot of a candidate. -/
def slotOf (k : Fin 256) : Fin 8 := ⟨k.val % 8, by omega⟩

/-! ### Table updates -/

/-- Replaces a candidate's entry. -/
def State.setCand (s : State) (k : Fin 256) (c : Candidate) : State := { s with cands := s.cands.set k c }

/-- Replaces a shelf's entry. -/
def State.setShelf (s : State) (i : Fin 32) (sh : Shelf) : State := { s with shelves := s.shelves.set i sh }

/-- Replaces a shelf's monitoring parameter set. -/
def State.setParams (s : State) (i : Fin 32) (p : MonitorParams) : State := { s with params := s.params.set i p }

/-- A shelf is enabled when it is not DISABLED (R65, R67). -/
def Shelf.enabled (sh : Shelf) : Bool := sh.state != .disabled

/-! ### Deadlines (R180, R181) -/

/-- The highest value of the 48-bit millisecond clock (R180). -/
def maxClock : Nat := 281474976710655

/-- A deadline set now for `interval` milliseconds ahead, at most the highest clock value (R181). -/
def deadlineAt (now interval : Nat) : Deadline := { time := min (now + interval) maxClock, due := false }

/-- A tick marks a deadline whose time is at or before the new clock value (R181). The mark is the same whether the owner acts at that
tick or the deadline is held overdue, so an expiry that was raised and not taken when the engine enters STOPPING is held as overdue
from then on: log entry 32 (DESIGN CHOICE). -/
def Deadline.tick (now : Nat) (d : Deadline) : Deadline := if d.time ≤ now then { d with due := true } else d

/-- Whether a deadline is present and has come due. -/
def isDue (d : Option Deadline) : Bool :=
  match d with
  | some d => d.due
  | none => false

/-- The time remaining as a result record shows it: 0 when absent or overdue (R43, R64, R181). -/
def remaining (now : Nat) (d : Option Deadline) : Nat :=
  match d with
  | some d => d.time - now
  | none => 0

/-- Whether owners act on expiries: RUNNING, and STARTING from the end of step 2 (R173, R181). The engine state when the expiry is
taken decides, not the one at the tick that raised it: log entry 32 (DESIGN CHOICE). -/
def EngineState.acts : EngineState → Bool
  | .running => true
  | .starting (.slots _) => true
  | .starting .sweep => true
  | .starting .readGlobal => false
  | .halted => false
  | .stopping => false

/-! ### The Evaluation Queue (R113) -/

/-- A shelf is placed in the queue: it joins at the tail, or keeps its place if it waits already. -/
def State.place (s : State) (i : Fin 32) : State :=
  if i ∈ s.queue then s else { s with queue := s.queue ++ [i] }

/-- Several shelves are placed, in order. -/
def State.placeAll (s : State) (is : List (Fin 32)) : State := is.foldl State.place s

/-! ### The write list (R160) -/

/-- A request for a shelf result, a candidate result or the log control record: an item that waits keeps its place. -/
def State.ask (s : State) (item : WriteItem) : State :=
  if item ∈ s.writer.list then s else { s with writer := { s.writer with list := s.writer.list ++ [item] } }

/-- Several requests, in order. -/
def State.askAll (s : State) (items : List WriteItem) : State := items.foldl State.ask s

/-- A command completion always joins at the tail (R160). -/
def State.complete (s : State) (i : Fin 32) (o : CmdOutcome) : State :=
  { s with writer := { s.writer with list := s.writer.list ++ [.completion i o] } }

/-- The write index of an entry number (R159). -/
def logIndex (n : Word) : Nat := n.toNat % 128

/-- Whether an item is the log entry that waits for a write index. -/
def WriteItem.isLogAt (idx : Nat) : WriteItem → Bool
  | .logEntry e => logIndex e.number == idx
  | .shelfResult _ => false
  | .candResult _ => false
  | .logControl => false
  | .completion _ _ => false

/-- Whether an item is a completion of a shelf's command. -/
def WriteItem.isCompletionOf (i : Fin 32) : WriteItem → Bool
  | .completion i' _ => i' == i
  | .shelfResult _ => false
  | .candResult _ => false
  | .logControl => false
  | .logEntry _ => false

/-- A log entry as the Engine hands it over, before it is numbered (R164). -/
structure LogNote where
  kind : LogKind
  previous : Option (Fin 8)
  new : Option (Fin 8)
  cls : Quality
  reason : ChangeReason

/-- The numbered entry that a handover makes (R164 steps 1 and 2). -/
def State.numbered (s : State) (i : Fin 32) (n : LogNote) : LogEntry where
  number := s.writer.nextEntry
  time := s.clock
  shelf := i
  kind := n.kind
  previous := n.previous
  new := n.new
  cls := n.cls
  reason := n.reason

/-- The port is granted for the item at the head of the write list, whose transaction is in progress (R144, R160). -/
def Arbiter.servesItem (a : Arbiter) : Bool := a.owner == .writer .item

/-- The write list when a new entry for write index `idx` joins: an entry that still waits for the index is removed first, but the
head keeps its place while its transaction is in progress, which runs to its end (R144, R160; log entry 30). -/
def withoutLogAt (served : Bool) (idx : Nat) (l : List WriteItem) : List WriteItem :=
  let head := if served then 1 else 0
  l.take head ++ (l.drop head).filter fun item => !item.isLogAt idx

/-- The Engine hands a log entry to the Result Writer (R164): discarded while the log enable is clear; otherwise numbered,
timed and placed at the tail, in the place of an entry that still waits for the same index (R160). -/
def State.log (s : State) (i : Fin 32) (n : LogNote) : State :=
  if s.writer.logEnable then
    { s with writer := { s.writer with
        nextEntry := s.writer.nextEntry + 1
        list := withoutLogAt s.arbiter.servesItem (logIndex s.writer.nextEntry) s.writer.list
                  ++ [.logEntry (s.numbered i n)] } }
  else s

/-! ### Requests of the Engine to the Monitor (chapter 2, section 2.5) -/

/-- The Engine sends a request. -/
def State.send (s : State) (r : Request) : State := { s with requests := s.requests ++ [r] }

/-- A request no longer waits. -/
def State.dropRequest (s : State) (r : Request) : State := { s with requests := s.requests.erase r }

/-- The Engine sends a CLEAR_WTR request for a slot of shelf `i`, if one is due (R37, R135). -/
def State.sendClearWtr (s : State) (i : Fin 32) (slot : Option (Fin 8)) : State :=
  match slot with
  | some j => s.send (.clearWtr (flat i j))
  | none => s

/-- Whether a command is in hand for a shelf: taken, or its completion pending (R120). -/
def State.commandInHand (s : State) (i : Fin 32) : Bool :=
  s.shelves[i].taken.isSome || s.writer.list.any (WriteItem.isCompletionOf i)

end Sys2Proof.Machine
end

