-- ==== Sys2Proof/Machine/Quality.lean ====
section
/-! DEFINITION. Quality classes (chapter 1): the scale, received markings, offered and effective class, output class, barring. -/

namespace Sys2Proof.Machine

/-- The code of a class (chapter 8, value codes). -/
def Quality.code : Quality → Nat
  | .qc1 => 1
  | .qc2 => 2
  | .qc3 => 3
  | .qc4 => 4
  | .qc5 => 5
  | .qc6 => 6

/-- The class with a code; codes 0 and 7 to 15 are undefined (00_scope.md). -/
def Quality.ofCode (n : Nat) : Option Quality :=
  if n = 1 then some .qc1
  else if n = 2 then some .qc2
  else if n = 3 then some .qc3
  else if n = 4 then some .qc4
  else if n = 5 then some .qc5
  else if n = 6 then some .qc6
  else none

/-- Class a is better than class b (R1). -/
def Quality.betterThan (a b : Quality) : Bool := decide (a.code < b.code)

/-- Class a is no worse than class b (R1). -/
def Quality.noWorseThan (a b : Quality) : Bool := decide (a.code ≤ b.code)

/-- Class a is worse than class b (R1). -/
def Quality.worseThan (a b : Quality) : Bool := decide (b.code < a.code)

/-- The worse of two classes (R1). -/
def Quality.worseOf (a b : Quality) : Quality := if a.code ≤ b.code then b else a

/-- The better of two classes (R1). -/
def Quality.betterOf (a b : Quality) : Quality := if a.code ≤ b.code then a else b

/-- The received class that an observation's marking gives (R4). -/
def readMarking (present : Bool) (code : Nat) : Option Quality :=
  if present then some ((Quality.ofCode code).getD .qc5) else none

/-- Source shelf `b` is barred toward shelf `i` (R15), by the barring it last published. -/
def barredToward (b : Shelf) (i : Fin 32) : Bool := b.published.barring == .shelf i

/-- The class that source shelf `b` offers toward shelf `i` (R9). -/
def offeredClass (b : Shelf) (i : Fin 32) : Quality :=
  if barredToward b i then .qc6 else b.published.outputClass

/-- The effective class of a candidate of shelf `i` (R6 to R10), the source shelves read from `shelves`. -/
def effectiveClass (i : Fin 32) (shelves : Vector Shelf 32) (c : Candidate) : Quality :=
  if c.state = .off then .qc6
  else match c.config.kind with
    | .off => .qc6
    | .line => c.config.cap.worseOf (c.received.getD .qc5)
    | .station => c.config.cap
    | .satellite => match c.received with
      | some r => c.config.cap.worseOf r
      | none => c.config.cap
    | .peer b => c.config.cap.worseOf (offeredClass shelves[b] i)

/-- The output class of a shelf (R11); `selectedClass` is the judged effective class of the selected candidate. -/
def outputClass (st : ShelfState) (historyValid : Bool) (holdover selectedClass : Quality) : Quality :=
  match st with
  | .locked => selectedClass
  | .acquiring => if historyValid then holdover else .qc4
  | .holdover => holdover
  | .freeRun => .qc4
  | .disabled => .qc6

/-- The barring of a shelf (R14); `kind` is the kind of the selected candidate. -/
def barringOf (st : ShelfState) (selected : Option (Fin 8)) (kind : Fin 8 → Kind) : Barring :=
  match st, selected with
  | .acquiring, some j | .locked, some j =>
    match kind j with
    | .peer b => .shelf b
    | .off | .line | .station | .satellite => .slot j
  | _, _ => .none

/-- A class is below the floor of a shelf (R16). -/
def belowFloor (cls floor : Quality) : Bool := cls.worseThan floor

/-- A class is within the guard of a shelf (R17). -/
def withinGuard (cls guardClass : Quality) : Bool := cls.noWorseThan guardClass

end Sys2Proof.Machine
end

