-- ==== Sys2Proof/Machine/Operands.lean ====
section
/-! DEFINITION. The input records of the Exchange Memory: where they stand, how they are read (R140), when one is taken (R141),
how configuration is validated and clamped (R151 to R154). -/

namespace Sys2Proof.Machine

/-- The unsigned field of `len` bits of a word from bit `lo` (R140). -/
def field (w : Word) (lo len : Nat) : Nat := (w.extractLsb' lo len).toNat

/-- Bit `n` of a word (R140). -/
def bitAt (w : Word) (n : Nat) : Bool := w.getLsbD n

/-! ### Regions (R138) -/

/-- Word `n` of the global record. -/
def globalAddr (n : Nat) : BitVec 14 := wordAddr 0x0000 64 0 n

/-- Word `n` of the log control record. -/
def logControlAddr (n : Nat) : BitVec 14 := wordAddr 0x0040 64 0 n

/-- Word `n` of command slot `i`. -/
def slotAddr (i : Fin 32) (n : Nat) : BitVec 14 := wordAddr 0x0100 16 i n

/-- Word `n` of the report of shelf `i`. -/
def reportAddr (i : Fin 32) (n : Nat) : BitVec 14 := wordAddr 0x0300 16 i n

/-- Word `n` of the configuration of shelf `i`. -/
def shelfConfigAddr (i : Fin 32) (n : Nat) : BitVec 14 := wordAddr 0x0800 64 i n

/-- Word `n` of the configuration of the candidate at flat index `k`. -/
def candConfigAddr (k : Fin 256) (n : Nat) : BitVec 14 := wordAddr 0x1000 32 k n

/-- Word `n` of the observation of the candidate at flat index `k`. -/
def obsAddr (k : Fin 256) (n : Nat) : BitVec 14 := wordAddr 0x3000 32 k n

/-- Word `n` of the result of shelf `i`. -/
def shelfResultAddr (i : Fin 32) (n : Nat) : BitVec 14 := wordAddr 0x5000 64 i n

/-- Word `n` of the result of the candidate at flat index `k`. -/
def candResultAddr (k : Fin 256) (n : Nat) : BitVec 14 := wordAddr 0x5800 32 k n

/-- Word `n` of the switch log entry at a write index. -/
def logAddr (idx n : Nat) : BitVec 14 := wordAddr 0x7800 32 idx n

/-! ### Taking an input record (R141) -/

/-- A record is whole and was written: its sequence word is not 0 and equals its echo word (R139, R141). -/
def whole (seq echo : Word) : Bool := seq != 0 && seq == echo

/-- A record read in a sweep is taken (R141). -/
def takes (seq echo : Word) (last : Option Word) : Bool := whole seq echo && last != some seq

/-! ### Clamping -/

/-- A number clamped to a range. -/
def clamp (lo hi x : Nat) : Nat := max lo (min x hi)

/-- A class clamped to the range between two classes (R2). -/
def Quality.clampTo (q best worst : Quality) : Quality := best.worseOf (q.betterOf worst)

/-! ### The global record (R154) -/

/-- The global record as one transaction reads it. -/
structure GlobalRecord where
  seq : Word
  version : Nat
  shelfCount : Nat
  period : Nat
  logEnable : Bool
  echo : Word
deriving DecidableEq, Repr

/-- Reads the global record (chapter 8, record layouts). -/
def readGlobal (m : Memory) : GlobalRecord where
  seq := m.readWord (globalAddr 0)
  version := field (m.readWord (globalAddr 1)) 0 8
  shelfCount := field (m.readWord (globalAddr 2)) 0 8
  period := field (m.readWord (globalAddr 3)) 0 16
  logEnable := bitAt (m.readWord (globalAddr 4)) 0
  echo := m.readWord (globalAddr 15)

/-- The record is refused: a layout version other than 1, or a shelf count of 0 or above 32 (R154, R175). -/
def GlobalRecord.refused (r : GlobalRecord) : Bool :=
  r.version != 1 || r.shelfCount == 0 || decide (32 < r.shelfCount)

/-- The values of a record that is not refused, the period clamped (R154). -/
def GlobalRecord.values (r : GlobalRecord) : Globals where
  shelfCount := r.shelfCount
  period := clamp 10 1000 r.period
  logEnable := r.logEnable

/-- The outcome of a record (R154). -/
def GlobalRecord.outcome (r : GlobalRecord) : GlobalOutcome :=
  if r.refused then .rejected
  else if r.values.period = r.period then .applied else .appliedClamped

/-! ### Shelf configuration (R151) -/

/-- A shelf configuration record as one transaction reads it. -/
structure ShelfRecord where
  seq : Word
  enable : Bool
  policy : Nat
  guardCode : Nat
  floorCode : Nat
  holdoverCode : Nat
  holdOff : Nat
  exponent : Nat
  window : Nat
  threshold : Nat
  waitToRestore : Nat
  learningTime : Nat
  holdoverLimit : Nat
  acqTimeout : Nat
  echo : Word
deriving DecidableEq, Repr

/-- Reads a shelf configuration record (chapter 8, record layouts). -/
def readShelfConfig (m : Memory) (i : Fin 32) : ShelfRecord where
  seq := m.readWord (shelfConfigAddr i 0)
  enable := bitAt (m.readWord (shelfConfigAddr i 1)) 0
  policy := field (m.readWord (shelfConfigAddr i 1)) 8 4
  guardCode := field (m.readWord (shelfConfigAddr i 2)) 0 4
  floorCode := field (m.readWord (shelfConfigAddr i 2)) 8 4
  holdoverCode := field (m.readWord (shelfConfigAddr i 2)) 16 4
  holdOff := field (m.readWord (shelfConfigAddr i 3)) 0 16
  exponent := field (m.readWord (shelfConfigAddr i 4)) 0 8
  window := field (m.readWord (shelfConfigAddr i 5)) 0 8
  threshold := field (m.readWord (shelfConfigAddr i 5)) 8 8
  waitToRestore := field (m.readWord (shelfConfigAddr i 6)) 0 16
  learningTime := field (m.readWord (shelfConfigAddr i 7)) 0 16
  holdoverLimit := field (m.readWord (shelfConfigAddr i 8)) 0 16
  acqTimeout := field (m.readWord (shelfConfigAddr i 9)) 0 16
  echo := m.readWord (shelfConfigAddr i 15)

/-- The policy with a code; 3 to 15 are undefined. -/
def Policy.ofCode (n : Nat) : Option Policy :=
  if n = 0 then some .direct else if n = 1 then some .guarded else if n = 2 then some .fixed else none

/-- A shelf configuration record after both passes of validation (R151): refused with a cause, or the active
configuration it asks for and whether a field was clamped. -/
inductive ShelfVerdict where
  | refused (cause : RejectCause)
  | accepted (config : ShelfConfig) (clamped : Bool)
deriving DecidableEq, Repr

/-- Validates a shelf configuration record (R2, R151). -/
def ShelfRecord.validate (r : ShelfRecord) : ShelfVerdict :=
  match Quality.ofCode r.guardCode, Quality.ofCode r.floorCode, Quality.ofCode r.holdoverCode with
  | some g, some f, some h =>
    match Policy.ofCode r.policy with
    | none => .refused .badPolicy
    | some p =>
      let window := clamp 1 32 r.window
      let config : ShelfConfig := {
        enable := r.enable
        policy := p
        guardClass := g.clampTo .qc1 .qc5
        floorClass := f.clampTo .qc1 .qc5
        holdoverClass := h.clampTo .qc2 .qc4
        monitor := {
          window := window
          threshold := clamp 1 window r.threshold
          exponent := clamp 0 6 r.exponent
          holdOff := clamp 0 100 r.holdOff
          waitToRestore := clamp 0 1800 r.waitToRestore }
        learningTime := clamp 0 3600 r.learningTime
        holdoverLimit := clamp 1 1440 r.holdoverLimit
        acqTimeout := clamp 1 120 r.acqTimeout }
      .accepted config
        (config.guardClass != g || config.floorClass != f || config.holdoverClass != h
          || config.monitor.window != r.window || config.monitor.threshold != r.threshold
          || config.monitor.exponent != r.exponent || config.monitor.holdOff != r.holdOff
          || config.monitor.waitToRestore != r.waitToRestore || config.learningTime != r.learningTime
          || config.holdoverLimit != r.holdoverLimit || config.acqTimeout != r.acqTimeout)
  | _, _, _ => .refused .badClass

/-! ### Candidate configuration (R152) -/

/-- A candidate configuration record as one transaction reads it. -/
structure CandRecord where
  seq : Word
  kind : Nat
  priority : Nat
  capCode : Nat
  source : Nat
  frequency : Nat
  limit : Nat
  timeout : Nat
  echo : Word
deriving DecidableEq, Repr

/-- Reads a candidate configuration record (chapter 8, record layouts). -/
def readCandConfig (m : Memory) (k : Fin 256) : CandRecord where
  seq := m.readWord (candConfigAddr k 0)
  kind := field (m.readWord (candConfigAddr k 1)) 0 4
  priority := field (m.readWord (candConfigAddr k 1)) 8 4
  capCode := field (m.readWord (candConfigAddr k 1)) 16 4
  source := field (m.readWord (candConfigAddr k 1)) 24 8
  frequency := (m.readWord (candConfigAddr k 2)).toNat
  limit := (m.readWord (candConfigAddr k 3)).toNat
  timeout := field (m.readWord (candConfigAddr k 4)) 0 16
  echo := m.readWord (candConfigAddr k 7)

/-- A candidate configuration record after both passes of validation (R152). -/
inductive CandVerdict where
  | refused (cause : RejectCause)
  | accepted (config : CandConfig) (clamped : Bool)
deriving DecidableEq, Repr

/-- The kind a record of shelf `i` asks for (R3): BAD_KIND for an undefined code, BAD_SOURCE for a PEER source equal to
the candidate's own shelf or at or above 32. -/
def CandRecord.kindFor (r : CandRecord) (i : Fin 32) : Except RejectCause Kind :=
  if r.kind = 0 then .ok .off
  else if r.kind = 1 then .ok .line
  else if r.kind = 2 then .ok .station
  else if r.kind = 3 then .ok .satellite
  else if r.kind = 4 then
    if h : r.source < 32 then
      if r.source = i.val then .error .badSource else .ok (.peer ⟨r.source, h⟩)
    else .error .badSource
  else .error .badKind

/-- Validates a candidate configuration record of shelf `i`; the causes in the order of R152. -/
def CandRecord.validate (r : CandRecord) (i : Fin 32) : CandVerdict :=
  if 4 < r.kind then .refused .badKind
  else match Quality.ofCode r.capCode with
    | none => .refused .badClass
    | some cap =>
      match r.kindFor i with
      | .error cause => .refused cause
      | .ok kind =>
        if r.frequency < 1000 ∨ 200000000 < r.frequency then .refused .badFrequency
        else
          let config : CandConfig := {
            kind := kind
            priority := clamp 1 15 r.priority
            cap := cap
            frequency := r.frequency
            limit := clamp 1 1000000 r.limit
            timeout := clamp 100 60000 r.timeout }
          .accepted config
            (config.priority != r.priority || config.limit != r.limit || config.timeout != r.timeout)

/-! ### Shelf report (R71) -/

/-- A shelf report as one transaction reads it: locked, and to which slot. -/
structure Report where
  seq : Word
  locked : Bool
  slot : Option (Fin 8)
  echo : Word
deriving DecidableEq, Repr

/-- A slot number of 0 to 7, or none. -/
def slotOfNat (n : Nat) : Option (Fin 8) := if h : n < 8 then some ⟨n, h⟩ else none

/-- Reads a shelf report; a lock state other than 1 is NOT_LOCKED, a slot above 7 is none (R71). -/
def readReport (m : Memory) (i : Fin 32) : Report where
  seq := m.readWord (reportAddr i 0)
  locked := field (m.readWord (reportAddr i 1)) 0 8 == 1
  slot := slotOfNat (field (m.readWord (reportAddr i 2)) 0 8)
  echo := m.readWord (reportAddr i 3)

/-- A report is confirming: LOCKED to the selected slot (R71). -/
def Report.confirms (r : Report) (selected : Option (Fin 8)) : Bool :=
  r.locked && r.slot.isSome && r.slot == selected

/-! ### Observation (R21) -/

/-- An observation as one transaction reads it. -/
structure Observation where
  seq : Word
  fault : Bool
  classPresent : Bool
  classCode : Nat
  gate : Nat
  count : Nat
  echo : Word
deriving DecidableEq, Repr

/-- Reads an observation (chapter 8, record layouts). -/
def readObservation (m : Memory) (k : Fin 256) : Observation where
  seq := m.readWord (obsAddr k 0)
  fault := bitAt (m.readWord (obsAddr k 1)) 0
  classPresent := bitAt (m.readWord (obsAddr k 1)) 8
  classCode := field (m.readWord (obsAddr k 1)) 16 4
  gate := field (m.readWord (obsAddr k 2)) 0 5
  count := (m.readWord (obsAddr k 3)).toNat
  echo := m.readWord (obsAddr k 7)

/-! ### Command slot (R118) -/

/-- The states of a command slot's state word; undefined codes read as EMPTY (R118). -/
inductive SlotState where
  | empty | posted | taken | done
deriving DecidableEq, Repr

/-- The state word of slot `i` (R118). -/
def readSlotState (m : Memory) (i : Fin 32) : SlotState :=
  let n := field (m.readWord (slotAddr i 0)) 0 4
  if n = 1 then .posted else if n = 2 then .taken else if n = 3 then .done else .empty

/-- The command word of slot `i` (R119). -/
def readCommand (m : Memory) (i : Fin 32) : TakenCommand where
  code := field (m.readWord (slotAddr i 1)) 0 8
  arg := field (m.readWord (slotAddr i 1)) 8 8

end Sys2Proof.Machine
end

