-- ==== Sys2Proof/Machine/Monitor.lean ====
section
/-! DEFINITION. The Candidate Monitor (chapters 2 and 3): frequency arithmetic, the FREQ judgement, observation processing, the
candidate state machine, requests, configuration under way. -/

namespace Sys2Proof.Machine

/-! ### Frequency offset arithmetic (chapter 3) -/

/-- The integer nearest to `n / d`, ties away from zero (00_scope.md, Rounding; R48, R52). -/
def roundDiv (n : Int) (d : Nat) : Int :=
  if n < 0 then -(((2 * n.natAbs + d) / (2 * d) : Nat) : Int) else (((2 * n.natAbs + d) / (2 * d) : Nat) : Int)

/-- The expected count (R47). -/
def expectedCount (f gate : Nat) : Nat := f * gate

/-- An offset saturated to −1,000,000 to +1,000,000 ppb (R49). -/
def saturate (x : Int) : Int := max (-1000000) (min x 1000000)

/-- The raw offset of a measurement (R48, R49). -/
def rawOffset (count f gate : Nat) : Int :=
  saturate (roundDiv (((count : Int) - (expectedCount f gate : Int)) * 1000000000) (expectedCount f gate))

/-- The averaged offset after a raw offset (R51, R52). -/
def updateAverage (k : Nat) (average : Option Int) (raw : Int) : Int :=
  match average with
  | none => raw
  | some a => a + roundDiv (raw - a) (2 ^ k)

/-- The clearing bound of an acceptance limit (R55). -/
def clearingBound (limit : Nat) : Nat := limit - limit / 8

/-- The FREQ judgement (R55): FREQ after it, from the averaged offset, the limit and FREQ before it. -/
def judgeFreq (average : Option Int) (limit : Nat) (before : Bool) : Bool :=
  match average with
  | none => false
  | some a => if limit < a.natAbs then true else if a.natAbs ≤ clearingBound limit then false else before

/-- A gate that carries a measurement (R24, R46). -/
def usableGate (g : Nat) : Bool := decide (1 ≤ g) && decide (g ≤ 16)

/-! ### The candidate state machine (section 2.4) -/

/-- Whether a reason set is not empty. -/
def Reasons.any (r : Reasons) : Bool := r.signal || r.stale || r.freq

/-- The empty reason set. -/
def Reasons.empty : Reasons := ⟨false, false, false⟩

/-- An AVAILABLE candidate that shows a reason (R29). -/
def Candidate.suspectOrFail (p : MonitorParams) (now : Nat) (c : Candidate) : Candidate :=
  if p.holdOff = 0 then { c with state := .failed, stateDeadline := none }
  else { c with state := .suspect, stateDeadline := some (deadlineAt now (p.holdOff * 100)) }

/-- A candidate that has to serve wait-to-restore (R32, R35): RESTORING with a fresh WTR deadline, or AVAILABLE. -/
def Candidate.restore (p : MonitorParams) (now : Nat) (c : Candidate) : Candidate :=
  if p.waitToRestore = 0 then { c with state := .available, stateDeadline := none }
  else { c with state := .restoring, stateDeadline := some (deadlineAt now (p.waitToRestore * 1000)) }

/-- The transition due for the state a candidate holds and the reason set an event leaves (R25, R28 to R33). -/
def Candidate.transition (p : MonitorParams) (now : Nat) (c : Candidate) : Candidate :=
  match c.state, c.reasons.any with
  | .off, _ => c
  | .unknown, false => { c with state := .available }
  | .unknown, true => { c with state := .failed }
  | .available, false => c
  | .available, true => c.suspectOrFail p now
  | .suspect, false => { c with state := .available, stateDeadline := none }
  | .suspect, true => c
  | .failed, false => c.restore p now
  | .failed, true => c
  | .restoring, false => c
  | .restoring, true => { c with state := .failed, stateDeadline := none }

/-- The "fault" entries in a fault history (R19, R23). -/
def faultCount (h : List Bool) : Nat := h.countP id

/-- The newest `w` entries of a fault history (R23, R41). -/
def newest (w : Nat) (h : List Bool) : List Bool := h.drop (h.length - w)

/-! ### Observation processing (section 2.2) -/

/-- Step 3 of R21: the fault flag joins the history, and SIGNAL is recounted (R23). -/
def Candidate.noteFault (p : MonitorParams) (fault : Bool) (c : Candidate) : Candidate :=
  let h := newest p.window (c.history ++ [fault])
  { c with history := h, reasons := { c.reasons with signal := decide (p.threshold ≤ faultCount h) } }

/-- Step 5 of R21: the frequency measurement of a usable gate (R24, R46 to R56). -/
def Candidate.measure (p : MonitorParams) (o : Observation) (c : Candidate) : Candidate :=
  if usableGate o.gate then
    let raw := rawOffset o.count c.config.frequency o.gate
    let avg := updateAverage p.exponent c.average raw
    { c with
      lastRaw := some raw
      average := some avg
      reasons := { c.reasons with freq := judgeFreq (some avg) c.config.limit c.reasons.freq } }
  else c

/-- Steps 1 to 6 of R21 for a candidate that is not OFF. -/
def Candidate.observe (p : MonitorParams) (now : Nat) (o : Observation) (c : Candidate) : Candidate :=
  let c := { c with lastObs := some now, reportDeadline := some (deadlineAt now c.config.timeout) }
  let c := { c with reasons := { c.reasons with stale := false } }
  let c := c.noteFault p o.fault
  let c := { c with received := readMarking o.classPresent o.classCode }
  (c.measure p o).transition p now

/-! ### Events of one entry -/

/-- What a report deadline expiry leaves (R26), and whether STALE was added. -/
def Candidate.reportExpires (p : MonitorParams) (now : Nat) (c : Candidate) : Candidate × Bool :=
  let c := { c with reportDeadline := none }
  if c.state = .off || c.reasons.stale then (c, false)
  else ({ c with reasons := { c.reasons with stale := true } }.transition p now, true)

/-- A SUSPECT candidate whose hold-off runs out (R31). -/
def Candidate.holdOffExpires (c : Candidate) : Candidate := { c with state := .failed, stateDeadline := none }

/-- A RESTORING candidate whose wait-to-restore runs out or is cleared (R34, R37). -/
def Candidate.restored (c : Candidate) : Candidate := { c with state := .available, stateDeadline := none }

/-- An acquisition failure or lock-lost request (R35, R36): what it leaves, or none when it is dropped. -/
def Candidate.condemn (p : MonitorParams) (now : Nat) (c : Candidate) : Option Candidate :=
  match c.state with
  | .available | .restoring => some (c.restore p now)
  | .suspect => some { c with state := .failed, stateDeadline := none }
  | .off | .unknown | .failed => none

/-- The monitoring state emptied, as R38 and R42 give, with the deadlines absent and the state given. -/
def Candidate.cleared (st : CandState) (c : Candidate) : Candidate :=
  { c with
    state := st
    reasons := .empty
    history := []
    received := none
    average := none
    lastRaw := none
    lastObs := none
    reportDeadline := none
    stateDeadline := none }

/-- A candidate set to OFF as its shelf is disabled (R42). -/
def Candidate.switchOff (c : Candidate) : Candidate := c.cleared .off

/-- A candidate that enters UNKNOWN (R38, R42). -/
def Candidate.enterUnknown (now : Nat) (c : Candidate) : Candidate :=
  { c.cleared .unknown with reportDeadline := some (deadlineAt now c.config.timeout) }

/-- An applied candidate configuration record (R38, R39, R57). `enabled` says whether the shelf is not DISABLED. -/
def Candidate.configure (enabled : Bool) (p : MonitorParams) (now : Nat) (cfg : CandConfig) (out : CfgOutcome)
    (c : Candidate) : Candidate :=
  let c' := { c with config := cfg, outcome := out }
  if !enabled then c'
  else if cfg.kind ≠ c.config.kind ∨ cfg.frequency ≠ c.config.frequency then
    if cfg.kind = .off then c'.cleared .off else c'.enterUnknown now
  else if cfg.limit ≠ c.config.limit then
    let freq := judgeFreq c.average cfg.limit c.reasons.freq
    if freq = c.reasons.freq then c'
    else { c' with reasons := { c.reasons with freq := freq } }.transition p now
  else c'

/-- The effect of a new parameter set on a candidate that is not OFF, before its transition (R41): the history cut to
the new window, SIGNAL recounted when W or E has changed. -/
def Candidate.recount (old new : MonitorParams) (c : Candidate) : Candidate :=
  let h := newest new.window c.history
  if new.window ≠ old.window ∨ new.threshold ≠ old.threshold then
    { c with history := h, reasons := { c.reasons with signal := decide (new.threshold ≤ faultCount h) } }
  else c

/-- The effect of a new parameter set on a candidate that is not OFF (R41, R28). -/
def Candidate.reparam (old new : MonitorParams) (now : Nat) (c : Candidate) : Candidate :=
  let c' := c.recount old new
  if c'.reasons = c.reasons then c' else c'.transition new now

/-! ### Events at the Candidate Table -/

/-- Has a candidate's result published (R43). -/
def State.publishCand (s : State) (k : Fin 256) : State := s.ask (.candResult k)

/-- A changed candidate: its entry, its publication and its shelf's place in the queue. -/
def State.candEvent (s : State) (k : Fin 256) (c : Candidate) : State :=
  ((s.setCand k c).publishCand k).place (shelfOf k)

/-- The Monitor takes an observation (R21). -/
def State.observation (s : State) (k : Fin 256) (o : Observation) : State :=
  if s.cands[k].state = .off then s
  else s.candEvent k (s.cands[k].observe s.params[shelfOf k] s.clock o)

/-- The Monitor takes the expiry of a report deadline (R26). -/
def State.reportExpiry (s : State) (k : Fin 256) : State :=
  if (s.cands[k].reportExpires s.params[shelfOf k] s.clock).2 then
    s.candEvent k (s.cands[k].reportExpires s.params[shelfOf k] s.clock).1
  else s.setCand k (s.cands[k].reportExpires s.params[shelfOf k] s.clock).1

/-- The Monitor takes an acquisition failure or lock-lost request (R35, R36). -/
def State.condemnCand (s : State) (k : Fin 256) : State :=
  match s.cands[k].condemn s.params[shelfOf k] s.clock with
  | some c => s.candEvent k c
  | none => s

/-- The Monitor takes a CLEAR_WTR request (R37). -/
def State.clearWtr (s : State) (k : Fin 256) : State :=
  if s.cands[k].state = .restoring then s.candEvent k s.cands[k].restored else s

/-- The Monitor acts on a request of the Engine (R35 to R37). -/
def State.actOn (s : State) (r : Request) : State :=
  match r with
  | .acqFailure k => s.condemnCand k
  | .lockLost k => s.condemnCand k
  | .clearWtr k => s.clearWtr k

/-- The Monitor takes one request that the Engine has sent, and acts on it. -/
def State.takeRequest (s : State) (r : Request) : State := (s.dropRequest r).actOn r

/-- The Monitor takes every request that waits, in the order in which they were sent (that order: log entry 29, DESIGN CHOICE). -/
def State.takeRequests (s : State) : State := s.requests.foldl State.takeRequest s

/-- The Monitor takes an applied candidate configuration record (R38, R39). -/
def State.candConfigured (s : State) (k : Fin 256) (cfg : CandConfig) (out : CfgOutcome) : State :=
  s.candEvent k (s.cands[k].configure s.shelves[shelfOf k].enabled s.params[shelfOf k] s.clock cfg out)

/-- The Monitor takes a refused candidate configuration record (R40). -/
def State.candRefused (s : State) (k : Fin 256) (cause : RejectCause) : State :=
  s.candEvent k { s.cands[k] with outcome := .rejected cause }

/-- One candidate under a new parameter set (R41): queued when its reasons change, published when they or its fault
count change. -/
def State.reparamCand (old new : MonitorParams) (s : State) (k : Fin 256) : State :=
  let c := s.cands[k]
  let c' := c.reparam old new s.clock
  if c.state = .off then s
  else if c'.reasons ≠ c.reasons then s.candEvent k c'
  else if faultCount c'.history ≠ faultCount c.history then (s.setCand k c').publishCand k
  else s.setCand k c'

/-- The eight candidates of a shelf in ascending slot, the order in which one shelf event asks for their results: the spec gives
none (R41, R42; log entry 14, DESIGN CHOICE). -/
def candsOf (i : Fin 32) : List (Fin 256) := (List.finRange 8).map (flat i)

/-- The Monitor replaces a shelf's parameter set (R20, R41). -/
def State.setMonitoring (s : State) (i : Fin 32) (p : MonitorParams) : State :=
  (candsOf i).foldl (State.reparamCand s.params[i] p) (s.setParams i p)

/-- A candidate of a shelf that becomes DISABLED (R42). -/
def State.offCand (s : State) (k : Fin 256) : State :=
  if s.cands[k].state = .off then s else (s.setCand k s.cands[k].switchOff).publishCand k

/-- The Monitor sets the candidates of a disabled shelf to OFF (R42). -/
def State.candsOff (s : State) (i : Fin 32) : State := (candsOf i).foldl State.offCand s

/-- A candidate of a shelf that passes from DISABLED to enabled (R42). -/
def State.wakeCand (s : State) (k : Fin 256) : State :=
  if s.cands[k].config.kind = .off then s else (s.setCand k (s.cands[k].enterUnknown s.clock)).publishCand k

/-- The Monitor brings the configured candidates of an enabled shelf to UNKNOWN (R42). -/
def State.candsUnknown (s : State) (i : Fin 32) : State := (candsOf i).foldl State.wakeCand s

/-- Step 2 of STARTING: the report deadline of every candidate that is not OFF is set anew (R44). -/
def State.rebase (s : State) : State :=
  { s with cands := s.cands.map (fun c =>
      if c.state = .off then c else { c with reportDeadline := some (deadlineAt s.clock c.config.timeout) }) }

end Sys2Proof.Machine
end

