-- ==== Sys2Proof/Machine/Evaluation.lean ====
section
/-! DEFINITION. One evaluation of the Selection Engine (chapter 5) with the live walk (chapter 6) and the commands (chapter 7). -/

namespace Sys2Proof.Machine

/-! ### The live walk (section 6.2) -/

/-- The live walk from a shelf on behalf of shelf `i` (R103): the shelves met, the first one first, and whether the walk has
found `i`. It holds at most as many shelves as the fuel (R102, R103: at most 32; log entry 21). -/
def walk (shelves : Vector Shelf 32) (i : Fin 32) : Nat → Fin 32 → List (Fin 32) × Bool
  | 0, _ => ([], false)
  | fuel + 1, b =>
    if b = i then ([b], true)
    else match shelves[b].followed with
      | none => ([b], false)
      | some c => (b :: (walk shelves i fuel c).1, (walk shelves i fuel c).2)

/-- The live walk from a source shelf (R103). -/
def liveWalk (shelves : Vector Shelf 32) (i b : Fin 32) : List (Fin 32) × Bool := walk shelves i 32 b

/-! ### Eligibility (section 5.2) -/

/-- What the judgements of one evaluation read: the shelf, its floor and lockout set, its candidates, the other shelves and
the shelf count (R82). -/
structure EvalCtx where
  shelf : Fin 32
  floorClass : Quality
  lockout : Vector Bool 8
  cands : Vector Candidate 8
  shelves : Vector Shelf 32
  shelfCount : Nat

/-- The judged effective class of a slot (R10). -/
def EvalCtx.cls (x : EvalCtx) (j : Fin 8) : Quality := effectiveClass x.shelf x.shelves x.cands[j]

/-- The live walk from the source of a slot that is PEER; none for the other kinds. -/
def EvalCtx.walkOf (x : EvalCtx) (j : Fin 8) : Option (List (Fin 32) × Bool) :=
  match x.cands[j].config.kind with
  | .peer b => some (liveWalk x.shelves x.shelf b)
  | .off | .line | .station | .satellite => none

/-- Check 7 of R84: the source shelf is DISABLED or at or above the shelf count. -/
def EvalCtx.sourceOff (x : EvalCtx) (j : Fin 8) : Bool :=
  match x.cands[j].config.kind with
  | .peer b => !x.shelves[b].enabled || decide (x.shelfCount ≤ b.val)
  | .off | .line | .station | .satellite => false

/-- Check 8 of R84: the live walk has found the shelf (R104). -/
def EvalCtx.loops (x : EvalCtx) (j : Fin 8) : Bool :=
  match x.walkOf j with
  | some w => w.2
  | none => false

/-- Check 9 of R84: the live walk with the shelf added exceeds 8 shelves (R105). -/
def EvalCtx.tooDeep (x : EvalCtx) (j : Fin 8) : Bool :=
  match x.walkOf j with
  | some w => decide (8 < w.1.length + 1)
  | none => false

/-- The code of the first check that fails, in order; ELIGIBLE when none does (R84). -/
def firstFailing : List (Bool × EligCode) → EligCode
  | [] => .eligible
  | (fails, code) :: rest => if fails then code else firstFailing rest

/-- Checks 7 to 9 of R84, which concern PEER candidates. -/
def EvalCtx.peerChecks (x : EvalCtx) (j : Fin 8) : List (Bool × EligCode) :=
  [(x.sourceOff j, .sourceOff), (x.loops j, .loop), (x.tooDeep j, .tooDeep)]

/-- The new judgement of a slot (R84, R85). -/
def EvalCtx.newCode (x : EvalCtx) (j : Fin 8) : EligCode :=
  let c := x.cands[j]
  firstFailing ([(c.state == .off, .off), (x.lockout[j], .lockedOut),
    (c.state == .unknown || c.state == .failed || c.state == .restoring, .notReady), (c.state == .suspect, .holdingOff),
    (x.cls j == .qc6, .barred), (belowFloor (x.cls j) x.floorClass, .belowFloor)] ++ x.peerChecks j)

/-- The remain judgement of a slot: the same checks without check 4 (R85). -/
def EvalCtx.remainCode (x : EvalCtx) (j : Fin 8) : EligCode :=
  let c := x.cands[j]
  firstFailing ([(c.state == .off, .off), (x.lockout[j], .lockedOut),
    (c.state == .unknown || c.state == .failed || c.state == .restoring, .notReady),
    (x.cls j == .qc6, .barred), (belowFloor (x.cls j) x.floorClass, .belowFloor)] ++ x.peerChecks j)

/-- The forced judgement of a slot (R86). -/
def EvalCtx.forcedCode (x : EvalCtx) (j : Fin 8) : EligCode :=
  let c := x.cands[j]
  firstFailing ([(c.state == .off, .off), (x.lockout[j], .lockedOut),
    (c.state == .unknown || c.reasons.signal || c.reasons.stale, .notReady)] ++ x.peerChecks j)

/-- A slot is new-eligible (R85). -/
def EvalCtx.newEligible (x : EvalCtx) (j : Fin 8) : Bool := x.newCode j == .eligible

/-- A slot is remain-eligible (R85). -/
def EvalCtx.remainEligible (x : EvalCtx) (j : Fin 8) : Bool := x.remainCode j == .eligible

/-! ### The ranking key (R88) -/

/-- The path length part of a slot's key (R88, R106): 9 for a PEER candidate that no check has walked. -/
def EvalCtx.pathLength (x : EvalCtx) (j : Fin 8) : Nat :=
  match x.walkOf j with
  | none => 1
  | some w =>
    if x.remainCode j = .eligible ∨ x.remainCode j = .loop ∨ x.remainCode j = .tooDeep then w.1.length + 1 else 9

/-- Slot `a` ranks above slot `b`: its key is smaller at the first part in which they differ (R88). -/
def EvalCtx.ranksAbove (x : EvalCtx) (a b : Fin 8) : Bool :=
  if (x.cls a).code ≠ (x.cls b).code then decide ((x.cls a).code < (x.cls b).code)
  else if x.cands[a].config.priority ≠ x.cands[b].config.priority then
    decide (x.cands[a].config.priority < x.cands[b].config.priority)
  else if x.pathLength a ≠ x.pathLength b then decide (x.pathLength a < x.pathLength b)
  else decide (a < b)

/-- The higher-ranked of a candidate found so far and a new-eligible slot. -/
def EvalCtx.better (x : EvalCtx) (found : Option (Fin 8)) (j : Fin 8) : Option (Fin 8) :=
  if x.newEligible j then
    match found with
    | none => some j
    | some b => if x.ranksAbove j b then some j else some b
  else found

/-- The best candidate: the new-eligible slot with the smallest key, or none (R88). -/
def EvalCtx.best (x : EvalCtx) : Option (Fin 8) := (List.finRange 8).foldl x.better none

/-! ### Stage 1: the taken command (chapter 7) -/

/-- The commands (R124). -/
inductive Command where
  | manual | forced | hold | clear | lockout | unlock | clearWtr
deriving DecidableEq, Repr

/-- The command with a code; the others are undefined (R124). -/
def Command.ofCode (n : Nat) : Option Command :=
  if n = 1 then some .manual
  else if n = 2 then some .forced
  else if n = 3 then some .hold
  else if n = 4 then some .clear
  else if n = 5 then some .lockout
  else if n = 6 then some .unlock
  else if n = 7 then some .clearWtr
  else none

/-- What stage 1 leaves: the mode, the lockout set, the candidates, the outcome (none without a command) and the slot for
which a CLEAR_WTR request is sent (R83). -/
structure Stage1 where
  mode : Mode
  lockout : Vector Bool 8
  cands : Vector Candidate 8
  outcome : Option CmdOutcome
  request : Option (Fin 8)

/-- The context of the judgements of shelf `sh` with the inputs of an evaluation. -/
def EvalInputs.ctx (e : EvalInputs) (sh : Shelf) (lockout : Vector Bool 8) (cands : Vector Candidate 8) : EvalCtx where
  shelf := e.shelf
  floorClass := sh.config.floorClass
  lockout := lockout
  cands := cands
  shelves := e.shelves
  shelfCount := e.shelfCount

/-- Stage 1 with nothing changed and an outcome. -/
def Stage1.unchanged (e : EvalInputs) (sh : Shelf) (o : Option CmdOutcome) : Stage1 where
  mode := sh.mode
  lockout := sh.lockout
  cands := e.cands
  outcome := o
  request := none

/-- MANUAL(k) (R127). -/
def applyManual (e : EvalInputs) (sh : Shelf) (k : Fin 8) : Stage1 :=
  let u := Stage1.unchanged e sh
  match sh.mode with
  | .forced _ | .hold => u (some .overridden)
  | .auto | .manual _ =>
    if sh.lockout[k] then u (some .lockedOut)
    else if (e.ctx sh sh.lockout e.cands).newEligible k then { u (some .accepted) with mode := .manual k }
    else u (some .ineligible)

/-- FORCED(k) (R128). -/
def applyForced (e : EvalInputs) (sh : Shelf) (k : Fin 8) : Stage1 :=
  let u := Stage1.unchanged e sh
  if sh.lockout[k] then u (some .lockedOut)
  else if e.cands[k].state = .off then u (some .ineligible)
  else { u (some .accepted) with mode := .forced k }

/-- HOLD (R129). -/
def applyHold (e : EvalInputs) (sh : Shelf) : Stage1 := { Stage1.unchanged e sh (some .accepted) with mode := .hold }

/-- CLEAR (R130). -/
def applyClear (e : EvalInputs) (sh : Shelf) : Stage1 := { Stage1.unchanged e sh (some .accepted) with mode := .auto }

/-- LOCKOUT(k) (R133). -/
def applyLockout (e : EvalInputs) (sh : Shelf) (k : Fin 8) : Stage1 :=
  let u := Stage1.unchanged e sh
  if sh.mode = .forced k then u (some .inUse)
  else { u (some .accepted) with
    lockout := sh.lockout.set k true
    mode := if sh.mode = .manual k then .auto else sh.mode }

/-- UNLOCK(k) (R134). -/
def applyUnlock (e : EvalInputs) (sh : Shelf) (k : Fin 8) : Stage1 :=
  let u := Stage1.unchanged e sh
  if sh.lockout[k] then { u (some .accepted) with lockout := sh.lockout.set k false } else u (some .notApplicable)

/-- CLEAR_WTR(k) (R135): the slot is taken as AVAILABLE with no reasons in this evaluation (R83). -/
def applyClearWtr (e : EvalInputs) (sh : Shelf) (k : Fin 8) : Stage1 :=
  let u := Stage1.unchanged e sh
  if e.cands[k].state = .restoring then
    { u (some .accepted) with
      cands := e.cands.set k { e.cands[k] with state := .available, reasons := .empty }
      request := some k }
  else u (some .notApplicable)

/-- A command that takes a slot argument: BAD_SLOT above 7 (R124, check 3). -/
def withSlot (e : EvalInputs) (sh : Shelf) (arg : Nat) (f : Fin 8 → Stage1) : Stage1 :=
  if h : arg < 8 then f ⟨arg, h⟩ else Stage1.unchanged e sh (some .badSlot)

/-- Stage 1 of an evaluation (R83, R124). -/
def stage1 (e : EvalInputs) (sh : Shelf) : Stage1 :=
  match e.taken with
  | none => Stage1.unchanged e sh none
  | some cmd =>
    if !sh.enabled then Stage1.unchanged e sh (some .shelfOff)
    else match Command.ofCode cmd.code with
      | none => Stage1.unchanged e sh (some .badCommand)
      | some .manual => withSlot e sh cmd.arg (applyManual e sh)
      | some .forced => withSlot e sh cmd.arg (applyForced e sh)
      | some .hold => applyHold e sh
      | some .clear => applyClear e sh
      | some .lockout => withSlot e sh cmd.arg (applyLockout e sh)
      | some .unlock => withSlot e sh cmd.arg (applyUnlock e sh)
      | some .clearWtr => withSlot e sh cmd.arg (applyClearWtr e sh)

/-! ### Stage 3: the target (sections 5.4 and 5.5) -/

/-- The target under a policy, from cur and best (R92 to R95). -/
def EvalCtx.policyTarget (x : EvalCtx) (p : Policy) (guardClass : Quality) (cur : Option (Fin 8)) : Option (Fin 8) :=
  match p, cur, x.best with
  | .direct, none, best => best
  | .direct, some c, none => some c
  | .direct, some c, some b => if x.ranksAbove b c then some b else some c
  | .guarded, none, best => best
  | .guarded, some c, best =>
    if withinGuard (x.cls c) guardClass then some c
    else if (List.finRange 8).any (fun j => x.newEligible j && (x.cls j).betterThan (x.cls c)) then best
    else some c
  | .fixed, cur, _ => cur

/-- What stage 3 decides: the target, the mode it leaves, and whether a manual choice was dropped (R89 to R92). -/
structure Decision where
  target : Option (Fin 8)
  mode : Mode
  dropped : Bool

/-- The selection that can remain, cur (R92). -/
def EvalCtx.cur (x : EvalCtx) (selected : Option (Fin 8)) : Option (Fin 8) :=
  match selected with
  | some c => if x.remainEligible c then some c else none
  | none => none

/-- Stage 3 for an enabled shelf (R89 to R95). -/
def EvalCtx.chooseTarget (x : EvalCtx) (cfg : ShelfConfig) (mode : Mode) (selected : Option (Fin 8)) : Decision :=
  match mode with
  | .hold => { target := none, mode := mode, dropped := false }
  | .forced k => { target := if x.forcedCode k = .eligible then some k else none, mode := mode, dropped := false }
  | .manual k =>
    if x.remainEligible k then { target := some k, mode := mode, dropped := false }
    else { target := x.policyTarget cfg.policy cfg.guardClass (x.cur selected), mode := .auto, dropped := true }
  | .auto => { target := x.policyTarget cfg.policy cfg.guardClass (x.cur selected), mode := mode, dropped := false }

/-- Stage 3 of any shelf: a DISABLED shelf has no target (R99). -/
def EvalCtx.stage3 (x : EvalCtx) (sh : Shelf) (mode : Mode) : Decision :=
  if sh.enabled then x.chooseTarget sh.config mode sh.selected else { target := none, mode := mode, dropped := false }

/-! ### Stage 4: the state machine (section 4.4) -/

/-- A shelf's acquisition has lapsed (R64). -/
def Shelf.lapsed (sh : Shelf) : Bool := sh.state == .acquiring && sh.acqDeadline.isNone

/-- A target slot is new (section 4.4). -/
def Shelf.isNew (sh : Shelf) (k : Fin 8) : Bool := sh.selected != some k || sh.lapsed

/-- The change reason of an evaluation that moves the shelf (R79); the disjunction of its third case read as it stands (log
entry 22). -/
def EvalCtx.reason (x : EvalCtx) (sh : Shelf) (mode : Mode) (accepted dropped : Bool) : ChangeReason :=
  if accepted then .command
  else match sh.pendingReason with
    | some r => r
    | none =>
      let unfit := match sh.selected with
        | some c => !x.remainEligible c || (match mode with
            | .forced _ => x.forcedCode c != .eligible
            | .auto | .manual _ | .hold => false)
        | none => false
      if unfit || dropped then .failure else .policy

/-- The source a new selection follows: the source shelf of a PEER candidate (R101). -/
def sourceOf (k : Kind) : Option (Fin 32) :=
  match k with
  | .peer b => some b
  | .off | .line | .station | .satellite => none

/-- The move to ACQUIRING on a new target (R68, R101). -/
def Shelf.acquire (now : Nat) (reason : ChangeReason) (kind : Kind) (k : Fin 8) (sh : Shelf) : Shelf :=
  { sh with
    selected := some k
    state := .acquiring
    acqDeadline := some (deadlineAt now (sh.config.acqTimeout * 1000))
    learnDeadline := none
    holdDeadline := none
    switchCount := min (sh.switchCount + 1) 65535
    lastReason := reason
    lastTime := now
    followed := sourceOf kind }

/-- The move out of ACQUIRING or LOCKED with no target (R69, R101). -/
def Shelf.leave (now : Nat) (reason : ChangeReason) (sh : Shelf) : Shelf :=
  let sh' := { sh with
    selected := none
    acqDeadline := none
    learnDeadline := none
    lastReason := reason
    lastTime := now
    followed := none }
  if sh.historyValid then
    { sh' with state := .holdover, holdDeadline := some (deadlineAt now (sh.config.holdoverLimit * 60000)) }
  else { sh' with state := .freeRun }

/-- What stage 4 does to the shelf, and the kind and slots of its log entry (R68 to R70). A target equal to the selection changes
nothing, also where the candidate was reinitialised and an observation has made it AVAILABLE again (R101; log entry 28). -/
def Shelf.applyTarget (now : Nat) (reason : ChangeReason) (kind : Fin 8 → Kind) (target : Option (Fin 8)) (sh : Shelf) :
    Shelf × Option (LogKind × Option (Fin 8) × Option (Fin 8)) :=
  match target with
  | some k =>
    if sh.isNew k then (sh.acquire now reason (kind k) k, some (.select, sh.selected, some k)) else (sh, none)
  | none =>
    match sh.state with
    | .acquiring | .locked =>
      (sh.leave now reason, some (if sh.historyValid then .holdover else .freeRun, sh.selected, none))
    | .holdover | .freeRun | .disabled => (sh, none)

/-! ### Stage 5: output class, barring and path -/

/-- The live path of a shelf (R107). -/
def EvalCtx.livePath (x : EvalCtx) (st : ShelfState) (selected : Option (Fin 8)) : List (Fin 32) :=
  match st, selected with
  | .acquiring, some j | .locked, some j =>
    match x.walkOf j with
    | some w => w.1.reverse ++ [x.shelf]
    | none => [x.shelf]
  | _, _ => [x.shelf]

/-- The values that a shelf's result shows (R97), with the output class, barring and path of stage 5. -/
def Shelf.toPublish (sh : Shelf) (cls : Quality) (bar : Barring) (path : List (Fin 32)) : Published where
  state := sh.state
  mode := sh.mode
  selected := sh.selected
  outputClass := cls
  barring := bar
  path := path
  historyValid := sh.historyValid
  holdoverExpired := sh.holdoverExpired
  switchCount := sh.switchCount
  lastReason := sh.lastReason
  lastTime := sh.lastTime
  outcome := sh.outcome
  outcomeSeq := sh.outcomeSeq

/-! ### Stages 6 and 7 -/

/-- A candidate of shelf `d` makes it a dependent of shelf `b`: not OFF, PEER, with source `b` (R100). -/
def dependsBy (b : Fin 32) (c : Candidate) : Bool := c.state != .off && c.config.kind == .peer b

/-- The dependents of shelf `b`, in ascending shelf number (R100, R110). -/
def State.dependents (s : State) (b : Fin 32) : List (Fin 32) :=
  (List.finRange 32).filter (fun d => d != b && (List.finRange 8).any (fun j => dependsBy b s.cands[flat d j]))

/-- A change that queues the dependents (R97 step 4, R110). -/
def Published.movesDependents (old new : Published) : Bool :=
  old.state != new.state || old.outputClass != new.outputClass || old.barring != new.barring || old.path != new.path

/-- The judgement kept for a slot (R87): the code of its new judgement, or of its forced judgement for the forced slot. -/
def EvalCtx.judgement (x : EvalCtx) (mode : Mode) (j : Fin 8) : Judgement where
  cls := x.cls j
  code := if mode = .forced j then x.forcedCode j else x.newCode j
  lockedOut := x.lockout[j]

/-- What the stages of one evaluation work out before anything is handed over. -/
structure EvalResult where
  shelf : Shelf
  judged : Fin 8 → Judgement
  published : Published
  note : Option LogNote
  outcome : Option CmdOutcome

/-- Stages 1 to 5 of an evaluation (R96, R99) for the shelf's entry `sh`. -/
def EvalInputs.run (e : EvalInputs) (sh : Shelf) : EvalResult :=
  let st := stage1 e sh
  let x := e.ctx sh st.lockout st.cands
  let d := x.stage3 sh st.mode
  let kind := fun j : Fin 8 => st.cands[j].config.kind
  let reason := x.reason sh st.mode (st.outcome == some .accepted) d.dropped
  let r := Shelf.applyTarget e.time reason kind d.target { sh with mode := d.mode, lockout := st.lockout }
  let cls := outputClass r.1.state r.1.historyValid r.1.config.holdoverClass
    (match r.1.selected with
     | some j => x.cls j
     | none => .qc6)
  let pub := r.1.toPublish cls (barringOf r.1.state r.1.selected kind) (x.livePath r.1.state r.1.selected)
  { shelf := { r.1 with published := pub, pendingReason := none }
    judged := x.judgement st.mode
    published := pub
    note := match r.2 with
      | some (k, previous, new) => some { kind := k, previous := previous, new := new, cls := cls, reason := r.1.lastReason }
      | none => none
    outcome := st.outcome }

/-- The slots whose judgement an evaluation changed (R87), in ascending slot (that order: log entry 14). -/
def changedSlots (judged : Vector Judgement 256) (i : Fin 32) (new : Fin 8 → Judgement) : List (Fin 8) :=
  (List.finRange 8).filter (fun j => judged[flat i j] != new j)

/-- The kept judgements after stage 2 of an evaluation of shelf `i` (R87). -/
def keepJudged (judged : Vector Judgement 256) (i : Fin 32) (new : Fin 8 → Judgement) : Vector Judgement 256 :=
  judged.mapIdx (fun k old => if k / 8 = i.val then new ⟨k % 8, by omega⟩ else old)

/-- The shelf entry after stage 7: a command applied at stage 1 is no longer taken (R98). -/
def EvalResult.finalShelf (r : EvalResult) : Shelf :=
  match r.outcome with
  | some _ => { r.shelf with taken := none }
  | none => r.shelf

/-- Stage 6, steps 1 and 2: asks for the changed candidate results, then for the shelf result when a compared field has
changed (R97). The order of the requests of step 1 is ascending slot, where the spec gives none (log entry 14, DESIGN CHOICE). -/
def State.askResults (s : State) (i : Fin 32) (slots : List (Fin 8)) (changed : Bool) : State :=
  let s := s.askAll (slots.map (fun j => .candResult (flat i j)))
  if changed then s.ask (.shelfResult i) else s

/-- The evaluation in progress runs to its end (R82 to R99, R110); the request of its stage 1 was sent at its start. -/
def State.endEvaluation (s : State) (e : EvalInputs) : State :=
  let old := s.shelves[e.shelf].published
  let r := e.run s.shelves[e.shelf]
  let slots := changedSlots s.judged e.shelf r.judged
  let s1 := { s with evaluating := none, judged := keepJudged s.judged e.shelf r.judged }
  let s3 := (s1.setShelf e.shelf r.finalShelf).askResults e.shelf slots (r.published != old)
  let s4 := match r.note with
    | some n => s3.log e.shelf n
    | none => s3
  let s5 := if Published.movesDependents old r.published then s4.placeAll (s4.dependents e.shelf) else s4
  match r.outcome with
  | some o => s5.complete e.shelf o
  | none => s5

/-- The inputs of an evaluation of shelf `i` as they stand (R82). -/
def State.evalInputs (s : State) (i : Fin 32) : EvalInputs where
  shelf := i
  time := s.clock
  taken := s.shelves[i].taken
  cands := .ofFn (fun j => s.cands[flat i j])
  shelves := s.shelves
  shelfCount := s.intake.applied.shelfCount

/-- Evaluations begin while the engine is STARTING or RUNNING (R82, R117). -/
def EngineState.evaluates : EngineState → Bool
  | .running => true
  | .starting _ => true
  | .halted => false
  | .stopping => false

/-- An evaluation of shelf `i` begins with the reading of its inputs, and its command stage sends the CLEAR_WTR request, which the
Monitor may take before the evaluation ends (R37, R82, R135). -/
def State.beginEvaluation (s : State) (i : Fin 32) : State :=
  ({ s with evaluating := some (s.evalInputs i) } : State).sendClearWtr i (stage1 (s.evalInputs i) s.shelves[i]).request

/-- The Engine takes the shelf at the head of the queue and begins its evaluation (R82, R115): nothing when an evaluation is in
progress, the queue is empty or the engine state allows none. -/
def State.takeShelf (s : State) : State :=
  match s.queue, s.evaluating with
  | i :: rest, none => if s.engine.evaluates then { s with queue := rest }.beginEvaluation i else s
  | _, _ => s

/-- An event for a shelf that is under evaluation is taken after the evaluation has ended (R63): the evaluation runs to its end
first (log entry 10). -/
def State.settle (s : State) (i : Fin 32) : State :=
  match s.evaluating with
  | some e => if e.shelf = i then s.endEvaluation e else s
  | none => s

end Sys2Proof.Machine
end

