-- ==== Sys2Proof/Machine/ShelfEvents.lean ====
section
/-! DEFINITION. The events of a shelf outside an evaluation (chapter 4): enable, disable, configuration, reports, the three
deadlines. Each first lets an evaluation of the same shelf end (R63), and places the shelf in the queue. -/

namespace Sys2Proof.Machine

/-! ### Enable, disable, configuration (section 4.3) -/

/-- The entry of a shelf that passes from DISABLED to enabled (R65). -/
def Shelf.enableAt (now : Nat) (sh : Shelf) : Shelf :=
  { sh with
    state := .freeRun
    historyValid := false
    holdoverExpired := false
    mode := .auto
    lockout := .replicate 8 false
    pendingReason := none
    lastReason := .start
    lastTime := now }

/-- The entry of an enabled shelf that becomes DISABLED (R67, R101). -/
def Shelf.disableAt (now : Nat) (sh : Shelf) : Shelf :=
  { sh with
    state := .disabled
    selected := none
    acqDeadline := none
    learnDeadline := none
    holdDeadline := none
    historyValid := false
    holdoverExpired := false
    pendingReason := none
    taken := none
    lastReason := .config
    lastTime := now
    followed := none }

/-- A taken command is completed at a disable with outcome SHELF_OFF (R67). -/
def State.dropTaken (s : State) (i : Fin 32) : State :=
  if s.shelves[i].taken.isSome then s.complete i .shelfOff else s

/-- An enabled shelf becomes DISABLED (R67): the Engine's part, then the Monitor's (R42), then the queue (log entry 14). -/
def State.disableShelf (s : State) (i : Fin 32) : State :=
  let s := s.dropTaken i
  let sh := s.shelves[i]
  let s := (s.setShelf i (sh.disableAt s.clock)).log i
    { kind := .disabled, previous := sh.selected, new := none, cls := .qc6, reason := .config }
  (s.candsOff i).place i

/-- A DISABLED shelf becomes enabled (R65, R42). -/
def State.enableShelf (s : State) (i : Fin 32) : State :=
  let s := (s.setShelf i (s.shelves[i].enableAt s.clock)).log i
    { kind := .freeRun, previous := none, new := none, cls := .qc4, reason := .start }
  (s.candsUnknown i).place i

/-- The active configuration and the outcome of an applied record (R61, R66). -/
def Shelf.applyConfig (cfg : ShelfConfig) (out : CfgOutcome) (seq : Word) (sh : Shelf) : Shelf :=
  { sh with config := cfg, outcome := out, outcomeSeq := seq }

/-- A shelf configuration record that is not refused is handed to the Engine and the Monitor (R20, R41, R65 to R67, R149).
Only records of shelves below the shelf count are read (R148), so the enable bit decides. -/
def State.shelfConfigured (s : State) (i : Fin 32) (cfg : ShelfConfig) (out : CfgOutcome) (seq : Word) : State :=
  let s := s.settle i
  let was := s.shelves[i].enabled
  let s := s.setShelf i (s.shelves[i].applyConfig cfg out seq)
  let s := s.setMonitoring i cfg.monitor
  if was && cfg.enable then (s.setShelf i { s.shelves[i] with pendingReason := some .config }).place i
  else if was then s.disableShelf i
  else if cfg.enable then s.enableShelf i
  else s.place i

/-- A refused shelf configuration record is handed to the Engine as its outcome (R66, R153). -/
def State.shelfRefused (s : State) (i : Fin 32) (cause : RejectCause) (seq : Word) : State :=
  let s := s.settle i
  (s.setShelf i { s.shelves[i] with outcome := .rejected cause, outcomeSeq := seq }).place i

/-! ### Shelf reports (section 4.5) -/

/-- A shelf that locks (R72). -/
def Shelf.lock (now : Nat) (sh : Shelf) : Shelf :=
  { sh with
    acqDeadline := none
    state := .locked
    holdoverExpired := false
    learnDeadline :=
      if !sh.historyValid && sh.config.learningTime != 0 then some (deadlineAt now (sh.config.learningTime * 1000))
      else sh.learnDeadline
    historyValid := sh.historyValid || sh.config.learningTime == 0 }

/-- An acquisition that lapses (R73, R74): the state is ACQUIRING without a deadline, the selection kept. -/
def Shelf.lapse (now : Nat) (reason : ChangeReason) (sh : Shelf) : Shelf :=
  { sh with
    state := .acquiring
    acqDeadline := none
    learnDeadline := none
    pendingReason := some reason
    lastReason := reason
    lastTime := now }

/-- The output class that R11 gives an ACQUIRING shelf, for the LOCK_LOST and ACQ_FAIL log entries (R73, R74). A holdover class
taken in a configuration record since the last output stage counts at once, where R12 and R66 speak of the next output stage: log
entry 31 (DESIGN CHOICE). -/
def Shelf.acquiringClass (sh : Shelf) : Quality :=
  outputClass .acquiring sh.historyValid sh.config.holdoverClass .qc6

/-- The judged effective class of the selected candidate (R10, R72). -/
def State.selectedClass (s : State) (i : Fin 32) : Quality :=
  match s.shelves[i].selected with
  | some j => s.judged[flat i j].cls
  | none => .qc6

/-- A confirming report in a live acquisition (R72). -/
def State.lockShelf (s : State) (i : Fin 32) : State :=
  (s.setShelf i (s.shelves[i].lock s.clock)).log i
    { kind := .lock, previous := none, new := s.shelves[i].selected, cls := s.selectedClass i,
      reason := s.shelves[i].lastReason }

/-- Loss of lock on the selected slot (R73). -/
def State.loseLock (s : State) (i : Fin 32) : State :=
  let s' := match s.shelves[i].selected with
    | some j => s.send (.lockLost (flat i j))
    | none => s
  (s'.setShelf i (s.shelves[i].lapse s.clock .lockLost)).log i
    { kind := .lockLost, previous := s.shelves[i].selected, new := none, cls := s.shelves[i].acquiringClass,
      reason := .lockLost }

/-- A shelf report is handed to the Engine (R71 to R73). -/
def State.reported (s : State) (i : Fin 32) (r : Report) : State :=
  let s := s.settle i
  let sh := s.shelves[i]
  let s := match sh.state with
    | .acquiring => if !sh.lapsed && r.confirms sh.selected then s.lockShelf i else s
    | .locked => if r.confirms sh.selected then s else s.loseLock i
    | .disabled | .freeRun | .holdover => s
  s.place i

/-! ### The three shelf deadlines (sections 4.6 to 4.8) -/

/-- The acquisition deadline of a live acquisition expires (R74). -/
def State.acquisitionFails (s : State) (i : Fin 32) : State :=
  let s' := match s.shelves[i].selected with
    | some j => s.send (.acqFailure (flat i j))
    | none => s
  ((s'.setShelf i (s.shelves[i].lapse s.clock .acqFail)).log i
    { kind := .acqFail, previous := s.shelves[i].selected, new := none, cls := s.shelves[i].acquiringClass,
      reason := .acqFail }).place i

/-- The learning deadline of a LOCKED shelf expires (R75). -/
def State.learned (s : State) (i : Fin 32) : State :=
  (s.setShelf i { s.shelves[i] with learnDeadline := none, historyValid := true }).place i

/-- The entry of a shelf whose holdover ends (R76). -/
def Shelf.holdoverEnds (now : Nat) (sh : Shelf) : Shelf :=
  { sh with
    holdDeadline := none
    historyValid := false
    holdoverExpired := true
    state := .freeRun
    lastReason := .holdoverExpiry
    lastTime := now }

/-- The holdover deadline of a shelf in HOLDOVER expires (R76). -/
def State.holdoverExpires (s : State) (i : Fin 32) : State :=
  ((s.setShelf i (s.shelves[i].holdoverEnds s.clock)).log i
    { kind := .holdoverExpired, previous := none, new := none, cls := .qc4, reason := .holdoverExpiry }).place i

end Sys2Proof.Machine
end

