-- ==== Sys2Proof/Machine/Flags.lean ====
section
/-! DEFINITION. Attention causes, ALARM, the ATTN and READY lines, SHELF_CHG, and the registers as the Local Bus Port reads them
(R167 to R171). -/

namespace Sys2Proof.Machine

/-! ### Attention (section 9.5) -/

/-- RESULT is raised (R162). -/
def State.raiseResult (s : State) : State := { s with causes := { s.causes with result := true } }

/-- COMMAND is raised (R121, R123). -/
def State.raiseCommand (s : State) : State := { s with causes := { s.causes with command := true } }

/-- LOG is raised (R165). -/
def State.raiseLog (s : State) : State := { s with causes := { s.causes with log := true } }

/-- INTAKE is raised (R153, R154). -/
def State.raiseIntake (s : State) : State := { s with causes := { s.causes with intake := true } }

/-- HALT is raised (R175). -/
def State.raiseHalt (s : State) : State := { s with causes := { s.causes with halt := true } }

/-- A written shelf state that holds ALARM (R168). -/
def ShelfState.alarms : ShelfState → Bool
  | .holdover => true
  | .freeRun => true
  | .disabled => false
  | .acquiring => false
  | .locked => false

/-- ALARM: some shelf's written state is HOLDOVER or FREE_RUN (R168). -/
def State.alarm (s : State) : Bool := s.writer.written.any ShelfState.alarms

/-- The ATTN line is asserted (driven low): a latched cause or ALARM with its enable set (R169). -/
def State.attnAsserted (s : State) : Bool :=
  (s.causes.result && s.enables.causes.result) || (s.causes.command && s.enables.causes.command)
    || (s.causes.log && s.enables.causes.log) || (s.causes.intake && s.enables.causes.intake)
    || (s.causes.halt && s.enables.causes.halt) || (s.alarm && s.enables.alarm)

/-- The ready output: inactive while a host memory access waits or is being made (R182). -/
def State.ready (s : State) : Bool := s.arbiter.host.isNone

/-- A write to ATTN clears each latched cause whose bit is written 1 (R167). -/
def Causes.clear (c : Causes) (w : Word) : Causes where
  result := c.result && !bitAt w 0
  command := c.command && !bitAt w 1
  log := c.log && !bitAt w 2
  intake := c.intake && !bitAt w 3
  halt := c.halt && !bitAt w 4

/-- The five bits of the causes, as ATTN and ATTN_EN place them (R171). -/
def Causes.word (c : Causes) : Word :=
  BitVec.ofNat 32 (c.result.toNat + 2 * c.command.toNat + 4 * c.log.toNat + 8 * c.intake.toNat + 16 * c.halt.toNat)

/-- The enables that a word written to ATTN_EN sets (R169, R171). -/
def Enables.ofWord (w : Word) : Enables where
  causes := { result := bitAt w 0, command := bitAt w 1, log := bitAt w 2, intake := bitAt w 3, halt := bitAt w 4 }
  alarm := bitAt w 8

/-- A write to SHELF_CHG clears each bit written 1 (R167). -/
def clearBits (bits w : Word) : Word := bits &&& ~~~w

/-- The SHELF_CHG bit of a shelf is set (R162). -/
def setShelfBit (bits : Word) (i : Fin 32) : Word := bits ||| BitVec.twoPow 32 i.val

/-! ### Registers as read (R171) -/

/-- PART_ID. -/
def partId : Word := 0x57320801

/-- The code of an engine state in ENGINE_STS. -/
def EngineState.code : EngineState → Nat
  | .halted => 0
  | .starting _ => 1
  | .running => 2
  | .stopping => 3

/-- ENGINE_STS: engine state, halt cause, queue depth, sweep in progress. -/
def State.engineSts (s : State) : Word :=
  BitVec.ofNat 32 (s.engine.code + (match s.haltCause with | .none => 0 | .layout => 16)
    + 256 * (s.queue.length % 64) + 65536 * s.intake.position.isSome.toNat)

/-- The value of a register, by word index from offset 10000h; unimplemented offsets read 0 (R171). -/
def State.regValue (s : State) (reg : BitVec 14) : Word :=
  if reg = 0 then partId
  else if reg = 1 then BitVec.ofNat 32 s.run.toNat
  else if reg = 2 then s.engineSts
  else if reg = 3 then s.causes.word ||| BitVec.ofNat 32 (256 * s.alarm.toNat)
  else if reg = 4 then s.enables.causes.word ||| BitVec.ofNat 32 (256 * s.enables.alarm.toNat)
  else if reg = 5 then s.shelfChg
  else if reg = 6 then BitVec.ofNat 32 s.clock
  else if reg = 7 then s.msclkH.zeroExtend 32
  else 0

/-- The port answers a host access. -/
def State.answer (s : State) (data : Option Word) (error : Bool) : State := { s with bus := { data := data, error := error } }

/-- A read of MSCLK_L: clock bits 31:0, with bits 47:32 copied into MSCLK_H (R180). -/
def State.readMsclkL (s : State) : State :=
  { s.answer (some (BitVec.ofNat 32 s.clock)) false with msclkH := BitVec.ofNat 16 (s.clock / 4294967296) }

/-- A write to ATTN (R167); while RESET_N is low the registers keep their reset values (R179; log entry 17). -/
def State.writeAttn (s : State) (w : Word) : State :=
  { s.answer none false with causes := if s.resetLow then s.causes else s.causes.clear w }

/-- A write to SHELF_CHG (R167; log entry 17). -/
def State.writeShelfChg (s : State) (w : Word) : State :=
  { s.answer none false with shelfChg := if s.resetLow then s.shelfChg else clearBits s.shelfChg w }

/-- A write to ATTN_EN (R169; log entry 17). -/
def State.writeAttnEn (s : State) (w : Word) : State :=
  { s.answer none false with enables := if s.resetLow then s.enables else .ofWord w }

end Sys2Proof.Machine
end

