-- ==== Sys2Proof/Machine/Arbiter.lean ====
section
/-! DEFINITION. The Memory Arbiter (section 8.4): requests, grants, the end of a use of the port. -/

namespace Sys2Proof.Machine

/-- What the Result Writer would use the port for now: the next slot of step 3 ahead of its list (R123), or the head of its
list (R160). -/
def State.writerJob (s : State) : Option WriterJob :=
  match s.engine with
  | .starting (.slots i) => some (.abort i true)
  | .starting .readGlobal | .starting .sweep | .halted | .running | .stopping =>
    if s.writer.list.isEmpty then none else some .item

/-- The Intake Unit has a record to read: the global record of step 1, or the position of a sweep (R148, R174). -/
def State.intakeWants (s : State) : Bool := s.engine == .starting .readGlobal || s.intake.position.isSome

/-- The port is granted to the Local Bus Port. -/
def State.grantHost (s : State) : State := { s with arbiter := { s.arbiter with owner := .localBus } }

/-- The port is granted to the Intake Unit; the turn passes to the Result Writer (R145). -/
def State.grantIntake (s : State) : State :=
  { s with arbiter := { s.arbiter with owner := .intake, turn := .writer, intakeWaits := false } }

/-- The port is granted to the Result Writer for a job; the turn passes to the Intake Unit (R145). -/
def State.grantWriter (s : State) (job : WriterJob) : State :=
  { s with arbiter := { s.arbiter with owner := .writer job, turn := .intake, writerWaits := false } }

/-- The Intake Unit asks for the port: granted when the port is free, otherwise it waits (R145). -/
def State.requestIntake (s : State) : State :=
  match s.arbiter.owner with
  | .none => s.grantIntake
  | .intake => s
  | .localBus | .writer _ => { s with arbiter := { s.arbiter with intakeWaits := true } }

/-- The Result Writer asks for the port for a job: granted when the port is free, otherwise it waits (R145). -/
def State.requestWriter (s : State) (job : WriterJob) : State :=
  match s.arbiter.owner with
  | .none => s.grantWriter job
  | .writer _ => s
  | .localBus | .intake => { s with arbiter := { s.arbiter with writerWaits := true } }

/-- The host asks for the port for one word (R144); a second access cannot start while one waits (log entry 19). -/
def State.requestHost (s : State) (a : HostAccess) : State :=
  if s.arbiter.host.isSome then s
  else
    let s' := { s with arbiter := { s.arbiter with host := some a } }
    match s.arbiter.owner with
    | .none => s'.grantHost
    | .localBus | .intake | .writer _ => s'

/-- The free port is granted to the internal requester that waits, the one the turn names when both do; marks of requesters
that have nothing left to do are dropped (R145). -/
def State.grantInternal (s : State) : State :=
  let intake := s.arbiter.intakeWaits && s.intakeWants
  match s.arbiter.writerWaits, s.writerJob with
  | true, some job =>
    if intake && s.arbiter.turn == .intake then s.grantIntake else s.grantWriter job
  | _, _ =>
    if intake then s.grantIntake
    else { s with arbiter := { s.arbiter with intakeWaits := false, writerWaits := false } }

/-- The port becomes free after a record transaction: a waiting host access is granted, else an internal requester (R145). -/
def State.releaseRecord (s : State) : State :=
  let s := { s with arbiter := { s.arbiter with owner := .none } }
  if s.arbiter.host.isSome then s.grantHost else s.grantInternal

/-- The host access that owns the port is made, and the port becomes free (R144, R145). -/
def State.makeAccess (s : State) (a : HostAccess) : State :=
  let s' := match a.op with
    | .read => s.answer (some (s.mem.readWord a.word)) false
    | .write v => { s.answer none false with mem := s.mem.writeWord a.word v }
  ({ s' with arbiter := { s'.arbiter with owner := .none, host := none } } : State).grantInternal

/-- The end of a host access: only when it owns the port. -/
def State.finishHost (s : State) (a : HostAccess) : State :=
  if s.arbiter.owner = .localBus ∧ s.arbiter.host = some a then s.makeAccess a else s

end Sys2Proof.Machine
end

