-- ==== Sys2Proof/Machine/Writer.lean ====
section
/-! DEFINITION. The Result Writer (chapter 9): record layouts (chapter 8), the writes, completions, ABORTED completions, and what a
reset leaves of a write it cuts. -/

namespace Sys2Proof.Machine

/-! ### Codes (chapter 8, value codes; R84, R125) -/

/-- Shelf state code. -/
def ShelfState.code : ShelfState → Nat
  | .disabled => 0
  | .freeRun => 1
  | .acquiring => 2
  | .locked => 3
  | .holdover => 4

/-- Mode code. -/
def Mode.code : Mode → Nat
  | .auto => 0
  | .manual _ => 1
  | .forced _ => 2
  | .hold => 3

/-- The manual or forced slot of a mode (R126). -/
def Mode.slot : Mode → Option (Fin 8)
  | .auto => none
  | .manual k => some k
  | .forced k => some k
  | .hold => none

/-- Candidate state code. -/
def CandState.code : CandState → Nat
  | .off => 0
  | .unknown => 1
  | .available => 2
  | .suspect => 3
  | .failed => 4
  | .restoring => 5

/-- Barring kind code and target; the target is 0 when the kind is NONE. -/
def Barring.codes : Barring → Nat × Nat
  | .none => (0, 0)
  | .slot j => (1, j.val)
  | .shelf i => (2, i.val)

/-- Change reason code. -/
def ChangeReason.code : ChangeReason → Nat
  | .start => 0
  | .policy => 1
  | .failure => 2
  | .command => 3
  | .acqFail => 4
  | .lockLost => 5
  | .holdoverExpiry => 6
  | .config => 7

/-- Log event kind code. -/
def LogKind.code : LogKind → Nat
  | .select => 1
  | .lock => 2
  | .acqFail => 3
  | .lockLost => 4
  | .holdover => 5
  | .freeRun => 6
  | .holdoverExpired => 7
  | .disabled => 8

/-- Reject cause code. -/
def RejectCause.code : RejectCause → Nat
  | .badKind => 1
  | .badClass => 2
  | .badPolicy => 3
  | .badSource => 4
  | .badFrequency => 5

/-- Configuration outcome code and reject cause code. -/
def CfgOutcome.codes : CfgOutcome → Nat × Nat
  | .none => (0, 0)
  | .applied => (1, 0)
  | .appliedClamped => (2, 0)
  | .rejected c => (3, c.code)

/-- Global-record outcome code. -/
def GlobalOutcome.code : GlobalOutcome → Nat
  | .none => 0
  | .applied => 1
  | .appliedClamped => 2
  | .rejected => 3

/-- Eligibility code (R84). -/
def EligCode.code : EligCode → Nat
  | .eligible => 0
  | .off => 1
  | .lockedOut => 2
  | .notReady => 3
  | .holdingOff => 4
  | .barred => 5
  | .belowFloor => 6
  | .sourceOff => 7
  | .loop => 8
  | .tooDeep => 9

/-- Command outcome code (R125). -/
def CmdOutcome.code : CmdOutcome → Nat
  | .accepted => 1
  | .badCommand => 2
  | .badSlot => 3
  | .shelfOff => 4
  | .overridden => 5
  | .lockedOut => 6
  | .ineligible => 7
  | .inUse => 8
  | .notApplicable => 9
  | .aborted => 10

/-- A slot number as records show it: 15 means none (00_scope.md, Optional values). -/
def slotCode (j : Option (Fin 8)) : Nat :=
  match j with
  | some j => j.val
  | none => 15

/-! ### Record layouts (section 8.2.2) -/

/-- A word made of fields, each a value, its lowest bit and its width; every other bit is 0 (R140). -/
def packWord (fields : List (Nat × Nat × Nat)) : Word :=
  BitVec.ofNat 32 (fields.map (fun f => f.1 % 2 ^ f.2.2 * 2 ^ f.2.1)).sum

/-- The running deadline of a shelf (R64). -/
def Shelf.running (sh : Shelf) : Option Deadline :=
  match sh.acqDeadline, sh.learnDeadline with
  | some d, _ => some d
  | none, some d => some d
  | none, none => sh.holdDeadline

/-- Entry `n` of a path as a result shows it: 0 beyond the length. -/
def pathEntry (path : List (Fin 32)) (n : Nat) : Nat :=
  match path[n]? with
  | some i => i.val
  | none => 0

/-- The words of a shelf result between the publication value and its echo (words 1 to 14): the Engine's copy of the last
published values and the time remaining (R161). -/
def shelfResultBody (now : Nat) (sh : Shelf) : List Word :=
  let p := sh.published
  [ packWord [(p.state.code, 0, 4), (p.mode.code, 4, 4), (slotCode p.selected, 8, 4), (slotCode p.mode.slot, 12, 4)],
    packWord [(p.outputClass.code, 0, 4), (p.barring.codes.1, 8, 2), (p.barring.codes.2, 16, 5)],
    packWord [(p.path.length, 0, 4), (p.historyValid.toNat, 8, 1), (p.holdoverExpired.toNat, 9, 1)],
    packWord [(pathEntry p.path 0, 0, 8), (pathEntry p.path 1, 8, 8), (pathEntry p.path 2, 16, 8), (pathEntry p.path 3, 24, 8)],
    packWord [(pathEntry p.path 4, 0, 8), (pathEntry p.path 5, 8, 8), (pathEntry p.path 6, 16, 8), (pathEntry p.path 7, 24, 8)],
    packWord [(p.switchCount, 0, 16), (p.lastReason.code, 16, 4)],
    BitVec.ofNat 32 p.lastTime,
    packWord [(p.lastTime / 2 ^ 32, 0, 16)],
    BitVec.ofNat 32 (remaining now sh.running),
    packWord [(p.outcome.codes.1, 0, 8), (p.outcome.codes.2, 8, 8)],
    p.outcomeSeq, 0, 0, 0 ]

/-- An optional offset as a result shows it: signed, 0 when absent (R60). -/
def offsetWord (x : Option Int) : Word :=
  match x with
  | some v => BitVec.ofInt 32 v
  | none => 0

/-- The words of a candidate result between the publication value and its echo (words 1 to 6): the Monitor's entry and the
Engine's kept judgement (R43, R161). -/
def candResultBody (now : Nat) (c : Candidate) (j : Judgement) : List Word :=
  [ packWord [(c.state.code, 0, 4), (c.reasons.signal.toNat, 4, 1), (c.reasons.stale.toNat, 5, 1), (c.reasons.freq.toNat, 6, 1),
      (j.lockedOut.toNat, 7, 1), (j.code.code, 8, 4), (j.cls.code, 12, 4), (faultCount c.history, 16, 6),
      (c.average.isSome.toNat, 24, 1), (c.lastRaw.isSome.toNat, 25, 1)],
    offsetWord c.average,
    offsetWord c.lastRaw,
    BitVec.ofNat 32 (remaining now c.stateDeadline),
    packWord [(c.outcome.codes.1, 0, 8), (c.outcome.codes.2, 8, 8)],
    BitVec.ofNat 32 (c.lastObs.getD 0) ]

/-- The words of the log control record between the publication value and its echo (words 1 to 14; R166). -/
def logControlBody (w : Writer) : List Word :=
  [ w.loggedEntry, packWord [(logIndex w.loggedEntry, 0, 7)], BitVec.ofNat 32 w.lastEntryTime,
    packWord [(w.lastEntryTime / 2 ^ 32, 0, 16)], packWord [(w.globalOutcome.code, 0, 8)], w.globalSeq,
    0, 0, 0, 0, 0, 0, 0, 0 ]

/-- The words of a log entry between its number and the echo of it (words 1 to 6; R165). -/
def logEntryBody (e : LogEntry) : List Word :=
  [ BitVec.ofNat 32 e.time, packWord [(e.time / 2 ^ 32, 0, 16)],
    packWord [(e.shelf.val, 0, 8), (e.kind.code, 8, 8), (slotCode e.previous, 16, 4), (slotCode e.new, 20, 4),
      (e.cls.code, 24, 4), (e.reason.code, 28, 4)],
    0, 0, 0 ]

/-! ### Transactions (R144) -/

/-- One word access of a transaction of the Result Writer: a read, or a write of a word. -/
abbrev WordAccess := Option (BitVec 14 × Word)

/-- The accesses that write a record: word 0, the body in ascending order, the echo last (R161, R165). -/
def recordAccesses (addr : Nat → BitVec 14) (first : Word) (body : List Word) : List WordAccess :=
  ((first :: body ++ [first]).zipIdx).map (fun p => some (addr p.2, p.1))

/-- The accesses that complete a command in slot `i` (R121): the state word is read, then the outcome and the time are
written, then DONE when it read TAKEN. -/
def completionAccesses (m : Memory) (now : Nat) (i : Fin 32) (o : CmdOutcome) : List WordAccess :=
  [ none, some (slotAddr i 2, packWord [(o.code, 0, 8)]), some (slotAddr i 3, BitVec.ofNat 32 now),
    if readSlotState m i = .taken then some (slotAddr i 0, 3) else none ]

/-- The accesses of one transaction of the Result Writer for an item (R121, R161, R165). -/
def State.itemAccesses (s : State) (item : WriteItem) : List WordAccess :=
  match item with
  | .shelfResult i => recordAccesses (shelfResultAddr i) s.writer.publication (shelfResultBody s.clock s.shelves[i])
  | .candResult k => recordAccesses (candResultAddr k) s.writer.publication (candResultBody s.clock s.cands[k] s.judged[k])
  | .logControl => recordAccesses logControlAddr s.writer.publication (logControlBody s.writer)
  | .completion i o => completionAccesses s.mem s.clock i o
  | .logEntry e => recordAccesses (logAddr (logIndex e.number)) e.number (logEntryBody e)

/-- Whether step 3 completes slot `i` as ABORTED: it reads TAKEN and its shelf has no command in hand (R123). -/
def State.abortsSlot (s : State) (i : Fin 32) : Bool := readSlotState s.mem i == .taken && !s.commandInHand i

/-- The accesses of the step-3 transaction on slot `i` (R123). -/
def State.abortAccesses (s : State) (i : Fin 32) : List WordAccess :=
  if s.abortsSlot i then completionAccesses s.mem s.clock i .aborted else [none]

/-- Makes the writes of a list of accesses. -/
def Memory.makeAccesses (m : Memory) (as : List WordAccess) : Memory :=
  as.foldl (fun m a => match a with
    | some (w, v) => m.writeWord w v
    | none => m) m

/-- The publication counter after a publication: never 0 (R161). -/
def nextPublication (v : Word) : Word := if v = 0xFFFFFFFF then 1 else v + 1

/-- Removes the head of the write list (R160). -/
def State.popItem (s : State) : State := { s with writer := { s.writer with list := s.writer.list.tail } }

/-- The publication counter advances by one (R161). -/
def State.advancePublication (s : State) : State :=
  { s with writer := { s.writer with publication := nextPublication s.writer.publication } }

/-- The words of an item are in the memory and the item has left the list (R160). -/
def State.writeItem (s : State) (item : WriteItem) : State :=
  { s with mem := s.mem.makeAccesses (s.itemAccesses item) }.popItem

/-- The completed write of a shelf result (R161, R162). -/
def State.shelfResultWritten (s : State) (i : Fin 32) : State :=
  let s' := ((s.writeItem (.shelfResult i)).advancePublication).raiseResult
  { s' with
    shelfChg := setShelfBit s.shelfChg i
    writer := { s'.writer with written := s.writer.written.set i s.shelves[i].published.state } }

/-- The completed write of a candidate result (R161, R163). -/
def State.candResultWritten (s : State) (k : Fin 256) : State := (s.writeItem (.candResult k)).advancePublication

/-- The completed write of the log control record (R161, R166). -/
def State.logControlWritten (s : State) : State := (s.writeItem .logControl).advancePublication

/-- The completed write of a log entry (R165). -/
def State.logEntryWritten (s : State) (e : LogEntry) : State :=
  let s' := (s.writeItem (.logEntry e)).raiseLog
  ({ s' with writer := { s'.writer with loggedEntry := e.number + 1, lastEntryTime := e.time } } : State).ask .logControl

/-- The completion transaction of a command (R121). -/
def State.completionMade (s : State) (i : Fin 32) (o : CmdOutcome) : State := (s.writeItem (.completion i o)).raiseCommand

/-- The step-3 transaction on slot `i` (R123). -/
def State.slotExamined (s : State) (i : Fin 32) : State :=
  let s' := { s with mem := s.mem.makeAccesses (s.abortAccesses i) }
  if s.abortsSlot i then s'.raiseCommand else s'

/-! ### A cut transaction (R146) -/

/-- The accesses that a transaction had made when a reset cut it: at most all but the last. -/
def cutAccesses (made : Nat) (as : List WordAccess) : List WordAccess := as.dropLast.take made

/-- The memory after a reset cuts the transaction in progress with `made` accesses made (R146). -/
def State.cutMemory (s : State) (made : Nat) : Memory :=
  match s.arbiter.owner with
  | .writer .item =>
    match s.writer.list with
    | item :: _ => s.mem.makeAccesses (cutAccesses made (s.itemAccesses item))
    | [] => s.mem
  | .writer (.abort i _) => s.mem.makeAccesses (cutAccesses made (s.abortAccesses i))
  | .none | .localBus | .intake => s.mem

/-- An item whose transaction takes a value of the publication counter (R161). -/
def WriteItem.publishes : WriteItem → Bool
  | .shelfResult _ => true
  | .candResult _ => true
  | .logControl => true
  | .completion _ _ => false
  | .logEntry _ => false

/-- The publication counter after a reset cuts the transaction in progress: it has already advanced for a result record, which
takes its value before its first word is written (R161). -/
def State.cutPublication (s : State) : Word :=
  match s.arbiter.owner, s.writer.list with
  | .writer .item, item :: _ =>
    if item.publishes then nextPublication s.writer.publication else s.writer.publication
  | _, _ => s.writer.publication

end Sys2Proof.Machine
end

