-- ==== Sys2Proof/Machine/Intake.lean ====
section
/-! DEFINITION. The Intake Unit (sections 8.3, 8.5, 8.7): sweeps, the take of each kind of record, the global values. -/

namespace Sys2Proof.Machine

/-! ### Last-Taken Table (R142) -/

/-- The shelf configuration entry of a shelf is set. -/
def State.setLastShelfConfig (s : State) (i : Fin 32) (v : Option Word) : State :=
  { s with intake := { s.intake with lastShelfConfig := s.intake.lastShelfConfig.set i v } }

/-- The candidate configuration entry of a candidate is set. -/
def State.setLastCandConfig (s : State) (k : Fin 256) (v : Option Word) : State :=
  { s with intake := { s.intake with lastCandConfig := s.intake.lastCandConfig.set k v } }

/-- The report entry of a shelf is set. -/
def State.setLastReport (s : State) (i : Fin 32) (v : Option Word) : State :=
  { s with intake := { s.intake with lastReport := s.intake.lastReport.set i v } }

/-- The observation entry of a candidate is set. -/
def State.setLastObs (s : State) (k : Fin 256) (v : Option Word) : State :=
  { s with intake := { s.intake with lastObs := s.intake.lastObs.set k v } }

/-! ### Global values (section 8.7) -/

/-- A shelf that falls out of service (R155): its Last-Taken entry becomes none, and it is disabled if it was enabled. -/
def State.outOfService (s : State) (i : Fin 32) : State :=
  let s := (s.settle i).setLastShelfConfig i none
  if s.shelves[i].enabled then s.disableShelf i else s

/-- The shelves from the new count up to one below the old count, in ascending order (R155). -/
def fallen (new old : Nat) : List (Fin 32) :=
  (List.finRange 32).filter (fun i => decide (new ≤ i.val) && decide (i.val < old))

/-- Global values are applied: the log enable is handed to the Result Writer, and shelves at or above a smaller count fall
out of service (R154 to R156). That the log enable comes first, and so governs the DISABLED log entries of those shelves, is the
model's choice (log entry 14, DESIGN CHOICE). -/
def State.applyGlobals (s : State) (g : Globals) : State :=
  let old := s.intake.applied.shelfCount
  let s := { s with
    intake := { s.intake with applied := g }
    writer := { s.writer with logEnable := g.logEnable } }
  (fallen g.shelfCount old).foldl State.outOfService s

/-- The outcome of a global record is handed to the Result Writer, which has the log control record written (R154, R166). -/
def State.globalOutcome (s : State) (o : GlobalOutcome) (seq : Word) : State :=
  ({ s with writer := { s.writer with globalOutcome := o, globalSeq := seq } } : State).ask .logControl

/-! ### Sweeps (section 8.5) -/

/-- The position of a sweep after another one (R148); shelf configuration records at or above the shelf count are passed over. -/
def Position.next (count : Nat) : Position → Option Position
  | .global => some (.slot 0)
  | .slot i =>
    if h : i.val + 1 < 32 then some (.slot ⟨i.val + 1, h⟩)
    else if 0 < count then some (.shelfConfig 0) else some (.candConfig 0)
  | .shelfConfig i =>
    if h : i.val + 1 < 32 then
      if i.val + 1 < count then some (.shelfConfig ⟨i.val + 1, h⟩) else some (.candConfig 0)
    else some (.candConfig 0)
  | .candConfig k => if h : k.val + 1 < 256 then some (.candConfig ⟨k.val + 1, h⟩) else some (.report 0)
  | .report i => if h : i.val + 1 < 32 then some (.report ⟨i.val + 1, h⟩) else some (.obs 0)
  | .obs k => if h : k.val + 1 < 256 then some (.obs ⟨k.val + 1, h⟩) else none

/-- Pending global values are applied at the start of a sweep (R147, R154). -/
def State.applyPending (s : State) : State :=
  match s.intake.pendingGlobals with
  | some g => ({ s with intake := { s.intake with pendingGlobals := none } } : State).applyGlobals g
  | none => s

/-- A sweep starts (R147): pending values, the sweep deadline, the flag; its first position is the global record. -/
def State.startSweep (s : State) : State :=
  let s := s.applyPending
  { s with intake := { s.intake with
      sweepDeadline := some (deadlineAt s.clock s.intake.applied.period)
      position := some .global } }

/-- A sweep starts because the further-sweep mark is set, and the mark is cleared (R147). -/
def State.furtherSweep (s : State) : State :=
  if s.intake.furtherSweep then
    ({ s with intake := { s.intake with furtherSweep := false } } : State).startSweep
  else s

/-- The further-sweep mark is set. -/
def State.markFurther (s : State) : State := { s with intake := { s.intake with furtherSweep := true } }

/-- A sweep request (R147). -/
def State.sweepRequest (s : State) : State :=
  match s.engine with
  | .running => if s.intake.position.isSome then s.markFurther else s.startSweep
  | .starting .sweep => s.markFurther
  | .starting .readGlobal | .starting (.slots _) | .stopping | .halted => s

/-- Steps 6 and 7 of STARTING: every shelf result and every candidate result is requested, and the engine is RUNNING (R174). -/
def State.publishAll (s : State) : State :=
  let s := (s.askAll ((List.finRange 32).map .shelfResult)).askAll ((List.finRange 256).map .candResult)
  { s with engine := .running }

/-- A sweep ends after its last position (R147, R148): in STARTING steps 6 and 7 follow (R174). -/
def State.sweepEnds (s : State) : State :=
  let s := { s with intake := { s.intake with position := none } }
  match s.engine with
  | .starting .sweep => s.publishAll.furtherSweep
  | .running => s.furtherSweep
  | .starting .readGlobal | .starting (.slots _) | .stopping | .halted => s

/-- A sweep that STOPPING ends (R150). -/
def State.sweepStopped (s : State) : State :=
  if s.intake.position.isSome then
    { s with intake := { s.intake with position := none, furtherSweep := false, sweepDeadline := none } }
  else s

/-- The sweep moves to its next position after a transaction, or ends (R148, R150). -/
def State.advanceSweep (s : State) : State :=
  if s.engine = .stopping then s.sweepStopped
  else match s.intake.position with
    | none => s
    | some p =>
      match p.next s.intake.applied.shelfCount with
      | some q => { s with intake := { s.intake with position := some q } }
      | none => s.sweepEnds

/-! ### What a sweep does at each position (R148, R149) -/

/-- The global record (R154). -/
def State.takeGlobal (s : State) : State :=
  let r := readGlobal s.mem
  if takes r.seq r.echo s.intake.lastGlobal then
    let s1 := { s with intake := { s.intake with lastGlobal := some r.seq } }
    if r.refused then (s1.raiseIntake).globalOutcome .rejected r.seq
    else ({ s1 with intake := { s1.intake with pendingGlobals := some r.values } } : State).globalOutcome r.outcome r.seq
  else s

/-- A command slot (R119). -/
def State.takeSlot (s : State) (i : Fin 32) : State :=
  if readSlotState s.mem i = .posted ∧ s.commandInHand i = false then
    (({ s with mem := s.mem.writeWord (slotAddr i 0) 2 } : State).setShelf i
      { s.shelves[i] with taken := some (readCommand s.mem i) }).place i
  else s

/-- The outcome of an accepted record. -/
def acceptedOutcome (clamped : Bool) : CfgOutcome := if clamped then .appliedClamped else .applied

/-- A shelf configuration record (R66, R151, R153). -/
def State.takeShelfConfig (s : State) (i : Fin 32) : State :=
  let r := readShelfConfig s.mem i
  if takes r.seq r.echo s.intake.lastShelfConfig[i] then
    let s1 := s.setLastShelfConfig i (some r.seq)
    match r.validate with
    | .refused cause => s1.raiseIntake.shelfRefused i cause r.seq
    | .accepted cfg clamped => s1.shelfConfigured i cfg (acceptedOutcome clamped) r.seq
  else s

/-- A candidate configuration record (R38, R40, R152, R153). -/
def State.takeCandConfig (s : State) (k : Fin 256) : State :=
  let r := readCandConfig s.mem k
  if takes r.seq r.echo s.intake.lastCandConfig[k] then
    let s1 := s.setLastCandConfig k (some r.seq)
    match r.validate (shelfOf k) with
    | .refused cause => s1.raiseIntake.candRefused k cause
    | .accepted cfg clamped => s1.candConfigured k cfg (acceptedOutcome clamped)
  else s

/-- A shelf report (R71). -/
def State.takeReport (s : State) (i : Fin 32) : State :=
  let r := readReport s.mem i
  if takes r.seq r.echo s.intake.lastReport[i] then (s.setLastReport i (some r.seq)).reported i r else s

/-- An observation (R21). -/
def State.takeObs (s : State) (k : Fin 256) : State :=
  let r := readObservation s.mem k
  if takes r.seq r.echo s.intake.lastObs[k] then (s.setLastObs k (some r.seq)).observation k r else s

end Sys2Proof.Machine
end

