-- ==== Sys2Proof/Machine/Control.lean ====
section
/-! DEFINITION. Run control (chapter 10): entering and leaving the engine states, start-up, RUN_CTL writes, resets, the clock. -/

namespace Sys2Proof.Machine

/-! ### Engine states (sections 10.2 to 10.4) -/

/-- The entry to HALTED: pending global values, sweep deadline, flag and mark are cleared (R150, R157, R177). -/
def State.enterHalted (s : State) : State :=
  { s with
    engine := .halted
    intake := { s.intake with pendingGlobals := none, sweepDeadline := none, position := none, furtherSweep := false } }

/-- The entry to STARTING at step 1: the halt cause becomes NONE, pending global values are discarded (R157, R174). -/
def State.enterStarting (s : State) : State :=
  { s with
    engine := .starting .readGlobal
    haltCause := .none
    intake := { s.intake with pendingGlobals := none } }

/-- Nothing that STOPPING waits for is in progress: no transaction of the Intake Unit, no evaluation (R177; log entry 8). -/
def State.atRest (s : State) : Bool := s.arbiter.owner != .intake && s.evaluating.isNone

/-- The end of STOPPING: the Monitor still takes the requests that wait, those of the work that has just ended among them (R44; log
entry 29); then STARTING follows when RUN has been set again, otherwise HALTED (R177). -/
def State.leaveStopping (s : State) : State :=
  if s.run then s.takeRequests.enterStarting else s.takeRequests.enterHalted

/-- STOPPING ends when the work in hand has ended (R177). -/
def State.endStopping (s : State) : State :=
  if s.engine = .stopping ∧ s.atRest then s.leaveStopping else s

/-- A step-3 transaction in progress goes on after its step is cut short (R177). -/
def Owner.cutStep : Owner → Owner
  | .writer (.abort i _) => .writer (.abort i false)
  | .writer .item => .writer .item
  | .none => .none
  | .localBus => .localBus
  | .intake => .intake

/-- The entry to STOPPING: a sweep without a transaction in progress ends, start-up steps not begun are dropped, and STOPPING
ends at once when nothing is in progress (R150, R177). -/
def State.enterStopping (s : State) : State :=
  let s := { s with
    engine := .stopping
    arbiter := { s.arbiter with owner := s.arbiter.owner.cutStep, intakeWaits := false } }
  (if s.arbiter.owner = .intake then s else s.sweepStopped).endStopping

/-- RUN changes from 0 to 1: HALTED enters STARTING; STOPPING does so once it has ended (R174, R177). -/
def State.runSet (s : State) : State :=
  match s.engine with
  | .halted => ({ s with run := true } : State).enterStarting
  | .starting _ | .running | .stopping => { s with run := true }

/-- RUN changes from 1 to 0: RUNNING and STARTING enter STOPPING (R177). -/
def State.runClear (s : State) : State :=
  match s.engine with
  | .running | .starting _ => ({ s with run := false } : State).enterStopping
  | .stopping | .halted => { s with run := false }

/-- RUN takes the value written; a write that leaves it unchanged does not act on the engine (R172). -/
def State.writeRun (s : State) (v : Bool) : State :=
  if v = s.run then s else if v then s.runSet else s.runClear

/-! ### Resets (section 10.5) -/

/-- The arbiter after a restart or full reset: the transaction in progress is cut and the turn names the Result Writer; a host
access in progress goes on, and one that waited is granted (R145, R146, R158). -/
def Arbiter.afterReset (a : Arbiter) : Arbiter :=
  { Arbiter.reset with owner := if a.host.isSome then .localBus else .none, host := a.host }

/-- A restart, with the word accesses made by the transaction it cuts (R178, R45, R81, R146, R158, R159). -/
def State.restart (s : State) (made : Nat) : State :=
  { State.reset with
    run := s.run
    engine := if s.run then .starting .readGlobal else .halted
    resetLow := s.resetLow
    bus := s.bus
    causes := s.causes
    enables := s.enables
    shelfChg := s.shelfChg
    msclkH := s.msclkH
    prescaler := s.prescaler
    clock := s.clock
    mem := s.cutMemory made
    arbiter := s.arbiter.afterReset
    writer := { Writer.reset with
      publication := s.cutPublication
      nextEntry := s.writer.loggedEntry
      loggedEntry := s.writer.loggedEntry
      lastEntryTime := s.writer.lastEntryTime }
    powerOns := s.powerOns
    pending := s.pending }

/-- A full reset, with the word accesses made by the transaction it cuts (R179, R146). -/
def State.fullReset (s : State) (made : Nat) : State :=
  { State.reset with
    resetLow := s.resetLow
    bus := s.bus
    mem := s.cutMemory made
    arbiter := s.arbiter.afterReset
    powerOns := s.powerOns
    pending := s.pending }

/-- Power-on: a full reset that leaves the memory with contents nobody knows (R138, R179; log entry 5). -/
def State.powerOn (s : State) : State :=
  { State.reset with
    resetLow := s.resetLow
    mem := Memory.ofCells (Config.powerOnContents s.powerOns)
    powerOns := s.powerOns + 1
    pending := s.pending }

/-! ### RUN_CTL (R172) -/

/-- The bits of a write without FULL_RESET: RUN first, then RESTART, otherwise SWEEP_NOW (R172). What a change of RUN would begin or
end at the engine is replaced by a restart of the same write, which takes RUN as written (R178). -/
def State.runCtlBits (s : State) (w : Word) (made : Nat) : State :=
  if restartBit w then { s with run := runBit w }.restart made
  else if sweepNowBit w then (s.writeRun (runBit w)).sweepRequest else s.writeRun (runBit w)

/-- A write to RUN_CTL; while RESET_N is low it is ignored without error (R172, R179). -/
def State.writeRunCtl (s : State) (w : Word) (made : Nat) : State :=
  let s := s.answer none false
  if s.resetLow then s
  else if fullResetBit w then s.fullReset made
  else s.runCtlBits w made

/-- An access to the register space, by word index from offset 10000h (R171). -/
def State.registerAccess (s : State) (reg : BitVec 14) (op : BusOp) : State :=
  match op with
  | .read =>
    if busRefused reg .read then s.answer (some 0) true
    else if reg = 6 then s.readMsclkL else s.answer (some (s.regValue reg)) false
  | .write w =>
    if busRefused reg (.write w) then s.answer none true
    else if reg = 1 then s.writeRunCtl w 0
    else if reg = 3 then s.writeAttn w
    else if reg = 4 then s.writeAttnEn w
    else s.writeShelfChg w

/-! ### Start-up (section 10.3) -/

/-- A failed check at step 1: a LAYOUT halt (R175). -/
def State.layoutHalt (s : State) : State :=
  let s := ({ s with haltCause := .layout, run := false } : State).raiseHalt
  if s.evaluating.isSome then { s with engine := .stopping } else s.enterHalted

/-- A passed check at step 1: the values are applied at once and recorded (R157), step 2 re-bases the report deadlines and
releases overdue ones (R44, R176), and step 3 begins (R174). -/
def State.startWith (s : State) (r : GlobalRecord) : State :=
  let s := { s with intake := { s.intake with lastGlobal := some r.seq } }
  let s := ((s.globalOutcome r.outcome r.seq).applyGlobals r.values).rebase
  { s with engine := .starting (.slots 0) }

/-- Step 1 of STARTING, at the end of its read (R175); nothing when RUN was cleared meanwhile. -/
def State.stepOne (s : State) : State :=
  if s.engine = .starting .readGlobal then
    let r := readGlobal s.mem
    if whole r.seq r.echo && !r.refused then s.startWith r else s.layoutHalt
  else s

/-- Step 3 goes on after a slot: to the next slot, or to step 4, which requests the log control record, and the sweep of step 5
(R123, R174). -/
def State.afterSlot (s : State) (i : Fin 32) : State :=
  if h : i.val + 1 < 32 then { s with engine := .starting (.slots ⟨i.val + 1, h⟩) }
  else ({ s.ask .logControl with engine := .starting .sweep } : State).startSweep

/-! ### The clock (section 10.6) -/

/-- A tick marks the deadlines of a candidate that come due. -/
def Candidate.tick (now : Nat) (c : Candidate) : Candidate :=
  { c with reportDeadline := c.reportDeadline.map (Deadline.tick now), stateDeadline := c.stateDeadline.map (Deadline.tick now) }

/-- A tick marks the deadlines of a shelf that come due. -/
def Shelf.tick (now : Nat) (sh : Shelf) : Shelf :=
  { sh with
    acqDeadline := sh.acqDeadline.map (Deadline.tick now)
    learnDeadline := sh.learnDeadline.map (Deadline.tick now)
    holdDeadline := sh.holdDeadline.map (Deadline.tick now) }

/-- The clock value after a tick: it stays at its highest value (R180). -/
def nextClock (now : Nat) : Nat := min (now + 1) maxClock

/-- A tick (R180, R181): the prescaler returns to 0, the clock advances, deadlines come due. -/
def State.tickNow (s : State) : State :=
  { s with
    prescaler := 0
    clock := nextClock s.clock
    cands := s.cands.map (Candidate.tick (nextClock s.clock))
    shelves := s.shelves.map (Shelf.tick (nextClock s.clock))
    intake := { s.intake with sweepDeadline := s.intake.sweepDeadline.map (Deadline.tick (nextClock s.clock)) } }

/-- One cycle of the 50 MHz input clock (R180); the prescaler stays at 0 while RESET_N is low (R179). -/
def State.clockCycle (s : State) : State :=
  if s.resetLow then s
  else if s.prescaler < 49999 then { s with prescaler := s.prescaler + 1 } else s.tickNow

end Sys2Proof.Machine
end

