-- ==== Sys2Proof/Machine/ControlCommands.lean ====
section
/-! DEFINITION. The meanings of the reset, run control, register, memory access and clock rows. -/

namespace Sys2Proof.Machine

/-- POWER_ON (R179). -/
def execPowerOn (s : State) : Host.Outcome State Fault Refusal := .next s.powerOn

/-- RESET_N (R179): the reset takes effect as the pin goes low and holds while it stays low. -/
def execResetN (made : Fin 16) (s : State) : Host.Outcome State Fault Refusal :=
  .next { s.fullReset made with resetLow := true }

/-- RESET_N_RELEASE (R179). -/
def execResetNRelease (s : State) : Host.Outcome State Fault Refusal := .next { s with resetLow := false }

/-- FULL_RESET (R172, R179). -/
def execFullReset (w : Word) (made : Fin 16) (s : State) : Host.Outcome State Fault Refusal := .next (s.writeRunCtl w made)

/-- RESTART (R172, R178). -/
def execRestart (w : Word) (made : Fin 16) (s : State) : Host.Outcome State Fault Refusal := .next (s.writeRunCtl w made)

/-- RUN_SET (R172, R174, R177). -/
def execRunSet (w : Word) (s : State) : Host.Outcome State Fault Refusal := .next (s.writeRunCtl w 0)

/-- RUN_CLEAR (R172, R177). -/
def execRunClear (w : Word) (s : State) : Host.Outcome State Fault Refusal := .next (s.writeRunCtl w 0)

/-- SWEEP_NOW (R147, R172). -/
def execSweepNow (w : Word) (s : State) : Host.Outcome State Fault Refusal := .next (s.writeRunCtl w 0)

/-- ATTN_WRITE (R167). -/
def execAttnWrite (w : Word) (s : State) : Host.Outcome State Fault Refusal := .next (s.writeAttn w)

/-- SHELF_CHG_WRITE (R167). -/
def execShelfChgWrite (w : Word) (s : State) : Host.Outcome State Fault Refusal := .next (s.writeShelfChg w)

/-- ATTN_EN_WRITE (R169). -/
def execAttnEnWrite (w : Word) (s : State) : Host.Outcome State Fault Refusal := .next (s.writeAttnEn w)

/-- MSCLK_L_READ (R180). -/
def execMsclkLRead (s : State) : Host.Outcome State Fault Refusal := .next s.readMsclkL

/-- REGISTER_WRITE_REFUSED (R171); an access that the port does not refuse is answered as the port answers it (log entry 18). -/
def execRegisterWriteRefused (reg : BitVec 14) (op : BusOp) (s : State) : Host.Outcome State Fault Refusal :=
  .next (s.registerAccess reg op)

/-- HOST_MEMORY_ACCESS (R138, R144, R145). -/
def execHostMemoryAccess (a : HostAccess) (ph : Phase) (s : State) : Host.Outcome State Fault Refusal :=
  match ph with
  | .request => .next (s.requestHost a)
  | .finish => .next (s.finishHost a)
  | .whole => .next ((s.requestHost a).finishHost a)

/-- TICK (R180, R181); while RESET_N is low the clock stays at 0 (R179). -/
def execTick (s : State) : Host.Outcome State Fault Refusal := .next (if s.resetLow then s else s.tickNow)

end Sys2Proof.Machine
end

