-- ==== Sys2Proof/Machine/EngineCommands.lean ====
section
/-! DEFINITION. The meaning of the EVALUATION row. -/

namespace Sys2Proof.Machine

/-- The evaluation in progress runs to its end; STOPPING may end with it (R82, R177). -/
def State.finishEvaluation (s : State) : State :=
  match s.evaluating with
  | some e => (s.endEvaluation e).endStopping
  | none => s

/-- EVALUATION (R82 to R99, R115, R117). -/
def execEvaluation (ph : EvalPhase) (s : State) : Host.Outcome State Fault Refusal :=
  match ph with
  | .take => .next s.takeShelf
  | .finish => .next s.finishEvaluation
  | .whole => .next (if s.evaluating.isSome then s else s.takeShelf.finishEvaluation)

end Sys2Proof.Machine
end

