-- ==== Sys2Proof/Machine/IntakeCommands.lean ====
section
/-! DEFINITION. The meanings of the rows in which the Intake Unit reads a record: the six of a sweep and the read of step 1. -/

namespace Sys2Proof.Machine

/-- The end of a transaction of the Intake Unit that a sweep made: the record's handover, the next position, the port freed, and
the end of STOPPING when this was the work in hand (R148, R150, R177). -/
def State.sweepTransaction (s : State) (handover : State → State) : State :=
  ((handover s).advanceSweep.releaseRecord).endStopping

/-- A row of the Intake Unit: a request for the port, the end of the transaction granted, or both. `fits` says whether the
record the Unit is at is of the row's kind; otherwise the row has no effect (log entries 1 and 3). -/
def State.intakeRow (s : State) (fits : Bool) (ph : Phase) (act : State → State) : State :=
  if fits then
    match ph with
    | .request => s.requestIntake
    | .finish => if s.arbiter.owner = .intake then act s else s
    | .whole => if s.requestIntake.arbiter.owner = .intake then act s.requestIntake else s.requestIntake
  else s

/-- GLOBAL_RECORD (R154). -/
def execGlobalRecord (ph : Phase) (s : State) : Host.Outcome State Fault Refusal :=
  .next (s.intakeRow (s.intake.position == some .global) ph (fun s => s.sweepTransaction State.takeGlobal))

/-- COMMAND_TAKE (R119). -/
def execCommandTake (ph : Phase) (s : State) : Host.Outcome State Fault Refusal :=
  match s.intake.position with
  | some (.slot i) => .next (s.intakeRow true ph (fun s => s.sweepTransaction (fun s => s.takeSlot i)))
  | _ => .next s

/-- SHELF_CONFIGURATION (R65 to R67, R151). -/
def execShelfConfiguration (ph : Phase) (s : State) : Host.Outcome State Fault Refusal :=
  match s.intake.position with
  | some (.shelfConfig i) => .next (s.intakeRow true ph (fun s => s.sweepTransaction (fun s => s.takeShelfConfig i)))
  | _ => .next s

/-- CANDIDATE_CONFIGURATION (R38 to R40, R152). -/
def execCandidateConfiguration (ph : Phase) (s : State) : Host.Outcome State Fault Refusal :=
  match s.intake.position with
  | some (.candConfig k) => .next (s.intakeRow true ph (fun s => s.sweepTransaction (fun s => s.takeCandConfig k)))
  | _ => .next s

/-- SHELF_REPORT (R71 to R73). -/
def execShelfReport (ph : Phase) (s : State) : Host.Outcome State Fault Refusal :=
  match s.intake.position with
  | some (.report i) => .next (s.intakeRow true ph (fun s => s.sweepTransaction (fun s => s.takeReport i)))
  | _ => .next s

/-- OBSERVATION (R21). -/
def execObservation (ph : Phase) (s : State) : Host.Outcome State Fault Refusal :=
  match s.intake.position with
  | some (.obs k) => .next (s.intakeRow true ph (fun s => s.sweepTransaction (fun s => s.takeObs k)))
  | _ => .next s

/-- The read of step 1 is due, or is in progress after RUN was cleared (R175). -/
def State.stepOneFits (s : State) : Bool :=
  s.engine == .starting .readGlobal
    || (s.engine == .stopping && s.arbiter.owner == .intake && s.intake.position.isNone)

/-- STARTUP_GLOBAL_READ (R157, R175, R44, R176). -/
def execStartupGlobalRead (ph : Phase) (s : State) : Host.Outcome State Fault Refusal :=
  .next (s.intakeRow s.stepOneFits ph (fun s => (s.stepOne.releaseRecord).endStopping))

end Sys2Proof.Machine
end

