-- ==== Sys2Proof/Machine/TimerCommands.lean ====
section
/-! DEFINITION. The meanings of the expiry rows and of the requests the Monitor takes. A row whose event cannot occur in the state
has no effect (log entry 1). -/

namespace Sys2Proof.Machine

/-- REPORT_DEADLINE_EXPIRY (R26, R181). -/
def execReportDeadlineExpiry (k : Fin 256) (s : State) : Host.Outcome State Fault Refusal :=
  .next (if s.engine.acts ∧ isDue s.cands[k].reportDeadline then s.reportExpiry k else s)

/-- HOLD_OFF_EXPIRY (R31, R181). -/
def execHoldOffExpiry (k : Fin 256) (s : State) : Host.Outcome State Fault Refusal :=
  .next (if s.engine.acts ∧ s.cands[k].state = .suspect ∧ isDue s.cands[k].stateDeadline then
    s.candEvent k s.cands[k].holdOffExpires else s)

/-- WTR_EXPIRY (R34, R181). -/
def execWtrExpiry (k : Fin 256) (s : State) : Host.Outcome State Fault Refusal :=
  .next (if s.engine.acts ∧ s.cands[k].state = .restoring ∧ isDue s.cands[k].stateDeadline then
    s.candEvent k s.cands[k].restored else s)

/-- ACQUISITION_EXPIRY (R74, R181): an evaluation of the shelf that is in progress ends first (R63). -/
def execAcquisitionExpiry (i : Fin 32) (s : State) : Host.Outcome State Fault Refusal :=
  let s' := s.settle i
  .next (if s.engine.acts ∧ isDue s.shelves[i].acqDeadline then
    (if s'.shelves[i].state = .acquiring ∧ isDue s'.shelves[i].acqDeadline then s'.acquisitionFails i else s') else s)

/-- LEARNING_EXPIRY (R75, R181): an evaluation of the shelf that is in progress ends first (R63). -/
def execLearningExpiry (i : Fin 32) (s : State) : Host.Outcome State Fault Refusal :=
  let s' := s.settle i
  .next (if s.engine.acts ∧ isDue s.shelves[i].learnDeadline then
    (if s'.shelves[i].state = .locked ∧ isDue s'.shelves[i].learnDeadline then s'.learned i else s') else s)

/-- HOLDOVER_DEADLINE_EXPIRY (R76, R181): an evaluation of the shelf that is in progress ends first (R63). -/
def execHoldoverDeadlineExpiry (i : Fin 32) (s : State) : Host.Outcome State Fault Refusal :=
  let s' := s.settle i
  .next (if s.engine.acts ∧ isDue s.shelves[i].holdDeadline then
    (if s'.shelves[i].state = .holdover ∧ isDue s'.shelves[i].holdDeadline then s'.holdoverExpires i else s') else s)

/-- SWEEP_DEADLINE_EXPIRY (R147, R181): the deadline becomes absent and a sweep is requested. -/
def execSweepDeadlineExpiry (s : State) : Host.Outcome State Fault Refusal :=
  .next (if isDue s.intake.sweepDeadline then
    ({ s with intake := { s.intake with sweepDeadline := none } } : State).sweepRequest else s)

/-- The Monitor takes requests while the engine is STARTING, RUNNING or STOPPING, and rests while it is HALTED (section 2.8,
R44). -/
def EngineState.monitors : EngineState → Bool
  | .halted => false
  | .starting _ => true
  | .running => true
  | .stopping => true

/-- ACQUISITION_FAILURE_REQUEST (R35). -/
def execAcquisitionFailureRequest (k : Fin 256) (s : State) : Host.Outcome State Fault Refusal :=
  .next (if s.engine.monitors ∧ .acqFailure k ∈ s.requests then s.takeRequest (.acqFailure k) else s)

/-- LOCK_LOST_REQUEST (R36). -/
def execLockLostRequest (k : Fin 256) (s : State) : Host.Outcome State Fault Refusal :=
  .next (if s.engine.monitors ∧ .lockLost k ∈ s.requests then s.takeRequest (.lockLost k) else s)

/-- CLEAR_WTR_REQUEST (R37). -/
def execClearWtrRequest (k : Fin 256) (s : State) : Host.Outcome State Fault Refusal :=
  .next (if s.engine.monitors ∧ .clearWtr k ∈ s.requests then s.takeRequest (.clearWtr k) else s)

end Sys2Proof.Machine
end

