-- ==== Sys2Proof/Machine/WriterCommands.lean ====
section
/-! DEFINITION. The meanings of the rows in which the Result Writer uses the port. -/

namespace Sys2Proof.Machine

/-- The Result Writer serves its list now: step 3 of STARTING, whose transactions come first, is not in progress (R123, R160). -/
def State.servesList (s : State) : Bool := s.writerJob == some .item

/-- A row of the Result Writer for the item at the head of its list: a request for the port, the end of the transaction granted,
or both (log entry 3). -/
def State.writerRow (s : State) (ph : Phase) (act : State → State) : State :=
  match ph with
  | .request => if s.servesList then s.requestWriter .item else s
  | .finish => if s.arbiter.owner = .writer .item then (act s).releaseRecord else s
  | .whole =>
    let s' := if s.servesList then s.requestWriter .item else s
    if s'.arbiter.owner = .writer .item then (act s').releaseRecord else s'

/-- SHELF_RESULT_WRITE (R161, R162). -/
def execShelfResultWrite (ph : Phase) (s : State) : Host.Outcome State Fault Refusal :=
  match s.writer.list.head? with
  | some (.shelfResult i) => .next (s.writerRow ph (fun s => s.shelfResultWritten i))
  | _ => .next s

/-- CANDIDATE_RESULT_WRITE (R161, R163). -/
def execCandidateResultWrite (ph : Phase) (s : State) : Host.Outcome State Fault Refusal :=
  match s.writer.list.head? with
  | some (.candResult k) => .next (s.writerRow ph (fun s => s.candResultWritten k))
  | _ => .next s

/-- LOG_ENTRY_WRITE (R165). -/
def execLogEntryWrite (ph : Phase) (s : State) : Host.Outcome State Fault Refusal :=
  match s.writer.list.head? with
  | some (.logEntry e) => .next (s.writerRow ph (fun s => s.logEntryWritten e))
  | _ => .next s

/-- LOG_CONTROL_WRITE (R161, R166). -/
def execLogControlWrite (ph : Phase) (s : State) : Host.Outcome State Fault Refusal :=
  match s.writer.list.head? with
  | some .logControl => .next (s.writerRow ph State.logControlWritten)
  | _ => .next s

/-- COMMAND_COMPLETION (R121). -/
def execCommandCompletion (ph : Phase) (s : State) : Host.Outcome State Fault Refusal :=
  match s.writer.list.head? with
  | some (.completion i o) => .next (s.writerRow ph (fun s => s.completionMade i o))
  | _ => .next s

/-- The end of a step-3 transaction: the slot is settled, the step goes on if it is still in progress, the port is freed (R123). -/
def State.endAbort (s : State) (i : Fin 32) (live : Bool) : State :=
  (if live then (s.slotExamined i).afterSlot i else s.slotExamined i).releaseRecord

/-- ABORTED_COMPLETION (R123, R174). -/
def execAbortedCompletion (ph : Phase) (s : State) : Host.Outcome State Fault Refusal :=
  let ask := fun s : State => match s.engine with
    | .starting (.slots i) => s.requestWriter (.abort i true)
    | .starting .readGlobal | .starting .sweep | .halted | .running | .stopping => s
  let finish := fun s : State => match s.arbiter.owner with
    | .writer (.abort i live) => s.endAbort i live
    | .none | .localBus | .intake | .writer .item => s
  match ph with
  | .request => .next (ask s)
  | .finish => .next (finish s)
  | .whole => .next (finish (ask s))

end Sys2Proof.Machine
end

