-- ==== Sys2Proof/Machine/Dispatch.lean ====
section
/-! DEFINITION. exec: one arm per row of spec/opcode_table.json, each one call of the row's meaning. -/

namespace Sys2Proof.Machine

/-- The effect of a command on everything but the queue of waiting commands. -/
def exec (i : Instr) (s : State) : Host.Outcome State Fault Refusal :=
  match i with
  | .powerOn => Sys2Proof.Machine.execPowerOn s
  | .resetN made => Sys2Proof.Machine.execResetN made s
  | .resetNRelease => Sys2Proof.Machine.execResetNRelease s
  | .fullReset w made => Sys2Proof.Machine.execFullReset w made s
  | .restart w made => Sys2Proof.Machine.execRestart w made s
  | .runSet w => Sys2Proof.Machine.execRunSet w s
  | .runClear w => Sys2Proof.Machine.execRunClear w s
  | .sweepNow w => Sys2Proof.Machine.execSweepNow w s
  | .attnWrite w => Sys2Proof.Machine.execAttnWrite w s
  | .shelfChgWrite w => Sys2Proof.Machine.execShelfChgWrite w s
  | .attnEnWrite w => Sys2Proof.Machine.execAttnEnWrite w s
  | .msclkLRead => Sys2Proof.Machine.execMsclkLRead s
  | .registerWriteRefused reg op => Sys2Proof.Machine.execRegisterWriteRefused reg op s
  | .hostMemoryAccess access ph => Sys2Proof.Machine.execHostMemoryAccess access ph s
  | .tick => Sys2Proof.Machine.execTick s
  | .reportDeadlineExpiry k => Sys2Proof.Machine.execReportDeadlineExpiry k s
  | .holdOffExpiry k => Sys2Proof.Machine.execHoldOffExpiry k s
  | .wtrExpiry k => Sys2Proof.Machine.execWtrExpiry k s
  | .acquisitionExpiry j => Sys2Proof.Machine.execAcquisitionExpiry j s
  | .learningExpiry j => Sys2Proof.Machine.execLearningExpiry j s
  | .holdoverDeadlineExpiry j => Sys2Proof.Machine.execHoldoverDeadlineExpiry j s
  | .sweepDeadlineExpiry => Sys2Proof.Machine.execSweepDeadlineExpiry s
  | .globalRecord ph => Sys2Proof.Machine.execGlobalRecord ph s
  | .commandTake ph => Sys2Proof.Machine.execCommandTake ph s
  | .shelfConfiguration ph => Sys2Proof.Machine.execShelfConfiguration ph s
  | .candidateConfiguration ph => Sys2Proof.Machine.execCandidateConfiguration ph s
  | .shelfReport ph => Sys2Proof.Machine.execShelfReport ph s
  | .observation ph => Sys2Proof.Machine.execObservation ph s
  | .acquisitionFailureRequest k => Sys2Proof.Machine.execAcquisitionFailureRequest k s
  | .lockLostRequest k => Sys2Proof.Machine.execLockLostRequest k s
  | .clearWtrRequest k => Sys2Proof.Machine.execClearWtrRequest k s
  | .evaluation ph => Sys2Proof.Machine.execEvaluation ph s
  | .shelfResultWrite ph => Sys2Proof.Machine.execShelfResultWrite ph s
  | .candidateResultWrite ph => Sys2Proof.Machine.execCandidateResultWrite ph s
  | .logEntryWrite ph => Sys2Proof.Machine.execLogEntryWrite ph s
  | .logControlWrite ph => Sys2Proof.Machine.execLogControlWrite ph s
  | .commandCompletion ph => Sys2Proof.Machine.execCommandCompletion ph s
  | .abortedCompletion ph => Sys2Proof.Machine.execAbortedCompletion ph s
  | .startupGlobalRead ph => Sys2Proof.Machine.execStartupGlobalRead ph s

end Sys2Proof.Machine
end

