-- ==== Sys2Proof/Safety.lean ====
section
/-! DEFINITION. The laws of the device that every step keeps, and the words in which the statements are made. -/

namespace Sys2Proof.Machine

/-! ### Words of the statements -/

/-- A list with an element that joins at the tail, or keeps its place if it waits already (R113, R160). -/
def joined {α : Type} [DecidableEq α] (l : List α) (x : α) : List α := if x ∈ l then l else l ++ [x]

/-- The Result Writer after the handover of a log entry of shelf `i` (R164, R160): an entry that waits for the same write index is
removed, but not the head while its transaction is in progress (`served`). -/
def Writer.noted (w : Writer) (served : Bool) (now : Nat) (i : Fin 32) (n : LogNote) : Writer :=
  if w.logEnable = false then w
  else { w with
    nextEntry := w.nextEntry + 1
    list := (if served then w.list.take 1 else []) ++
      ((if served then w.list.drop 1 else w.list).filter fun item => !item.isLogAt (w.nextEntry.toNat % 128)) ++
      [.logEntry ⟨w.nextEntry, now, i, n.kind, n.previous, n.new, n.cls, n.reason⟩] }

/-- The Result Writer with a request for a record (R160). -/
def Writer.asked (w : Writer) (item : WriteItem) : Writer := { w with list := joined w.list item }

/-- The Result Writer after the handover of a command's completion (R160). -/
def Writer.completed (w : Writer) (i : Fin 32) (o : CmdOutcome) : Writer := { w with list := w.list ++ [.completion i o] }

/-- The Result Writer after stages 6 and 7 of an evaluation of shelf `i`: the changed candidate results, then the shelf result,
then the log entry, then the completion (R97, R98). -/
def Writer.evaluated (w : Writer) (served : Bool) (now : Nat) (i : Fin 32) (slots : List (Fin 8)) (changed : Bool)
    (note : Option LogNote) (outcome : Option CmdOutcome) : Writer :=
  let w1 := (slots.map fun j => .candResult (flat i j)).foldl Writer.asked w
  let w2 := if changed then w1.asked (.shelfResult i) else w1
  let w3 := match note with
    | some n => w2.noted served now i n
    | none => w2
  match outcome with
  | some o => w3.completed i o
  | none => w3

/-- The arbiter once the port has become free: a waiting host access first; then the internal requester that waits and has
something to do, the one the turn names when both do, the turn passing to the other; a mark with nothing behind it goes (R145). -/
def Arbiter.handedOn (a : Arbiter) (intakeWants : Bool) (job : Option WriterJob) : Arbiter :=
  if a.host.isSome then { a with owner := .localBus }
  else if a.intakeWaits && intakeWants && (a.turn == .intake || !(a.writerWaits && job.isSome)) then
    { a with owner := .intake, turn := .writer, intakeWaits := false }
  else match a.writerWaits, job with
    | true, some j => { a with owner := .writer j, turn := .intake, writerWaits := false }
    | _, _ => { a with owner := .none, intakeWaits := false, writerWaits := false }

/-- The port has been handed on from `s` to `t` at the end of a record transaction. -/
def State.portPassed (s t : State) : Prop := t.arbiter = s.arbiter.handedOn t.intakeWants t.writerJob

/-- The words at `addr 0`, `addr 1`, … have become `words`, and every byte outside them reads as before. -/
def State.wrote (s t : State) (addr : Nat → BitVec 14) (words : List Word) : Prop :=
  (∀ n (h : n < words.length), t.mem.readWord (addr n) = words[n]) ∧
    ∀ a : Nat, (∀ n < words.length, a / 4 ≠ (addr n).toNat) → t.mem.readByte a = s.mem.readByte a

/-- What a restart or full reset that cuts a transaction after `made` accesses leaves of the memory and the arbiter, and the
fields that no reset touches (R146, R158). -/
def State.cutTo (s t : State) (made : Nat) : Prop :=
  t.mem = s.cutMemory made ∧
    t.arbiter = { owner := if s.arbiter.host.isSome then .localBus else .none, turn := .writer, host := s.arbiter.host,
                  intakeWaits := false, writerWaits := false } ∧
    t.powerOns = s.powerOns ∧ t.pending = s.pending

/-- The words of a record whose first and last word are equal (R139). -/
def framed (first : Word) (body : List Word) : List Word := first :: body ++ [first]

/-- A sweep transaction for the record at `p` ends, in an engine state other than STOPPING (R148, R150). -/
def State.sweepingAt (s : State) (p : Position) : Prop :=
  s.intake.position = some p ∧ s.arbiter.owner = .intake ∧ s.engine ≠ .stopping

/-- What the end of a transaction of a sweep leaves: the Intake Unit as given with the next position, the port handed on. -/
def State.sweptTo (s t : State) (p : Position) (v : Intake) : Prop :=
  t.intake = { v with position := p.next s.intake.applied.shelfCount } ∧ s.portPassed t

/-- A deadline across a tick to `now`: absent as before, or present with its time and the mark that it has come due (R181). -/
def ticked (now : Nat) (d d' : Option Deadline) : Prop :=
  (d = none → d' = none) ∧
    ∀ x, d = some x → (x.time ≤ now → d' = some { x with due := true }) ∧ (now < x.time → d' = some x)

/-- A record with this sequence word and echo is taken in a sweep (R141). -/
def fresh (seq echo : Word) (last : Option Word) : Prop := seq ≠ 0 ∧ seq = echo ∧ last ≠ some seq

/-- The requests for the candidate results of the slots of shelf `i` that satisfy a condition, in ascending slot. -/
def candItems (i : Fin 32) (cond : Fin 8 → Bool) : List WriteItem :=
  ((List.finRange 8).filter cond).map fun j => .candResult (flat i j)

/-- The candidates of shelf `i` whose reasons or fault count change under a new parameter set (R41). -/
def State.recounts (s : State) (i : Fin 32) (p : MonitorParams) (j : Fin 8) : Bool :=
  let c := s.cands[flat i j]
  let d := c.reparam s.params[i] p s.clock
  c.state != .off && (d.reasons != c.reasons || faultCount d.history != faultCount c.history)

/-- No evaluation of shelf `i` is in progress. -/
def State.notEvaluating (s : State) (i : Fin 32) : Prop := ∀ e, s.evaluating = some e → e.shelf ≠ i

/-- The fields of State. -/
inductive Part where
  | run | engine | haltCause | resetLow | bus | causes | enables | shelfChg | msclkH | prescaler | clock | mem | arbiter
  | intake | cands | params | requests | shelves | judged | queue | evaluating | writer | powerOns | pending
deriving DecidableEq, Repr

/-- Every field of State that is not listed is the same in both states: the frame of a command. -/
structure Keeps (changed : List Part) (s t : State) : Prop where
  run : .run ∈ changed ∨ t.run = s.run
  engine : .engine ∈ changed ∨ t.engine = s.engine
  haltCause : .haltCause ∈ changed ∨ t.haltCause = s.haltCause
  resetLow : .resetLow ∈ changed ∨ t.resetLow = s.resetLow
  bus : .bus ∈ changed ∨ t.bus = s.bus
  causes : .causes ∈ changed ∨ t.causes = s.causes
  enables : .enables ∈ changed ∨ t.enables = s.enables
  shelfChg : .shelfChg ∈ changed ∨ t.shelfChg = s.shelfChg
  msclkH : .msclkH ∈ changed ∨ t.msclkH = s.msclkH
  prescaler : .prescaler ∈ changed ∨ t.prescaler = s.prescaler
  clock : .clock ∈ changed ∨ t.clock = s.clock
  mem : .mem ∈ changed ∨ t.mem = s.mem
  arbiter : .arbiter ∈ changed ∨ t.arbiter = s.arbiter
  intake : .intake ∈ changed ∨ t.intake = s.intake
  cands : .cands ∈ changed ∨ t.cands = s.cands
  params : .params ∈ changed ∨ t.params = s.params
  requests : .requests ∈ changed ∨ t.requests = s.requests
  shelves : .shelves ∈ changed ∨ t.shelves = s.shelves
  judged : .judged ∈ changed ∨ t.judged = s.judged
  queue : .queue ∈ changed ∨ t.queue = s.queue
  evaluating : .evaluating ∈ changed ∨ t.evaluating = s.evaluating
  writer : .writer ∈ changed ∨ t.writer = s.writer
  powerOns : .powerOns ∈ changed ∨ t.powerOns = s.powerOns
  pending : .pending ∈ changed ∨ t.pending = s.pending

/-- The row in which the Monitor takes a request of the Engine (R35 to R37). -/
def Request.row : Request → Instr
  | .acqFailure k => .acquisitionFailureRequest k
  | .lockLost k => .lockLostRequest k
  | .clearWtr k => .clearWtrRequest k

/-- Commands have their effects one after another, the first one on `s`, and leave `t`. -/
def Runs : List Instr → State → State → Prop
  | [], s, t => t = s
  | c :: rest, s, t => ∃ u, exec c s = .next u ∧ Runs rest u t

/-- STOPPING has ended from `u`: the requests that still waited have been taken as their rows take them, in their order (log entry
29), and the engine is HALTED, or in STARTING when RUN has been set again (R44, R150, R157, R177). -/
def State.stoppedTo (u t : State) : Prop :=
  t.requests = [] ∧ ∃ v, Runs (u.requests.map Request.row) u v ∧ Keeps [.engine, .haltCause, .intake] v t ∧
    (u.run = false → t.engine = .halted ∧ t.haltCause = u.haltCause ∧ t.intake = { u.intake with
      pendingGlobals := none, sweepDeadline := none, position := none, furtherSweep := false }) ∧
    (u.run = true → t.engine = .starting .readGlobal ∧ t.haltCause = .none ∧ t.intake = { u.intake with pendingGlobals := none })

/-- The part as a sweep in RUNNING, without a further-sweep mark, would find it. -/
def State.asRunning (s : State) : State :=
  { s with engine := .running, intake := { s.intake with furtherSweep := false } }

/-- A sweep is requested, by SWEEP_NOW or by the expiry of the sweep deadline; `u` is the part before the request acts (R147). -/
def State.requestsSweep (s : State) (c : Instr) (u : State) : Prop :=
  (∃ w : Word, c = .sweepNow w ∧ s.resetLow = false ∧ s.run = true ∧ w.getLsbD 0 = true ∧ w.getLsbD 1 = true ∧
    w.getLsbD 2 = false ∧ w.getLsbD 3 = false ∧ u = { s with bus := ⟨none, false⟩ }) ∨
  (c = .sweepDeadlineExpiry ∧ (∃ d, s.intake.sweepDeadline = some d ∧ d.due = true) ∧
    u = { s with intake := { s.intake with sweepDeadline := none } })

/-- The transaction at the last position of a sweep ends in RUNNING or in step 5 of STARTING, and `u` is the part before the port is
handed on and a marked further sweep starts: the record has had the effect that it has in RUNNING without a mark, the sweep is over,
and after step 5 every result is requested and the engine is RUNNING (R147, R148, R174; log entry 9). -/
def State.sweepEndsIn (s u : State) : Prop :=
  s.sweepingAt (.obs 255) ∧ ∃ v, exec (.observation .finish) s.asRunning = .next v ∧
    ((s.engine = .running ∧ u = { v with arbiter := s.arbiter }) ∨
      (s.engine = .starting .sweep ∧ u = { v with
        arbiter := s.arbiter
        writer := ((List.finRange 32).map WriteItem.shelfResult ++ (List.finRange 256).map WriteItem.candResult).foldl
          Writer.asked v.writer }))

/-- A sweep starts in RUNNING, by a request or by the further-sweep mark at the end of another one, and `u` is the part before it
does (R147). -/
def State.startsSweep (s : State) (c : Instr) (u : State) : Prop :=
  (s.engine = .running ∧ s.intake.position = none ∧ s.requestsSweep c u) ∨
    (c = .observation .finish ∧ s.intake.furtherSweep = true ∧ s.sweepEndsIn u)

/-- The Result Writer after shelf `i` of `u` has become DISABLED (R67, R42): a taken command is completed as SHELF_OFF, the DISABLED
log entry is handed over, and the results of the candidates that were not OFF are requested, in this order (log entry 14). -/
def State.disabledFrom (u : State) (w : Writer) (i : Fin 32) : Writer :=
  (candItems i fun j => u.cands[flat i j].state != .off).foldl Writer.asked
    ((if u.shelves[i].taken.isSome then w.completed i .shelfOff else w).noted u.arbiter.servesItem u.clock i
      { kind := .disabled, previous := u.shelves[i].selected, new := none, cls := .qc6, reason := .config })

/-! ### Laws of the device -/

/-- The Exchange Memory is in its canonical form. -/
def MemoryLaw (s : State) : Prop := s.mem.wf = true

/-- The relations between the fields of a shelf's entry (R64, R68, R101). -/
structure ShelfLaw (sh : Shelf) : Prop where
  /-- "A shelf has a selected slot exactly when its state is ACQUIRING or LOCKED" (R64). -/
  selection : sh.selected.isSome = true ↔ (sh.state = .acquiring ∨ sh.state = .locked)
  /-- A shelf in HOLDOVER has its history-valid flag set (R64). -/
  held : sh.state = .holdover → sh.historyValid = true
  /-- A shelf in FREE_RUN or DISABLED has it clear (R64). -/
  clear : sh.state = .freeRun ∨ sh.state = .disabled → sh.historyValid = false
  /-- The acquisition deadline runs only in ACQUIRING (R64). -/
  acquisition : sh.acqDeadline.isSome = true → sh.state = .acquiring
  /-- The learning deadline runs only during learning in LOCKED (R64, R75). -/
  learning : sh.learnDeadline.isSome = true → sh.state = .locked ∧ sh.historyValid = false
  /-- The holdover deadline runs exactly in HOLDOVER (R64, R69). -/
  holdover : sh.holdDeadline.isSome = true ↔ sh.state = .holdover
  /-- A followed source belongs to an ACQUIRING or LOCKED shelf (R101). -/
  following : sh.followed.isSome = true → sh.state = .acquiring ∨ sh.state = .locked
  /-- The switch count never exceeds 65,535 (R68). -/
  count : sh.switchCount ≤ 65535

/-- Every shelf's entry keeps the relations of R64. -/
def ShelvesLaw (s : State) : Prop := ∀ i : Fin 32, ShelfLaw s.shelves[i]

/-- The relations between the fields of a candidate's entry, with its shelf's fault window (R23, R28 to R33, R38, R42, R52). -/
structure CandLaw (window : Nat) (c : Candidate) : Prop where
  /-- Only SUSPECT and FAILED candidates carry failure reasons (R28 to R33). -/
  reasons : c.reasons.any = true ↔ (c.state = .suspect ∨ c.state = .failed)
  /-- The state deadline runs exactly in SUSPECT and RESTORING (R29, R32). -/
  deadline : c.stateDeadline.isSome = true ↔ (c.state = .suspect ∨ c.state = .restoring)
  /-- An OFF candidate holds nothing that monitoring gathers (R38, R42). -/
  off : c.state = .off → c.history = [] ∧ c.received = none ∧ c.average = none ∧ c.lastRaw = none ∧ c.lastObs = none ∧
    c.reportDeadline = none
  /-- "the history never holds more than W entries" (R23). -/
  window : c.history.length ≤ window
  /-- "a candidate's averaged offset, when present, lies within −1,000,000 to +1,000,000 ppb" (R52). -/
  offset : ∀ a, c.average = some a → -1000000 ≤ a ∧ a ≤ 1000000

/-- Every candidate's entry keeps the relations of chapter 2. -/
def CandsLaw (s : State) : Prop := ∀ k : Fin 256, CandLaw s.params[shelfOf k].window s.cands[k]

/-- The candidates of a DISABLED shelf are all OFF (R42). -/
def ServiceLaw (s : State) : Prop := ∀ k : Fin 256, s.shelves[shelfOf k].state = .disabled → s.cands[k].state = .off

/-- A live pointer leads from one shelf to another (R102). -/
def follows (shelves : Vector Shelf 32) (x y : Fin 32) : Prop := shelves[x].followed = some y

/-- "Following the live pointers from any shelf never returns to that shelf" (R102). -/
def NoRing (shelves : Vector Shelf 32) : Prop := ∀ x : Fin 32, ¬ Relation.TransGen (follows shelves) x x

/-- "Every published shelf path holds 1 to 8 distinct shelf numbers and ends with the shelf's own number" (R108). -/
def PathOf (i : Fin 32) (path : List (Fin 32)) : Prop := path.length ≤ 8 ∧ path.Nodup ∧ path.getLast? = some i

/-- The shelf-to-shelf timing graph (R102, R108). The inputs of an evaluation in progress hold no ring either, and every
pointer that stands stood when it began. -/
structure GraphLaw (s : State) : Prop where
  pointers : NoRing s.shelves
  inputs : ∀ e, s.evaluating = some e → NoRing e.shelves ∧ ∀ x y, follows s.shelves x y → follows e.shelves x y
  paths : ∀ i : Fin 32, PathOf i s.shelves[i].published.path

/-- The record that an item of the write list names, as one of 449 (R160). -/
def WriteItem.record : WriteItem → Nat
  | .shelfResult i => i.val
  | .candResult k => 32 + k.val
  | .logControl => 288
  | .completion i _ => 289 + i.val
  | .logEntry e => 321 + logIndex e.number

/-- The write list holds at most one item for each record, and a taken command has no completion waiting (R120, R160). -/
structure WriteLaw (s : State) : Prop where
  /-- Only a log entry at the head, while its transaction is in progress, can have a newer entry for its index behind it. -/
  single : (s.writer.list.map WriteItem.record).Nodup ∨
    (s.arbiter.owner = .writer .item ∧ ∃ e rest, s.writer.list = .logEntry e :: rest ∧ (rest.map WriteItem.record).Nodup)
  /-- A transaction of the Result Writer in progress has its item at the head of the list. -/
  served : s.arbiter.owner = .writer .item → s.writer.list ≠ []
  command : ∀ i : Fin 32, s.shelves[i].taken.isSome = true → s.writer.list.any (WriteItem.isCompletionOf i) = false
  inHand : ∀ e, s.evaluating = some e → e.taken.isSome = true → s.shelves[e.shelf].taken.isSome = true

/-- An optional deadline holds a 48-bit clock time (R181). -/
def timely (d : Option Deadline) : Prop := ∀ x, d = some x → x.time ≤ maxClock

/-- The clock and all 609 deadlines hold 48-bit values, and the prescaler counts to 49,999 (R180, R181). -/
structure ClockLaw (s : State) : Prop where
  clock : s.clock ≤ maxClock
  prescaler : s.prescaler < 50000
  sweep : timely s.intake.sweepDeadline
  cands : ∀ k : Fin 256, timely s.cands[k].reportDeadline ∧ timely s.cands[k].stateDeadline
  shelves : ∀ i : Fin 32,
    timely s.shelves[i].acqDeadline ∧ timely s.shelves[i].learnDeadline ∧ timely s.shelves[i].holdDeadline

/-- The Evaluation Queue holds each shelf once (R113), a publication value is never 0 (R161), and the applied global values are
in their ranges (R154, R157). -/
structure RangeLaw (s : State) : Prop where
  queue : s.queue.Nodup
  publication : s.writer.publication ≠ 0
  applied : s.intake.applied.shelfCount ≤ 32 ∧ 10 ≤ s.intake.applied.period ∧ s.intake.applied.period ≤ 1000
  pending : ∀ g, s.intake.pendingGlobals = some g → (1 ≤ g.shelfCount ∧ g.shelfCount ≤ 32) ∧ 10 ≤ g.period ∧ g.period ≤ 1000

end Sys2Proof.Machine
end

