-- ==== Sys2Proof/Certificates/Slice0/Obligations.lean ====
section
/-! DEFINITION. The statements for the provers: what each command and the machine do, by the numbered rules of the spec. -/

open Sys2Proof Sys2Proof.Machine

/-! ### The step, reset and the resets -/

/-- The step takes the command at the front of the queue and answers exec of it on the state with the queue's rest. -/
def Obligations.StepRunsTheFrontCommand : Prop :=
  ∀ (c : Instr) (rest : List Instr) (s : State), s.pending = c :: rest → step s = exec c { s with pending := rest }

/-- Log entry 2 (DESIGN CHOICE): on an empty queue the input clock makes one cycle, and the 50,000th is a TICK (R180). -/
def Obligations.EmptyQueueMakesOneInputCycle : Prop :=
  ∀ s : State, s.pending = [] →
    (s.resetLow = true → step s = .next s) ∧
    (s.resetLow = false → s.prescaler < 49999 → step s = .next { s with prescaler := s.prescaler + 1 }) ∧
    (s.resetLow = false → 49999 ≤ s.prescaler → step s = exec .tick s)

/-- No command stops the part: log entry 27 (DEDUCED from R171 and R175; the spec names no event that does). No command touches the
queue of those that wait, which is the model's own. -/
def Obligations.EveryCommandAnswersAndKeepsTheQueue : Prop :=
  ∀ (c : Instr) (s : State), ∃ t, exec c s = .next t ∧ t.pending = s.pending

/-- The state after reset meets every law. -/
def Obligations.ResetMeetsEveryLaw : Prop :=
  MemoryLaw State.reset ∧ ShelvesLaw State.reset ∧ CandsLaw State.reset ∧ ServiceLaw State.reset ∧ GraphLaw State.reset ∧
    WriteLaw State.reset ∧ ClockLaw State.reset ∧ RangeLaw State.reset

/-- The reset values that the spec states (R10, R18, R19, R20, R61, R62, R87, R158, R159, R179). -/
def Obligations.ResetLeavesTheStatedValues : Prop :=
  (∀ reg, State.reset.regValue reg = if reg = 0 then 0x57320801 else 0) ∧
  State.reset.attnAsserted = false ∧ State.reset.engine = .halted ∧ State.reset.run = false ∧ State.reset.haltCause = .none ∧
  State.reset.clock = 0 ∧ State.reset.prescaler = 0 ∧ State.reset.queue = [] ∧ State.reset.evaluating = none ∧
  State.reset.requests = [] ∧
  (∀ k : Fin 256, State.reset.cands[k] =
    { config := { kind := .off, priority := 8, cap := .qc1, frequency := 10000000, limit := 2000, timeout := 2000 }
      outcome := .none, state := .off, reasons := ⟨false, false, false⟩, history := [], received := none, average := none,
      lastRaw := none, lastObs := none, reportDeadline := none, stateDeadline := none }) ∧
  (∀ k : Fin 256, State.reset.judged[k] = { cls := .qc6, code := .off, lockedOut := false }) ∧
  (∀ i : Fin 32, State.reset.params[i] = { window := 8, threshold := 3, exponent := 2, holdOff := 20, waitToRestore := 300 }) ∧
  (∀ i : Fin 32, State.reset.shelves[i] =
    { config := { enable := false, policy := .direct, guardClass := .qc3, floorClass := .qc5, holdoverClass := .qc3,
                  monitor := ⟨8, 3, 2, 20, 300⟩, learningTime := 600, holdoverLimit := 240, acqTimeout := 30 }
      outcome := .none, outcomeSeq := 0, state := .disabled, mode := .auto, selected := none, lockout := .replicate 8 false,
      historyValid := false, holdoverExpired := false, taken := none, acqDeadline := none, learnDeadline := none,
      holdDeadline := none, pendingReason := none, switchCount := 0, lastReason := .start, lastTime := 0, followed := none
      published := { state := .disabled, mode := .auto, selected := none, outputClass := .qc6, barring := .none, path := [i],
                     historyValid := false, holdoverExpired := false, switchCount := 0, lastReason := .start, lastTime := 0,
                     outcome := .none, outcomeSeq := 0 } }) ∧
  State.reset.arbiter = { owner := .none, turn := .writer, host := none, intakeWaits := false, writerWaits := false } ∧
  State.reset.intake.applied = { shelfCount := 0, period := 100, logEnable := false } ∧
  State.reset.intake.pendingGlobals = none ∧ State.reset.intake.sweepDeadline = none ∧ State.reset.intake.position = none ∧
  State.reset.intake.furtherSweep = false ∧ State.reset.intake.lastGlobal = none ∧
  (∀ i : Fin 32, State.reset.intake.lastShelfConfig[i] = none ∧ State.reset.intake.lastReport[i] = none) ∧
  (∀ k : Fin 256, State.reset.intake.lastCandConfig[k] = none ∧ State.reset.intake.lastObs[k] = none) ∧
  State.reset.writer = { publication := 1, nextEntry := 0, loggedEntry := 0, lastEntryTime := 0, logEnable := false,
                         globalOutcome := .none, globalSeq := 0, list := [], written := .replicate 32 .disabled }

/-- POWER_ON, FULL_RESET and RESET_N leave everything at its reset value but, at power-on, the pin's level (log entry 17, DESIGN CHOICE)
and the memory, whose contents are the free value of log entry 5 (the statement holds whatever they are), and otherwise the memory, the
host access at the port and the model's own fields (R138, R146, R158, R179). That power-on drops a host access at the port is log entry
23 (DEDUCED). RESET_N holds the part in reset. -/
def Obligations.FullResetsLeaveTheResetValues : Prop :=
  (∀ s : State, ∃ t, exec .powerOn s = .next t ∧ Keeps [.resetLow, .mem, .powerOns, .pending] State.reset t ∧
    t.resetLow = s.resetLow ∧ t.pending = s.pending ∧ t.powerOns = s.powerOns + 1 ∧
    t.mem = Memory.ofCells (Config.powerOnContents s.powerOns) ∧ t.mem.wf = true) ∧
  ∀ (s : State) (made : Fin 16),
    (∀ w : Word, s.resetLow = false → w.getLsbD 3 = true → ∃ t, exec (.fullReset w made) s = .next t ∧
      Keeps [.bus, .mem, .arbiter, .powerOns, .pending] State.reset t ∧ t.bus = ⟨none, false⟩ ∧ s.cutTo t made) ∧
    (∃ t, exec (.resetN made) s = .next t ∧ Keeps [.resetLow, .bus, .mem, .arbiter, .powerOns, .pending] State.reset t ∧
      t.resetLow = true ∧ t.bus = s.bus ∧ s.cutTo t made)

/-- While RESET_N is low, writes to RUN_CTL are ignored without error and the clock stays at 0 (R179); that writes to ATTN,
SHELF_CHG and ATTN_EN leave those registers at their reset values is log entry 17 (DEDUCED). RESET_N_RELEASE raises the pin. -/
def Obligations.PinHeldLowIgnoresWrites : Prop :=
  (∀ s : State, exec .resetNRelease s = .next { s with resetLow := false }) ∧
  ∀ s : State, s.resetLow = true →
    (∀ (w : Word) (made : Fin 16),
      exec (.fullReset w made) s = .next { s with bus := ⟨none, false⟩ } ∧
      exec (.restart w made) s = .next { s with bus := ⟨none, false⟩ } ∧
      exec (.runSet w) s = .next { s with bus := ⟨none, false⟩ } ∧
      exec (.runClear w) s = .next { s with bus := ⟨none, false⟩ } ∧
      exec (.sweepNow w) s = .next { s with bus := ⟨none, false⟩ } ∧
      exec (.attnWrite w) s = .next { s with bus := ⟨none, false⟩ } ∧
      exec (.shelfChgWrite w) s = .next { s with bus := ⟨none, false⟩ } ∧
      exec (.attnEnWrite w) s = .next { s with bus := ⟨none, false⟩ }) ∧
    exec .tick s = .next s

/-- RESTART with RUN as written: the run control bit takes its value first, and then everything but what R178 and R159 name
takes its reset value (R172, R178). -/
def Obligations.RestartKeepsWhatItMust : Prop :=
  ∀ (s : State) (w : Word) (made : Fin 16), s.resetLow = false → w.getLsbD 3 = false → w.getLsbD 2 = true →
    ∃ t, exec (.restart w made) s = .next t ∧
      Keeps [.run, .engine, .bus, .causes, .enables, .shelfChg, .msclkH, .prescaler, .clock, .mem, .arbiter, .writer,
        .powerOns, .pending] State.reset t ∧
      t.run = w.getLsbD 0 ∧ t.engine = (if w.getLsbD 0 then .starting .readGlobal else .halted) ∧ t.bus = ⟨none, false⟩ ∧
      t.causes = s.causes ∧ t.enables = s.enables ∧ t.shelfChg = s.shelfChg ∧ t.msclkH = s.msclkH ∧
      t.prescaler = s.prescaler ∧ t.clock = s.clock ∧ s.cutTo t made ∧
      t.writer = { publication := s.cutPublication, nextEntry := s.writer.loggedEntry, loggedEntry := s.writer.loggedEntry,
                   lastEntryTime := s.writer.lastEntryTime, logEnable := false, globalOutcome := .none, globalSeq := 0,
                   list := [], written := .replicate 32 .disabled }

/-- A restart, full reset or RESET_N cuts the transaction of the Result Writer after `made` of its word accesses, never after the last
(R146; log entry 15, DEDUCED): the words written stand, of a record of any kind the first ones in order, and every other byte is as it
was. After a restart the publication counter has already advanced for a cut result record (R161), a cut log entry advances neither the
logged entry number nor the counter (R165), and a full reset returns both to their reset values. A cut completion, ABORTED ones among
them, has written the outcome with its second access and the time with its third, never DONE. With no transaction of the Result Writer
in progress no byte changes. -/
def Obligations.ResetCutsTheTransactionInProgress : Prop :=
  ∀ (s : State) (c : Instr) (made : Fin 16) (full : Bool), MemoryLaw s →
    ((full = false ∧ ∃ w : Word, c = .restart w made ∧ s.resetLow = false ∧ w.getLsbD 3 = false ∧ w.getLsbD 2 = true) ∨
      (full = true ∧ (c = .resetN made ∨ ∃ w : Word, c = .fullReset w made ∧ s.resetLow = false ∧ w.getLsbD 3 = true))) →
    ∃ t, exec c s = .next t ∧
      let counted := fun v : Word => t.writer.publication = if full then 1 else v
      let cut := fun (addr : Nat → BitVec 14) (words : List Word) => s.wrote t addr (words.dropLast.take made)
      (t.writer.loggedEntry = if full then 0 else s.writer.loggedEntry) ∧ t.writer.nextEntry = t.writer.loggedEntry ∧
      ((∀ job, s.arbiter.owner ≠ .writer job) → t.mem = s.mem ∧ counted s.writer.publication) ∧
      (∀ rest : List WriteItem, s.arbiter.owner = .writer .item →
        (∀ i : Fin 32, s.writer.list = .shelfResult i :: rest → counted (nextPublication s.writer.publication) ∧
          cut (shelfResultAddr i) (framed s.writer.publication (shelfResultBody s.clock s.shelves[i]))) ∧
        (∀ k : Fin 256, s.writer.list = .candResult k :: rest → counted (nextPublication s.writer.publication) ∧
          cut (candResultAddr k) (framed s.writer.publication (candResultBody s.clock s.cands[k] s.judged[k]))) ∧
        (s.writer.list = .logControl :: rest → counted (nextPublication s.writer.publication) ∧
          cut logControlAddr (framed s.writer.publication (logControlBody s.writer))) ∧
        (∀ e : LogEntry, s.writer.list = .logEntry e :: rest → counted s.writer.publication ∧
          cut (logAddr (e.number.toNat % 128)) (framed e.number (logEntryBody e))) ∧
        (∀ (i : Fin 32) (o : CmdOutcome), s.writer.list = .completion i o :: rest → counted s.writer.publication ∧
          s.wrote t (fun n => slotAddr i (2 + n)) (([BitVec.ofNat 32 o.code, BitVec.ofNat 32 s.clock]).take (made - 1)))) ∧
      (∀ (i : Fin 32) (live : Bool), s.arbiter.owner = .writer (.abort i live) → counted s.writer.publication ∧
        (readSlotState s.mem i = .taken ∧ s.commandInHand i = false →
          s.wrote t (fun n => slotAddr i (2 + n)) (([10, BitVec.ofNat 32 s.clock]).take (made - 1))) ∧
        (¬ (readSlotState s.mem i = .taken ∧ s.commandInHand i = false) → t.mem = s.mem))

/-! ### Run control and sweeps -/

/-- RUN set in HALTED begins STARTING at step 1 with the halt cause NONE and without pending global values (R174, R157); in any
other state, or when RUN was set already, the write acts on no engine state (R172, R177). -/
def Obligations.RunSetBeginsStarting : Prop :=
  ∀ (s : State) (w : Word), s.resetLow = false → w.getLsbD 0 = true → w.getLsbD 2 = false → w.getLsbD 3 = false →
    (w.getLsbD 1 = false ∨ s.engine = .halted ∨ s.engine = .stopping) →
    ∃ t, exec (.runSet w) s = .next t ∧ Keeps [.run, .engine, .haltCause, .bus, .intake] s t ∧
      t.run = true ∧ t.bus = ⟨none, false⟩ ∧
      (s.run = false → s.engine = .halted →
        t.engine = .starting .readGlobal ∧ t.haltCause = .none ∧ t.intake = { s.intake with pendingGlobals := none }) ∧
      (s.run = true ∨ s.engine ≠ .halted → t.engine = s.engine ∧ t.haltCause = s.haltCause ∧ t.intake = s.intake)

/-- RUN cleared in RUNNING or STARTING: a sweep without a transaction in progress ends at once, and STOPPING ends at once when neither
a transaction of the Intake Unit nor an evaluation is in progress, in HALTED; otherwise it lasts until both have ended (R150, R177).
That a step-3 transaction holds nothing up, and goes on without its step, is log entry 8 (DEDUCED); that the requests which wait are
taken at the end of STOPPING is R44 with log entry 29 (DEDUCED). -/
def Obligations.RunClearStopsTheEngine : Prop :=
  ∀ (s : State) (w : Word), s.resetLow = false → w.getLsbD 0 = false → w.getLsbD 2 = false → w.getLsbD 3 = false →
    s.run = true →
    ∃ u t, exec (.runClear w) s = .next t ∧ Keeps [.run, .engine, .bus, .arbiter, .intake] s u ∧
      u.run = false ∧ u.bus = ⟨none, false⟩ ∧
      (s.engine = .running ∨ (∃ step, s.engine = .starting step) →
        u.engine = .stopping ∧
        u.arbiter = { s.arbiter with owner := s.arbiter.owner.cutStep, intakeWaits := false } ∧
        (s.arbiter.owner = .intake → t = u ∧ u.intake = s.intake) ∧
        (s.arbiter.owner ≠ .intake →
          (u.intake = if s.intake.position.isSome then
            { s.intake with position := none, furtherSweep := false, sweepDeadline := none } else s.intake) ∧
          (s.evaluating.isSome = true → t = u) ∧ (s.evaluating = none → t.engine = .halted ∧ u.stoppedTo t))) ∧
      (s.engine = .stopping ∨ s.engine = .halted →
        t = u ∧ u.engine = s.engine ∧ u.arbiter = s.arbiter ∧ u.intake = s.intake)

/-- A sweep request by SWEEP_NOW or by the expiry of the sweep deadline (R147): in RUNNING a sweep starts, or a further one is
marked; in the sweep of step 5 a further one is marked (for SWEEP_NOW: log entry 26, DEDUCED from R172); otherwise nothing.
Waiting global values are applied at the start (R154); a fall of the shelf count is another statement. -/
def Obligations.SweepRequestsStartOrMarkASweep : Prop :=
  ∀ (s u : State) (c : Instr),
    ((∃ w : Word, c = .sweepNow w ∧ s.resetLow = false ∧ s.run = true ∧ w.getLsbD 0 = true ∧ w.getLsbD 1 = true ∧
        w.getLsbD 2 = false ∧ w.getLsbD 3 = false ∧ u = { s with bus := ⟨none, false⟩ }) ∨
      (c = .sweepDeadlineExpiry ∧ (∃ d, s.intake.sweepDeadline = some d ∧ d.due = true) ∧
        u = { s with intake := { s.intake with sweepDeadline := none } })) →
    (s.engine = .running → s.intake.position = none → s.intake.pendingGlobals = none →
      exec c s = .next { u with intake := { u.intake with
        sweepDeadline := some (deadlineAt s.clock s.intake.applied.period), position := some .global } }) ∧
    (∀ g, s.engine = .running → s.intake.position = none → s.intake.pendingGlobals = some g →
      s.intake.applied.shelfCount ≤ g.shelfCount →
      exec c s = .next { u with
        intake := { u.intake with applied := g, pendingGlobals := none,
                                  sweepDeadline := some (deadlineAt s.clock g.period), position := some .global }
        writer := { s.writer with logEnable := g.logEnable } }) ∧
    ((s.engine = .running ∧ s.intake.position.isSome = true) ∨ s.engine = .starting .sweep →
      exec c s = .next { u with intake := { u.intake with furtherSweep := true } }) ∧
    (s.engine = .halted ∨ s.engine = .stopping ∨ s.engine = .starting .readGlobal ∨ (∃ i, s.engine = .starting (.slots i)) →
      exec c s = .next u)

/-- A sweep that starts with a smaller shelf count (R147, R154, R155), by SWEEP_NOW, by the expiry of the sweep deadline or by the
further-sweep mark at the end of another sweep: each shelf from the new count up to the old one forgets the last taken configuration
record; one that was enabled becomes DISABLED with its candidates OFF, its taken command completed as SHELF_OFF, a DISABLED log entry
handed over and its place in the queue, in ascending order; every other entry stays. The sweep is at the global record, its deadline a
new period ahead. That the new log enable governs those log entries, and the order of the requests of one shelf at the Result Writer,
are log entry 14 (DESIGN CHOICE). The shelf under evaluation is another statement (ExpiriesWaitForTheirTime). -/
def Obligations.FallingShelfCountDisables : Prop :=
  ∀ (s u : State) (c : Instr) (g : Globals), s.startsSweep c u → u.intake.pendingGlobals = some g →
    let falls := fun i : Fin 32 => g.shelfCount ≤ i.val ∧ i.val < u.intake.applied.shelfCount
    let off := (List.finRange 32).filter fun i => falls i ∧ u.shelves[i].state ≠ .disabled
    (∀ e, u.evaluating = some e → ¬ falls e.shelf) →
    ∃ t, exec c s = .next t ∧ Keeps [.arbiter, .cands, .intake, .shelves, .queue, .writer] u t ∧
      (c ≠ .observation .finish → t.arbiter = u.arbiter) ∧ (c = .observation .finish → u.portPassed t) ∧
      t.intake = { u.intake with
        applied := g, pendingGlobals := none, sweepDeadline := some (deadlineAt u.clock g.period), position := some .global
        lastShelfConfig := t.intake.lastShelfConfig } ∧
      (∀ i : Fin 32, t.intake.lastShelfConfig[i] = if falls i then none else u.intake.lastShelfConfig[i]) ∧
      (∀ i : Fin 32,
        (i ∈ off → t.shelves[i] = { u.shelves[i] with
          state := .disabled, selected := none, acqDeadline := none, learnDeadline := none, holdDeadline := none
          historyValid := false, holdoverExpired := false, pendingReason := none, taken := none, lastReason := .config
          lastTime := u.clock, followed := none }) ∧
        (i ∉ off → t.shelves[i] = u.shelves[i])) ∧
      (∀ k : Fin 256,
        (shelfOf k ∈ off → u.cands[k].state ≠ .off → t.cands[k] = { u.cands[k] with
          state := .off, reasons := ⟨false, false, false⟩, history := [], received := none, average := none, lastRaw := none
          lastObs := none, reportDeadline := none, stateDeadline := none }) ∧
        (shelfOf k ∉ off ∨ u.cands[k].state = .off → t.cands[k] = u.cands[k])) ∧
      t.queue = off.foldl joined u.queue ∧
      t.writer = off.foldl u.disabledFrom { u.writer with logEnable := g.logEnable }

/-! ### Attention, the registers and the host's memory accesses -/

/-- ATTN and SHELF_CHG: a bit written 1 is cleared, a bit written 0 stays, and ALARM is no latched bit (R167); ATTN_EN takes the
six enables written (R169); the ATTN line is asserted exactly while a bit reads 1 in ATTN and in ATTN_EN (R169). -/
def Obligations.AttentionRegistersAndLine : Prop :=
  (∀ s : State, s.attnAsserted = true ↔ s.regValue 3 &&& s.regValue 4 ≠ 0) ∧
  ∀ (s : State) (w : Word), s.resetLow = false →
    (∃ t, exec (.attnWrite w) s = .next t ∧ Keeps [.bus, .causes] s t ∧ t.bus = ⟨none, false⟩ ∧
      (∀ n : Nat, n < 8 → (t.regValue 3).getLsbD n = ((s.regValue 3).getLsbD n && !w.getLsbD n)) ∧
      (t.regValue 3).getLsbD 8 = (s.regValue 3).getLsbD 8) ∧
    (∃ t, exec (.shelfChgWrite w) s = .next t ∧ Keeps [.bus, .shelfChg] s t ∧ t.bus = ⟨none, false⟩ ∧
      ∀ n : Nat, n < 32 → (t.regValue 5).getLsbD n = ((s.regValue 5).getLsbD n && !w.getLsbD n)) ∧
    (∃ t, exec (.attnEnWrite w) s = .next t ∧ Keeps [.bus, .enables] s t ∧ t.bus = ⟨none, false⟩ ∧
      t.regValue 4 = w &&& 0x11F)

/-- ALARM reads 1 exactly while some shelf's written state is HOLDOVER or FREE_RUN, and only the completed write of a shelf result
or a reset changes it (R168). -/
def Obligations.AlarmFollowsTheWrittenShelfStates : Prop :=
  (∀ s : State, (s.regValue 3).getLsbD 8 = true ↔
    ∃ i : Fin 32, s.writer.written[i] = .holdover ∨ s.writer.written[i] = .freeRun) ∧
  (∀ (c : Instr) (s t : State), exec c s = .next t → t.alarm ≠ s.alarm →
    (∃ ph, c = .shelfResultWrite ph) ∨ c = .powerOn ∨ (∃ n, c = .resetN n) ∨ (∃ w n, c = .fullReset w n) ∨
      (∃ w n, c = .restart w n) ∨ (∃ w, (c = .runSet w ∨ c = .runClear w ∨ c = .sweepNow w ∨
        c = .registerWriteRefused 1 (.write w)) ∧ (w.getLsbD 2 = true ∨ w.getLsbD 3 = true))) ∧
  State.reset.alarm = false ∧
  (∀ (s : State) (n : Nat), s.powerOn.alarm = false ∧ (s.fullReset n).alarm = false ∧ (s.restart n).alarm = false)

/-- A read of MSCLK_L followed by a read of MSCLK_H gives one value of the 48-bit clock, also when the clock ticks in between
(R180). -/
def Obligations.ClockReadsAsOneValue : Prop :=
  ∀ s : State, s.clock ≤ 281474976710655 →
    ∃ t u lo hi, exec .msclkLRead s = .next t ∧ Keeps [.bus, .msclkH] s t ∧ t.bus = ⟨some lo, false⟩ ∧
      exec .tick t = .next u ∧
      exec (.registerWriteRefused 7 .read) t = .next { t with bus := ⟨some hi, false⟩ } ∧
      exec (.registerWriteRefused 7 .read) u = .next { u with bus := ⟨some hi, false⟩ } ∧
      hi.toNat * 2 ^ 32 + lo.toNat = s.clock

/-- The register space (R171): a read of an offset from 10020h on answers 0 with a bus error, a write there or to PART_ID,
ENGINE_STS, MSCLK_L or MSCLK_H a bus error alone, and nothing else changes. An access that is not refused is the register's own
(log entry 18, DESIGN CHOICE). ENGINE_STS shows the engine state, the halt cause, the queue depth and a sweep in progress. ATTN
holds RESULT, COMMAND, LOG, INTAKE and HALT in bits 0 to 4 and ALARM in bit 8, ATTN_EN their enables, and no other bit. -/
def Obligations.RegisterAccessesAnswer : Prop :=
  (∀ (s : State) (reg : BitVec 14), 8 ≤ reg.toNat →
    exec (.registerWriteRefused reg .read) s = .next { s with bus := ⟨some 0, true⟩ }) ∧
  (∀ (s : State) (reg : BitVec 14) (w : Word), 8 ≤ reg.toNat ∨ reg = 0 ∨ reg = 2 ∨ reg = 6 ∨ reg = 7 →
    exec (.registerWriteRefused reg (.write w)) s = .next { s with bus := ⟨none, true⟩ }) ∧
  (∀ (s : State) (reg : BitVec 14), reg.toNat < 8 → reg ≠ 6 →
    exec (.registerWriteRefused reg .read) s = .next { s with bus := ⟨some (s.regValue reg), false⟩ }) ∧
  (∀ s : State, exec (.registerWriteRefused 6 .read) s = exec .msclkLRead s) ∧
  (∀ (s : State) (w : Word),
    exec (.registerWriteRefused 1 (.write w)) s = exec (.runSet w) s ∧
    exec (.registerWriteRefused 3 (.write w)) s = exec (.attnWrite w) s ∧
    exec (.registerWriteRefused 4 (.write w)) s = exec (.attnEnWrite w) s ∧
    exec (.registerWriteRefused 5 (.write w)) s = exec (.shelfChgWrite w) s) ∧
  (∀ s : State, s.regValue 0 = 0x57320801 ∧ s.regValue 1 = (if s.run then 1 else 0) ∧ s.regValue 5 = s.shelfChg ∧
    s.regValue 6 = BitVec.ofNat 32 s.clock ∧ (s.regValue 7).toNat = s.msclkH.toNat) ∧
  (∀ s : State,
    (s.regValue 3).getLsbD 0 = s.causes.result ∧ (s.regValue 3).getLsbD 1 = s.causes.command ∧
    (s.regValue 3).getLsbD 2 = s.causes.log ∧ (s.regValue 3).getLsbD 3 = s.causes.intake ∧
    (s.regValue 3).getLsbD 4 = s.causes.halt ∧ (s.regValue 3).getLsbD 8 = s.alarm ∧
    (s.regValue 4).getLsbD 0 = s.enables.causes.result ∧ (s.regValue 4).getLsbD 1 = s.enables.causes.command ∧
    (s.regValue 4).getLsbD 2 = s.enables.causes.log ∧ (s.regValue 4).getLsbD 3 = s.enables.causes.intake ∧
    (s.regValue 4).getLsbD 4 = s.enables.causes.halt ∧ (s.regValue 4).getLsbD 8 = s.enables.alarm ∧
    ∀ n : Nat, 5 ≤ n → n ≠ 8 → (s.regValue 3).getLsbD n = false ∧ (s.regValue 4).getLsbD n = false) ∧
  (∀ s : State, RangeLaw s →
    field (s.regValue 2) 0 4 = (match s.engine with
      | .halted => 0
      | .starting _ => 1
      | .running => 2
      | .stopping => 3) ∧
    field (s.regValue 2) 4 4 = (if s.haltCause = .layout then 1 else 0) ∧
    field (s.regValue 2) 8 6 = s.queue.length ∧
    (s.regValue 2).getLsbD 16 = s.intake.position.isSome)

/-- A host access (R144, R145): it is made when it owns the port, reads or writes one word, and hands the port on; it waits when
the port is in use, and a second access while one waits has no effect (log entry 19, DEDUCED), nor has the end of one that does not
own the port (log entry 3, DESIGN CHOICE). -/
def Obligations.HostAccessesReadAndWriteWords : Prop :=
  ∀ (s : State) (a : HostAccess),
    (s.arbiter.host = none → s.arbiter.owner = .none →
      exec (.hostMemoryAccess a .request) s = .next { s with arbiter := { s.arbiter with owner := .localBus, host := some a } }) ∧
    (s.arbiter.host = none → s.arbiter.owner ≠ .none →
      exec (.hostMemoryAccess a .request) s = .next { s with arbiter := { s.arbiter with host := some a } }) ∧
    (s.arbiter.host.isSome = true → exec (.hostMemoryAccess a .request) s = .next s) ∧
    (s.arbiter.owner ≠ .localBus ∨ s.arbiter.host ≠ some a → exec (.hostMemoryAccess a .finish) s = .next s) ∧
    (s.arbiter.owner = .localBus → s.arbiter.host = some a → MemoryLaw s →
      ∃ t, exec (.hostMemoryAccess a .finish) s = .next t ∧
        t.arbiter = ({ s.arbiter with host := none } : Arbiter).handedOn s.intakeWants s.writerJob ∧
        (a.op = .read → Keeps [.bus, .arbiter] s t ∧ t.bus = ⟨some (s.mem.readWord a.word), false⟩) ∧
        (∀ v, a.op = .write v → Keeps [.bus, .mem, .arbiter] s t ∧ t.bus = ⟨none, false⟩ ∧ s.wrote t (fun _ => a.word) [v]))

/-- Every row that uses the port: its whole form is its request followed by its end, likewise an evaluation's when none is in progress
(log entry 3, DESIGN CHOICE). A request of the Intake Unit or of the Result Writer is granted when the port is free, the turn passing
to the other, and waits otherwise; nothing else changes (R145). -/
def Obligations.RequestsAreGrantedOrWait : Prop :=
  ((∀ (s u : State) (row : Phase → Instr),
    (row = .globalRecord ∨ row = .commandTake ∨ row = .shelfConfiguration ∨ row = .candidateConfiguration ∨
      row = .shelfReport ∨ row = .observation ∨ row = .startupGlobalRead ∨ row = .shelfResultWrite ∨
      row = .candidateResultWrite ∨ row = .logEntryWrite ∨ row = .logControlWrite ∨ row = .commandCompletion ∨
      row = .abortedCompletion ∨ ∃ a, row = .hostMemoryAccess a) →
    exec (row .request) s = .next u → exec (row .whole) s = exec (row .finish) u) ∧
  (∀ s u : State, s.evaluating = none → exec (.evaluation .take) s = .next u →
    exec (.evaluation .whole) s = exec (.evaluation .finish) u)) ∧
  (∀ (s : State) (p : Position) (row : Phase → Instr), s.intake.position = some p →
    (row = (match p with
      | .global => .globalRecord
      | .slot _ => .commandTake
      | .shelfConfig _ => .shelfConfiguration
      | .candConfig _ => .candidateConfiguration
      | .report _ => .shelfReport
      | .obs _ => .observation)) →
    (s.arbiter.owner = .none → exec (row .request) s =
      .next { s with arbiter := { s.arbiter with owner := .intake, turn := .writer, intakeWaits := false } }) ∧
    (s.arbiter.owner = .localBus ∨ (∃ job, s.arbiter.owner = .writer job) → exec (row .request) s =
      .next { s with arbiter := { s.arbiter with intakeWaits := true } })) ∧
  (∀ (s : State) (item : WriteItem) (rest : List WriteItem) (row : Phase → Instr), s.writer.list = item :: rest →
    (row = (match item with
      | .shelfResult _ => .shelfResultWrite
      | .candResult _ => .candidateResultWrite
      | .logControl => .logControlWrite
      | .completion _ _ => .commandCompletion
      | .logEntry _ => .logEntryWrite)) →
    (∀ i, s.engine ≠ .starting (.slots i)) →
    (s.arbiter.owner = .none → exec (row .request) s =
      .next { s with arbiter := { s.arbiter with owner := .writer .item, turn := .intake, writerWaits := false } }) ∧
    (s.arbiter.owner = .localBus ∨ s.arbiter.owner = .intake → exec (row .request) s =
      .next { s with arbiter := { s.arbiter with writerWaits := true } })) ∧
  (∀ s : State, s.engine = .starting .readGlobal →
    (s.arbiter.owner = .none → exec (.startupGlobalRead .request) s =
      .next { s with arbiter := { s.arbiter with owner := .intake, turn := .writer, intakeWaits := false } }) ∧
    (s.arbiter.owner = .localBus ∨ (∃ job, s.arbiter.owner = .writer job) → exec (.startupGlobalRead .request) s =
      .next { s with arbiter := { s.arbiter with intakeWaits := true } })) ∧
  (∀ (s : State) (i : Fin 32), s.engine = .starting (.slots i) →
    (s.arbiter.owner = .none → exec (.abortedCompletion .request) s =
      .next { s with arbiter := { s.arbiter with owner := .writer (.abort i true), turn := .intake, writerWaits := false } }) ∧
    (s.arbiter.owner = .localBus ∨ s.arbiter.owner = .intake → exec (.abortedCompletion .request) s =
      .next { s with arbiter := { s.arbiter with writerWaits := true } }))

/-! ### The clock and the expiries -/

/-- TICK (R180, R181): the clock advances by one and stops at its highest value, and each of the 609 deadlines whose time is reached
comes due; nothing else changes. That a deadline come due keeps its time until its expiry is taken, also while the engine acts, is log
entry 12 (DEDUCED; R181 has it become absent at the tick), and that the row returns the prescaler to 0 is log entry 2 (DESIGN
CHOICE). A deadline set to an interval from now takes the sum, at most 2^48 - 1, and is not yet due. -/
def Obligations.TickAdvancesTheClock : Prop :=
  (∀ now interval : Nat, deadlineAt now interval = { time := min (now + interval) 281474976710655, due := false }) ∧
  ∀ s : State, s.resetLow = false → ∃ t, exec .tick s = .next t ∧
    Keeps [.prescaler, .clock, .cands, .shelves, .intake] s t ∧ t.prescaler = 0 ∧
    (s.clock < 281474976710655 → t.clock = s.clock + 1) ∧ (s.clock = 281474976710655 → t.clock = s.clock) ∧
    (∀ k : Fin 256, ∃ r d, t.cands[k] = { s.cands[k] with reportDeadline := r, stateDeadline := d } ∧
      ticked t.clock s.cands[k].reportDeadline r ∧ ticked t.clock s.cands[k].stateDeadline d) ∧
    (∀ i : Fin 32, ∃ a l h, t.shelves[i] = { s.shelves[i] with acqDeadline := a, learnDeadline := l, holdDeadline := h } ∧
      ticked t.clock s.shelves[i].acqDeadline a ∧ ticked t.clock s.shelves[i].learnDeadline l ∧
      ticked t.clock s.shelves[i].holdDeadline h) ∧
    ∃ d, t.intake = { s.intake with sweepDeadline := d } ∧ ticked t.clock s.intake.sweepDeadline d

/-- The transition of a candidate for the reasons an event leaves (R25, with R28 to R33): its state and state deadline by the table
of R25; nothing else of its entry changes. -/
def Obligations.CandidateTransitionTable : Prop :=
  ∀ (c : Candidate) (p : MonitorParams) (now : Nat),
    (c.stateDeadline.isSome = true → c.state = .suspect ∨ c.state = .restoring) →
    let d := c.transition p now
    d = { c with state := d.state, stateDeadline := d.stateDeadline } ∧
    (c.reasons.any = false →
      (c.state = .off → d = c) ∧
      (c.state = .unknown ∨ c.state = .available ∨ c.state = .suspect → d.state = .available ∧ d.stateDeadline = none) ∧
      (c.state = .failed → p.waitToRestore = 0 → d.state = .available ∧ d.stateDeadline = none) ∧
      (c.state = .failed → p.waitToRestore ≠ 0 →
        d.state = .restoring ∧ d.stateDeadline = some (deadlineAt now (p.waitToRestore * 1000))) ∧
      (c.state = .restoring → d = c)) ∧
    (c.reasons.any = true →
      (c.state = .off → d = c) ∧
      (c.state = .unknown ∨ c.state = .failed ∨ c.state = .restoring → d.state = .failed ∧ d.stateDeadline = none) ∧
      (c.state = .available → p.holdOff = 0 → d.state = .failed ∧ d.stateDeadline = none) ∧
      (c.state = .available → p.holdOff ≠ 0 →
        d.state = .suspect ∧ d.stateDeadline = some (deadlineAt now (p.holdOff * 100))) ∧
      (c.state = .suspect → d = c))

/-- The expiry of a candidate's deadline makes it absent (R181). A report deadline (R26): a candidate that is neither OFF nor STALE
already gains STALE and takes the transition of R25. The hold-off of a SUSPECT candidate makes it FAILED (R31), the wait-to-restore of
a RESTORING one makes it AVAILABLE (R34), the reasons kept. Each change is published and queues the shelf. -/
def Obligations.CandidateDeadlinesExpire : Prop :=
  (∀ (s : State) (k : Fin 256) (d : Deadline), s.engine.acts = true → s.cands[k].reportDeadline = some d → d.due = true →
    (s.cands[k].state = .off ∨ s.cands[k].reasons.stale = true →
      exec (.reportDeadlineExpiry k) s =
        .next { s with cands := s.cands.set k { s.cands[k] with reportDeadline := none } }) ∧
    (s.cands[k].state ≠ .off → s.cands[k].reasons.stale = false →
      exec (.reportDeadlineExpiry k) s = .next { s with
        cands := s.cands.set k (({ s.cands[k] with reportDeadline := none, reasons := { s.cands[k].reasons with stale := true } } :
          Candidate).transition s.params[shelfOf k] s.clock)
        writer := s.writer.asked (.candResult k)
        queue := joined s.queue (shelfOf k) })) ∧
  ∀ (s : State) (k : Fin 256) (d : Deadline), s.engine.acts = true → s.cands[k].stateDeadline = some d → d.due = true →
    (s.cands[k].state = .suspect → exec (.holdOffExpiry k) s = .next { s with
      cands := s.cands.set k { s.cands[k] with state := .failed, stateDeadline := none }
      writer := s.writer.asked (.candResult k)
      queue := joined s.queue (shelfOf k) }) ∧
    (s.cands[k].state = .restoring → exec (.wtrExpiry k) s = .next { s with
      cands := s.cands.set k { s.cands[k] with state := .available, stateDeadline := none }
      writer := s.writer.asked (.candResult k)
      queue := joined s.queue (shelfOf k) })

/-- The expiries of a shelf that is not under evaluation. Acquisition (R74): the acquisition lapses with the selection kept, an
acquisition failure request names the selected candidate, a log entry is handed over (its absent new slot: log entry 13, DEDUCED;
its holdover class, that of the active configuration: log entry 31, DESIGN CHOICE). Learning (R75): the history-valid flag
is set. Holdover (R76): FREE_RUN without history, with a log entry. The shelf is queued. -/
def Obligations.ShelfDeadlinesExpire : Prop :=
  (∀ (s : State) (i : Fin 32) (j : Fin 8) (d : Deadline), s.engine.acts = true → s.notEvaluating i →
    s.shelves[i].state = .acquiring → s.shelves[i].selected = some j → s.shelves[i].acqDeadline = some d → d.due = true →
    exec (.acquisitionExpiry i) s = .next { s with
      requests := s.requests ++ [.acqFailure (flat i j)]
      shelves := s.shelves.set i { s.shelves[i] with
        acqDeadline := none, learnDeadline := none, pendingReason := some .acqFail, lastReason := .acqFail, lastTime := s.clock }
      writer := s.writer.noted s.arbiter.servesItem s.clock i
        { kind := .acqFail, previous := some j, new := none, reason := .acqFail
          cls := if s.shelves[i].historyValid then s.shelves[i].config.holdoverClass else .qc4 }
      queue := joined s.queue i }) ∧
  ∀ (s : State) (i : Fin 32) (d : Deadline), s.engine.acts = true → s.notEvaluating i → d.due = true →
    (s.shelves[i].state = .locked → s.shelves[i].learnDeadline = some d →
      exec (.learningExpiry i) s = .next { s with
        shelves := s.shelves.set i { s.shelves[i] with learnDeadline := none, historyValid := true }
        queue := joined s.queue i }) ∧
    (s.shelves[i].state = .holdover → s.shelves[i].holdDeadline = some d →
      exec (.holdoverDeadlineExpiry i) s = .next { s with
        shelves := s.shelves.set i { s.shelves[i] with
          holdDeadline := none, historyValid := false, holdoverExpired := true, state := .freeRun, lastReason := .holdoverExpiry,
          lastTime := s.clock }
        writer := s.writer.noted s.arbiter.servesItem s.clock i
          { kind := .holdoverExpired, previous := none, new := none, cls := .qc4, reason := .holdoverExpiry }
        queue := joined s.queue i })

/-- An expiry, a shelf report, a shelf configuration record or a fall of the shelf count that reaches the shelf under evaluation is taken
after the evaluation has ended (R63; log entry 10, DEDUCED): the row is then the row on the state the evaluation leaves, and a shelf
that falls out of service is disabled from the entry the evaluation leaves. No deadline of the Monitor or the Engine expires while the
engine is HALTED, STOPPING or at step 1 of STARTING (R173, R181), or before it has come due (log entry 12, DEDUCED): the row then has
no effect (log entry 1, DESIGN CHOICE). That an expiry raised while the engine acted and not taken by the entry to STOPPING is held
overdue, and not lost or taken then, is log entry 32 (DESIGN CHOICE). -/
def Obligations.ExpiriesWaitForTheirTime : Prop :=
  (∀ (s : State) (e : EvalInputs), s.engine.acts = true → s.evaluating = some e →
    (isDue s.shelves[e.shelf].acqDeadline = true →
      exec (.acquisitionExpiry e.shelf) s = exec (.acquisitionExpiry e.shelf) (s.endEvaluation e)) ∧
    (isDue s.shelves[e.shelf].learnDeadline = true →
      exec (.learningExpiry e.shelf) s = exec (.learningExpiry e.shelf) (s.endEvaluation e)) ∧
    (isDue s.shelves[e.shelf].holdDeadline = true →
      exec (.holdoverDeadlineExpiry e.shelf) s = exec (.holdoverDeadlineExpiry e.shelf) (s.endEvaluation e))) ∧
  (∀ (s : State) (e : EvalInputs), s.evaluating = some e → s.arbiter.owner = .intake →
    (s.intake.position = some (.report e.shelf) →
      fresh (readReport s.mem e.shelf).seq (readReport s.mem e.shelf).echo s.intake.lastReport[e.shelf] →
      exec (.shelfReport .finish) s = exec (.shelfReport .finish) (s.endEvaluation e)) ∧
    (s.intake.position = some (.shelfConfig e.shelf) →
      fresh (readShelfConfig s.mem e.shelf).seq (readShelfConfig s.mem e.shelf).echo s.intake.lastShelfConfig[e.shelf] →
      exec (.shelfConfiguration .finish) s = exec (.shelfConfiguration .finish) (s.endEvaluation e))) ∧
  (∀ (s u : State) (c : Instr) (e : EvalInputs) (g : Globals), s.startsSweep c u → u.evaluating = some e →
    u.intake.pendingGlobals = some g → g.shelfCount ≤ e.shelf.val → e.shelf.val < u.intake.applied.shelfCount →
    ∃ t, exec c s = .next t ∧ t.evaluating = none ∧ t.judged = (u.endEvaluation e).judged ∧
      t.intake.lastShelfConfig[e.shelf] = none ∧
      let sh := (u.endEvaluation e).shelves[e.shelf]
      (sh.state = .disabled → t.shelves[e.shelf] = sh) ∧
      (sh.state ≠ .disabled → t.shelves[e.shelf] = { sh with
        state := .disabled, selected := none, acqDeadline := none, learnDeadline := none, holdDeadline := none
        historyValid := false, holdoverExpired := false, pendingReason := none, taken := none, lastReason := .config
        lastTime := u.clock, followed := none } ∧ e.shelf ∈ t.queue)) ∧
  ∀ (s : State) (k : Fin 256) (i : Fin 32),
    (s.engine = .halted ∨ s.engine = .stopping ∨ s.engine = .starting .readGlobal →
      exec (.reportDeadlineExpiry k) s = .next s ∧ exec (.holdOffExpiry k) s = .next s ∧ exec (.wtrExpiry k) s = .next s ∧
      exec (.acquisitionExpiry i) s = .next s ∧ exec (.learningExpiry i) s = .next s ∧
      exec (.holdoverDeadlineExpiry i) s = .next s) ∧
    (isDue s.cands[k].reportDeadline = false → exec (.reportDeadlineExpiry k) s = .next s) ∧
    (isDue s.cands[k].stateDeadline = false →
      exec (.holdOffExpiry k) s = .next s ∧ exec (.wtrExpiry k) s = .next s) ∧
    (isDue s.shelves[i].acqDeadline = false → exec (.acquisitionExpiry i) s = .next s) ∧
    (isDue s.shelves[i].learnDeadline = false → exec (.learningExpiry i) s = .next s) ∧
    (isDue s.shelves[i].holdDeadline = false → exec (.holdoverDeadlineExpiry i) s = .next s) ∧
    (isDue s.intake.sweepDeadline = false → exec .sweepDeadlineExpiry s = .next s)

/-! ### The Candidate Monitor -/

/-- The Monitor takes a request of the Engine. An acquisition failure or a lock-lost request (R35, R36): an AVAILABLE or RESTORING
candidate has to serve wait-to-restore (none when it is 0), a SUSPECT one is FAILED. CLEAR_WTR (R37): a RESTORING candidate becomes
AVAILABLE. Each change is published and queues the shelf; in any other state the request is dropped. That a row whose request does not
wait has no effect is log entry 1 (DESIGN CHOICE), that none is taken in HALTED is log entry 29 (DEDUCED from R117), and that a request
is taken wherever it stands among those that wait is log entry 20 (DESIGN CHOICE). -/
def Obligations.RequestsMoveTheCandidate : Prop :=
  (∀ (s : State) (k : Fin 256) (c : Instr) (r : Request),
    (c = .acquisitionFailureRequest k ∧ r = .acqFailure k) ∨ (c = .lockLostRequest k ∧ r = .lockLost k) →
    (r ∉ s.requests ∨ s.engine = .halted → exec c s = .next s) ∧
    (r ∈ s.requests → s.engine ≠ .halted →
      (s.cands[k].state = .available ∨ s.cands[k].state = .restoring →
        exec c s = .next { s with
          requests := s.requests.erase r
          cands := s.cands.set k (if s.params[shelfOf k].waitToRestore = 0
            then { s.cands[k] with state := .available, stateDeadline := none }
            else { s.cands[k] with state := .restoring
                                   stateDeadline := some (deadlineAt s.clock (s.params[shelfOf k].waitToRestore * 1000)) })
          writer := s.writer.asked (.candResult k)
          queue := joined s.queue (shelfOf k) }) ∧
      (s.cands[k].state = .suspect →
        exec c s = .next { s with
          requests := s.requests.erase r
          cands := s.cands.set k { s.cands[k] with state := .failed, stateDeadline := none }
          writer := s.writer.asked (.candResult k)
          queue := joined s.queue (shelfOf k) }) ∧
      (s.cands[k].state = .off ∨ s.cands[k].state = .unknown ∨ s.cands[k].state = .failed →
        exec c s = .next { s with requests := s.requests.erase r }))) ∧
  ∀ (s : State) (k : Fin 256), .clearWtr k ∈ s.requests → s.engine ≠ .halted →
    (s.cands[k].state = .restoring →
      exec (.clearWtrRequest k) s = .next { s with
        requests := s.requests.erase (.clearWtr k)
        cands := s.cands.set k { s.cands[k] with state := .available, stateDeadline := none }
        writer := s.writer.asked (.candResult k)
        queue := joined s.queue (shelfOf k) }) ∧
    (s.cands[k].state ≠ .restoring →
      exec (.clearWtrRequest k) s = .next { s with requests := s.requests.erase (.clearWtr k) })

/-- The raw offset is the exact offset in ppb rounded to the nearest integer, ties away from zero, then saturated at one million either
way (R47 to R49), and with an expected count of at least 1,000 the product stays below 4.3 × 10^18. The averaged offset moves by the
difference over 2^k rounded in the same way: to the raw offset when k is 0, never past it, never outside the range of both (R52). -/
def Obligations.OffsetsAreRoundedAndAveraged : Prop :=
  (∀ (n : Int) (d : Nat), 0 < d →
    2 * (roundDiv n d * d - n).natAbs ≤ d ∧
    (2 * (roundDiv n d * d - n).natAbs = d → n.natAbs < (roundDiv n d * d).natAbs)) ∧
  (∀ (count f gate : Nat), 0 < f → 0 < gate →
    let r := roundDiv (((count : Int) - (f * gate : Nat)) * 1000000000) (f * gate)
    (r < -1000000 → rawOffset count f gate = -1000000) ∧ (1000000 < r → rawOffset count f gate = 1000000) ∧
    (-1000000 ≤ r → r ≤ 1000000 → rawOffset count f gate = r)) ∧
  (∀ (count f gate : Nat), count < 2 ^ 32 → 1000 ≤ f → f ≤ 200000000 → 1 ≤ gate → gate ≤ 16 →
    1000 ≤ expectedCount f gate ∧ expectedCount f gate ≤ 3200000000 ∧
      (((count : Int) - expectedCount f gate) * 1000000000).natAbs < 4300000000000000000) ∧
  ∀ (k : Nat) (a r : Int), -1000000 ≤ a → a ≤ 1000000 → -1000000 ≤ r → r ≤ 1000000 →
    let new := updateAverage k (some a) r
    2 * ((new - a) * (2 ^ k : Nat) - (r - a)).natAbs ≤ 2 ^ k ∧
    (2 * ((new - a) * (2 ^ k : Nat) - (r - a)).natAbs = 2 ^ k → (r - a).natAbs < ((new - a) * (2 ^ k : Nat)).natAbs) ∧
    (k = 0 → new = r) ∧ (r = a → new = a) ∧ (new - a).natAbs ≤ (r - a).natAbs ∧
    ((a ≤ new ∧ new ≤ r) ∨ (r ≤ new ∧ new ≤ a)) ∧ -1000000 ≤ new ∧ new ≤ 1000000 ∧ updateAverage k none r = r

/-- The FREQ judgement (R55): clear without an average or at or below the clearing bound, set above the limit, and held between. -/
def Obligations.FrequencyJudgement : Prop :=
  ∀ (limit : Nat) (before : Bool), 1 ≤ limit → limit ≤ 1000000 →
    judgeFreq none limit before = false ∧
    ∀ a : Int,
      (limit < a.natAbs → judgeFreq (some a) limit before = true) ∧
      (a.natAbs ≤ limit - limit / 8 → judgeFreq (some a) limit before = false) ∧
      (limit - limit / 8 < a.natAbs → a.natAbs ≤ limit → judgeFreq (some a) limit before = before)

/-- The effective class of a candidate: QC6 in OFF (R10), and by its kind otherwise (R6 to R9): LINE and SATELLITE the worse of cap and
received class, an absent marking counting as QC5 for LINE and left out for SATELLITE; STATION the cap; PEER the worse of the cap and
the output class its source last published, and QC6 while the source is barred toward the shelf (R15). -/
def Obligations.EffectiveClassByKind : Prop :=
  ∀ (i : Fin 32) (shelves : Vector Shelf 32) (c : Candidate),
    (c.state = .off ∨ c.config.kind = .off → effectiveClass i shelves c = .qc6) ∧
    (c.state ≠ .off →
      (c.config.kind = .line →
        effectiveClass i shelves c = c.config.cap.worseOf (c.received.getD .qc5) ∧
        (c.received = none → c.config.cap ≠ .qc6 → effectiveClass i shelves c = .qc5) ∧
        (∀ r, c.received = some r → r.betterThan c.config.cap = true → effectiveClass i shelves c = c.config.cap) ∧
        (c.config.cap = .qc6 ∨ c.received = some .qc6 → effectiveClass i shelves c = .qc6)) ∧
      (c.config.kind = .satellite →
        (∀ r, c.received = some r → effectiveClass i shelves c = c.config.cap.worseOf r) ∧
        (c.received = none → effectiveClass i shelves c = c.config.cap) ∧
        (c.received = some .qc5 → c.config.cap.betterThan .qc5 = true → effectiveClass i shelves c = .qc5)) ∧
      (c.config.kind = .station → effectiveClass i shelves c = c.config.cap) ∧
      ∀ b, c.config.kind = .peer b →
        (shelves[b].published.barring = .shelf i → effectiveClass i shelves c = .qc6) ∧
        (shelves[b].published.barring ≠ .shelf i →
          effectiveClass i shelves c = c.config.cap.worseOf shelves[b].published.outputClass ∧
          (effectiveClass i shelves c).code = max c.config.cap.code shelves[b].published.outputClass.code))

/-! ### The Intake Unit -/

/-- A sweep visits the global record, the 32 slots, the configuration records of the shelves below the shelf count, the 256
candidate configuration records, the 32 reports and the 256 observations, each region in ascending index, and then ends (R148). -/
def Obligations.SweepVisitsTheRecordsInOrder : Prop :=
  ∀ count : Nat, count ≤ 32 →
    let order : List Position := [.global] ++ (List.finRange 32).map .slot ++
      ((List.finRange 32).filter fun i => decide (i.val < count)).map .shelfConfig ++ (List.finRange 256).map .candConfig ++
      (List.finRange 32).map .report ++ (List.finRange 256).map .obs
    order.length = 577 + count ∧ (∀ n (h : n + 1 < order.length), order[n].next count = some order[n + 1]) ∧
      Position.next count (.obs 255) = none

/-- A record that is not taken (R141, R119): the transaction writes nothing, and only the sweep's position and the port move. The last
position of step 5 of STARTING, and of a sweep with a further one marked, is SweepEndsAfterItsLastRecord. -/
def Obligations.UntakenRecordsArePassedOver : Prop :=
  ∀ (s : State) (p : Position) (row : Phase → Instr), s.sweepingAt p →
    (p ≠ .obs 255 ∨ (s.engine = .running ∧ s.intake.furtherSweep = false)) →
    (match p with
      | .global => row = .globalRecord ∧ ¬ fresh (readGlobal s.mem).seq (readGlobal s.mem).echo s.intake.lastGlobal
      | .slot i => row = .commandTake ∧ (readSlotState s.mem i ≠ .posted ∨ s.commandInHand i = true)
      | .shelfConfig i => row = .shelfConfiguration ∧
          ¬ fresh (readShelfConfig s.mem i).seq (readShelfConfig s.mem i).echo s.intake.lastShelfConfig[i]
      | .candConfig k => row = .candidateConfiguration ∧
          ¬ fresh (readCandConfig s.mem k).seq (readCandConfig s.mem k).echo s.intake.lastCandConfig[k]
      | .report i => row = .shelfReport ∧ ¬ fresh (readReport s.mem i).seq (readReport s.mem i).echo s.intake.lastReport[i]
      | .obs k => row = .observation ∧ ¬ fresh (readObservation s.mem k).seq (readObservation s.mem k).echo s.intake.lastObs[k]) →
    ∃ t, exec (row .finish) s = .next t ∧ Keeps [.arbiter, .intake] s t ∧ s.sweptTo t p s.intake

/-- GLOBAL_RECORD (R153, R154): a valid record waits for the next sweep with its period clamped; a refused one leaves the values
alone and raises INTAKE; the log control record is requested with the outcome. -/
def Obligations.GlobalRecordIsHeldOrRefused : Prop :=
  ∀ s : State, s.sweepingAt .global →
    fresh (readGlobal s.mem).seq (readGlobal s.mem).echo s.intake.lastGlobal →
    let r := readGlobal s.mem
    ((r.version = 1 ∧ 1 ≤ r.shelfCount ∧ r.shelfCount ≤ 32) →
      ∃ t, exec (.globalRecord .finish) s = .next t ∧ Keeps [.arbiter, .intake, .writer] s t ∧
        s.sweptTo t .global { s.intake with
          lastGlobal := some r.seq
          pendingGlobals := some { shelfCount := r.shelfCount, period := max 10 (min r.period 1000), logEnable := r.logEnable } } ∧
        t.writer = ({ s.writer with
          globalSeq := r.seq
          globalOutcome := if 10 ≤ r.period ∧ r.period ≤ 1000 then .applied else .appliedClamped } : Writer).asked .logControl) ∧
    (¬ (r.version = 1 ∧ 1 ≤ r.shelfCount ∧ r.shelfCount ≤ 32) →
      ∃ t, exec (.globalRecord .finish) s = .next t ∧ Keeps [.causes, .arbiter, .intake, .writer] s t ∧
        t.causes = { s.causes with intake := true } ∧
        s.sweptTo t .global { s.intake with lastGlobal := some r.seq } ∧
        t.writer = ({ s.writer with globalSeq := r.seq, globalOutcome := .rejected } : Writer).asked .logControl)

/-- COMMAND_TAKE (R119): a POSTED slot of a shelf with no command in hand is rewritten TAKEN, its command word is handed to the
Engine and the shelf is queued; no other byte changes. -/
def Obligations.PostedCommandIsTaken : Prop :=
  ∀ (s : State) (i : Fin 32), s.sweepingAt (.slot i) → MemoryLaw s → readSlotState s.mem i = .posted →
    s.commandInHand i = false →
    ∃ t, exec (.commandTake .finish) s = .next t ∧ Keeps [.mem, .arbiter, .intake, .shelves, .queue] s t ∧
      s.wrote t (fun _ => slotAddr i 0) [2] ∧
      t.shelves = s.shelves.set i { s.shelves[i] with
        taken := some { code := field (s.mem.readWord (slotAddr i 1)) 0 8, arg := field (s.mem.readWord (slotAddr i 1)) 8 8 } } ∧
      t.queue = joined s.queue i ∧ s.sweptTo t (.slot i) s.intake

/-- Validation and clamping of configuration records (R2, R151, R152): the first cause in the table's order refuses; otherwise every
numeric field and class is brought into its range. -/
def Obligations.ConfigurationIsValidatedAndClamped : Prop :=
  (∀ r : ShelfRecord,
    let bad := fun n : Nat => n = 0 ∨ 6 < n
    (bad r.guardCode ∨ bad r.floorCode ∨ bad r.holdoverCode → r.validate = .refused .badClass) ∧
    (¬ (bad r.guardCode ∨ bad r.floorCode ∨ bad r.holdoverCode) → 2 < r.policy → r.validate = .refused .badPolicy) ∧
    (¬ (bad r.guardCode ∨ bad r.floorCode ∨ bad r.holdoverCode) → r.policy ≤ 2 → ∃ cfg clamped,
      r.validate = .accepted cfg clamped ∧ cfg.enable = r.enable ∧ Policy.ofCode r.policy = some cfg.policy ∧
      cfg.guardClass.code = min r.guardCode 5 ∧ cfg.floorClass.code = min r.floorCode 5 ∧
      cfg.holdoverClass.code = max 2 (min r.holdoverCode 4) ∧
      cfg.monitor.window = max 1 (min r.window 32) ∧ cfg.monitor.threshold = max 1 (min r.threshold cfg.monitor.window) ∧
      cfg.monitor.exponent = min r.exponent 6 ∧ cfg.monitor.holdOff = min r.holdOff 100 ∧
      cfg.monitor.waitToRestore = min r.waitToRestore 1800 ∧ cfg.learningTime = min r.learningTime 3600 ∧
      cfg.holdoverLimit = max 1 (min r.holdoverLimit 1440) ∧ cfg.acqTimeout = max 1 (min r.acqTimeout 120) ∧
      (clamped = false ↔ r.guardCode ≤ 5 ∧ r.floorCode ≤ 5 ∧ 2 ≤ r.holdoverCode ∧ r.holdoverCode ≤ 4 ∧ 1 ≤ r.window ∧
        r.window ≤ 32 ∧ 1 ≤ r.threshold ∧ r.threshold ≤ r.window ∧ r.exponent ≤ 6 ∧ r.holdOff ≤ 100 ∧
        r.waitToRestore ≤ 1800 ∧ r.learningTime ≤ 3600 ∧ 1 ≤ r.holdoverLimit ∧ r.holdoverLimit ≤ 1440 ∧
        1 ≤ r.acqTimeout ∧ r.acqTimeout ≤ 120))) ∧
  (∀ (r : CandRecord) (i : Fin 32),
    let badSource := r.kind = 4 ∧ (r.source = i.val ∨ 32 ≤ r.source)
    (4 < r.kind → r.validate i = .refused .badKind) ∧
    (r.kind ≤ 4 → (r.capCode = 0 ∨ 6 < r.capCode) → r.validate i = .refused .badClass) ∧
    (r.kind ≤ 4 → 1 ≤ r.capCode → r.capCode ≤ 6 → badSource → r.validate i = .refused .badSource) ∧
    (r.kind ≤ 4 → 1 ≤ r.capCode → r.capCode ≤ 6 → ¬ badSource → (r.frequency < 1000 ∨ 200000000 < r.frequency) →
      r.validate i = .refused .badFrequency) ∧
    (r.kind ≤ 4 → 1 ≤ r.capCode → r.capCode ≤ 6 → ¬ badSource → 1000 ≤ r.frequency → r.frequency ≤ 200000000 →
      ∃ cfg clamped, r.validate i = .accepted cfg clamped ∧ cfg.cap.code = r.capCode ∧ cfg.frequency = r.frequency ∧
        (r.kind = 0 → cfg.kind = .off) ∧ (r.kind = 1 → cfg.kind = .line) ∧ (r.kind = 2 → cfg.kind = .station) ∧
        (r.kind = 3 → cfg.kind = .satellite) ∧ (r.kind = 4 → ∃ b : Fin 32, cfg.kind = .peer b ∧ b.val = r.source) ∧
        cfg.priority = max 1 (min r.priority 15) ∧ cfg.limit = max 1 (min r.limit 1000000) ∧
        cfg.timeout = max 100 (min r.timeout 60000) ∧
        (clamped = false ↔ 1 ≤ r.priority ∧ r.priority ≤ 15 ∧ 1 ≤ r.limit ∧ r.limit ≤ 1000000 ∧ 100 ≤ r.timeout ∧
          r.timeout ≤ 60000)))

/-- SHELF_CONFIGURATION that changes no enable (R20, R41, R61, R66, R153): a refused record leaves its outcome and raises INTAKE; an
accepted one replaces the configuration and the parameters, recounts the candidates that are not OFF, and has CONFIG pending when
the shelf is enabled. The ascending order in which the recounted candidates' results are requested is log entry 14 (DESIGN CHOICE). -/
def Obligations.ShelfConfigurationIsApplied : Prop :=
  ∀ (s : State) (i : Fin 32), s.sweepingAt (.shelfConfig i) → s.notEvaluating i →
    fresh (readShelfConfig s.mem i).seq (readShelfConfig s.mem i).echo s.intake.lastShelfConfig[i] →
    let r := readShelfConfig s.mem i
    let v := { s.intake with lastShelfConfig := s.intake.lastShelfConfig.set i (some r.seq) }
    (∀ cause, r.validate = .refused cause →
      ∃ t, exec (.shelfConfiguration .finish) s = .next t ∧ Keeps [.causes, .arbiter, .intake, .shelves, .queue] s t ∧
        t.causes = { s.causes with intake := true } ∧ s.sweptTo t (.shelfConfig i) v ∧
        t.shelves = s.shelves.set i { s.shelves[i] with outcome := .rejected cause, outcomeSeq := r.seq } ∧
        t.queue = joined s.queue i) ∧
    (∀ cfg clamped, r.validate = .accepted cfg clamped → cfg.enable = s.shelves[i].enabled →
      ∃ t, exec (.shelfConfiguration .finish) s = .next t ∧
        Keeps [.arbiter, .intake, .cands, .params, .shelves, .queue, .writer] s t ∧ s.sweptTo t (.shelfConfig i) v ∧
        t.shelves = s.shelves.set i { s.shelves[i] with
          config := cfg, outcome := acceptedOutcome clamped, outcomeSeq := r.seq
          pendingReason := if cfg.enable then some .config else s.shelves[i].pendingReason } ∧
        t.params = s.params.set i cfg.monitor ∧ t.queue = joined s.queue i ∧
        (∀ k : Fin 256, t.cands[k] = if shelfOf k = i ∧ s.cands[k].state ≠ .off
          then s.cands[k].reparam s.params[i] cfg.monitor s.clock else s.cands[k]) ∧
        t.writer = (candItems i (s.recounts i cfg.monitor)).foldl Writer.asked s.writer)

/-- A new parameter set at a candidate (R41, R28): nothing changes while W and E stay; otherwise the history keeps its newest W
entries, SIGNAL is counted anew, and a change of the reasons brings the transition of R25. -/
def Obligations.NewParametersRecountTheHistory : Prop :=
  ∀ (c : Candidate) (old new : MonitorParams) (now : Nat),
    (new.window = old.window → new.threshold = old.threshold → c.reparam old new now = c) ∧
    (new.window ≠ old.window ∨ new.threshold ≠ old.threshold →
      let d := c.reparam old new now
      let u : Candidate := { c with
        history := c.history.drop (c.history.length - new.window)
        reasons := { c.reasons with
          signal := decide (new.threshold ≤ (c.history.drop (c.history.length - new.window)).countP id) } }
      (u.reasons = c.reasons → d = u) ∧ (u.reasons ≠ c.reasons → d = u.transition new now))

/-- A shelf passes from DISABLED to enabled by its configuration record (R65, R42): FREE_RUN, AUTO, an empty lockout set, a FREE_RUN
log entry, its configured candidates UNKNOWN with a fresh report deadline. The order of the requests at the Result Writer is log
entry 14 (DESIGN CHOICE). -/
def Obligations.ShelfIsEnabled : Prop :=
  ∀ (s : State) (i : Fin 32) (cfg : ShelfConfig) (clamped : Bool), s.sweepingAt (.shelfConfig i) → s.notEvaluating i →
    ServiceLaw s → fresh (readShelfConfig s.mem i).seq (readShelfConfig s.mem i).echo s.intake.lastShelfConfig[i] →
    (readShelfConfig s.mem i).validate = .accepted cfg clamped → s.shelves[i].state = .disabled → cfg.enable = true →
    ∃ t, exec (.shelfConfiguration .finish) s = .next t ∧
      Keeps [.arbiter, .intake, .cands, .params, .shelves, .queue, .writer] s t ∧
      s.sweptTo t (.shelfConfig i) { s.intake with
        lastShelfConfig := s.intake.lastShelfConfig.set i (some (readShelfConfig s.mem i).seq) } ∧
      t.shelves = s.shelves.set i { s.shelves[i] with
        config := cfg, outcome := acceptedOutcome clamped, outcomeSeq := (readShelfConfig s.mem i).seq, state := .freeRun
        historyValid := false, holdoverExpired := false, mode := .auto, lockout := .replicate 8 false, pendingReason := none
        lastReason := .start, lastTime := s.clock } ∧
      t.params = s.params.set i cfg.monitor ∧ t.queue = joined s.queue i ∧
      (∀ k : Fin 256, (shelfOf k ≠ i ∨ s.cands[k].config.kind = .off → t.cands[k] = s.cands[k]) ∧
        (shelfOf k = i → s.cands[k].config.kind ≠ .off → t.cands[k] = { s.cands[k] with
          state := .unknown, reasons := ⟨false, false, false⟩, history := [], received := none, average := none, lastRaw := none
          lastObs := none, reportDeadline := some (deadlineAt s.clock s.cands[k].config.timeout), stateDeadline := none })) ∧
      t.writer = (candItems i fun j => s.cands[flat i j].config.kind != .off).foldl Writer.asked
        (s.writer.noted s.arbiter.servesItem s.clock i
          { kind := .freeRun, previous := none, new := none, cls := .qc4, reason := .start })

/-- An enabled shelf becomes DISABLED by its configuration record (R67, R42): its selection, deadlines, flags and taken command go, the
command with outcome SHELF_OFF, a DISABLED log entry is handed over, and its candidates are OFF. The order of the requests at the
Result Writer is log entry 14 (DESIGN CHOICE). -/
def Obligations.ShelfIsDisabled : Prop :=
  ∀ (s : State) (i : Fin 32) (cfg : ShelfConfig) (clamped : Bool), s.sweepingAt (.shelfConfig i) → s.notEvaluating i →
    fresh (readShelfConfig s.mem i).seq (readShelfConfig s.mem i).echo s.intake.lastShelfConfig[i] →
    (readShelfConfig s.mem i).validate = .accepted cfg clamped → s.shelves[i].state ≠ .disabled → cfg.enable = false →
    ∃ t, exec (.shelfConfiguration .finish) s = .next t ∧
      Keeps [.arbiter, .intake, .cands, .params, .shelves, .queue, .writer] s t ∧
      s.sweptTo t (.shelfConfig i) { s.intake with
        lastShelfConfig := s.intake.lastShelfConfig.set i (some (readShelfConfig s.mem i).seq) } ∧
      t.shelves = s.shelves.set i { s.shelves[i] with
        config := cfg, outcome := acceptedOutcome clamped, outcomeSeq := (readShelfConfig s.mem i).seq, state := .disabled
        selected := none, acqDeadline := none, learnDeadline := none, holdDeadline := none, historyValid := false
        holdoverExpired := false, pendingReason := none, taken := none, lastReason := .config, lastTime := s.clock
        followed := none } ∧
      t.params = s.params.set i cfg.monitor ∧ t.queue = joined s.queue i ∧
      (∀ k : Fin 256, (shelfOf k ≠ i ∨ s.cands[k].state = .off → t.cands[k] = s.cands[k]) ∧
        (shelfOf k = i → s.cands[k].state ≠ .off → t.cands[k] = { s.cands[k] with
          state := .off, reasons := ⟨false, false, false⟩, history := [], received := none, average := none, lastRaw := none
          lastObs := none, reportDeadline := none, stateDeadline := none })) ∧
      t.writer = (candItems i fun j => s.cands[flat i j].state != .off).foldl Writer.asked
        ((if s.shelves[i].taken.isSome then Writer.completed ((candItems i (s.recounts i cfg.monitor)).foldl Writer.asked s.writer)
            i .shelfOff else (candItems i (s.recounts i cfg.monitor)).foldl Writer.asked s.writer).noted s.arbiter.servesItem s.clock i
          { kind := .disabled, previous := s.shelves[i].selected, new := none, cls := .qc6, reason := .config })

/-- CANDIDATE_CONFIGURATION (R38 to R40, R42, R57, R152, R153): refused, the outcome and INTAKE; accepted, the configuration copy. At
an enabled shelf a change of kind (or source) or frequency reinitialises the candidate, to OFF or to UNKNOWN with a fresh report
deadline; a change of the limit alone judges FREQ anew and may bring the transition of R25. Each is published and queues. -/
def Obligations.CandidateConfigurationIsApplied : Prop :=
  ∀ (s : State) (k : Fin 256), s.sweepingAt (.candConfig k) →
    fresh (readCandConfig s.mem k).seq (readCandConfig s.mem k).echo s.intake.lastCandConfig[k] →
    let r := readCandConfig s.mem k
    let v := { s.intake with lastCandConfig := s.intake.lastCandConfig.set k (some r.seq) }
    (∀ cause, r.validate (shelfOf k) = .refused cause →
      ∃ t, exec (.candidateConfiguration .finish) s = .next t ∧
        Keeps [.causes, .arbiter, .intake, .cands, .queue, .writer] s t ∧ t.causes = { s.causes with intake := true } ∧
        s.sweptTo t (.candConfig k) v ∧ t.cands = s.cands.set k { s.cands[k] with outcome := .rejected cause } ∧
        t.writer = s.writer.asked (.candResult k) ∧ t.queue = joined s.queue (shelfOf k)) ∧
    (∀ cfg clamped, r.validate (shelfOf k) = .accepted cfg clamped →
      ∃ t d, exec (.candidateConfiguration .finish) s = .next t ∧ Keeps [.arbiter, .intake, .cands, .queue, .writer] s t ∧
        s.sweptTo t (.candConfig k) v ∧ t.cands = s.cands.set k d ∧ t.writer = s.writer.asked (.candResult k) ∧
        t.queue = joined s.queue (shelfOf k) ∧ d.config = cfg ∧ d.outcome = acceptedOutcome clamped ∧
        let same := cfg.kind = s.cands[k].config.kind ∧ cfg.frequency = s.cands[k].config.frequency
        let freq := judgeFreq s.cands[k].average cfg.limit s.cands[k].reasons.freq
        let u : Candidate := { s.cands[k] with config := cfg, outcome := acceptedOutcome clamped }
        (s.shelves[shelfOf k].state = .disabled → d = u) ∧
        (s.shelves[shelfOf k].state ≠ .disabled → ¬ same → d = { u with
          state := if cfg.kind = .off then .off else .unknown
          reasons := ⟨false, false, false⟩, history := [], received := none, average := none, lastRaw := none, lastObs := none
          reportDeadline := if cfg.kind = .off then none else some (deadlineAt s.clock cfg.timeout)
          stateDeadline := none }) ∧
        (s.shelves[shelfOf k].state ≠ .disabled → same →
          (cfg.limit = s.cands[k].config.limit ∨ freq = s.cands[k].reasons.freq → d = u) ∧
          (cfg.limit ≠ s.cands[k].config.limit → freq ≠ s.cands[k].reasons.freq →
            d = ({ u with reasons := { u.reasons with freq := freq } } : Candidate).transition s.params[shelfOf k] s.clock)))

/-- SHELF_REPORT (R71 to R73): in a live acquisition a report of lock to the selected slot makes the shelf LOCKED; in LOCKED any other
report is a loss of lock, which lapses the acquisition and names the candidate to the Monitor; else the report only queues the
shelf. The slot of a log entry that its rule does not name is absent (log entry 13, DEDUCED); the holdover class that LOCK_LOST carries
is that of the active configuration (log entry 31, DESIGN CHOICE). -/
def Obligations.ShelfReportLocksOrLosesLock : Prop :=
  ∀ (s : State) (i : Fin 32), s.sweepingAt (.report i) → s.notEvaluating i →
    fresh (readReport s.mem i).seq (readReport s.mem i).echo s.intake.lastReport[i] →
    let r := readReport s.mem i
    let sh := s.shelves[i]
    let v := { s.intake with lastReport := s.intake.lastReport.set i (some r.seq) }
    (∀ j, sh.state = .acquiring → sh.acqDeadline.isSome = true → sh.selected = some j → r.locked = true → r.slot = some j →
      ∃ t, exec (.shelfReport .finish) s = .next t ∧ Keeps [.arbiter, .intake, .shelves, .queue, .writer] s t ∧
        s.sweptTo t (.report i) v ∧ t.queue = joined s.queue i ∧
        t.shelves = s.shelves.set i { sh with
          state := .locked, acqDeadline := none, holdoverExpired := false
          historyValid := sh.historyValid || sh.config.learningTime == 0
          learnDeadline := if sh.historyValid = false ∧ sh.config.learningTime ≠ 0
            then some (deadlineAt s.clock (sh.config.learningTime * 1000)) else sh.learnDeadline } ∧
        t.writer = s.writer.noted s.arbiter.servesItem s.clock i
          { kind := .lock, previous := none, new := some j, cls := s.judged[flat i j].cls, reason := sh.lastReason }) ∧
    (∀ j, sh.state = .locked → sh.selected = some j → ¬ (r.locked = true ∧ r.slot = some j) →
      ∃ t, exec (.shelfReport .finish) s = .next t ∧ Keeps [.arbiter, .intake, .requests, .shelves, .queue, .writer] s t ∧
        s.sweptTo t (.report i) v ∧ t.queue = joined s.queue i ∧ t.requests = s.requests ++ [.lockLost (flat i j)] ∧
        t.shelves = s.shelves.set i { sh with
          state := .acquiring, acqDeadline := none, learnDeadline := none, pendingReason := some .lockLost
          lastReason := .lockLost, lastTime := s.clock } ∧
        t.writer = s.writer.noted s.arbiter.servesItem s.clock i
          { kind := .lockLost, previous := some j, new := none, reason := .lockLost
            cls := if sh.historyValid then sh.config.holdoverClass else .qc4 }) ∧
    ((sh.state = .disabled ∨ sh.state = .freeRun ∨ sh.state = .holdover ∨ (sh.state = .acquiring ∧ sh.acqDeadline = none) ∨
        (sh.state = .acquiring ∧ ∀ j, r.slot = some j → ¬ (r.locked = true ∧ sh.selected = some j)) ∨
        (sh.state = .locked ∧ ∃ j, sh.selected = some j ∧ r.locked = true ∧ r.slot = some j)) →
      ∃ t, exec (.shelfReport .finish) s = .next t ∧ Keeps [.arbiter, .intake, .queue] s t ∧
        s.sweptTo t (.report i) v ∧ t.queue = joined s.queue i)

/-- OBSERVATION (R4, R21 to R25, R46, R50, R51, R56): taken for an OFF candidate it changes nothing but the Last-Taken entry; for any
other it sets the time and the report deadline, removes STALE, counts the fault flag among the newest W, stores the marking,
measures a usable gate, and brings the transition of R25; the result is published and the shelf queued. Observation 255 has the same
effect where it ends the sweep of step 5 of STARTING or one with a further sweep marked: SweepEndsAfterItsLastRecord. -/
def Obligations.ObservationIsProcessed : Prop :=
  ∀ (s : State) (k : Fin 256), s.sweepingAt (.obs k) →
    (k ≠ 255 ∨ (s.engine = .running ∧ s.intake.furtherSweep = false)) →
    fresh (readObservation s.mem k).seq (readObservation s.mem k).echo s.intake.lastObs[k] →
    let o := readObservation s.mem k
    let c := s.cands[k]
    let p := s.params[shelfOf k]
    let v := { s.intake with lastObs := s.intake.lastObs.set k (some o.seq) }
    (c.state = .off → ∃ t, exec (.observation .finish) s = .next t ∧ Keeps [.arbiter, .intake] s t ∧ s.sweptTo t (.obs k) v) ∧
    (c.state ≠ .off → ∃ (t : State) (u : Candidate), exec (.observation .finish) s = .next t ∧
      Keeps [.arbiter, .intake, .cands, .queue, .writer] s t ∧
      s.sweptTo t (.obs k) v ∧ t.writer = s.writer.asked (.candResult k) ∧ t.queue = joined s.queue (shelfOf k) ∧
      t.cands = s.cands.set k (u.transition p s.clock) ∧
      u.config = c.config ∧ u.outcome = c.outcome ∧ u.state = c.state ∧ u.stateDeadline = c.stateDeadline ∧
      u.lastObs = some s.clock ∧ u.reportDeadline = some (deadlineAt s.clock c.config.timeout) ∧
      u.history = (c.history ++ [o.fault]).drop ((c.history ++ [o.fault]).length - p.window) ∧
      u.reasons.stale = false ∧ u.reasons.signal = decide (p.threshold ≤ u.history.countP id) ∧
      u.received = (if o.classPresent then some ((Quality.ofCode o.classCode).getD .qc5) else none) ∧
      (o.gate = 0 ∨ 16 < o.gate →
        u.lastRaw = c.lastRaw ∧ u.average = c.average ∧ u.reasons.freq = c.reasons.freq) ∧
      (1 ≤ o.gate → o.gate ≤ 16 → ∃ raw avg, raw = rawOffset o.count c.config.frequency o.gate ∧
        avg = updateAverage p.exponent c.average raw ∧ u.lastRaw = some raw ∧ u.average = some avg ∧
        u.reasons.freq = judgeFreq (some avg) c.config.limit c.reasons.freq))

/-- The end of a sweep at the last position, its record passed over or taken (R147, R148, R174): in RUNNING a marked further sweep
starts, with the global values that wait applied (R154), and else none is in progress; in step 5 of STARTING every shelf result and
every candidate result is requested and the engine is RUNNING, and a marked further sweep then starts as well. A record that is taken
has the effect that it has in RUNNING without a mark (ObservationIsProcessed). A further sweep with a smaller shelf count is
FallingShelfCountDisables. That steps 6 and 7 happen with the end of the sweep is log entry 9 (DESIGN CHOICE). -/
def Obligations.SweepEndsAfterItsLastRecord : Prop :=
  (∀ s : State, s.sweepingAt (.obs 255) →
    ¬ fresh (readObservation s.mem 255).seq (readObservation s.mem 255).echo s.intake.lastObs[(255 : Fin 256)] →
    s.intake.pendingGlobals = none →
    let again := { s.intake with
      furtherSweep := false, position := some .global, sweepDeadline := some (deadlineAt s.clock s.intake.applied.period) }
    let ended := { s.intake with position := none }
    (s.engine = .running → ∃ t, exec (.observation .finish) s = .next t ∧ Keeps [.arbiter, .intake] s t ∧ s.portPassed t ∧
      t.intake = if s.intake.furtherSweep then again else ended) ∧
    (s.engine = .starting .sweep → ∃ t, exec (.observation .finish) s = .next t ∧
      Keeps [.engine, .arbiter, .intake, .writer] s t ∧ s.portPassed t ∧ t.engine = .running ∧
      (t.intake = if s.intake.furtherSweep then again else ended) ∧
      t.writer = ((List.finRange 32).map WriteItem.shelfResult ++ (List.finRange 256).map WriteItem.candResult).foldl
        Writer.asked s.writer)) ∧
  ∀ s : State, s.sweepingAt (.obs 255) → s.engine = .running ∨ s.engine = .starting .sweep →
    ∃ u, s.sweepEndsIn u ∧ u.engine = .running ∧ u.intake.position = none ∧ u.intake.furtherSweep = false ∧
      u.intake.pendingGlobals = s.intake.pendingGlobals ∧ u.intake.applied = s.intake.applied ∧
      (s.intake.furtherSweep = false → ∃ t, exec (.observation .finish) s = .next t ∧ Keeps [.arbiter] u t ∧ u.portPassed t) ∧
      (s.intake.furtherSweep = true → s.intake.pendingGlobals = none → ∃ t, exec (.observation .finish) s = .next t ∧
        Keeps [.arbiter, .intake] u t ∧ u.portPassed t ∧
        t.intake = { u.intake with
          position := some .global, sweepDeadline := some (deadlineAt s.clock s.intake.applied.period) }) ∧
      (∀ g, s.intake.furtherSweep = true → s.intake.pendingGlobals = some g → s.intake.applied.shelfCount ≤ g.shelfCount →
        ∃ t, exec (.observation .finish) s = .next t ∧ Keeps [.arbiter, .intake, .writer] u t ∧ u.portPassed t ∧
          t.intake = { u.intake with
            applied := g, pendingGlobals := none, position := some .global
            sweepDeadline := some (deadlineAt s.clock g.period) } ∧
          t.writer = { u.writer with logEnable := g.logEnable })

/-- STARTUP_GLOBAL_READ. Passed (R44, R154, R157, R174): the values are applied at once, the outcome is recorded and the log control
record requested, the report deadline of every candidate that is not OFF then is set anew, and step 3 begins; an enabled shelf at or
above a smaller count is DISABLED and its candidates are OFF (R155). Failed (R175): a LAYOUT halt, RUN cleared and HALT raised; the
engine is HALTED with the sweep's state cleared, or STOPPING while an evaluation is in progress. That step 2 happens with the end of
step 1 is log entry 9 (DESIGN CHOICE); that the report deadline set anew (R44) also replaces an expiry that was raised before the
engine entered STOPPING and not taken is log entry 32 (DESIGN CHOICE). -/
def Obligations.StartupReadAppliesOrHalts : Prop :=
  (∀ s : State, s.engine = .starting .readGlobal → s.arbiter.owner = .intake →
    let r := readGlobal s.mem
    r.seq ≠ 0 → r.seq = r.echo → r.version = 1 → 1 ≤ r.shelfCount → r.shelfCount ≤ 32 →
    let fallen := fun i : Fin 32 => r.shelfCount ≤ i.val ∧ i.val < s.intake.applied.shelfCount ∧ s.shelves[i].state ≠ .disabled
    let outcome : GlobalOutcome := if 10 ≤ r.period ∧ r.period ≤ 1000 then .applied else .appliedClamped
    let rebased := fun c : Candidate => if c.state = .off then c
      else { c with reportDeadline := some (deadlineAt s.clock c.config.timeout) }
    ∃ t, exec (.startupGlobalRead .finish) s = .next t ∧ t.engine = .starting (.slots 0) ∧ s.portPassed t ∧
      t.intake.applied = { shelfCount := r.shelfCount, period := max 10 (min r.period 1000), logEnable := r.logEnable } ∧
      t.intake.lastGlobal = some r.seq ∧ t.writer.logEnable = r.logEnable ∧
      t.writer.globalSeq = r.seq ∧ t.writer.globalOutcome = outcome ∧ .logControl ∈ t.writer.list ∧
      (∀ i : Fin 32, r.shelfCount ≤ i.val → i.val < s.intake.applied.shelfCount →
        t.shelves[i].state = .disabled ∧ t.intake.lastShelfConfig[i] = none) ∧
      (∀ k : Fin 256,
        (¬ fallen (shelfOf k) → t.cands[k] = rebased s.cands[k]) ∧
        (fallen (shelfOf k) → s.cands[k].state = .off → t.cands[k] = s.cands[k]) ∧
        (fallen (shelfOf k) → s.cands[k].state ≠ .off → t.cands[k] = { s.cands[k] with
          state := .off, reasons := ⟨false, false, false⟩, history := [], received := none, average := none, lastRaw := none
          lastObs := none, reportDeadline := none, stateDeadline := none })) ∧
      (s.intake.applied.shelfCount ≤ r.shelfCount →
        Keeps [.engine, .arbiter, .intake, .cands, .writer] s t ∧
        t.intake = { s.intake with applied := t.intake.applied, lastGlobal := some r.seq } ∧
        t.writer = { (({ s.writer with globalSeq := r.seq, globalOutcome := outcome } : Writer).asked .logControl)
          with logEnable := r.logEnable })) ∧
  ∀ s : State, s.engine = .starting .readGlobal → s.arbiter.owner = .intake →
    let r := readGlobal s.mem
    ¬ (r.seq ≠ 0 ∧ r.seq = r.echo ∧ r.version = 1 ∧ 1 ≤ r.shelfCount ∧ r.shelfCount ≤ 32) →
    ∃ t, exec (.startupGlobalRead .finish) s = .next t ∧
      Keeps [.run, .engine, .haltCause, .causes, .arbiter, .intake] s t ∧ t.run = false ∧ t.haltCause = .layout ∧
      t.causes = { s.causes with halt := true } ∧ s.portPassed t ∧
      (s.evaluating = none → t.engine = .halted ∧ t.intake = { s.intake with
        pendingGlobals := none, sweepDeadline := none, position := none, furtherSweep := false }) ∧
      (s.evaluating.isSome = true → t.engine = .stopping ∧ t.intake = s.intake)

/-- The transaction of the Intake Unit that is in progress when RUN is cleared. A sweep's is the sweep's last (R150): its record has
the effect that it has in RUNNING, as the statements of its row give it (R44, R80), and the sweep then ends. The read of step 1 ends
with its record neither checked nor applied (R175). With the end of either, and no evaluation in progress, STOPPING ends (R177). The
order in which the requests that wait are then taken is log entry 29 (DESIGN CHOICE). -/
def Obligations.StoppingEndsWithTheTransaction : Prop :=
  (∀ (s : State) (p : Position) (row : Phase → Instr), s.engine = .stopping → s.arbiter.owner = .intake →
    s.intake.position = some p →
    (row = (match p with
      | .global => .globalRecord
      | .slot _ => .commandTake
      | .shelfConfig _ => .shelfConfiguration
      | .candConfig _ => .candidateConfiguration
      | .report _ => .shelfReport
      | .obs _ => .observation)) →
    ∃ v u t, exec (row .finish) s.asRunning = .next v ∧ exec (row .finish) s = .next t ∧
      Keeps [.engine, .arbiter, .intake] v u ∧ u.engine = .stopping ∧ s.portPassed u ∧
      u.intake = { v.intake with position := none, sweepDeadline := none, furtherSweep := false } ∧
      (u.evaluating.isSome = true → t = u) ∧ (u.evaluating = none → u.stoppedTo t)) ∧
  ∀ s : State, s.engine = .stopping → s.arbiter.owner = .intake → s.intake.position = none →
    ∃ u t, exec (.startupGlobalRead .finish) s = .next t ∧ Keeps [.arbiter] s u ∧ s.portPassed u ∧
      (s.evaluating.isSome = true → t = u) ∧ (s.evaluating = none → u.stoppedTo t)

/-! ### The Selection Engine -/

/-- EVALUATION takes the shelf at the head of the queue and reads its inputs (R82, R115, R117): the shelf leaves the list, and the
candidates, the shelves, the taken command, the shelf count and the time are kept as they stand (the time: log entry 11, DEDUCED). A
CLEAR_WTR command for a RESTORING slot has its request sent then, before the evaluation ends (R37, R135; log entry 3, DESIGN CHOICE).
None begins while one is in progress, on an empty queue, or while the engine is HALTED or STOPPING, and none ends that is not in
progress; that the row then has no effect is log entries 1 and 3 (DESIGN CHOICE). -/
def Obligations.EvaluationTakesTheHeadOfTheQueue : Prop :=
  (∀ (s : State) (i : Fin 32) (rest : List (Fin 32)), s.queue = i :: rest →
    (s.evaluating = none → (s.engine = .running ∨ ∃ step, s.engine = .starting step) →
      let clears := fun k : Fin 8 => (∃ c, s.shelves[i].taken = some c ∧ c.code = 7 ∧ c.arg = k.val) ∧
        s.shelves[i].state ≠ .disabled ∧ s.cands[flat i k].state = .restoring
      ∃ sent, exec (.evaluation .take) s = .next { s with
          queue := rest
          evaluating := some { shelf := i, time := s.clock, taken := s.shelves[i].taken
                               cands := .ofFn fun j => s.cands[flat i j]
                               shelves := s.shelves, shelfCount := s.intake.applied.shelfCount }
          requests := s.requests ++ sent } ∧
        (∀ k, clears k → sent = [.clearWtr (flat i k)]) ∧ ((∀ k, ¬ clears k) → sent = [])) ∧
    (s.evaluating.isSome = true ∨ s.engine = .halted ∨ s.engine = .stopping → exec (.evaluation .take) s = .next s)) ∧
  (∀ s : State, s.queue = [] → exec (.evaluation .take) s = .next s) ∧
  (∀ s : State, s.evaluating = none → exec (.evaluation .finish) s = .next s)

/-- The end of an evaluation (R83, R87, R96 to R98, R110): the stages in their order, each by the functions of the statements that
follow; then the kept judgements, the code of the forced slot being that of its forced judgement, the shelf's entry and its published
values, the changed candidate results, the shelf result when any published field has changed, the log entry, the dependents in the
queue, the completion. Deadlines and change times take the clock of the evaluation's start, the log entry the clock of its end (log
entry 11, DEDUCED); the order of the candidate results is log entry 14 (DESIGN CHOICE). The evaluation that is in progress when RUN is
cleared also ends STOPPING, and then HALTED or STARTING follows (R177); when and in which order the requests that wait are then taken is
log entry 29 (DESIGN CHOICE). The judgements see the inputs of the evaluation and the classes of R10 computed from them (R82). -/
def Obligations.EvaluationPublishesWhatItChanged : Prop :=
  ∀ (s : State) (e : EvalInputs), s.evaluating = some e →
    let sh := s.shelves[e.shelf]
    let c := stage1 e sh
    let x := e.ctx sh c.lockout c.cands
    let d := x.stage3 sh c.mode
    let kind := fun j : Fin 8 => c.cands[j].config.kind
    let why := x.reason sh c.mode (c.outcome == some .accepted) d.dropped
    let m := Shelf.applyTarget e.time why kind d.target { sh with mode := d.mode, lockout := c.lockout }
    let cls := outputClass m.1.state m.1.historyValid m.1.config.holdoverClass
      (match m.1.selected with
      | some j => x.cls j
      | none => .qc6)
    let pub : Published := {
      state := m.1.state, mode := m.1.mode, selected := m.1.selected, outputClass := cls
      barring := barringOf m.1.state m.1.selected kind, path := x.livePath m.1.state m.1.selected
      historyValid := m.1.historyValid, holdoverExpired := m.1.holdoverExpired, switchCount := m.1.switchCount
      lastReason := m.1.lastReason, lastTime := m.1.lastTime, outcome := m.1.outcome, outcomeSeq := m.1.outcomeSeq }
    let judged : Fin 8 → Judgement := fun j =>
      { cls := x.cls j, code := if c.mode = .forced j then x.forcedCode j else x.newCode j, lockedOut := c.lockout[j] }
    let changed := (List.finRange 8).filter fun j => s.judged[flat e.shelf j] != judged j
    x.shelf = e.shelf ∧ x.floorClass = sh.config.floorClass ∧ x.lockout = c.lockout ∧ x.cands = c.cands ∧
    x.shelves = e.shelves ∧ x.shelfCount = e.shelfCount ∧
    (∀ j : Fin 8, x.cls j = effectiveClass e.shelf e.shelves c.cands[j]) ∧
    ∃ u t, exec (.evaluation .finish) s = .next t ∧ Keeps [.shelves, .judged, .queue, .evaluating, .writer] s u ∧
      u.evaluating = none ∧
      (∀ k : Fin 256, u.judged[k] = if shelfOf k = e.shelf then judged (slotOf k) else s.judged[k]) ∧
      u.shelves = s.shelves.set e.shelf { m.1 with
        published := pub, pendingReason := none, taken := if c.outcome.isSome then none else sh.taken } ∧
      u.writer = s.writer.evaluated s.arbiter.servesItem s.clock e.shelf changed (pub != sh.published)
        (match m.2 with
        | some (kd, previous, new) => some { kind := kd, previous := previous, new := new, cls := cls, reason := m.1.lastReason }
        | none => none) c.outcome ∧
      u.queue = (if sh.published.state ≠ pub.state ∨ sh.published.outputClass ≠ pub.outputClass ∨
          sh.published.barring ≠ pub.barring ∨ sh.published.path ≠ pub.path
        then ((List.finRange 32).filter fun b => b ≠ e.shelf ∧ ∃ j : Fin 8, s.cands[flat b j].state ≠ .off ∧
          s.cands[flat b j].config.kind = .peer e.shelf).foldl joined s.queue
        else s.queue) ∧
      (s.engine ≠ .stopping ∨ s.arbiter.owner = .intake → t = u) ∧
      (s.engine = .stopping → s.arbiter.owner ≠ .intake → u.stoppedTo t)

/-- Stage 1 (R83, R124, R127 to R130, R133 to R135): the checks in their order and the seven commands. A refused command changes
nothing; without a command there is no outcome. -/
def Obligations.TakenCommandIsApplied : Prop :=
  ∀ (e : EvalInputs) (sh : Shelf),
    let same : Option CmdOutcome → Stage1 := fun o =>
      { mode := sh.mode, lockout := sh.lockout, cands := e.cands, outcome := o, request := none }
    (e.taken = none → stage1 e sh = same none) ∧
    (∀ c, e.taken = some c → sh.state = .disabled → stage1 e sh = same (some .shelfOff)) ∧
    (∀ c, e.taken = some c → sh.state ≠ .disabled →
      (c.code = 0 ∨ 7 < c.code → stage1 e sh = same (some .badCommand)) ∧
      (c.code = 1 ∨ c.code = 2 ∨ c.code = 5 ∨ c.code = 6 ∨ c.code = 7 → 7 < c.arg →
        stage1 e sh = same (some .badSlot)) ∧
      (c.code = 3 → stage1 e sh = { same (some .accepted) with mode := .hold }) ∧
      (c.code = 4 → stage1 e sh = { same (some .accepted) with mode := .auto }) ∧
      ∀ k : Fin 8, c.arg = k.val →
        (c.code = 1 →
          ((∃ j, sh.mode = .forced j) ∨ sh.mode = .hold → stage1 e sh = same (some .overridden)) ∧
          (sh.mode = .auto ∨ (∃ j, sh.mode = .manual j) →
            (sh.lockout[k] = true → stage1 e sh = same (some .lockedOut)) ∧
            (sh.lockout[k] = false → (e.ctx sh sh.lockout e.cands).newCode k = .eligible →
              stage1 e sh = { same (some .accepted) with mode := .manual k }) ∧
            (sh.lockout[k] = false → (e.ctx sh sh.lockout e.cands).newCode k ≠ .eligible →
              stage1 e sh = same (some .ineligible)))) ∧
        (c.code = 2 →
          (sh.lockout[k] = true → stage1 e sh = same (some .lockedOut)) ∧
          (sh.lockout[k] = false → e.cands[k].state = .off → stage1 e sh = same (some .ineligible)) ∧
          (sh.lockout[k] = false → e.cands[k].state ≠ .off →
            stage1 e sh = { same (some .accepted) with mode := .forced k })) ∧
        (c.code = 5 →
          (sh.mode = .forced k → stage1 e sh = same (some .inUse)) ∧
          (sh.mode ≠ .forced k → stage1 e sh = { same (some .accepted) with
            lockout := sh.lockout.set k true, mode := if sh.mode = .manual k then .auto else sh.mode })) ∧
        (c.code = 6 →
          (sh.lockout[k] = true → stage1 e sh = { same (some .accepted) with lockout := sh.lockout.set k false }) ∧
          (sh.lockout[k] = false → stage1 e sh = same (some .notApplicable))) ∧
        (c.code = 7 →
          (e.cands[k].state = .restoring → stage1 e sh = { same (some .accepted) with
            cands := e.cands.set k { e.cands[k] with state := .available, reasons := ⟨false, false, false⟩ }
            request := some k }) ∧
          (e.cands[k].state ≠ .restoring → stage1 e sh = same (some .notApplicable))))

/-- The three judgements (R84 to R86, R104, R105): when each passes, and the code of the first check that fails. Every new-eligible
candidate is remain-eligible, and the two judgements differ only for SUSPECT candidates. -/
def Obligations.JudgementsFailAtTheFirstCheck : Prop :=
  ∀ (x : EvalCtx) (j : Fin 8),
    let c := x.cands[j]
    let bad := fun b : Fin 32 => x.shelves[b].state = .disabled ∨ x.shelfCount ≤ b.val
    let found := fun b : Fin 32 => (liveWalk x.shelves x.shelf b).2 = true
    let deep := fun b : Fin 32 => 8 < (liveWalk x.shelves x.shelf b).1.length + 1
    let quality := x.cls j ≠ .qc6 ∧ (x.cls j).code ≤ x.floorClass.code
    let link := ∀ b, c.config.kind = .peer b → ¬ bad b ∧ ¬ found b ∧ ¬ deep b
    (x.newCode j = .eligible ↔ c.state = .available ∧ x.lockout[j] = false ∧ quality ∧ link) ∧
    (x.remainCode j = .eligible ↔ (c.state = .available ∨ c.state = .suspect) ∧ x.lockout[j] = false ∧ quality ∧ link) ∧
    (x.forcedCode j = .eligible ↔ c.state ≠ .off ∧ c.state ≠ .unknown ∧ c.reasons.signal = false ∧ c.reasons.stale = false ∧
      x.lockout[j] = false ∧ link) ∧
    (c.state ≠ .suspect → x.remainCode j = x.newCode j) ∧
    (c.state = .off → x.newCode j = .off ∧ x.forcedCode j = .off) ∧
    (c.state ≠ .off → x.lockout[j] = true →
      x.newCode j = .lockedOut ∧ x.remainCode j = .lockedOut ∧ x.forcedCode j = .lockedOut) ∧
    (x.lockout[j] = false →
      (c.state = .unknown ∨ c.state = .failed ∨ c.state = .restoring → x.newCode j = .notReady) ∧
      (c.state = .suspect → x.newCode j = .holdingOff) ∧
      (c.state = .available → x.cls j = .qc6 → x.newCode j = .barred) ∧
      (c.state = .available → x.cls j ≠ .qc6 → x.floorClass.code < (x.cls j).code → x.newCode j = .belowFloor) ∧
      (c.state = .unknown ∨ (c.state ≠ .off ∧ (c.reasons.signal = true ∨ c.reasons.stale = true)) →
        x.forcedCode j = .notReady) ∧
      ∀ b, c.config.kind = .peer b →
        (c.state = .available → quality →
          (bad b → x.newCode j = .sourceOff) ∧ (¬ bad b → found b → x.newCode j = .loop) ∧
          (¬ bad b → ¬ found b → deep b → x.newCode j = .tooDeep)) ∧
        (c.state ≠ .off → c.state ≠ .unknown → c.reasons.signal = false → c.reasons.stale = false →
          (bad b → x.forcedCode j = .sourceOff) ∧ (¬ bad b → found b → x.forcedCode j = .loop) ∧
          (¬ bad b → ¬ found b → deep b → x.forcedCode j = .tooDeep)))

/-- The live walk (R103), where the pointers close no ring (R102): it starts at the source shelf, goes on along live pointers, meets
no shelf twice, and ends at the shelf it was made for, which it then has found, or at a shelf that follows nothing. -/
def Obligations.LiveWalkFollowsThePointers : Prop :=
  ∀ (shelves : Vector Shelf 32) (i b : Fin 32), NoRing shelves →
    let w := liveWalk shelves i b
    w.1.head? = some b ∧ w.1.IsChain (follows shelves) ∧ w.1.Nodup ∧
      (w.2 = true → w.1.getLast? = some i) ∧
      (w.2 = false → i ∉ w.1 ∧ ∃ y, w.1.getLast? = some y ∧ shelves[y].followed = none)

/-- The ranking (R88, R106): one slot ranks above another when its key of class, priority, path length and slot is smaller, which is
a total order on the slots; the best candidate is the new-eligible one that ranks above every other. -/
def Obligations.BestCandidateHasTheSmallestKey : Prop :=
  ∀ x : EvalCtx,
    (∀ a b, x.ranksAbove a b = true ↔
      (x.cls a).code < (x.cls b).code ∨ ((x.cls a).code = (x.cls b).code ∧
        (x.cands[a].config.priority < x.cands[b].config.priority ∨ (x.cands[a].config.priority = x.cands[b].config.priority ∧
          (x.pathLength a < x.pathLength b ∨ (x.pathLength a = x.pathLength b ∧ a < b)))))) ∧
    (∀ a b, a ≠ b → x.ranksAbove a b = !x.ranksAbove b a) ∧
    (∀ a b c, x.ranksAbove a b = true → x.ranksAbove b c = true → x.ranksAbove a c = true) ∧
    (∀ j, (∀ b, x.cands[j].config.kind ≠ .peer b) → x.pathLength j = 1) ∧
    (∀ j b, x.cands[j].config.kind = .peer b → x.remainCode j = .eligible →
      x.pathLength j = (liveWalk x.shelves x.shelf b).1.length + 1) ∧
    (x.best = none ↔ ∀ j, x.newCode j ≠ .eligible) ∧
    (∀ j, x.best = some j ↔
      x.newCode j = .eligible ∧ ∀ b, b ≠ j → x.newCode b = .eligible → x.ranksAbove j b = true)

/-- The target by mode and policy (R89 to R95, R99): HOLD and a DISABLED shelf have none, FORCED follows the forced judgement, MANUAL
the remain judgement and is dropped when it fails; then the policy decides from the selection that can remain and the best. A
GUARDED selection is left only for a strictly better class. -/
def Obligations.TargetByModeAndPolicy : Prop :=
  ∀ (x : EvalCtx) (sh : Shelf) (mode : Mode),
    let cur := sh.selected.filter fun c => x.remainCode c == .eligible
    let p := x.policyTarget sh.config.policy sh.config.guardClass cur
    (sh.state = .disabled → x.stage3 sh mode = { target := none, mode := mode, dropped := false }) ∧
    (sh.state ≠ .disabled →
      (mode = .hold → x.stage3 sh mode = { target := none, mode := mode, dropped := false }) ∧
      (∀ k, mode = .forced k → x.stage3 sh mode =
        { target := if x.forcedCode k = .eligible then some k else none, mode := mode, dropped := false }) ∧
      (∀ k, mode = .manual k → x.remainCode k = .eligible →
        x.stage3 sh mode = { target := some k, mode := mode, dropped := false }) ∧
      (∀ k, mode = .manual k → x.remainCode k ≠ .eligible →
        x.stage3 sh mode = { target := p, mode := .auto, dropped := true }) ∧
      (mode = .auto → x.stage3 sh mode = { target := p, mode := mode, dropped := false })) ∧
    (sh.config.policy = .direct →
      (∀ b, x.best = some b → (cur = none ∨ (∃ c, cur = some c ∧ x.ranksAbove b c = true)) → p = some b) ∧
      (∀ c, cur = some c → (∀ b, x.best = some b → x.ranksAbove b c = false) → p = some c) ∧
      (cur = none → x.best = none → p = none)) ∧
    (sh.config.policy = .guarded →
      (cur = none → p = x.best) ∧
      ∀ c, cur = some c →
        (((x.cls c).code ≤ sh.config.guardClass.code ∨
            ∀ j, x.newCode j = .eligible → (x.cls c).code ≤ (x.cls j).code) → p = some c) ∧
        ((sh.config.guardClass.code < (x.cls c).code ∧
            ∃ j, x.newCode j = .eligible ∧ (x.cls j).code < (x.cls c).code) →
          p = x.best ∧ ∃ b, p = some b ∧ (x.cls b).code < (x.cls c).code)) ∧
    (sh.config.policy = .fixed → p = cur)

/-- Stage 4 (R68 to R70, R101): a new target acquires, no target holds over or runs free, and the selection of a live acquisition or a
lock changes nothing; with what the log entry says. -/
def Obligations.ShelfMovesToItsTarget : Prop :=
  ∀ (now : Nat) (why : ChangeReason) (kind : Fin 8 → Kind) (sh : Shelf),
    let lapsed := sh.state = .acquiring ∧ sh.acqDeadline = none
    (∀ k, sh.selected ≠ some k ∨ lapsed → Shelf.applyTarget now why kind (some k) sh =
      ({ sh with
        selected := some k, state := .acquiring, acqDeadline := some (deadlineAt now (sh.config.acqTimeout * 1000))
        learnDeadline := none, holdDeadline := none, switchCount := min (sh.switchCount + 1) 65535, lastReason := why
        lastTime := now
        followed := match kind k with
          | .peer b => some b
          | _ => none },
        some (.select, sh.selected, some k))) ∧
    (∀ k, sh.selected = some k → ¬ lapsed → Shelf.applyTarget now why kind (some k) sh = (sh, none)) ∧
    (sh.state = .acquiring ∨ sh.state = .locked →
      (sh.historyValid = true → Shelf.applyTarget now why kind none sh =
        ({ sh with
          selected := none, state := .holdover, acqDeadline := none, learnDeadline := none
          holdDeadline := some (deadlineAt now (sh.config.holdoverLimit * 60000)), lastReason := why, lastTime := now
          followed := none },
          some (.holdover, sh.selected, none))) ∧
      (sh.historyValid = false → Shelf.applyTarget now why kind none sh =
        ({ sh with
          selected := none, state := .freeRun, acqDeadline := none, learnDeadline := none, lastReason := why, lastTime := now
          followed := none },
          some (.freeRun, sh.selected, none)))) ∧
    (sh.state = .holdover ∨ sh.state = .freeRun ∨ sh.state = .disabled →
      Shelf.applyTarget now why kind none sh = (sh, none))

/-- The change reason in its order (R79; its third case read as it stands: log entry 22, DEDUCED), and what stage 5 computes: the
output class by the table of R11, the barring by the table of R14, the live path by R107 and R108. -/
def Obligations.ReasonAndOutputsOfAnEvaluation : Prop :=
  (∀ (x : EvalCtx) (sh : Shelf) (mode : Mode) (accepted dropped : Bool),
    (accepted = true → x.reason sh mode accepted dropped = .command) ∧
    (∀ r, accepted = false → sh.pendingReason = some r → x.reason sh mode accepted dropped = r) ∧
    (accepted = false → sh.pendingReason = none →
      x.reason sh mode accepted dropped =
        if dropped = true ∨ (∃ c, sh.selected = some c ∧
            (x.remainCode c ≠ .eligible ∨ ((∃ k, mode = .forced k) ∧ x.forcedCode c ≠ .eligible)))
        then .failure else .policy)) ∧
  (∀ (history : Bool) (holdover judged : Quality),
    outputClass .locked history holdover judged = judged ∧
    outputClass .acquiring true holdover judged = holdover ∧ outputClass .acquiring false holdover judged = .qc4 ∧
    outputClass .holdover history holdover judged = holdover ∧ outputClass .freeRun history holdover judged = .qc4 ∧
    outputClass .disabled history holdover judged = .qc6) ∧
  (∀ (st : ShelfState) (j : Fin 8) (kind : Fin 8 → Kind), st = .acquiring ∨ st = .locked →
    (∀ b, kind j = .peer b → barringOf st (some j) kind = .shelf b) ∧
    ((∀ b, kind j ≠ .peer b) → barringOf st (some j) kind = .slot j)) ∧
  (∀ (st : ShelfState) (kind : Fin 8 → Kind) (sel : Option (Fin 8)), st = .freeRun ∨ st = .holdover ∨ st = .disabled →
    barringOf st sel kind = .none) ∧
  (∀ (x : EvalCtx) (st : ShelfState) (sel : Option (Fin 8)),
    ((st = .freeRun ∨ st = .holdover ∨ st = .disabled ∨ ∃ j, sel = some j ∧ ∀ b, x.cands[j].config.kind ≠ .peer b) →
      x.livePath st sel = [x.shelf]) ∧
    (∀ j b, st = .acquiring ∨ st = .locked → sel = some j → x.cands[j].config.kind = .peer b →
      x.livePath st sel = (liveWalk x.shelves x.shelf b).1.reverse ++ [x.shelf]))

/-! ### The Result Writer -/

/-- Where the records of the Exchange Memory stand (R138): the byte offset of every word of the ten regions. And where each field of the
input records and of the command slot stands in its words (R140, section 8.2.1), with the readings of undefined values: a lock state
other than 1 is NOT_LOCKED, a slot above 7 is none (R71), a slot state above 3 is EMPTY (R118). -/
def Obligations.RecordsStandAtTheirOffsets : Prop :=
  ((∀ n : Nat, n < 16 → 4 * (globalAddr n).toNat = 4 * n ∧ 4 * (logControlAddr n).toNat = 0x40 + 4 * n) ∧
  (∀ (i : Fin 32) (n : Nat), n < 16 →
    (n < 4 → 4 * (slotAddr i n).toNat = 0x100 + 16 * i.val + 4 * n ∧ 4 * (reportAddr i n).toNat = 0x300 + 16 * i.val + 4 * n) ∧
    4 * (shelfConfigAddr i n).toNat = 0x800 + 64 * i.val + 4 * n ∧
    4 * (shelfResultAddr i n).toNat = 0x5000 + 64 * i.val + 4 * n) ∧
  (∀ (k : Fin 256) (n : Nat), n < 8 →
    4 * (candConfigAddr k n).toNat = 0x1000 + 32 * k.val + 4 * n ∧ 4 * (obsAddr k n).toNat = 0x3000 + 32 * k.val + 4 * n ∧
    4 * (candResultAddr k n).toNat = 0x5800 + 32 * k.val + 4 * n) ∧
  (∀ idx n : Nat, idx < 128 → n < 8 → 4 * (logAddr idx n).toNat = 0x7800 + 32 * idx + 4 * n)) ∧
  ∀ m : Memory,
    let bits := fun (w : Word) (high low : Nat) => w.toNat / 2 ^ low % 2 ^ (high + 1 - low);
    (let w := fun n => m.readWord (globalAddr n);
      readGlobal m = { seq := w 0, version := bits (w 1) 7 0, shelfCount := bits (w 2) 7 0, period := bits (w 3) 15 0
                       logEnable := (w 4).getLsbD 0, echo := w 15 }) ∧
    (∀ i : Fin 32,
      (let w := fun n => m.readWord (shelfConfigAddr i n);
        readShelfConfig m i =
          { seq := w 0, enable := (w 1).getLsbD 0, policy := bits (w 1) 11 8, guardCode := bits (w 2) 3 0
            floorCode := bits (w 2) 11 8, holdoverCode := bits (w 2) 19 16, holdOff := bits (w 3) 15 0
            exponent := bits (w 4) 7 0, window := bits (w 5) 7 0, threshold := bits (w 5) 15 8
            waitToRestore := bits (w 6) 15 0, learningTime := bits (w 7) 15 0, holdoverLimit := bits (w 8) 15 0
            acqTimeout := bits (w 9) 15 0, echo := w 15 }) ∧
      (let w := fun n => m.readWord (reportAddr i n);
        (readReport m i).seq = w 0 ∧ (readReport m i).echo = w 3 ∧
        ((readReport m i).locked = true ↔ bits (w 1) 7 0 = 1) ∧
        (∀ j : Fin 8, (readReport m i).slot = some j ↔ bits (w 2) 7 0 = j.val) ∧
        ((readReport m i).slot = none ↔ 7 < bits (w 2) 7 0)) ∧
      (let w := fun n => m.readWord (slotAddr i n);
        readCommand m i = { code := bits (w 1) 7 0, arg := bits (w 1) 15 8 } ∧
        (readSlotState m i = .posted ↔ bits (w 0) 3 0 = 1) ∧ (readSlotState m i = .taken ↔ bits (w 0) 3 0 = 2) ∧
        (readSlotState m i = .done ↔ bits (w 0) 3 0 = 3) ∧
        (readSlotState m i = .empty ↔ bits (w 0) 3 0 = 0 ∨ 3 < bits (w 0) 3 0))) ∧
    ∀ k : Fin 256,
      (let w := fun n => m.readWord (candConfigAddr k n);
        readCandConfig m k =
          { seq := w 0, kind := bits (w 1) 3 0, priority := bits (w 1) 11 8, capCode := bits (w 1) 19 16
            source := bits (w 1) 31 24, frequency := (w 2).toNat, limit := (w 3).toNat, timeout := bits (w 4) 15 0
            echo := w 7 }) ∧
      (let w := fun n => m.readWord (obsAddr k n);
        readObservation m k =
          { seq := w 0, fault := (w 1).getLsbD 0, classPresent := (w 1).getLsbD 8, classCode := bits (w 1) 19 16
            gate := bits (w 2) 4 0, count := (w 3).toNat, echo := w 7 })

/-- The words of the result records, the log control record and the log entries, field by field (R43, R140, R161, R164 to R166, and
the record layouts of chapter 8): a field holds its value wherever the value has the field's width. The time remaining is the time of
the deadline that runs less now, 0 when none runs or when it is overdue (R64, R181). The codes are those of section 8.2.3, of R84 and
of R125. A path entry is the shelf's number below the path's length and 0 from it on, and every bit without a name is 0. -/
def Obligations.RecordsShowTheirFields : Prop :=
  (∀ (path : List (Fin 32)) (n : Nat),
    (∀ h : n < path.length, pathEntry path n = path[n].val) ∧ (path.length ≤ n → pathEntry path n = 0)) ∧
  (∀ (now : Nat) (sh : Shelf),
    let p := sh.published
    let w := fun n => (shelfResultBody now sh).getD (n - 1) 0
    (shelfResultBody now sh).length = 14 ∧
    field (w 1) 0 4 = p.state.code ∧ field (w 1) 4 4 = p.mode.code ∧ field (w 1) 8 4 = slotCode p.selected ∧
    field (w 1) 12 4 = slotCode p.mode.slot ∧ field (w 1) 16 16 = 0 ∧
    field (w 2) 0 4 = p.outputClass.code ∧ field (w 2) 8 2 = p.barring.codes.1 ∧ field (w 2) 16 5 = p.barring.codes.2 ∧
    field (w 2) 4 4 = 0 ∧ field (w 2) 10 6 = 0 ∧ field (w 2) 21 11 = 0 ∧ field (w 3) 4 4 = 0 ∧ field (w 3) 10 22 = 0 ∧
    field (w 6) 20 12 = 0 ∧
    field (w 8) 16 16 = 0 ∧ field (w 10) 16 16 = 0 ∧
    (p.path.length ≤ 8 → field (w 3) 0 4 = p.path.length) ∧ (w 3).getLsbD 8 = p.historyValid ∧
    (w 3).getLsbD 9 = p.holdoverExpired ∧
    (∀ n : Fin 4, field (w 4) (8 * n) 8 = pathEntry p.path n ∧ field (w 5) (8 * n) 8 = pathEntry p.path (4 + n)) ∧
    (p.switchCount ≤ 65535 → field (w 6) 0 16 = p.switchCount) ∧ field (w 6) 16 4 = p.lastReason.code ∧
    (p.lastTime < 2 ^ 48 → (w 7).toNat + 2 ^ 32 * field (w 8) 0 16 = p.lastTime) ∧
    w 9 = BitVec.ofNat 32 (remaining now sh.running) ∧
    field (w 10) 0 8 = p.outcome.codes.1 ∧ field (w 10) 8 8 = p.outcome.codes.2 ∧ w 11 = p.outcomeSeq ∧
    w 12 = 0 ∧ w 13 = 0 ∧ w 14 = 0) ∧
  (∀ (now : Nat) (c : Candidate) (j : Judgement),
    let w := fun n => (candResultBody now c j).getD (n - 1) 0
    (candResultBody now c j).length = 6 ∧
    field (w 1) 0 4 = c.state.code ∧ (w 1).getLsbD 4 = c.reasons.signal ∧ (w 1).getLsbD 5 = c.reasons.stale ∧
    (w 1).getLsbD 6 = c.reasons.freq ∧ (w 1).getLsbD 7 = j.lockedOut ∧ field (w 1) 8 4 = j.code.code ∧
    field (w 1) 12 4 = j.cls.code ∧ (c.history.length ≤ 32 → field (w 1) 16 6 = c.history.countP id) ∧
    field (w 1) 22 2 = 0 ∧ field (w 1) 26 6 = 0 ∧ field (w 5) 16 16 = 0 ∧
    (w 1).getLsbD 24 = c.average.isSome ∧ (w 1).getLsbD 25 = c.lastRaw.isSome ∧
    (∀ a, c.average = some a → -1000000 ≤ a → a ≤ 1000000 → (w 2).toInt = a) ∧ (c.average = none → w 2 = 0) ∧
    (∀ a, c.lastRaw = some a → -1000000 ≤ a → a ≤ 1000000 → (w 3).toInt = a) ∧ (c.lastRaw = none → w 3 = 0) ∧
    w 4 = BitVec.ofNat 32 (remaining now c.stateDeadline) ∧ field (w 5) 0 8 = c.outcome.codes.1 ∧
    field (w 5) 8 8 = c.outcome.codes.2 ∧ w 6 = BitVec.ofNat 32 (c.lastObs.getD 0)) ∧
  (∀ v : Writer,
    let w := fun n => (logControlBody v).getD (n - 1) 0
    (logControlBody v).length = 14 ∧ w 1 = v.loggedEntry ∧ field (w 2) 0 7 = v.loggedEntry.toNat % 128 ∧
    (v.lastEntryTime < 2 ^ 48 → (w 3).toNat + 2 ^ 32 * field (w 4) 0 16 = v.lastEntryTime) ∧
    field (w 5) 0 8 = v.globalOutcome.code ∧ w 6 = v.globalSeq ∧
    field (w 2) 7 25 = 0 ∧ field (w 4) 16 16 = 0 ∧ field (w 5) 8 24 = 0 ∧ (∀ n : Nat, 7 ≤ n → n ≤ 14 → w n = 0)) ∧
  (∀ e : LogEntry,
    let w := fun n => (logEntryBody e).getD (n - 1) 0
    (logEntryBody e).length = 6 ∧ (e.time < 2 ^ 48 → (w 1).toNat + 2 ^ 32 * field (w 2) 0 16 = e.time) ∧
    field (w 2) 16 16 = 0 ∧
    field (w 3) 0 8 = e.shelf.val ∧ field (w 3) 8 8 = e.kind.code ∧ field (w 3) 16 4 = slotCode e.previous ∧
    field (w 3) 20 4 = slotCode e.new ∧ field (w 3) 24 4 = e.cls.code ∧ field (w 3) 28 4 = e.reason.code ∧
    w 4 = 0 ∧ w 5 = 0 ∧ w 6 = 0) ∧
  (∀ (now : Nat) (d : Deadline),
    remaining now none = 0 ∧ (d.time ≤ now → remaining now (some d) = 0) ∧
    (now ≤ d.time → remaining now (some d) + now = d.time)) ∧
  (∀ (sh : Shelf) (d : Deadline), ShelfLaw sh →
    (sh.running = some d ↔ sh.acqDeadline = some d ∨ sh.learnDeadline = some d ∨ sh.holdDeadline = some d)) ∧
  ([ShelfState.disabled, .freeRun, .acquiring, .locked, .holdover].map ShelfState.code = [0, 1, 2, 3, 4]) ∧
  (∀ k : Fin 8, [Mode.auto, .manual k, .forced k, .hold].map Mode.code = [0, 1, 2, 3] ∧
    [Mode.auto, .manual k, .forced k, .hold].map Mode.slot = [none, some k, some k, none] ∧
    slotCode (some k) = k.val ∧ slotCode none = 15) ∧
  ([CandState.off, .unknown, .available, .suspect, .failed, .restoring].map CandState.code = [0, 1, 2, 3, 4, 5]) ∧
  ([Quality.qc1, .qc2, .qc3, .qc4, .qc5, .qc6].map Quality.code = [1, 2, 3, 4, 5, 6]) ∧
  (∀ (j : Fin 8) (b : Fin 32),
    [Barring.none, .slot j, .shelf b].map Barring.codes = [(0, 0), (1, j.val), (2, b.val)]) ∧
  ([ChangeReason.start, .policy, .failure, .command, .acqFail, .lockLost, .holdoverExpiry, .config].map ChangeReason.code =
    [0, 1, 2, 3, 4, 5, 6, 7]) ∧
  ([LogKind.select, .lock, .acqFail, .lockLost, .holdover, .freeRun, .holdoverExpired, .disabled].map LogKind.code =
    [1, 2, 3, 4, 5, 6, 7, 8]) ∧
  ([CfgOutcome.none, .applied, .appliedClamped, .rejected .badKind, .rejected .badClass, .rejected .badPolicy,
      .rejected .badSource, .rejected .badFrequency].map CfgOutcome.codes =
    [(0, 0), (1, 0), (2, 0), (3, 1), (3, 2), (3, 3), (3, 4), (3, 5)]) ∧
  ([GlobalOutcome.none, .applied, .appliedClamped, .rejected].map GlobalOutcome.code = [0, 1, 2, 3]) ∧
  ([EligCode.eligible, .off, .lockedOut, .notReady, .holdingOff, .barred, .belowFloor, .sourceOff, .loop, .tooDeep].map
    EligCode.code = [0, 1, 2, 3, 4, 5, 6, 7, 8, 9]) ∧
  ([CmdOutcome.accepted, .badCommand, .badSlot, .shelfOff, .overridden, .lockedOut, .ineligible, .inUse, .notApplicable,
      .aborted].map CmdOutcome.code = [1, 2, 3, 4, 5, 6, 7, 8, 9, 10])

/-- The end of a write of a record at the head of the list (R160 to R166). The record holds its publication value or entry number in
its first and last word and the body between, and no other byte changes; the item has left the list; a shelf result sets its
SHELF_CHG bit, raises RESULT and records the state written; a result or the log control record moves the publication counter up by one,
and from 4,294,967,295 to 1 (R161); a log entry raises LOG, advances the logged entry number and asks for the log control record.
That the words of a result and of the log control record are those of the tables and the clock at the end of the transaction, and
that the item leaves the list then, is log entry 16 (DESIGN CHOICE). -/
def Obligations.RecordsAreWritten : Prop :=
  ∀ (s : State) (rest : List WriteItem), s.arbiter.owner = .writer .item → MemoryLaw s →
    (∀ i : Fin 32, s.writer.list = .shelfResult i :: rest → ∃ t, exec (.shelfResultWrite .finish) s = .next t ∧
      Keeps [.causes, .shelfChg, .mem, .arbiter, .writer] s t ∧ t.causes = { s.causes with result := true } ∧
      (∀ n : Nat, n < 32 → t.shelfChg.getLsbD n = (s.shelfChg.getLsbD n || decide (n = i.val))) ∧
      s.wrote t (shelfResultAddr i) (framed s.writer.publication (shelfResultBody s.clock s.shelves[i])) ∧
      t.writer = { s.writer with
        list := rest, publication := nextPublication s.writer.publication
        written := s.writer.written.set i s.shelves[i].published.state } ∧ s.portPassed t) ∧
    (∀ k : Fin 256, s.writer.list = .candResult k :: rest → ∃ t, exec (.candidateResultWrite .finish) s = .next t ∧
      Keeps [.mem, .arbiter, .writer] s t ∧
      s.wrote t (candResultAddr k) (framed s.writer.publication (candResultBody s.clock s.cands[k] s.judged[k])) ∧
      t.writer = { s.writer with list := rest, publication := nextPublication s.writer.publication } ∧ s.portPassed t) ∧
    (s.writer.list = .logControl :: rest → ∃ t, exec (.logControlWrite .finish) s = .next t ∧
      Keeps [.mem, .arbiter, .writer] s t ∧
      s.wrote t logControlAddr (framed s.writer.publication (logControlBody s.writer)) ∧
      t.writer = { s.writer with list := rest, publication := nextPublication s.writer.publication } ∧ s.portPassed t) ∧
    (∀ e : LogEntry, s.writer.list = .logEntry e :: rest → ∃ t, exec (.logEntryWrite .finish) s = .next t ∧
      Keeps [.causes, .mem, .arbiter, .writer] s t ∧ t.causes = { s.causes with log := true } ∧
      s.wrote t (logAddr (e.number.toNat % 128)) (framed e.number (logEntryBody e)) ∧
      t.writer = { s.writer with
        list := joined rest .logControl, loggedEntry := e.number + 1, lastEntryTime := e.time } ∧ s.portPassed t) ∧
    (s.writer.publication ≠ 4294967295 → nextPublication s.writer.publication = s.writer.publication + 1) ∧
    (s.writer.publication = 4294967295 → nextPublication s.writer.publication = 1)

/-- COMMAND_COMPLETION (R120, R121): the outcome and the completion time are written, and DONE when the slot reads TAKEN; COMMAND is
raised. ABORTED_COMPLETION (R123, R174): the same for a slot that reads TAKEN with no command in hand, and nothing for any other; step
3 goes on to the next slot, and after the 32nd come the request for the log control record and the sweep of step 5 (log entry 9,
DESIGN CHOICE). A transaction whose step was cut short ends without the step (log entry 8, DEDUCED). That the completion time is the
clock at the end of the transaction, and that the item leaves the list then, is log entry 16 (DESIGN CHOICE). -/
def Obligations.CommandsAreCompleted : Prop :=
  ∀ (s : State) (i : Fin 32), MemoryLaw s →
    (∀ (o : CmdOutcome) (rest : List WriteItem), s.arbiter.owner = .writer .item → s.writer.list = .completion i o :: rest →
      ∃ t, exec (.commandCompletion .finish) s = .next t ∧ Keeps [.causes, .mem, .arbiter, .writer] s t ∧
        t.causes = { s.causes with command := true } ∧ t.writer = { s.writer with list := rest } ∧ s.portPassed t ∧
        (readSlotState s.mem i = .taken →
          s.wrote t (fun n => slotAddr i ((n + 2) % 4)) [BitVec.ofNat 32 o.code, BitVec.ofNat 32 s.clock, 3]) ∧
        (readSlotState s.mem i ≠ .taken →
          s.wrote t (fun n => slotAddr i (n + 2)) [BitVec.ofNat 32 o.code, BitVec.ofNat 32 s.clock])) ∧
    (∀ live : Bool, s.arbiter.owner = .writer (.abort i live) →
      let left := readSlotState s.mem i = .taken ∧ s.commandInHand i = false
      ∃ t, exec (.abortedCompletion .finish) s = .next t ∧ s.portPassed t ∧
        (left → t.causes = { s.causes with command := true } ∧
          s.wrote t (fun n => slotAddr i ((n + 2) % 4)) [10, BitVec.ofNat 32 s.clock, 3]) ∧
        (¬ left → t.causes = s.causes ∧ t.mem = s.mem) ∧
        (live = false → Keeps [.causes, .mem, .arbiter] s t) ∧
        (∀ h : i.val + 1 < 32, live = true →
          Keeps [.engine, .causes, .mem, .arbiter] s t ∧ t.engine = .starting (.slots ⟨i.val + 1, h⟩)) ∧
        (i.val = 31 → live = true → s.intake.pendingGlobals = none →
          Keeps [.engine, .causes, .mem, .arbiter, .intake, .writer] s t ∧ t.engine = .starting .sweep ∧
          t.writer = s.writer.asked .logControl ∧ t.intake = { s.intake with
            position := some .global, sweepDeadline := some (deadlineAt s.clock s.intake.applied.period) }))

/-! ### The laws that every step keeps -/

/-- Every step keeps the canonical form of the Exchange Memory, and the write list with at most one item for each record and at most
one command in hand for each shelf (R120, R160). A log entry at the head whose transaction is in progress has its place until it is
written, with a newer entry for its index possibly behind it (log entry 30, DEDUCED). -/
def Obligations.MemoryAndWriteListKeepTheirForm : Prop :=
  ∀ s t : State, step s = .next t → (MemoryLaw s → MemoryLaw t) ∧ (WriteLaw s → WriteLaw t)

/-- Every step keeps the relations of the shelf entries (R64, R68, R101), those of the candidate entries (R23, R28 to R33, R38, R52),
and that the candidates of a DISABLED shelf are OFF (R42). -/
def Obligations.ShelvesAndCandidatesKeepTheirRelations : Prop :=
  ∀ s t : State, step s = .next t →
    (ShelvesLaw s → ShelvesLaw t) ∧ (CandsLaw s → CandsLaw t) ∧ (ServiceLaw s → ServiceLaw t)

/-- Every step keeps the timing graph free of rings (R102), also for the inputs of an evaluation in progress, and every published path
at 1 to 8 distinct shelves that end with the shelf itself (R108). -/
def Obligations.NoTimingRingArises : Prop :=
  ∀ s t : State, step s = .next t → GraphLaw s → GraphLaw t

/-- Every step keeps the clock, the prescaler and the deadlines in their ranges (R180, R181), the queue without a shelf twice (R113), the
publication counter off 0 (R161) and the global values in their ranges (R154, R157); and the clock never decreases but at power-on or
full reset (R180). -/
def Obligations.ClockAndCountersKeepTheirRanges : Prop :=
  ∀ s t : State, step s = .next t →
    (ClockLaw s → ClockLaw t) ∧ (RangeLaw s → RangeLaw t) ∧
    (s.clock ≤ 281474976710655 → t.clock < s.clock → t.clock = 0 ∧
      ∃ c rest, s.pending = c :: rest ∧
        (c = .powerOn ∨ (∃ n, c = .resetN n) ∨
          ∃ w : Word, w.getLsbD 3 = true ∧ ((∃ n, c = .fullReset w n) ∨ (∃ n, c = .restart w n) ∨ c = .runSet w ∨
            c = .runClear w ∨ c = .sweepNow w ∨ c = .registerWriteRefused 1 (.write w))))
end

