-- ==== Sys2Proof/Laws/State.lean ====
section
/-! SUPPORT. One lemma for each field of State under each primitive update; every one is true by rfl. -/

namespace Sys2Proof.Machine

@[simp] theorem State.setCand_run (s : State) (k : Fin 256) (c : Candidate) : (s.setCand k c).run = s.run := rfl
@[simp] theorem State.setCand_engine (s : State) (k : Fin 256) (c : Candidate) : (s.setCand k c).engine = s.engine := rfl
@[simp] theorem State.setCand_haltCause (s : State) (k : Fin 256) (c : Candidate) : (s.setCand k c).haltCause = s.haltCause := rfl
@[simp] theorem State.setCand_resetLow (s : State) (k : Fin 256) (c : Candidate) : (s.setCand k c).resetLow = s.resetLow := rfl
@[simp] theorem State.setCand_bus (s : State) (k : Fin 256) (c : Candidate) : (s.setCand k c).bus = s.bus := rfl
@[simp] theorem State.setCand_causes (s : State) (k : Fin 256) (c : Candidate) : (s.setCand k c).causes = s.causes := rfl
@[simp] theorem State.setCand_enables (s : State) (k : Fin 256) (c : Candidate) : (s.setCand k c).enables = s.enables := rfl
@[simp] theorem State.setCand_shelfChg (s : State) (k : Fin 256) (c : Candidate) : (s.setCand k c).shelfChg = s.shelfChg := rfl
@[simp] theorem State.setCand_msclkH (s : State) (k : Fin 256) (c : Candidate) : (s.setCand k c).msclkH = s.msclkH := rfl
@[simp] theorem State.setCand_prescaler (s : State) (k : Fin 256) (c : Candidate) : (s.setCand k c).prescaler = s.prescaler := rfl
@[simp] theorem State.setCand_clock (s : State) (k : Fin 256) (c : Candidate) : (s.setCand k c).clock = s.clock := rfl
@[simp] theorem State.setCand_mem (s : State) (k : Fin 256) (c : Candidate) : (s.setCand k c).mem = s.mem := rfl
@[simp] theorem State.setCand_arbiter (s : State) (k : Fin 256) (c : Candidate) : (s.setCand k c).arbiter = s.arbiter := rfl
@[simp] theorem State.setCand_intake (s : State) (k : Fin 256) (c : Candidate) : (s.setCand k c).intake = s.intake := rfl
@[simp] theorem State.setCand_cands (s : State) (k : Fin 256) (c : Candidate) : (s.setCand k c).cands = s.cands.set k c := rfl
@[simp] theorem State.setCand_params (s : State) (k : Fin 256) (c : Candidate) : (s.setCand k c).params = s.params := rfl
@[simp] theorem State.setCand_requests (s : State) (k : Fin 256) (c : Candidate) : (s.setCand k c).requests = s.requests := rfl
@[simp] theorem State.setCand_shelves (s : State) (k : Fin 256) (c : Candidate) : (s.setCand k c).shelves = s.shelves := rfl
@[simp] theorem State.setCand_judged (s : State) (k : Fin 256) (c : Candidate) : (s.setCand k c).judged = s.judged := rfl
@[simp] theorem State.setCand_queue (s : State) (k : Fin 256) (c : Candidate) : (s.setCand k c).queue = s.queue := rfl
@[simp] theorem State.setCand_evaluating (s : State) (k : Fin 256) (c : Candidate) : (s.setCand k c).evaluating = s.evaluating := rfl
@[simp] theorem State.setCand_writer (s : State) (k : Fin 256) (c : Candidate) : (s.setCand k c).writer = s.writer := rfl
@[simp] theorem State.setCand_powerOns (s : State) (k : Fin 256) (c : Candidate) : (s.setCand k c).powerOns = s.powerOns := rfl
@[simp] theorem State.setCand_pending (s : State) (k : Fin 256) (c : Candidate) : (s.setCand k c).pending = s.pending := rfl

@[simp] theorem State.setShelf_run (s : State) (i : Fin 32) (sh : Shelf) : (s.setShelf i sh).run = s.run := rfl
@[simp] theorem State.setShelf_engine (s : State) (i : Fin 32) (sh : Shelf) : (s.setShelf i sh).engine = s.engine := rfl
@[simp] theorem State.setShelf_haltCause (s : State) (i : Fin 32) (sh : Shelf) : (s.setShelf i sh).haltCause = s.haltCause := rfl
@[simp] theorem State.setShelf_resetLow (s : State) (i : Fin 32) (sh : Shelf) : (s.setShelf i sh).resetLow = s.resetLow := rfl
@[simp] theorem State.setShelf_bus (s : State) (i : Fin 32) (sh : Shelf) : (s.setShelf i sh).bus = s.bus := rfl
@[simp] theorem State.setShelf_causes (s : State) (i : Fin 32) (sh : Shelf) : (s.setShelf i sh).causes = s.causes := rfl
@[simp] theorem State.setShelf_enables (s : State) (i : Fin 32) (sh : Shelf) : (s.setShelf i sh).enables = s.enables := rfl
@[simp] theorem State.setShelf_shelfChg (s : State) (i : Fin 32) (sh : Shelf) : (s.setShelf i sh).shelfChg = s.shelfChg := rfl
@[simp] theorem State.setShelf_msclkH (s : State) (i : Fin 32) (sh : Shelf) : (s.setShelf i sh).msclkH = s.msclkH := rfl
@[simp] theorem State.setShelf_prescaler (s : State) (i : Fin 32) (sh : Shelf) : (s.setShelf i sh).prescaler = s.prescaler := rfl
@[simp] theorem State.setShelf_clock (s : State) (i : Fin 32) (sh : Shelf) : (s.setShelf i sh).clock = s.clock := rfl
@[simp] theorem State.setShelf_mem (s : State) (i : Fin 32) (sh : Shelf) : (s.setShelf i sh).mem = s.mem := rfl
@[simp] theorem State.setShelf_arbiter (s : State) (i : Fin 32) (sh : Shelf) : (s.setShelf i sh).arbiter = s.arbiter := rfl
@[simp] theorem State.setShelf_intake (s : State) (i : Fin 32) (sh : Shelf) : (s.setShelf i sh).intake = s.intake := rfl
@[simp] theorem State.setShelf_cands (s : State) (i : Fin 32) (sh : Shelf) : (s.setShelf i sh).cands = s.cands := rfl
@[simp] theorem State.setShelf_params (s : State) (i : Fin 32) (sh : Shelf) : (s.setShelf i sh).params = s.params := rfl
@[simp] theorem State.setShelf_requests (s : State) (i : Fin 32) (sh : Shelf) : (s.setShelf i sh).requests = s.requests := rfl
@[simp] theorem State.setShelf_shelves (s : State) (i : Fin 32) (sh : Shelf) : (s.setShelf i sh).shelves = s.shelves.set i sh := rfl
@[simp] theorem State.setShelf_judged (s : State) (i : Fin 32) (sh : Shelf) : (s.setShelf i sh).judged = s.judged := rfl
@[simp] theorem State.setShelf_queue (s : State) (i : Fin 32) (sh : Shelf) : (s.setShelf i sh).queue = s.queue := rfl
@[simp] theorem State.setShelf_evaluating (s : State) (i : Fin 32) (sh : Shelf) : (s.setShelf i sh).evaluating = s.evaluating := rfl
@[simp] theorem State.setShelf_writer (s : State) (i : Fin 32) (sh : Shelf) : (s.setShelf i sh).writer = s.writer := rfl
@[simp] theorem State.setShelf_powerOns (s : State) (i : Fin 32) (sh : Shelf) : (s.setShelf i sh).powerOns = s.powerOns := rfl
@[simp] theorem State.setShelf_pending (s : State) (i : Fin 32) (sh : Shelf) : (s.setShelf i sh).pending = s.pending := rfl

@[simp] theorem State.setParams_run (s : State) (i : Fin 32) (p : MonitorParams) : (s.setParams i p).run = s.run := rfl
@[simp] theorem State.setParams_engine (s : State) (i : Fin 32) (p : MonitorParams) : (s.setParams i p).engine = s.engine := rfl
@[simp] theorem State.setParams_haltCause (s : State) (i : Fin 32) (p : MonitorParams) : (s.setParams i p).haltCause = s.haltCause := rfl
@[simp] theorem State.setParams_resetLow (s : State) (i : Fin 32) (p : MonitorParams) : (s.setParams i p).resetLow = s.resetLow := rfl
@[simp] theorem State.setParams_bus (s : State) (i : Fin 32) (p : MonitorParams) : (s.setParams i p).bus = s.bus := rfl
@[simp] theorem State.setParams_causes (s : State) (i : Fin 32) (p : MonitorParams) : (s.setParams i p).causes = s.causes := rfl
@[simp] theorem State.setParams_enables (s : State) (i : Fin 32) (p : MonitorParams) : (s.setParams i p).enables = s.enables := rfl
@[simp] theorem State.setParams_shelfChg (s : State) (i : Fin 32) (p : MonitorParams) : (s.setParams i p).shelfChg = s.shelfChg := rfl
@[simp] theorem State.setParams_msclkH (s : State) (i : Fin 32) (p : MonitorParams) : (s.setParams i p).msclkH = s.msclkH := rfl
@[simp] theorem State.setParams_prescaler (s : State) (i : Fin 32) (p : MonitorParams) : (s.setParams i p).prescaler = s.prescaler := rfl
@[simp] theorem State.setParams_clock (s : State) (i : Fin 32) (p : MonitorParams) : (s.setParams i p).clock = s.clock := rfl
@[simp] theorem State.setParams_mem (s : State) (i : Fin 32) (p : MonitorParams) : (s.setParams i p).mem = s.mem := rfl
@[simp] theorem State.setParams_arbiter (s : State) (i : Fin 32) (p : MonitorParams) : (s.setParams i p).arbiter = s.arbiter := rfl
@[simp] theorem State.setParams_intake (s : State) (i : Fin 32) (p : MonitorParams) : (s.setParams i p).intake = s.intake := rfl
@[simp] theorem State.setParams_cands (s : State) (i : Fin 32) (p : MonitorParams) : (s.setParams i p).cands = s.cands := rfl
@[simp] theorem State.setParams_params (s : State) (i : Fin 32) (p : MonitorParams) : (s.setParams i p).params = s.params.set i p := rfl
@[simp] theorem State.setParams_requests (s : State) (i : Fin 32) (p : MonitorParams) : (s.setParams i p).requests = s.requests := rfl
@[simp] theorem State.setParams_shelves (s : State) (i : Fin 32) (p : MonitorParams) : (s.setParams i p).shelves = s.shelves := rfl
@[simp] theorem State.setParams_judged (s : State) (i : Fin 32) (p : MonitorParams) : (s.setParams i p).judged = s.judged := rfl
@[simp] theorem State.setParams_queue (s : State) (i : Fin 32) (p : MonitorParams) : (s.setParams i p).queue = s.queue := rfl
@[simp] theorem State.setParams_evaluating (s : State) (i : Fin 32) (p : MonitorParams) : (s.setParams i p).evaluating = s.evaluating := rfl
@[simp] theorem State.setParams_writer (s : State) (i : Fin 32) (p : MonitorParams) : (s.setParams i p).writer = s.writer := rfl
@[simp] theorem State.setParams_powerOns (s : State) (i : Fin 32) (p : MonitorParams) : (s.setParams i p).powerOns = s.powerOns := rfl
@[simp] theorem State.setParams_pending (s : State) (i : Fin 32) (p : MonitorParams) : (s.setParams i p).pending = s.pending := rfl

@[simp] theorem State.complete_run (s : State) (i : Fin 32) (o : CmdOutcome) : (s.complete i o).run = s.run := rfl
@[simp] theorem State.complete_engine (s : State) (i : Fin 32) (o : CmdOutcome) : (s.complete i o).engine = s.engine := rfl
@[simp] theorem State.complete_haltCause (s : State) (i : Fin 32) (o : CmdOutcome) : (s.complete i o).haltCause = s.haltCause := rfl
@[simp] theorem State.complete_resetLow (s : State) (i : Fin 32) (o : CmdOutcome) : (s.complete i o).resetLow = s.resetLow := rfl
@[simp] theorem State.complete_bus (s : State) (i : Fin 32) (o : CmdOutcome) : (s.complete i o).bus = s.bus := rfl
@[simp] theorem State.complete_causes (s : State) (i : Fin 32) (o : CmdOutcome) : (s.complete i o).causes = s.causes := rfl
@[simp] theorem State.complete_enables (s : State) (i : Fin 32) (o : CmdOutcome) : (s.complete i o).enables = s.enables := rfl
@[simp] theorem State.complete_shelfChg (s : State) (i : Fin 32) (o : CmdOutcome) : (s.complete i o).shelfChg = s.shelfChg := rfl
@[simp] theorem State.complete_msclkH (s : State) (i : Fin 32) (o : CmdOutcome) : (s.complete i o).msclkH = s.msclkH := rfl
@[simp] theorem State.complete_prescaler (s : State) (i : Fin 32) (o : CmdOutcome) : (s.complete i o).prescaler = s.prescaler := rfl
@[simp] theorem State.complete_clock (s : State) (i : Fin 32) (o : CmdOutcome) : (s.complete i o).clock = s.clock := rfl
@[simp] theorem State.complete_mem (s : State) (i : Fin 32) (o : CmdOutcome) : (s.complete i o).mem = s.mem := rfl
@[simp] theorem State.complete_arbiter (s : State) (i : Fin 32) (o : CmdOutcome) : (s.complete i o).arbiter = s.arbiter := rfl
@[simp] theorem State.complete_intake (s : State) (i : Fin 32) (o : CmdOutcome) : (s.complete i o).intake = s.intake := rfl
@[simp] theorem State.complete_cands (s : State) (i : Fin 32) (o : CmdOutcome) : (s.complete i o).cands = s.cands := rfl
@[simp] theorem State.complete_params (s : State) (i : Fin 32) (o : CmdOutcome) : (s.complete i o).params = s.params := rfl
@[simp] theorem State.complete_requests (s : State) (i : Fin 32) (o : CmdOutcome) : (s.complete i o).requests = s.requests := rfl
@[simp] theorem State.complete_shelves (s : State) (i : Fin 32) (o : CmdOutcome) : (s.complete i o).shelves = s.shelves := rfl
@[simp] theorem State.complete_judged (s : State) (i : Fin 32) (o : CmdOutcome) : (s.complete i o).judged = s.judged := rfl
@[simp] theorem State.complete_queue (s : State) (i : Fin 32) (o : CmdOutcome) : (s.complete i o).queue = s.queue := rfl
@[simp] theorem State.complete_evaluating (s : State) (i : Fin 32) (o : CmdOutcome) : (s.complete i o).evaluating = s.evaluating := rfl
@[simp] theorem State.complete_writer (s : State) (i : Fin 32) (o : CmdOutcome) : (s.complete i o).writer = s.writer.completed i o := rfl
@[simp] theorem State.complete_powerOns (s : State) (i : Fin 32) (o : CmdOutcome) : (s.complete i o).powerOns = s.powerOns := rfl
@[simp] theorem State.complete_pending (s : State) (i : Fin 32) (o : CmdOutcome) : (s.complete i o).pending = s.pending := rfl

@[simp] theorem State.send_run (s : State) (r : Request) : (s.send r).run = s.run := rfl
@[simp] theorem State.send_engine (s : State) (r : Request) : (s.send r).engine = s.engine := rfl
@[simp] theorem State.send_haltCause (s : State) (r : Request) : (s.send r).haltCause = s.haltCause := rfl
@[simp] theorem State.send_resetLow (s : State) (r : Request) : (s.send r).resetLow = s.resetLow := rfl
@[simp] theorem State.send_bus (s : State) (r : Request) : (s.send r).bus = s.bus := rfl
@[simp] theorem State.send_causes (s : State) (r : Request) : (s.send r).causes = s.causes := rfl
@[simp] theorem State.send_enables (s : State) (r : Request) : (s.send r).enables = s.enables := rfl
@[simp] theorem State.send_shelfChg (s : State) (r : Request) : (s.send r).shelfChg = s.shelfChg := rfl
@[simp] theorem State.send_msclkH (s : State) (r : Request) : (s.send r).msclkH = s.msclkH := rfl
@[simp] theorem State.send_prescaler (s : State) (r : Request) : (s.send r).prescaler = s.prescaler := rfl
@[simp] theorem State.send_clock (s : State) (r : Request) : (s.send r).clock = s.clock := rfl
@[simp] theorem State.send_mem (s : State) (r : Request) : (s.send r).mem = s.mem := rfl
@[simp] theorem State.send_arbiter (s : State) (r : Request) : (s.send r).arbiter = s.arbiter := rfl
@[simp] theorem State.send_intake (s : State) (r : Request) : (s.send r).intake = s.intake := rfl
@[simp] theorem State.send_cands (s : State) (r : Request) : (s.send r).cands = s.cands := rfl
@[simp] theorem State.send_params (s : State) (r : Request) : (s.send r).params = s.params := rfl
@[simp] theorem State.send_requests (s : State) (r : Request) : (s.send r).requests = s.requests ++ [r] := rfl
@[simp] theorem State.send_shelves (s : State) (r : Request) : (s.send r).shelves = s.shelves := rfl
@[simp] theorem State.send_judged (s : State) (r : Request) : (s.send r).judged = s.judged := rfl
@[simp] theorem State.send_queue (s : State) (r : Request) : (s.send r).queue = s.queue := rfl
@[simp] theorem State.send_evaluating (s : State) (r : Request) : (s.send r).evaluating = s.evaluating := rfl
@[simp] theorem State.send_writer (s : State) (r : Request) : (s.send r).writer = s.writer := rfl
@[simp] theorem State.send_powerOns (s : State) (r : Request) : (s.send r).powerOns = s.powerOns := rfl
@[simp] theorem State.send_pending (s : State) (r : Request) : (s.send r).pending = s.pending := rfl

@[simp] theorem State.dropRequest_run (s : State) (r : Request) : (s.dropRequest r).run = s.run := rfl
@[simp] theorem State.dropRequest_engine (s : State) (r : Request) : (s.dropRequest r).engine = s.engine := rfl
@[simp] theorem State.dropRequest_haltCause (s : State) (r : Request) : (s.dropRequest r).haltCause = s.haltCause := rfl
@[simp] theorem State.dropRequest_resetLow (s : State) (r : Request) : (s.dropRequest r).resetLow = s.resetLow := rfl
@[simp] theorem State.dropRequest_bus (s : State) (r : Request) : (s.dropRequest r).bus = s.bus := rfl
@[simp] theorem State.dropRequest_causes (s : State) (r : Request) : (s.dropRequest r).causes = s.causes := rfl
@[simp] theorem State.dropRequest_enables (s : State) (r : Request) : (s.dropRequest r).enables = s.enables := rfl
@[simp] theorem State.dropRequest_shelfChg (s : State) (r : Request) : (s.dropRequest r).shelfChg = s.shelfChg := rfl
@[simp] theorem State.dropRequest_msclkH (s : State) (r : Request) : (s.dropRequest r).msclkH = s.msclkH := rfl
@[simp] theorem State.dropRequest_prescaler (s : State) (r : Request) : (s.dropRequest r).prescaler = s.prescaler := rfl
@[simp] theorem State.dropRequest_clock (s : State) (r : Request) : (s.dropRequest r).clock = s.clock := rfl
@[simp] theorem State.dropRequest_mem (s : State) (r : Request) : (s.dropRequest r).mem = s.mem := rfl
@[simp] theorem State.dropRequest_arbiter (s : State) (r : Request) : (s.dropRequest r).arbiter = s.arbiter := rfl
@[simp] theorem State.dropRequest_intake (s : State) (r : Request) : (s.dropRequest r).intake = s.intake := rfl
@[simp] theorem State.dropRequest_cands (s : State) (r : Request) : (s.dropRequest r).cands = s.cands := rfl
@[simp] theorem State.dropRequest_params (s : State) (r : Request) : (s.dropRequest r).params = s.params := rfl
@[simp] theorem State.dropRequest_requests (s : State) (r : Request) : (s.dropRequest r).requests = s.requests.erase r := rfl
@[simp] theorem State.dropRequest_shelves (s : State) (r : Request) : (s.dropRequest r).shelves = s.shelves := rfl
@[simp] theorem State.dropRequest_judged (s : State) (r : Request) : (s.dropRequest r).judged = s.judged := rfl
@[simp] theorem State.dropRequest_queue (s : State) (r : Request) : (s.dropRequest r).queue = s.queue := rfl
@[simp] theorem State.dropRequest_evaluating (s : State) (r : Request) : (s.dropRequest r).evaluating = s.evaluating := rfl
@[simp] theorem State.dropRequest_writer (s : State) (r : Request) : (s.dropRequest r).writer = s.writer := rfl
@[simp] theorem State.dropRequest_powerOns (s : State) (r : Request) : (s.dropRequest r).powerOns = s.powerOns := rfl
@[simp] theorem State.dropRequest_pending (s : State) (r : Request) : (s.dropRequest r).pending = s.pending := rfl

@[simp] theorem State.raiseResult_run (s : State) : (s.raiseResult).run = s.run := rfl
@[simp] theorem State.raiseResult_engine (s : State) : (s.raiseResult).engine = s.engine := rfl
@[simp] theorem State.raiseResult_haltCause (s : State) : (s.raiseResult).haltCause = s.haltCause := rfl
@[simp] theorem State.raiseResult_resetLow (s : State) : (s.raiseResult).resetLow = s.resetLow := rfl
@[simp] theorem State.raiseResult_bus (s : State) : (s.raiseResult).bus = s.bus := rfl
@[simp] theorem State.raiseResult_causes (s : State) : (s.raiseResult).causes = { s.causes with result := true } := rfl
@[simp] theorem State.raiseResult_enables (s : State) : (s.raiseResult).enables = s.enables := rfl
@[simp] theorem State.raiseResult_shelfChg (s : State) : (s.raiseResult).shelfChg = s.shelfChg := rfl
@[simp] theorem State.raiseResult_msclkH (s : State) : (s.raiseResult).msclkH = s.msclkH := rfl
@[simp] theorem State.raiseResult_prescaler (s : State) : (s.raiseResult).prescaler = s.prescaler := rfl
@[simp] theorem State.raiseResult_clock (s : State) : (s.raiseResult).clock = s.clock := rfl
@[simp] theorem State.raiseResult_mem (s : State) : (s.raiseResult).mem = s.mem := rfl
@[simp] theorem State.raiseResult_arbiter (s : State) : (s.raiseResult).arbiter = s.arbiter := rfl
@[simp] theorem State.raiseResult_intake (s : State) : (s.raiseResult).intake = s.intake := rfl
@[simp] theorem State.raiseResult_cands (s : State) : (s.raiseResult).cands = s.cands := rfl
@[simp] theorem State.raiseResult_params (s : State) : (s.raiseResult).params = s.params := rfl
@[simp] theorem State.raiseResult_requests (s : State) : (s.raiseResult).requests = s.requests := rfl
@[simp] theorem State.raiseResult_shelves (s : State) : (s.raiseResult).shelves = s.shelves := rfl
@[simp] theorem State.raiseResult_judged (s : State) : (s.raiseResult).judged = s.judged := rfl
@[simp] theorem State.raiseResult_queue (s : State) : (s.raiseResult).queue = s.queue := rfl
@[simp] theorem State.raiseResult_evaluating (s : State) : (s.raiseResult).evaluating = s.evaluating := rfl
@[simp] theorem State.raiseResult_writer (s : State) : (s.raiseResult).writer = s.writer := rfl
@[simp] theorem State.raiseResult_powerOns (s : State) : (s.raiseResult).powerOns = s.powerOns := rfl
@[simp] theorem State.raiseResult_pending (s : State) : (s.raiseResult).pending = s.pending := rfl

@[simp] theorem State.raiseCommand_run (s : State) : (s.raiseCommand).run = s.run := rfl
@[simp] theorem State.raiseCommand_engine (s : State) : (s.raiseCommand).engine = s.engine := rfl
@[simp] theorem State.raiseCommand_haltCause (s : State) : (s.raiseCommand).haltCause = s.haltCause := rfl
@[simp] theorem State.raiseCommand_resetLow (s : State) : (s.raiseCommand).resetLow = s.resetLow := rfl
@[simp] theorem State.raiseCommand_bus (s : State) : (s.raiseCommand).bus = s.bus := rfl
@[simp] theorem State.raiseCommand_causes (s : State) : (s.raiseCommand).causes = { s.causes with command := true } := rfl
@[simp] theorem State.raiseCommand_enables (s : State) : (s.raiseCommand).enables = s.enables := rfl
@[simp] theorem State.raiseCommand_shelfChg (s : State) : (s.raiseCommand).shelfChg = s.shelfChg := rfl
@[simp] theorem State.raiseCommand_msclkH (s : State) : (s.raiseCommand).msclkH = s.msclkH := rfl
@[simp] theorem State.raiseCommand_prescaler (s : State) : (s.raiseCommand).prescaler = s.prescaler := rfl
@[simp] theorem State.raiseCommand_clock (s : State) : (s.raiseCommand).clock = s.clock := rfl
@[simp] theorem State.raiseCommand_mem (s : State) : (s.raiseCommand).mem = s.mem := rfl
@[simp] theorem State.raiseCommand_arbiter (s : State) : (s.raiseCommand).arbiter = s.arbiter := rfl
@[simp] theorem State.raiseCommand_intake (s : State) : (s.raiseCommand).intake = s.intake := rfl
@[simp] theorem State.raiseCommand_cands (s : State) : (s.raiseCommand).cands = s.cands := rfl
@[simp] theorem State.raiseCommand_params (s : State) : (s.raiseCommand).params = s.params := rfl
@[simp] theorem State.raiseCommand_requests (s : State) : (s.raiseCommand).requests = s.requests := rfl
@[simp] theorem State.raiseCommand_shelves (s : State) : (s.raiseCommand).shelves = s.shelves := rfl
@[simp] theorem State.raiseCommand_judged (s : State) : (s.raiseCommand).judged = s.judged := rfl
@[simp] theorem State.raiseCommand_queue (s : State) : (s.raiseCommand).queue = s.queue := rfl
@[simp] theorem State.raiseCommand_evaluating (s : State) : (s.raiseCommand).evaluating = s.evaluating := rfl
@[simp] theorem State.raiseCommand_writer (s : State) : (s.raiseCommand).writer = s.writer := rfl
@[simp] theorem State.raiseCommand_powerOns (s : State) : (s.raiseCommand).powerOns = s.powerOns := rfl
@[simp] theorem State.raiseCommand_pending (s : State) : (s.raiseCommand).pending = s.pending := rfl

@[simp] theorem State.raiseLog_run (s : State) : (s.raiseLog).run = s.run := rfl
@[simp] theorem State.raiseLog_engine (s : State) : (s.raiseLog).engine = s.engine := rfl
@[simp] theorem State.raiseLog_haltCause (s : State) : (s.raiseLog).haltCause = s.haltCause := rfl
@[simp] theorem State.raiseLog_resetLow (s : State) : (s.raiseLog).resetLow = s.resetLow := rfl
@[simp] theorem State.raiseLog_bus (s : State) : (s.raiseLog).bus = s.bus := rfl
@[simp] theorem State.raiseLog_causes (s : State) : (s.raiseLog).causes = { s.causes with log := true } := rfl
@[simp] theorem State.raiseLog_enables (s : State) : (s.raiseLog).enables = s.enables := rfl
@[simp] theorem State.raiseLog_shelfChg (s : State) : (s.raiseLog).shelfChg = s.shelfChg := rfl
@[simp] theorem State.raiseLog_msclkH (s : State) : (s.raiseLog).msclkH = s.msclkH := rfl
@[simp] theorem State.raiseLog_prescaler (s : State) : (s.raiseLog).prescaler = s.prescaler := rfl
@[simp] theorem State.raiseLog_clock (s : State) : (s.raiseLog).clock = s.clock := rfl
@[simp] theorem State.raiseLog_mem (s : State) : (s.raiseLog).mem = s.mem := rfl
@[simp] theorem State.raiseLog_arbiter (s : State) : (s.raiseLog).arbiter = s.arbiter := rfl
@[simp] theorem State.raiseLog_intake (s : State) : (s.raiseLog).intake = s.intake := rfl
@[simp] theorem State.raiseLog_cands (s : State) : (s.raiseLog).cands = s.cands := rfl
@[simp] theorem State.raiseLog_params (s : State) : (s.raiseLog).params = s.params := rfl
@[simp] theorem State.raiseLog_requests (s : State) : (s.raiseLog).requests = s.requests := rfl
@[simp] theorem State.raiseLog_shelves (s : State) : (s.raiseLog).shelves = s.shelves := rfl
@[simp] theorem State.raiseLog_judged (s : State) : (s.raiseLog).judged = s.judged := rfl
@[simp] theorem State.raiseLog_queue (s : State) : (s.raiseLog).queue = s.queue := rfl
@[simp] theorem State.raiseLog_evaluating (s : State) : (s.raiseLog).evaluating = s.evaluating := rfl
@[simp] theorem State.raiseLog_writer (s : State) : (s.raiseLog).writer = s.writer := rfl
@[simp] theorem State.raiseLog_powerOns (s : State) : (s.raiseLog).powerOns = s.powerOns := rfl
@[simp] theorem State.raiseLog_pending (s : State) : (s.raiseLog).pending = s.pending := rfl

@[simp] theorem State.raiseIntake_run (s : State) : (s.raiseIntake).run = s.run := rfl
@[simp] theorem State.raiseIntake_engine (s : State) : (s.raiseIntake).engine = s.engine := rfl
@[simp] theorem State.raiseIntake_haltCause (s : State) : (s.raiseIntake).haltCause = s.haltCause := rfl
@[simp] theorem State.raiseIntake_resetLow (s : State) : (s.raiseIntake).resetLow = s.resetLow := rfl
@[simp] theorem State.raiseIntake_bus (s : State) : (s.raiseIntake).bus = s.bus := rfl
@[simp] theorem State.raiseIntake_causes (s : State) : (s.raiseIntake).causes = { s.causes with intake := true } := rfl
@[simp] theorem State.raiseIntake_enables (s : State) : (s.raiseIntake).enables = s.enables := rfl
@[simp] theorem State.raiseIntake_shelfChg (s : State) : (s.raiseIntake).shelfChg = s.shelfChg := rfl
@[simp] theorem State.raiseIntake_msclkH (s : State) : (s.raiseIntake).msclkH = s.msclkH := rfl
@[simp] theorem State.raiseIntake_prescaler (s : State) : (s.raiseIntake).prescaler = s.prescaler := rfl
@[simp] theorem State.raiseIntake_clock (s : State) : (s.raiseIntake).clock = s.clock := rfl
@[simp] theorem State.raiseIntake_mem (s : State) : (s.raiseIntake).mem = s.mem := rfl
@[simp] theorem State.raiseIntake_arbiter (s : State) : (s.raiseIntake).arbiter = s.arbiter := rfl
@[simp] theorem State.raiseIntake_intake (s : State) : (s.raiseIntake).intake = s.intake := rfl
@[simp] theorem State.raiseIntake_cands (s : State) : (s.raiseIntake).cands = s.cands := rfl
@[simp] theorem State.raiseIntake_params (s : State) : (s.raiseIntake).params = s.params := rfl
@[simp] theorem State.raiseIntake_requests (s : State) : (s.raiseIntake).requests = s.requests := rfl
@[simp] theorem State.raiseIntake_shelves (s : State) : (s.raiseIntake).shelves = s.shelves := rfl
@[simp] theorem State.raiseIntake_judged (s : State) : (s.raiseIntake).judged = s.judged := rfl
@[simp] theorem State.raiseIntake_queue (s : State) : (s.raiseIntake).queue = s.queue := rfl
@[simp] theorem State.raiseIntake_evaluating (s : State) : (s.raiseIntake).evaluating = s.evaluating := rfl
@[simp] theorem State.raiseIntake_writer (s : State) : (s.raiseIntake).writer = s.writer := rfl
@[simp] theorem State.raiseIntake_powerOns (s : State) : (s.raiseIntake).powerOns = s.powerOns := rfl
@[simp] theorem State.raiseIntake_pending (s : State) : (s.raiseIntake).pending = s.pending := rfl

@[simp] theorem State.raiseHalt_run (s : State) : (s.raiseHalt).run = s.run := rfl
@[simp] theorem State.raiseHalt_engine (s : State) : (s.raiseHalt).engine = s.engine := rfl
@[simp] theorem State.raiseHalt_haltCause (s : State) : (s.raiseHalt).haltCause = s.haltCause := rfl
@[simp] theorem State.raiseHalt_resetLow (s : State) : (s.raiseHalt).resetLow = s.resetLow := rfl
@[simp] theorem State.raiseHalt_bus (s : State) : (s.raiseHalt).bus = s.bus := rfl
@[simp] theorem State.raiseHalt_causes (s : State) : (s.raiseHalt).causes = { s.causes with halt := true } := rfl
@[simp] theorem State.raiseHalt_enables (s : State) : (s.raiseHalt).enables = s.enables := rfl
@[simp] theorem State.raiseHalt_shelfChg (s : State) : (s.raiseHalt).shelfChg = s.shelfChg := rfl
@[simp] theorem State.raiseHalt_msclkH (s : State) : (s.raiseHalt).msclkH = s.msclkH := rfl
@[simp] theorem State.raiseHalt_prescaler (s : State) : (s.raiseHalt).prescaler = s.prescaler := rfl
@[simp] theorem State.raiseHalt_clock (s : State) : (s.raiseHalt).clock = s.clock := rfl
@[simp] theorem State.raiseHalt_mem (s : State) : (s.raiseHalt).mem = s.mem := rfl
@[simp] theorem State.raiseHalt_arbiter (s : State) : (s.raiseHalt).arbiter = s.arbiter := rfl
@[simp] theorem State.raiseHalt_intake (s : State) : (s.raiseHalt).intake = s.intake := rfl
@[simp] theorem State.raiseHalt_cands (s : State) : (s.raiseHalt).cands = s.cands := rfl
@[simp] theorem State.raiseHalt_params (s : State) : (s.raiseHalt).params = s.params := rfl
@[simp] theorem State.raiseHalt_requests (s : State) : (s.raiseHalt).requests = s.requests := rfl
@[simp] theorem State.raiseHalt_shelves (s : State) : (s.raiseHalt).shelves = s.shelves := rfl
@[simp] theorem State.raiseHalt_judged (s : State) : (s.raiseHalt).judged = s.judged := rfl
@[simp] theorem State.raiseHalt_queue (s : State) : (s.raiseHalt).queue = s.queue := rfl
@[simp] theorem State.raiseHalt_evaluating (s : State) : (s.raiseHalt).evaluating = s.evaluating := rfl
@[simp] theorem State.raiseHalt_writer (s : State) : (s.raiseHalt).writer = s.writer := rfl
@[simp] theorem State.raiseHalt_powerOns (s : State) : (s.raiseHalt).powerOns = s.powerOns := rfl
@[simp] theorem State.raiseHalt_pending (s : State) : (s.raiseHalt).pending = s.pending := rfl

@[simp] theorem State.answer_run (s : State) (d : Option Word) (e : Bool) : (s.answer d e).run = s.run := rfl
@[simp] theorem State.answer_engine (s : State) (d : Option Word) (e : Bool) : (s.answer d e).engine = s.engine := rfl
@[simp] theorem State.answer_haltCause (s : State) (d : Option Word) (e : Bool) : (s.answer d e).haltCause = s.haltCause := rfl
@[simp] theorem State.answer_resetLow (s : State) (d : Option Word) (e : Bool) : (s.answer d e).resetLow = s.resetLow := rfl
@[simp] theorem State.answer_bus (s : State) (d : Option Word) (e : Bool) : (s.answer d e).bus = ⟨d, e⟩ := rfl
@[simp] theorem State.answer_causes (s : State) (d : Option Word) (e : Bool) : (s.answer d e).causes = s.causes := rfl
@[simp] theorem State.answer_enables (s : State) (d : Option Word) (e : Bool) : (s.answer d e).enables = s.enables := rfl
@[simp] theorem State.answer_shelfChg (s : State) (d : Option Word) (e : Bool) : (s.answer d e).shelfChg = s.shelfChg := rfl
@[simp] theorem State.answer_msclkH (s : State) (d : Option Word) (e : Bool) : (s.answer d e).msclkH = s.msclkH := rfl
@[simp] theorem State.answer_prescaler (s : State) (d : Option Word) (e : Bool) : (s.answer d e).prescaler = s.prescaler := rfl
@[simp] theorem State.answer_clock (s : State) (d : Option Word) (e : Bool) : (s.answer d e).clock = s.clock := rfl
@[simp] theorem State.answer_mem (s : State) (d : Option Word) (e : Bool) : (s.answer d e).mem = s.mem := rfl
@[simp] theorem State.answer_arbiter (s : State) (d : Option Word) (e : Bool) : (s.answer d e).arbiter = s.arbiter := rfl
@[simp] theorem State.answer_intake (s : State) (d : Option Word) (e : Bool) : (s.answer d e).intake = s.intake := rfl
@[simp] theorem State.answer_cands (s : State) (d : Option Word) (e : Bool) : (s.answer d e).cands = s.cands := rfl
@[simp] theorem State.answer_params (s : State) (d : Option Word) (e : Bool) : (s.answer d e).params = s.params := rfl
@[simp] theorem State.answer_requests (s : State) (d : Option Word) (e : Bool) : (s.answer d e).requests = s.requests := rfl
@[simp] theorem State.answer_shelves (s : State) (d : Option Word) (e : Bool) : (s.answer d e).shelves = s.shelves := rfl
@[simp] theorem State.answer_judged (s : State) (d : Option Word) (e : Bool) : (s.answer d e).judged = s.judged := rfl
@[simp] theorem State.answer_queue (s : State) (d : Option Word) (e : Bool) : (s.answer d e).queue = s.queue := rfl
@[simp] theorem State.answer_evaluating (s : State) (d : Option Word) (e : Bool) : (s.answer d e).evaluating = s.evaluating := rfl
@[simp] theorem State.answer_writer (s : State) (d : Option Word) (e : Bool) : (s.answer d e).writer = s.writer := rfl
@[simp] theorem State.answer_powerOns (s : State) (d : Option Word) (e : Bool) : (s.answer d e).powerOns = s.powerOns := rfl
@[simp] theorem State.answer_pending (s : State) (d : Option Word) (e : Bool) : (s.answer d e).pending = s.pending := rfl

@[simp] theorem State.grantHost_run (s : State) : (s.grantHost).run = s.run := rfl
@[simp] theorem State.grantHost_engine (s : State) : (s.grantHost).engine = s.engine := rfl
@[simp] theorem State.grantHost_haltCause (s : State) : (s.grantHost).haltCause = s.haltCause := rfl
@[simp] theorem State.grantHost_resetLow (s : State) : (s.grantHost).resetLow = s.resetLow := rfl
@[simp] theorem State.grantHost_bus (s : State) : (s.grantHost).bus = s.bus := rfl
@[simp] theorem State.grantHost_causes (s : State) : (s.grantHost).causes = s.causes := rfl
@[simp] theorem State.grantHost_enables (s : State) : (s.grantHost).enables = s.enables := rfl
@[simp] theorem State.grantHost_shelfChg (s : State) : (s.grantHost).shelfChg = s.shelfChg := rfl
@[simp] theorem State.grantHost_msclkH (s : State) : (s.grantHost).msclkH = s.msclkH := rfl
@[simp] theorem State.grantHost_prescaler (s : State) : (s.grantHost).prescaler = s.prescaler := rfl
@[simp] theorem State.grantHost_clock (s : State) : (s.grantHost).clock = s.clock := rfl
@[simp] theorem State.grantHost_mem (s : State) : (s.grantHost).mem = s.mem := rfl
@[simp] theorem State.grantHost_arbiter (s : State) : (s.grantHost).arbiter = { s.arbiter with owner := .localBus } := rfl
@[simp] theorem State.grantHost_intake (s : State) : (s.grantHost).intake = s.intake := rfl
@[simp] theorem State.grantHost_cands (s : State) : (s.grantHost).cands = s.cands := rfl
@[simp] theorem State.grantHost_params (s : State) : (s.grantHost).params = s.params := rfl
@[simp] theorem State.grantHost_requests (s : State) : (s.grantHost).requests = s.requests := rfl
@[simp] theorem State.grantHost_shelves (s : State) : (s.grantHost).shelves = s.shelves := rfl
@[simp] theorem State.grantHost_judged (s : State) : (s.grantHost).judged = s.judged := rfl
@[simp] theorem State.grantHost_queue (s : State) : (s.grantHost).queue = s.queue := rfl
@[simp] theorem State.grantHost_evaluating (s : State) : (s.grantHost).evaluating = s.evaluating := rfl
@[simp] theorem State.grantHost_writer (s : State) : (s.grantHost).writer = s.writer := rfl
@[simp] theorem State.grantHost_powerOns (s : State) : (s.grantHost).powerOns = s.powerOns := rfl
@[simp] theorem State.grantHost_pending (s : State) : (s.grantHost).pending = s.pending := rfl

@[simp] theorem State.grantIntake_run (s : State) : (s.grantIntake).run = s.run := rfl
@[simp] theorem State.grantIntake_engine (s : State) : (s.grantIntake).engine = s.engine := rfl
@[simp] theorem State.grantIntake_haltCause (s : State) : (s.grantIntake).haltCause = s.haltCause := rfl
@[simp] theorem State.grantIntake_resetLow (s : State) : (s.grantIntake).resetLow = s.resetLow := rfl
@[simp] theorem State.grantIntake_bus (s : State) : (s.grantIntake).bus = s.bus := rfl
@[simp] theorem State.grantIntake_causes (s : State) : (s.grantIntake).causes = s.causes := rfl
@[simp] theorem State.grantIntake_enables (s : State) : (s.grantIntake).enables = s.enables := rfl
@[simp] theorem State.grantIntake_shelfChg (s : State) : (s.grantIntake).shelfChg = s.shelfChg := rfl
@[simp] theorem State.grantIntake_msclkH (s : State) : (s.grantIntake).msclkH = s.msclkH := rfl
@[simp] theorem State.grantIntake_prescaler (s : State) : (s.grantIntake).prescaler = s.prescaler := rfl
@[simp] theorem State.grantIntake_clock (s : State) : (s.grantIntake).clock = s.clock := rfl
@[simp] theorem State.grantIntake_mem (s : State) : (s.grantIntake).mem = s.mem := rfl
@[simp] theorem State.grantIntake_arbiter (s : State) : (s.grantIntake).arbiter = { s.arbiter with owner := .intake, turn := .writer, intakeWaits := false } := rfl
@[simp] theorem State.grantIntake_intake (s : State) : (s.grantIntake).intake = s.intake := rfl
@[simp] theorem State.grantIntake_cands (s : State) : (s.grantIntake).cands = s.cands := rfl
@[simp] theorem State.grantIntake_params (s : State) : (s.grantIntake).params = s.params := rfl
@[simp] theorem State.grantIntake_requests (s : State) : (s.grantIntake).requests = s.requests := rfl
@[simp] theorem State.grantIntake_shelves (s : State) : (s.grantIntake).shelves = s.shelves := rfl
@[simp] theorem State.grantIntake_judged (s : State) : (s.grantIntake).judged = s.judged := rfl
@[simp] theorem State.grantIntake_queue (s : State) : (s.grantIntake).queue = s.queue := rfl
@[simp] theorem State.grantIntake_evaluating (s : State) : (s.grantIntake).evaluating = s.evaluating := rfl
@[simp] theorem State.grantIntake_writer (s : State) : (s.grantIntake).writer = s.writer := rfl
@[simp] theorem State.grantIntake_powerOns (s : State) : (s.grantIntake).powerOns = s.powerOns := rfl
@[simp] theorem State.grantIntake_pending (s : State) : (s.grantIntake).pending = s.pending := rfl

@[simp] theorem State.grantWriter_run (s : State) (job : WriterJob) : (s.grantWriter job).run = s.run := rfl
@[simp] theorem State.grantWriter_engine (s : State) (job : WriterJob) : (s.grantWriter job).engine = s.engine := rfl
@[simp] theorem State.grantWriter_haltCause (s : State) (job : WriterJob) : (s.grantWriter job).haltCause = s.haltCause := rfl
@[simp] theorem State.grantWriter_resetLow (s : State) (job : WriterJob) : (s.grantWriter job).resetLow = s.resetLow := rfl
@[simp] theorem State.grantWriter_bus (s : State) (job : WriterJob) : (s.grantWriter job).bus = s.bus := rfl
@[simp] theorem State.grantWriter_causes (s : State) (job : WriterJob) : (s.grantWriter job).causes = s.causes := rfl
@[simp] theorem State.grantWriter_enables (s : State) (job : WriterJob) : (s.grantWriter job).enables = s.enables := rfl
@[simp] theorem State.grantWriter_shelfChg (s : State) (job : WriterJob) : (s.grantWriter job).shelfChg = s.shelfChg := rfl
@[simp] theorem State.grantWriter_msclkH (s : State) (job : WriterJob) : (s.grantWriter job).msclkH = s.msclkH := rfl
@[simp] theorem State.grantWriter_prescaler (s : State) (job : WriterJob) : (s.grantWriter job).prescaler = s.prescaler := rfl
@[simp] theorem State.grantWriter_clock (s : State) (job : WriterJob) : (s.grantWriter job).clock = s.clock := rfl
@[simp] theorem State.grantWriter_mem (s : State) (job : WriterJob) : (s.grantWriter job).mem = s.mem := rfl
@[simp] theorem State.grantWriter_arbiter (s : State) (job : WriterJob) : (s.grantWriter job).arbiter = { s.arbiter with owner := .writer job, turn := .intake, writerWaits := false } := rfl
@[simp] theorem State.grantWriter_intake (s : State) (job : WriterJob) : (s.grantWriter job).intake = s.intake := rfl
@[simp] theorem State.grantWriter_cands (s : State) (job : WriterJob) : (s.grantWriter job).cands = s.cands := rfl
@[simp] theorem State.grantWriter_params (s : State) (job : WriterJob) : (s.grantWriter job).params = s.params := rfl
@[simp] theorem State.grantWriter_requests (s : State) (job : WriterJob) : (s.grantWriter job).requests = s.requests := rfl
@[simp] theorem State.grantWriter_shelves (s : State) (job : WriterJob) : (s.grantWriter job).shelves = s.shelves := rfl
@[simp] theorem State.grantWriter_judged (s : State) (job : WriterJob) : (s.grantWriter job).judged = s.judged := rfl
@[simp] theorem State.grantWriter_queue (s : State) (job : WriterJob) : (s.grantWriter job).queue = s.queue := rfl
@[simp] theorem State.grantWriter_evaluating (s : State) (job : WriterJob) : (s.grantWriter job).evaluating = s.evaluating := rfl
@[simp] theorem State.grantWriter_writer (s : State) (job : WriterJob) : (s.grantWriter job).writer = s.writer := rfl
@[simp] theorem State.grantWriter_powerOns (s : State) (job : WriterJob) : (s.grantWriter job).powerOns = s.powerOns := rfl
@[simp] theorem State.grantWriter_pending (s : State) (job : WriterJob) : (s.grantWriter job).pending = s.pending := rfl

@[simp] theorem State.setLastShelfConfig_run (s : State) (i : Fin 32) (v : Option Word) : (s.setLastShelfConfig i v).run = s.run := rfl
@[simp] theorem State.setLastShelfConfig_engine (s : State) (i : Fin 32) (v : Option Word) : (s.setLastShelfConfig i v).engine = s.engine := rfl
@[simp] theorem State.setLastShelfConfig_haltCause (s : State) (i : Fin 32) (v : Option Word) : (s.setLastShelfConfig i v).haltCause = s.haltCause := rfl
@[simp] theorem State.setLastShelfConfig_resetLow (s : State) (i : Fin 32) (v : Option Word) : (s.setLastShelfConfig i v).resetLow = s.resetLow := rfl
@[simp] theorem State.setLastShelfConfig_bus (s : State) (i : Fin 32) (v : Option Word) : (s.setLastShelfConfig i v).bus = s.bus := rfl
@[simp] theorem State.setLastShelfConfig_causes (s : State) (i : Fin 32) (v : Option Word) : (s.setLastShelfConfig i v).causes = s.causes := rfl
@[simp] theorem State.setLastShelfConfig_enables (s : State) (i : Fin 32) (v : Option Word) : (s.setLastShelfConfig i v).enables = s.enables := rfl
@[simp] theorem State.setLastShelfConfig_shelfChg (s : State) (i : Fin 32) (v : Option Word) : (s.setLastShelfConfig i v).shelfChg = s.shelfChg := rfl
@[simp] theorem State.setLastShelfConfig_msclkH (s : State) (i : Fin 32) (v : Option Word) : (s.setLastShelfConfig i v).msclkH = s.msclkH := rfl
@[simp] theorem State.setLastShelfConfig_prescaler (s : State) (i : Fin 32) (v : Option Word) : (s.setLastShelfConfig i v).prescaler = s.prescaler := rfl
@[simp] theorem State.setLastShelfConfig_clock (s : State) (i : Fin 32) (v : Option Word) : (s.setLastShelfConfig i v).clock = s.clock := rfl
@[simp] theorem State.setLastShelfConfig_mem (s : State) (i : Fin 32) (v : Option Word) : (s.setLastShelfConfig i v).mem = s.mem := rfl
@[simp] theorem State.setLastShelfConfig_arbiter (s : State) (i : Fin 32) (v : Option Word) : (s.setLastShelfConfig i v).arbiter = s.arbiter := rfl
@[simp] theorem State.setLastShelfConfig_intake (s : State) (i : Fin 32) (v : Option Word) : (s.setLastShelfConfig i v).intake = { s.intake with lastShelfConfig := s.intake.lastShelfConfig.set i v } := rfl
@[simp] theorem State.setLastShelfConfig_cands (s : State) (i : Fin 32) (v : Option Word) : (s.setLastShelfConfig i v).cands = s.cands := rfl
@[simp] theorem State.setLastShelfConfig_params (s : State) (i : Fin 32) (v : Option Word) : (s.setLastShelfConfig i v).params = s.params := rfl
@[simp] theorem State.setLastShelfConfig_requests (s : State) (i : Fin 32) (v : Option Word) : (s.setLastShelfConfig i v).requests = s.requests := rfl
@[simp] theorem State.setLastShelfConfig_shelves (s : State) (i : Fin 32) (v : Option Word) : (s.setLastShelfConfig i v).shelves = s.shelves := rfl
@[simp] theorem State.setLastShelfConfig_judged (s : State) (i : Fin 32) (v : Option Word) : (s.setLastShelfConfig i v).judged = s.judged := rfl
@[simp] theorem State.setLastShelfConfig_queue (s : State) (i : Fin 32) (v : Option Word) : (s.setLastShelfConfig i v).queue = s.queue := rfl
@[simp] theorem State.setLastShelfConfig_evaluating (s : State) (i : Fin 32) (v : Option Word) : (s.setLastShelfConfig i v).evaluating = s.evaluating := rfl
@[simp] theorem State.setLastShelfConfig_writer (s : State) (i : Fin 32) (v : Option Word) : (s.setLastShelfConfig i v).writer = s.writer := rfl
@[simp] theorem State.setLastShelfConfig_powerOns (s : State) (i : Fin 32) (v : Option Word) : (s.setLastShelfConfig i v).powerOns = s.powerOns := rfl
@[simp] theorem State.setLastShelfConfig_pending (s : State) (i : Fin 32) (v : Option Word) : (s.setLastShelfConfig i v).pending = s.pending := rfl

@[simp] theorem State.setLastCandConfig_run (s : State) (k : Fin 256) (v : Option Word) : (s.setLastCandConfig k v).run = s.run := rfl
@[simp] theorem State.setLastCandConfig_engine (s : State) (k : Fin 256) (v : Option Word) : (s.setLastCandConfig k v).engine = s.engine := rfl
@[simp] theorem State.setLastCandConfig_haltCause (s : State) (k : Fin 256) (v : Option Word) : (s.setLastCandConfig k v).haltCause = s.haltCause := rfl
@[simp] theorem State.setLastCandConfig_resetLow (s : State) (k : Fin 256) (v : Option Word) : (s.setLastCandConfig k v).resetLow = s.resetLow := rfl
@[simp] theorem State.setLastCandConfig_bus (s : State) (k : Fin 256) (v : Option Word) : (s.setLastCandConfig k v).bus = s.bus := rfl
@[simp] theorem State.setLastCandConfig_causes (s : State) (k : Fin 256) (v : Option Word) : (s.setLastCandConfig k v).causes = s.causes := rfl
@[simp] theorem State.setLastCandConfig_enables (s : State) (k : Fin 256) (v : Option Word) : (s.setLastCandConfig k v).enables = s.enables := rfl
@[simp] theorem State.setLastCandConfig_shelfChg (s : State) (k : Fin 256) (v : Option Word) : (s.setLastCandConfig k v).shelfChg = s.shelfChg := rfl
@[simp] theorem State.setLastCandConfig_msclkH (s : State) (k : Fin 256) (v : Option Word) : (s.setLastCandConfig k v).msclkH = s.msclkH := rfl
@[simp] theorem State.setLastCandConfig_prescaler (s : State) (k : Fin 256) (v : Option Word) : (s.setLastCandConfig k v).prescaler = s.prescaler := rfl
@[simp] theorem State.setLastCandConfig_clock (s : State) (k : Fin 256) (v : Option Word) : (s.setLastCandConfig k v).clock = s.clock := rfl
@[simp] theorem State.setLastCandConfig_mem (s : State) (k : Fin 256) (v : Option Word) : (s.setLastCandConfig k v).mem = s.mem := rfl
@[simp] theorem State.setLastCandConfig_arbiter (s : State) (k : Fin 256) (v : Option Word) : (s.setLastCandConfig k v).arbiter = s.arbiter := rfl
@[simp] theorem State.setLastCandConfig_intake (s : State) (k : Fin 256) (v : Option Word) : (s.setLastCandConfig k v).intake = { s.intake with lastCandConfig := s.intake.lastCandConfig.set k v } := rfl
@[simp] theorem State.setLastCandConfig_cands (s : State) (k : Fin 256) (v : Option Word) : (s.setLastCandConfig k v).cands = s.cands := rfl
@[simp] theorem State.setLastCandConfig_params (s : State) (k : Fin 256) (v : Option Word) : (s.setLastCandConfig k v).params = s.params := rfl
@[simp] theorem State.setLastCandConfig_requests (s : State) (k : Fin 256) (v : Option Word) : (s.setLastCandConfig k v).requests = s.requests := rfl
@[simp] theorem State.setLastCandConfig_shelves (s : State) (k : Fin 256) (v : Option Word) : (s.setLastCandConfig k v).shelves = s.shelves := rfl
@[simp] theorem State.setLastCandConfig_judged (s : State) (k : Fin 256) (v : Option Word) : (s.setLastCandConfig k v).judged = s.judged := rfl
@[simp] theorem State.setLastCandConfig_queue (s : State) (k : Fin 256) (v : Option Word) : (s.setLastCandConfig k v).queue = s.queue := rfl
@[simp] theorem State.setLastCandConfig_evaluating (s : State) (k : Fin 256) (v : Option Word) : (s.setLastCandConfig k v).evaluating = s.evaluating := rfl
@[simp] theorem State.setLastCandConfig_writer (s : State) (k : Fin 256) (v : Option Word) : (s.setLastCandConfig k v).writer = s.writer := rfl
@[simp] theorem State.setLastCandConfig_powerOns (s : State) (k : Fin 256) (v : Option Word) : (s.setLastCandConfig k v).powerOns = s.powerOns := rfl
@[simp] theorem State.setLastCandConfig_pending (s : State) (k : Fin 256) (v : Option Word) : (s.setLastCandConfig k v).pending = s.pending := rfl

@[simp] theorem State.setLastReport_run (s : State) (i : Fin 32) (v : Option Word) : (s.setLastReport i v).run = s.run := rfl
@[simp] theorem State.setLastReport_engine (s : State) (i : Fin 32) (v : Option Word) : (s.setLastReport i v).engine = s.engine := rfl
@[simp] theorem State.setLastReport_haltCause (s : State) (i : Fin 32) (v : Option Word) : (s.setLastReport i v).haltCause = s.haltCause := rfl
@[simp] theorem State.setLastReport_resetLow (s : State) (i : Fin 32) (v : Option Word) : (s.setLastReport i v).resetLow = s.resetLow := rfl
@[simp] theorem State.setLastReport_bus (s : State) (i : Fin 32) (v : Option Word) : (s.setLastReport i v).bus = s.bus := rfl
@[simp] theorem State.setLastReport_causes (s : State) (i : Fin 32) (v : Option Word) : (s.setLastReport i v).causes = s.causes := rfl
@[simp] theorem State.setLastReport_enables (s : State) (i : Fin 32) (v : Option Word) : (s.setLastReport i v).enables = s.enables := rfl
@[simp] theorem State.setLastReport_shelfChg (s : State) (i : Fin 32) (v : Option Word) : (s.setLastReport i v).shelfChg = s.shelfChg := rfl
@[simp] theorem State.setLastReport_msclkH (s : State) (i : Fin 32) (v : Option Word) : (s.setLastReport i v).msclkH = s.msclkH := rfl
@[simp] theorem State.setLastReport_prescaler (s : State) (i : Fin 32) (v : Option Word) : (s.setLastReport i v).prescaler = s.prescaler := rfl
@[simp] theorem State.setLastReport_clock (s : State) (i : Fin 32) (v : Option Word) : (s.setLastReport i v).clock = s.clock := rfl
@[simp] theorem State.setLastReport_mem (s : State) (i : Fin 32) (v : Option Word) : (s.setLastReport i v).mem = s.mem := rfl
@[simp] theorem State.setLastReport_arbiter (s : State) (i : Fin 32) (v : Option Word) : (s.setLastReport i v).arbiter = s.arbiter := rfl
@[simp] theorem State.setLastReport_intake (s : State) (i : Fin 32) (v : Option Word) : (s.setLastReport i v).intake = { s.intake with lastReport := s.intake.lastReport.set i v } := rfl
@[simp] theorem State.setLastReport_cands (s : State) (i : Fin 32) (v : Option Word) : (s.setLastReport i v).cands = s.cands := rfl
@[simp] theorem State.setLastReport_params (s : State) (i : Fin 32) (v : Option Word) : (s.setLastReport i v).params = s.params := rfl
@[simp] theorem State.setLastReport_requests (s : State) (i : Fin 32) (v : Option Word) : (s.setLastReport i v).requests = s.requests := rfl
@[simp] theorem State.setLastReport_shelves (s : State) (i : Fin 32) (v : Option Word) : (s.setLastReport i v).shelves = s.shelves := rfl
@[simp] theorem State.setLastReport_judged (s : State) (i : Fin 32) (v : Option Word) : (s.setLastReport i v).judged = s.judged := rfl
@[simp] theorem State.setLastReport_queue (s : State) (i : Fin 32) (v : Option Word) : (s.setLastReport i v).queue = s.queue := rfl
@[simp] theorem State.setLastReport_evaluating (s : State) (i : Fin 32) (v : Option Word) : (s.setLastReport i v).evaluating = s.evaluating := rfl
@[simp] theorem State.setLastReport_writer (s : State) (i : Fin 32) (v : Option Word) : (s.setLastReport i v).writer = s.writer := rfl
@[simp] theorem State.setLastReport_powerOns (s : State) (i : Fin 32) (v : Option Word) : (s.setLastReport i v).powerOns = s.powerOns := rfl
@[simp] theorem State.setLastReport_pending (s : State) (i : Fin 32) (v : Option Word) : (s.setLastReport i v).pending = s.pending := rfl

@[simp] theorem State.setLastObs_run (s : State) (k : Fin 256) (v : Option Word) : (s.setLastObs k v).run = s.run := rfl
@[simp] theorem State.setLastObs_engine (s : State) (k : Fin 256) (v : Option Word) : (s.setLastObs k v).engine = s.engine := rfl
@[simp] theorem State.setLastObs_haltCause (s : State) (k : Fin 256) (v : Option Word) : (s.setLastObs k v).haltCause = s.haltCause := rfl
@[simp] theorem State.setLastObs_resetLow (s : State) (k : Fin 256) (v : Option Word) : (s.setLastObs k v).resetLow = s.resetLow := rfl
@[simp] theorem State.setLastObs_bus (s : State) (k : Fin 256) (v : Option Word) : (s.setLastObs k v).bus = s.bus := rfl
@[simp] theorem State.setLastObs_causes (s : State) (k : Fin 256) (v : Option Word) : (s.setLastObs k v).causes = s.causes := rfl
@[simp] theorem State.setLastObs_enables (s : State) (k : Fin 256) (v : Option Word) : (s.setLastObs k v).enables = s.enables := rfl
@[simp] theorem State.setLastObs_shelfChg (s : State) (k : Fin 256) (v : Option Word) : (s.setLastObs k v).shelfChg = s.shelfChg := rfl
@[simp] theorem State.setLastObs_msclkH (s : State) (k : Fin 256) (v : Option Word) : (s.setLastObs k v).msclkH = s.msclkH := rfl
@[simp] theorem State.setLastObs_prescaler (s : State) (k : Fin 256) (v : Option Word) : (s.setLastObs k v).prescaler = s.prescaler := rfl
@[simp] theorem State.setLastObs_clock (s : State) (k : Fin 256) (v : Option Word) : (s.setLastObs k v).clock = s.clock := rfl
@[simp] theorem State.setLastObs_mem (s : State) (k : Fin 256) (v : Option Word) : (s.setLastObs k v).mem = s.mem := rfl
@[simp] theorem State.setLastObs_arbiter (s : State) (k : Fin 256) (v : Option Word) : (s.setLastObs k v).arbiter = s.arbiter := rfl
@[simp] theorem State.setLastObs_intake (s : State) (k : Fin 256) (v : Option Word) : (s.setLastObs k v).intake = { s.intake with lastObs := s.intake.lastObs.set k v } := rfl
@[simp] theorem State.setLastObs_cands (s : State) (k : Fin 256) (v : Option Word) : (s.setLastObs k v).cands = s.cands := rfl
@[simp] theorem State.setLastObs_params (s : State) (k : Fin 256) (v : Option Word) : (s.setLastObs k v).params = s.params := rfl
@[simp] theorem State.setLastObs_requests (s : State) (k : Fin 256) (v : Option Word) : (s.setLastObs k v).requests = s.requests := rfl
@[simp] theorem State.setLastObs_shelves (s : State) (k : Fin 256) (v : Option Word) : (s.setLastObs k v).shelves = s.shelves := rfl
@[simp] theorem State.setLastObs_judged (s : State) (k : Fin 256) (v : Option Word) : (s.setLastObs k v).judged = s.judged := rfl
@[simp] theorem State.setLastObs_queue (s : State) (k : Fin 256) (v : Option Word) : (s.setLastObs k v).queue = s.queue := rfl
@[simp] theorem State.setLastObs_evaluating (s : State) (k : Fin 256) (v : Option Word) : (s.setLastObs k v).evaluating = s.evaluating := rfl
@[simp] theorem State.setLastObs_writer (s : State) (k : Fin 256) (v : Option Word) : (s.setLastObs k v).writer = s.writer := rfl
@[simp] theorem State.setLastObs_powerOns (s : State) (k : Fin 256) (v : Option Word) : (s.setLastObs k v).powerOns = s.powerOns := rfl
@[simp] theorem State.setLastObs_pending (s : State) (k : Fin 256) (v : Option Word) : (s.setLastObs k v).pending = s.pending := rfl

@[simp] theorem State.markFurther_run (s : State) : (s.markFurther).run = s.run := rfl
@[simp] theorem State.markFurther_engine (s : State) : (s.markFurther).engine = s.engine := rfl
@[simp] theorem State.markFurther_haltCause (s : State) : (s.markFurther).haltCause = s.haltCause := rfl
@[simp] theorem State.markFurther_resetLow (s : State) : (s.markFurther).resetLow = s.resetLow := rfl
@[simp] theorem State.markFurther_bus (s : State) : (s.markFurther).bus = s.bus := rfl
@[simp] theorem State.markFurther_causes (s : State) : (s.markFurther).causes = s.causes := rfl
@[simp] theorem State.markFurther_enables (s : State) : (s.markFurther).enables = s.enables := rfl
@[simp] theorem State.markFurther_shelfChg (s : State) : (s.markFurther).shelfChg = s.shelfChg := rfl
@[simp] theorem State.markFurther_msclkH (s : State) : (s.markFurther).msclkH = s.msclkH := rfl
@[simp] theorem State.markFurther_prescaler (s : State) : (s.markFurther).prescaler = s.prescaler := rfl
@[simp] theorem State.markFurther_clock (s : State) : (s.markFurther).clock = s.clock := rfl
@[simp] theorem State.markFurther_mem (s : State) : (s.markFurther).mem = s.mem := rfl
@[simp] theorem State.markFurther_arbiter (s : State) : (s.markFurther).arbiter = s.arbiter := rfl
@[simp] theorem State.markFurther_intake (s : State) : (s.markFurther).intake = { s.intake with furtherSweep := true } := rfl
@[simp] theorem State.markFurther_cands (s : State) : (s.markFurther).cands = s.cands := rfl
@[simp] theorem State.markFurther_params (s : State) : (s.markFurther).params = s.params := rfl
@[simp] theorem State.markFurther_requests (s : State) : (s.markFurther).requests = s.requests := rfl
@[simp] theorem State.markFurther_shelves (s : State) : (s.markFurther).shelves = s.shelves := rfl
@[simp] theorem State.markFurther_judged (s : State) : (s.markFurther).judged = s.judged := rfl
@[simp] theorem State.markFurther_queue (s : State) : (s.markFurther).queue = s.queue := rfl
@[simp] theorem State.markFurther_evaluating (s : State) : (s.markFurther).evaluating = s.evaluating := rfl
@[simp] theorem State.markFurther_writer (s : State) : (s.markFurther).writer = s.writer := rfl
@[simp] theorem State.markFurther_powerOns (s : State) : (s.markFurther).powerOns = s.powerOns := rfl
@[simp] theorem State.markFurther_pending (s : State) : (s.markFurther).pending = s.pending := rfl

@[simp] theorem State.popItem_run (s : State) : (s.popItem).run = s.run := rfl
@[simp] theorem State.popItem_engine (s : State) : (s.popItem).engine = s.engine := rfl
@[simp] theorem State.popItem_haltCause (s : State) : (s.popItem).haltCause = s.haltCause := rfl
@[simp] theorem State.popItem_resetLow (s : State) : (s.popItem).resetLow = s.resetLow := rfl
@[simp] theorem State.popItem_bus (s : State) : (s.popItem).bus = s.bus := rfl
@[simp] theorem State.popItem_causes (s : State) : (s.popItem).causes = s.causes := rfl
@[simp] theorem State.popItem_enables (s : State) : (s.popItem).enables = s.enables := rfl
@[simp] theorem State.popItem_shelfChg (s : State) : (s.popItem).shelfChg = s.shelfChg := rfl
@[simp] theorem State.popItem_msclkH (s : State) : (s.popItem).msclkH = s.msclkH := rfl
@[simp] theorem State.popItem_prescaler (s : State) : (s.popItem).prescaler = s.prescaler := rfl
@[simp] theorem State.popItem_clock (s : State) : (s.popItem).clock = s.clock := rfl
@[simp] theorem State.popItem_mem (s : State) : (s.popItem).mem = s.mem := rfl
@[simp] theorem State.popItem_arbiter (s : State) : (s.popItem).arbiter = s.arbiter := rfl
@[simp] theorem State.popItem_intake (s : State) : (s.popItem).intake = s.intake := rfl
@[simp] theorem State.popItem_cands (s : State) : (s.popItem).cands = s.cands := rfl
@[simp] theorem State.popItem_params (s : State) : (s.popItem).params = s.params := rfl
@[simp] theorem State.popItem_requests (s : State) : (s.popItem).requests = s.requests := rfl
@[simp] theorem State.popItem_shelves (s : State) : (s.popItem).shelves = s.shelves := rfl
@[simp] theorem State.popItem_judged (s : State) : (s.popItem).judged = s.judged := rfl
@[simp] theorem State.popItem_queue (s : State) : (s.popItem).queue = s.queue := rfl
@[simp] theorem State.popItem_evaluating (s : State) : (s.popItem).evaluating = s.evaluating := rfl
@[simp] theorem State.popItem_writer (s : State) : (s.popItem).writer = { s.writer with list := s.writer.list.tail } := rfl
@[simp] theorem State.popItem_powerOns (s : State) : (s.popItem).powerOns = s.powerOns := rfl
@[simp] theorem State.popItem_pending (s : State) : (s.popItem).pending = s.pending := rfl

@[simp] theorem State.advancePublication_run (s : State) : (s.advancePublication).run = s.run := rfl
@[simp] theorem State.advancePublication_engine (s : State) : (s.advancePublication).engine = s.engine := rfl
@[simp] theorem State.advancePublication_haltCause (s : State) : (s.advancePublication).haltCause = s.haltCause := rfl
@[simp] theorem State.advancePublication_resetLow (s : State) : (s.advancePublication).resetLow = s.resetLow := rfl
@[simp] theorem State.advancePublication_bus (s : State) : (s.advancePublication).bus = s.bus := rfl
@[simp] theorem State.advancePublication_causes (s : State) : (s.advancePublication).causes = s.causes := rfl
@[simp] theorem State.advancePublication_enables (s : State) : (s.advancePublication).enables = s.enables := rfl
@[simp] theorem State.advancePublication_shelfChg (s : State) : (s.advancePublication).shelfChg = s.shelfChg := rfl
@[simp] theorem State.advancePublication_msclkH (s : State) : (s.advancePublication).msclkH = s.msclkH := rfl
@[simp] theorem State.advancePublication_prescaler (s : State) : (s.advancePublication).prescaler = s.prescaler := rfl
@[simp] theorem State.advancePublication_clock (s : State) : (s.advancePublication).clock = s.clock := rfl
@[simp] theorem State.advancePublication_mem (s : State) : (s.advancePublication).mem = s.mem := rfl
@[simp] theorem State.advancePublication_arbiter (s : State) : (s.advancePublication).arbiter = s.arbiter := rfl
@[simp] theorem State.advancePublication_intake (s : State) : (s.advancePublication).intake = s.intake := rfl
@[simp] theorem State.advancePublication_cands (s : State) : (s.advancePublication).cands = s.cands := rfl
@[simp] theorem State.advancePublication_params (s : State) : (s.advancePublication).params = s.params := rfl
@[simp] theorem State.advancePublication_requests (s : State) : (s.advancePublication).requests = s.requests := rfl
@[simp] theorem State.advancePublication_shelves (s : State) : (s.advancePublication).shelves = s.shelves := rfl
@[simp] theorem State.advancePublication_judged (s : State) : (s.advancePublication).judged = s.judged := rfl
@[simp] theorem State.advancePublication_queue (s : State) : (s.advancePublication).queue = s.queue := rfl
@[simp] theorem State.advancePublication_evaluating (s : State) : (s.advancePublication).evaluating = s.evaluating := rfl
@[simp] theorem State.advancePublication_writer (s : State) : (s.advancePublication).writer = { s.writer with publication := nextPublication s.writer.publication } := rfl
@[simp] theorem State.advancePublication_powerOns (s : State) : (s.advancePublication).powerOns = s.powerOns := rfl
@[simp] theorem State.advancePublication_pending (s : State) : (s.advancePublication).pending = s.pending := rfl

@[simp] theorem State.reset_run : State.reset.run = false := rfl
@[simp] theorem State.reset_engine : State.reset.engine = .halted := rfl
@[simp] theorem State.reset_haltCause : State.reset.haltCause = .none := rfl
@[simp] theorem State.reset_resetLow : State.reset.resetLow = false := rfl
@[simp] theorem State.reset_bus : State.reset.bus = ⟨none, false⟩ := rfl
@[simp] theorem State.reset_causes : State.reset.causes = ⟨false, false, false, false, false⟩ := rfl
@[simp] theorem State.reset_enables : State.reset.enables = ⟨⟨false, false, false, false, false⟩, false⟩ := rfl
@[simp] theorem State.reset_shelfChg : State.reset.shelfChg = 0 := rfl
@[simp] theorem State.reset_msclkH : State.reset.msclkH = 0 := rfl
@[simp] theorem State.reset_prescaler : State.reset.prescaler = 0 := rfl
@[simp] theorem State.reset_clock : State.reset.clock = 0 := rfl
@[simp] theorem State.reset_mem : State.reset.mem = [] := rfl
@[simp] theorem State.reset_arbiter : State.reset.arbiter = .reset := rfl
@[simp] theorem State.reset_intake : State.reset.intake = .reset := rfl
@[simp] theorem State.reset_cands : State.reset.cands = .replicate 256 .reset := rfl
@[simp] theorem State.reset_params : State.reset.params = .replicate 32 .reset := rfl
@[simp] theorem State.reset_requests : State.reset.requests = [] := rfl
@[simp] theorem State.reset_shelves : State.reset.shelves = .ofFn Shelf.reset := rfl
@[simp] theorem State.reset_judged : State.reset.judged = .replicate 256 .reset := rfl
@[simp] theorem State.reset_queue : State.reset.queue = [] := rfl
@[simp] theorem State.reset_evaluating : State.reset.evaluating = none := rfl
@[simp] theorem State.reset_writer : State.reset.writer = .reset := rfl
@[simp] theorem State.reset_powerOns : State.reset.powerOns = 0 := rfl
@[simp] theorem State.reset_pending : State.reset.pending = [] := rfl

@[simp] theorem State.powerOn_run (s : State) : (s.powerOn).run = false := rfl
@[simp] theorem State.powerOn_engine (s : State) : (s.powerOn).engine = .halted := rfl
@[simp] theorem State.powerOn_haltCause (s : State) : (s.powerOn).haltCause = .none := rfl
@[simp] theorem State.powerOn_resetLow (s : State) : (s.powerOn).resetLow = s.resetLow := rfl
@[simp] theorem State.powerOn_bus (s : State) : (s.powerOn).bus = ⟨none, false⟩ := rfl
@[simp] theorem State.powerOn_causes (s : State) : (s.powerOn).causes = ⟨false, false, false, false, false⟩ := rfl
@[simp] theorem State.powerOn_enables (s : State) : (s.powerOn).enables = ⟨⟨false, false, false, false, false⟩, false⟩ := rfl
@[simp] theorem State.powerOn_shelfChg (s : State) : (s.powerOn).shelfChg = 0 := rfl
@[simp] theorem State.powerOn_msclkH (s : State) : (s.powerOn).msclkH = 0 := rfl
@[simp] theorem State.powerOn_prescaler (s : State) : (s.powerOn).prescaler = 0 := rfl
@[simp] theorem State.powerOn_clock (s : State) : (s.powerOn).clock = 0 := rfl
@[simp] theorem State.powerOn_mem (s : State) : (s.powerOn).mem = Memory.ofCells (Config.powerOnContents s.powerOns) := rfl
@[simp] theorem State.powerOn_arbiter (s : State) : (s.powerOn).arbiter = .reset := rfl
@[simp] theorem State.powerOn_intake (s : State) : (s.powerOn).intake = .reset := rfl
@[simp] theorem State.powerOn_cands (s : State) : (s.powerOn).cands = .replicate 256 .reset := rfl
@[simp] theorem State.powerOn_params (s : State) : (s.powerOn).params = .replicate 32 .reset := rfl
@[simp] theorem State.powerOn_requests (s : State) : (s.powerOn).requests = [] := rfl
@[simp] theorem State.powerOn_shelves (s : State) : (s.powerOn).shelves = .ofFn Shelf.reset := rfl
@[simp] theorem State.powerOn_judged (s : State) : (s.powerOn).judged = .replicate 256 .reset := rfl
@[simp] theorem State.powerOn_queue (s : State) : (s.powerOn).queue = [] := rfl
@[simp] theorem State.powerOn_evaluating (s : State) : (s.powerOn).evaluating = none := rfl
@[simp] theorem State.powerOn_writer (s : State) : (s.powerOn).writer = .reset := rfl
@[simp] theorem State.powerOn_powerOns (s : State) : (s.powerOn).powerOns = s.powerOns + 1 := rfl
@[simp] theorem State.powerOn_pending (s : State) : (s.powerOn).pending = s.pending := rfl

@[simp] theorem State.fullReset_run (s : State) (n : Nat) : (s.fullReset n).run = false := rfl
@[simp] theorem State.fullReset_engine (s : State) (n : Nat) : (s.fullReset n).engine = .halted := rfl
@[simp] theorem State.fullReset_haltCause (s : State) (n : Nat) : (s.fullReset n).haltCause = .none := rfl
@[simp] theorem State.fullReset_resetLow (s : State) (n : Nat) : (s.fullReset n).resetLow = s.resetLow := rfl
@[simp] theorem State.fullReset_bus (s : State) (n : Nat) : (s.fullReset n).bus = s.bus := rfl
@[simp] theorem State.fullReset_causes (s : State) (n : Nat) : (s.fullReset n).causes = ⟨false, false, false, false, false⟩ := rfl
@[simp] theorem State.fullReset_enables (s : State) (n : Nat) : (s.fullReset n).enables = ⟨⟨false, false, false, false, false⟩, false⟩ := rfl
@[simp] theorem State.fullReset_shelfChg (s : State) (n : Nat) : (s.fullReset n).shelfChg = 0 := rfl
@[simp] theorem State.fullReset_msclkH (s : State) (n : Nat) : (s.fullReset n).msclkH = 0 := rfl
@[simp] theorem State.fullReset_prescaler (s : State) (n : Nat) : (s.fullReset n).prescaler = 0 := rfl
@[simp] theorem State.fullReset_clock (s : State) (n : Nat) : (s.fullReset n).clock = 0 := rfl
@[simp] theorem State.fullReset_mem (s : State) (n : Nat) : (s.fullReset n).mem = s.cutMemory n := rfl
/-- A reset leaves no transaction of the Result Writer in progress (R146, R158). -/
@[simp] theorem Arbiter.afterReset_owner_ne (a : Arbiter) (j : WriterJob) : (a.afterReset.owner = .writer j) = False := by
  unfold Arbiter.afterReset; dsimp only; split <;> simp

@[simp] theorem State.fullReset_arbiter (s : State) (n : Nat) : (s.fullReset n).arbiter = s.arbiter.afterReset := rfl
@[simp] theorem State.fullReset_intake (s : State) (n : Nat) : (s.fullReset n).intake = .reset := rfl
@[simp] theorem State.fullReset_cands (s : State) (n : Nat) : (s.fullReset n).cands = .replicate 256 .reset := rfl
@[simp] theorem State.fullReset_params (s : State) (n : Nat) : (s.fullReset n).params = .replicate 32 .reset := rfl
@[simp] theorem State.fullReset_requests (s : State) (n : Nat) : (s.fullReset n).requests = [] := rfl
@[simp] theorem State.fullReset_shelves (s : State) (n : Nat) : (s.fullReset n).shelves = .ofFn Shelf.reset := rfl
@[simp] theorem State.fullReset_judged (s : State) (n : Nat) : (s.fullReset n).judged = .replicate 256 .reset := rfl
@[simp] theorem State.fullReset_queue (s : State) (n : Nat) : (s.fullReset n).queue = [] := rfl
@[simp] theorem State.fullReset_evaluating (s : State) (n : Nat) : (s.fullReset n).evaluating = none := rfl
@[simp] theorem State.fullReset_writer (s : State) (n : Nat) : (s.fullReset n).writer = .reset := rfl
@[simp] theorem State.fullReset_powerOns (s : State) (n : Nat) : (s.fullReset n).powerOns = s.powerOns := rfl
@[simp] theorem State.fullReset_pending (s : State) (n : Nat) : (s.fullReset n).pending = s.pending := rfl

@[simp] theorem State.restart_run (s : State) (n : Nat) : (s.restart n).run = s.run := rfl
@[simp] theorem State.restart_engine (s : State) (n : Nat) : (s.restart n).engine = if s.run then .starting .readGlobal else .halted := rfl
@[simp] theorem State.restart_haltCause (s : State) (n : Nat) : (s.restart n).haltCause = .none := rfl
@[simp] theorem State.restart_resetLow (s : State) (n : Nat) : (s.restart n).resetLow = s.resetLow := rfl
@[simp] theorem State.restart_bus (s : State) (n : Nat) : (s.restart n).bus = s.bus := rfl
@[simp] theorem State.restart_causes (s : State) (n : Nat) : (s.restart n).causes = s.causes := rfl
@[simp] theorem State.restart_enables (s : State) (n : Nat) : (s.restart n).enables = s.enables := rfl
@[simp] theorem State.restart_shelfChg (s : State) (n : Nat) : (s.restart n).shelfChg = s.shelfChg := rfl
@[simp] theorem State.restart_msclkH (s : State) (n : Nat) : (s.restart n).msclkH = s.msclkH := rfl
@[simp] theorem State.restart_prescaler (s : State) (n : Nat) : (s.restart n).prescaler = s.prescaler := rfl
@[simp] theorem State.restart_clock (s : State) (n : Nat) : (s.restart n).clock = s.clock := rfl
@[simp] theorem State.restart_mem (s : State) (n : Nat) : (s.restart n).mem = s.cutMemory n := rfl
@[simp] theorem State.restart_arbiter (s : State) (n : Nat) : (s.restart n).arbiter = s.arbiter.afterReset := rfl
@[simp] theorem State.restart_intake (s : State) (n : Nat) : (s.restart n).intake = .reset := rfl
@[simp] theorem State.restart_cands (s : State) (n : Nat) : (s.restart n).cands = .replicate 256 .reset := rfl
@[simp] theorem State.restart_params (s : State) (n : Nat) : (s.restart n).params = .replicate 32 .reset := rfl
@[simp] theorem State.restart_requests (s : State) (n : Nat) : (s.restart n).requests = [] := rfl
@[simp] theorem State.restart_shelves (s : State) (n : Nat) : (s.restart n).shelves = .ofFn Shelf.reset := rfl
@[simp] theorem State.restart_judged (s : State) (n : Nat) : (s.restart n).judged = .replicate 256 .reset := rfl
@[simp] theorem State.restart_queue (s : State) (n : Nat) : (s.restart n).queue = [] := rfl
@[simp] theorem State.restart_evaluating (s : State) (n : Nat) : (s.restart n).evaluating = none := rfl
@[simp] theorem State.restart_writer (s : State) (n : Nat) : (s.restart n).writer = { Writer.reset with publication := s.cutPublication, nextEntry := s.writer.loggedEntry, loggedEntry := s.writer.loggedEntry, lastEntryTime := s.writer.lastEntryTime } := rfl
@[simp] theorem State.restart_powerOns (s : State) (n : Nat) : (s.restart n).powerOns = s.powerOns := rfl
@[simp] theorem State.restart_pending (s : State) (n : Nat) : (s.restart n).pending = s.pending := rfl

end Sys2Proof.Machine
end

