-- ==== Sys2Proof/Laws/Frames.lean ====
section
/-! SUPPORT. The frame of each shared operation: one lemma that names every field of State it keeps. simp reads the parts of
each conjunction as rewrite rules. -/

namespace Sys2Proof.Machine

/-- A fold keeps what each of its steps keeps. -/
theorem foldl_same {α β γ : Type} (f : α → γ) (g : α → β → α) (h : ∀ a b, f (g a b) = f a) (l : List β) (a : α) :
    f (l.foldl g a) = f a := by
  induction l generalizing a with
  | nil => rfl
  | cons b l ih => rw [List.foldl_cons, ih, h]

@[simp] theorem State.place_keeps (s : State) (i : Fin 32) :
    (s.place i).run = s.run ∧ (s.place i).engine = s.engine ∧ (s.place i).haltCause = s.haltCause ∧
    (s.place i).resetLow = s.resetLow ∧ (s.place i).bus = s.bus ∧ (s.place i).causes = s.causes ∧
    (s.place i).enables = s.enables ∧ (s.place i).shelfChg = s.shelfChg ∧ (s.place i).msclkH = s.msclkH ∧
    (s.place i).prescaler = s.prescaler ∧ (s.place i).clock = s.clock ∧ (s.place i).mem = s.mem ∧
    (s.place i).arbiter = s.arbiter ∧ (s.place i).intake = s.intake ∧ (s.place i).cands = s.cands ∧
    (s.place i).params = s.params ∧ (s.place i).requests = s.requests ∧ (s.place i).shelves = s.shelves ∧
    (s.place i).judged = s.judged ∧ (s.place i).evaluating = s.evaluating ∧ (s.place i).writer = s.writer ∧
    (s.place i).powerOns = s.powerOns ∧ (s.place i).pending = s.pending := by
  unfold State.place; (try dsimp only); (repeat' split) <;> simp

@[simp] theorem State.placeAll_keeps (s : State) (is : List (Fin 32)) :
    (s.placeAll is).run = s.run ∧ (s.placeAll is).engine = s.engine ∧ (s.placeAll is).haltCause = s.haltCause ∧
    (s.placeAll is).resetLow = s.resetLow ∧ (s.placeAll is).bus = s.bus ∧ (s.placeAll is).causes = s.causes ∧
    (s.placeAll is).enables = s.enables ∧ (s.placeAll is).shelfChg = s.shelfChg ∧ (s.placeAll is).msclkH = s.msclkH ∧
    (s.placeAll is).prescaler = s.prescaler ∧ (s.placeAll is).clock = s.clock ∧ (s.placeAll is).mem = s.mem ∧
    (s.placeAll is).arbiter = s.arbiter ∧ (s.placeAll is).intake = s.intake ∧ (s.placeAll is).cands = s.cands ∧
    (s.placeAll is).params = s.params ∧ (s.placeAll is).requests = s.requests ∧ (s.placeAll is).shelves = s.shelves ∧
    (s.placeAll is).judged = s.judged ∧ (s.placeAll is).evaluating = s.evaluating ∧ (s.placeAll is).writer = s.writer ∧
    (s.placeAll is).powerOns = s.powerOns ∧ (s.placeAll is).pending = s.pending := ⟨foldl_same State.run _ (by intros; simp) _ _, foldl_same State.engine _ (by intros; simp) _ _, foldl_same State.haltCause _ (by intros; simp) _ _, foldl_same State.resetLow _ (by intros; simp) _ _, foldl_same State.bus _ (by intros; simp) _ _, foldl_same State.causes _ (by intros; simp) _ _, foldl_same State.enables _ (by intros; simp) _ _, foldl_same State.shelfChg _ (by intros; simp) _ _, foldl_same State.msclkH _ (by intros; simp) _ _, foldl_same State.prescaler _ (by intros; simp) _ _, foldl_same State.clock _ (by intros; simp) _ _, foldl_same State.mem _ (by intros; simp) _ _, foldl_same State.arbiter _ (by intros; simp) _ _, foldl_same State.intake _ (by intros; simp) _ _, foldl_same State.cands _ (by intros; simp) _ _, foldl_same State.params _ (by intros; simp) _ _, foldl_same State.requests _ (by intros; simp) _ _, foldl_same State.shelves _ (by intros; simp) _ _, foldl_same State.judged _ (by intros; simp) _ _, foldl_same State.evaluating _ (by intros; simp) _ _, foldl_same State.writer _ (by intros; simp) _ _, foldl_same State.powerOns _ (by intros; simp) _ _, foldl_same State.pending _ (by intros; simp) _ _⟩

@[simp] theorem State.ask_keeps (s : State) (item : WriteItem) :
    (s.ask item).run = s.run ∧ (s.ask item).engine = s.engine ∧ (s.ask item).haltCause = s.haltCause ∧
    (s.ask item).resetLow = s.resetLow ∧ (s.ask item).bus = s.bus ∧ (s.ask item).causes = s.causes ∧
    (s.ask item).enables = s.enables ∧ (s.ask item).shelfChg = s.shelfChg ∧ (s.ask item).msclkH = s.msclkH ∧
    (s.ask item).prescaler = s.prescaler ∧ (s.ask item).clock = s.clock ∧ (s.ask item).mem = s.mem ∧
    (s.ask item).arbiter = s.arbiter ∧ (s.ask item).intake = s.intake ∧ (s.ask item).cands = s.cands ∧
    (s.ask item).params = s.params ∧ (s.ask item).requests = s.requests ∧ (s.ask item).shelves = s.shelves ∧
    (s.ask item).judged = s.judged ∧ (s.ask item).queue = s.queue ∧ (s.ask item).evaluating = s.evaluating ∧
    (s.ask item).powerOns = s.powerOns ∧ (s.ask item).pending = s.pending := by
  unfold State.ask; (try dsimp only); (repeat' split) <;> simp

@[simp] theorem State.askAll_keeps (s : State) (items : List WriteItem) :
    (s.askAll items).run = s.run ∧ (s.askAll items).engine = s.engine ∧ (s.askAll items).haltCause = s.haltCause ∧
    (s.askAll items).resetLow = s.resetLow ∧ (s.askAll items).bus = s.bus ∧ (s.askAll items).causes = s.causes ∧
    (s.askAll items).enables = s.enables ∧ (s.askAll items).shelfChg = s.shelfChg ∧ (s.askAll items).msclkH = s.msclkH ∧
    (s.askAll items).prescaler = s.prescaler ∧ (s.askAll items).clock = s.clock ∧ (s.askAll items).mem = s.mem ∧
    (s.askAll items).arbiter = s.arbiter ∧ (s.askAll items).intake = s.intake ∧ (s.askAll items).cands = s.cands ∧
    (s.askAll items).params = s.params ∧ (s.askAll items).requests = s.requests ∧ (s.askAll items).shelves = s.shelves ∧
    (s.askAll items).judged = s.judged ∧ (s.askAll items).queue = s.queue ∧ (s.askAll items).evaluating = s.evaluating ∧
    (s.askAll items).powerOns = s.powerOns ∧ (s.askAll items).pending = s.pending := ⟨foldl_same State.run _ (by intros; simp) _ _, foldl_same State.engine _ (by intros; simp) _ _, foldl_same State.haltCause _ (by intros; simp) _ _, foldl_same State.resetLow _ (by intros; simp) _ _, foldl_same State.bus _ (by intros; simp) _ _, foldl_same State.causes _ (by intros; simp) _ _, foldl_same State.enables _ (by intros; simp) _ _, foldl_same State.shelfChg _ (by intros; simp) _ _, foldl_same State.msclkH _ (by intros; simp) _ _, foldl_same State.prescaler _ (by intros; simp) _ _, foldl_same State.clock _ (by intros; simp) _ _, foldl_same State.mem _ (by intros; simp) _ _, foldl_same State.arbiter _ (by intros; simp) _ _, foldl_same State.intake _ (by intros; simp) _ _, foldl_same State.cands _ (by intros; simp) _ _, foldl_same State.params _ (by intros; simp) _ _, foldl_same State.requests _ (by intros; simp) _ _, foldl_same State.shelves _ (by intros; simp) _ _, foldl_same State.judged _ (by intros; simp) _ _, foldl_same State.queue _ (by intros; simp) _ _, foldl_same State.evaluating _ (by intros; simp) _ _, foldl_same State.powerOns _ (by intros; simp) _ _, foldl_same State.pending _ (by intros; simp) _ _⟩

@[simp] theorem State.log_keeps (s : State) (i : Fin 32) (n : LogNote) :
    (s.log i n).run = s.run ∧ (s.log i n).engine = s.engine ∧ (s.log i n).haltCause = s.haltCause ∧
    (s.log i n).resetLow = s.resetLow ∧ (s.log i n).bus = s.bus ∧ (s.log i n).causes = s.causes ∧
    (s.log i n).enables = s.enables ∧ (s.log i n).shelfChg = s.shelfChg ∧ (s.log i n).msclkH = s.msclkH ∧
    (s.log i n).prescaler = s.prescaler ∧ (s.log i n).clock = s.clock ∧ (s.log i n).mem = s.mem ∧
    (s.log i n).arbiter = s.arbiter ∧ (s.log i n).intake = s.intake ∧ (s.log i n).cands = s.cands ∧
    (s.log i n).params = s.params ∧ (s.log i n).requests = s.requests ∧ (s.log i n).shelves = s.shelves ∧
    (s.log i n).judged = s.judged ∧ (s.log i n).queue = s.queue ∧ (s.log i n).evaluating = s.evaluating ∧
    (s.log i n).powerOns = s.powerOns ∧ (s.log i n).pending = s.pending := by
  unfold State.log; (try dsimp only); (repeat' split) <;> simp

@[simp] theorem State.readMsclkL_keeps (s : State) :
    (s.readMsclkL).run = s.run ∧ (s.readMsclkL).engine = s.engine ∧ (s.readMsclkL).haltCause = s.haltCause ∧
    (s.readMsclkL).resetLow = s.resetLow ∧ (s.readMsclkL).causes = s.causes ∧ (s.readMsclkL).enables = s.enables ∧
    (s.readMsclkL).shelfChg = s.shelfChg ∧ (s.readMsclkL).prescaler = s.prescaler ∧ (s.readMsclkL).clock = s.clock ∧
    (s.readMsclkL).mem = s.mem ∧ (s.readMsclkL).arbiter = s.arbiter ∧ (s.readMsclkL).intake = s.intake ∧
    (s.readMsclkL).cands = s.cands ∧ (s.readMsclkL).params = s.params ∧ (s.readMsclkL).requests = s.requests ∧
    (s.readMsclkL).shelves = s.shelves ∧ (s.readMsclkL).judged = s.judged ∧ (s.readMsclkL).queue = s.queue ∧
    (s.readMsclkL).evaluating = s.evaluating ∧ (s.readMsclkL).writer = s.writer ∧ (s.readMsclkL).powerOns = s.powerOns ∧
    (s.readMsclkL).pending = s.pending := by
  simp [State.readMsclkL]

@[simp] theorem State.writeAttn_keeps (s : State) (w : Word) :
    (s.writeAttn w).run = s.run ∧ (s.writeAttn w).engine = s.engine ∧ (s.writeAttn w).haltCause = s.haltCause ∧
    (s.writeAttn w).resetLow = s.resetLow ∧ (s.writeAttn w).enables = s.enables ∧ (s.writeAttn w).shelfChg = s.shelfChg ∧
    (s.writeAttn w).msclkH = s.msclkH ∧ (s.writeAttn w).prescaler = s.prescaler ∧ (s.writeAttn w).clock = s.clock ∧
    (s.writeAttn w).mem = s.mem ∧ (s.writeAttn w).arbiter = s.arbiter ∧ (s.writeAttn w).intake = s.intake ∧
    (s.writeAttn w).cands = s.cands ∧ (s.writeAttn w).params = s.params ∧ (s.writeAttn w).requests = s.requests ∧
    (s.writeAttn w).shelves = s.shelves ∧ (s.writeAttn w).judged = s.judged ∧ (s.writeAttn w).queue = s.queue ∧
    (s.writeAttn w).evaluating = s.evaluating ∧ (s.writeAttn w).writer = s.writer ∧
    (s.writeAttn w).powerOns = s.powerOns ∧ (s.writeAttn w).pending = s.pending := by
  simp [State.writeAttn]

@[simp] theorem State.writeShelfChg_keeps (s : State) (w : Word) :
    (s.writeShelfChg w).run = s.run ∧ (s.writeShelfChg w).engine = s.engine ∧
    (s.writeShelfChg w).haltCause = s.haltCause ∧ (s.writeShelfChg w).resetLow = s.resetLow ∧
    (s.writeShelfChg w).causes = s.causes ∧ (s.writeShelfChg w).enables = s.enables ∧
    (s.writeShelfChg w).msclkH = s.msclkH ∧ (s.writeShelfChg w).prescaler = s.prescaler ∧
    (s.writeShelfChg w).clock = s.clock ∧ (s.writeShelfChg w).mem = s.mem ∧ (s.writeShelfChg w).arbiter = s.arbiter ∧
    (s.writeShelfChg w).intake = s.intake ∧ (s.writeShelfChg w).cands = s.cands ∧ (s.writeShelfChg w).params = s.params ∧
    (s.writeShelfChg w).requests = s.requests ∧ (s.writeShelfChg w).shelves = s.shelves ∧
    (s.writeShelfChg w).judged = s.judged ∧ (s.writeShelfChg w).queue = s.queue ∧
    (s.writeShelfChg w).evaluating = s.evaluating ∧ (s.writeShelfChg w).writer = s.writer ∧
    (s.writeShelfChg w).powerOns = s.powerOns ∧ (s.writeShelfChg w).pending = s.pending := by
  simp [State.writeShelfChg]

@[simp] theorem State.writeAttnEn_keeps (s : State) (w : Word) :
    (s.writeAttnEn w).run = s.run ∧ (s.writeAttnEn w).engine = s.engine ∧ (s.writeAttnEn w).haltCause = s.haltCause ∧
    (s.writeAttnEn w).resetLow = s.resetLow ∧ (s.writeAttnEn w).causes = s.causes ∧
    (s.writeAttnEn w).shelfChg = s.shelfChg ∧ (s.writeAttnEn w).msclkH = s.msclkH ∧
    (s.writeAttnEn w).prescaler = s.prescaler ∧ (s.writeAttnEn w).clock = s.clock ∧ (s.writeAttnEn w).mem = s.mem ∧
    (s.writeAttnEn w).arbiter = s.arbiter ∧ (s.writeAttnEn w).intake = s.intake ∧ (s.writeAttnEn w).cands = s.cands ∧
    (s.writeAttnEn w).params = s.params ∧ (s.writeAttnEn w).requests = s.requests ∧
    (s.writeAttnEn w).shelves = s.shelves ∧ (s.writeAttnEn w).judged = s.judged ∧ (s.writeAttnEn w).queue = s.queue ∧
    (s.writeAttnEn w).evaluating = s.evaluating ∧ (s.writeAttnEn w).writer = s.writer ∧
    (s.writeAttnEn w).powerOns = s.powerOns ∧ (s.writeAttnEn w).pending = s.pending := by
  simp [State.writeAttnEn]

@[simp] theorem State.requestIntake_keeps (s : State) :
    (s.requestIntake).run = s.run ∧ (s.requestIntake).engine = s.engine ∧ (s.requestIntake).haltCause = s.haltCause ∧
    (s.requestIntake).resetLow = s.resetLow ∧ (s.requestIntake).bus = s.bus ∧ (s.requestIntake).causes = s.causes ∧
    (s.requestIntake).enables = s.enables ∧ (s.requestIntake).shelfChg = s.shelfChg ∧
    (s.requestIntake).msclkH = s.msclkH ∧ (s.requestIntake).prescaler = s.prescaler ∧ (s.requestIntake).clock = s.clock ∧
    (s.requestIntake).mem = s.mem ∧ (s.requestIntake).intake = s.intake ∧ (s.requestIntake).cands = s.cands ∧
    (s.requestIntake).params = s.params ∧ (s.requestIntake).requests = s.requests ∧
    (s.requestIntake).shelves = s.shelves ∧ (s.requestIntake).judged = s.judged ∧ (s.requestIntake).queue = s.queue ∧
    (s.requestIntake).evaluating = s.evaluating ∧ (s.requestIntake).writer = s.writer ∧
    (s.requestIntake).powerOns = s.powerOns ∧ (s.requestIntake).pending = s.pending := by
  unfold State.requestIntake; (try dsimp only); (repeat' split) <;> simp

@[simp] theorem State.requestWriter_keeps (s : State) (job : WriterJob) :
    (s.requestWriter job).run = s.run ∧ (s.requestWriter job).engine = s.engine ∧
    (s.requestWriter job).haltCause = s.haltCause ∧ (s.requestWriter job).resetLow = s.resetLow ∧
    (s.requestWriter job).bus = s.bus ∧ (s.requestWriter job).causes = s.causes ∧
    (s.requestWriter job).enables = s.enables ∧ (s.requestWriter job).shelfChg = s.shelfChg ∧
    (s.requestWriter job).msclkH = s.msclkH ∧ (s.requestWriter job).prescaler = s.prescaler ∧
    (s.requestWriter job).clock = s.clock ∧ (s.requestWriter job).mem = s.mem ∧ (s.requestWriter job).intake = s.intake ∧
    (s.requestWriter job).cands = s.cands ∧ (s.requestWriter job).params = s.params ∧
    (s.requestWriter job).requests = s.requests ∧ (s.requestWriter job).shelves = s.shelves ∧
    (s.requestWriter job).judged = s.judged ∧ (s.requestWriter job).queue = s.queue ∧
    (s.requestWriter job).evaluating = s.evaluating ∧ (s.requestWriter job).writer = s.writer ∧
    (s.requestWriter job).powerOns = s.powerOns ∧ (s.requestWriter job).pending = s.pending := by
  unfold State.requestWriter; (try dsimp only); (repeat' split) <;> simp

@[simp] theorem State.requestHost_keeps (s : State) (a : HostAccess) :
    (s.requestHost a).run = s.run ∧ (s.requestHost a).engine = s.engine ∧ (s.requestHost a).haltCause = s.haltCause ∧
    (s.requestHost a).resetLow = s.resetLow ∧ (s.requestHost a).bus = s.bus ∧ (s.requestHost a).causes = s.causes ∧
    (s.requestHost a).enables = s.enables ∧ (s.requestHost a).shelfChg = s.shelfChg ∧
    (s.requestHost a).msclkH = s.msclkH ∧ (s.requestHost a).prescaler = s.prescaler ∧ (s.requestHost a).clock = s.clock ∧
    (s.requestHost a).mem = s.mem ∧ (s.requestHost a).intake = s.intake ∧ (s.requestHost a).cands = s.cands ∧
    (s.requestHost a).params = s.params ∧ (s.requestHost a).requests = s.requests ∧
    (s.requestHost a).shelves = s.shelves ∧ (s.requestHost a).judged = s.judged ∧ (s.requestHost a).queue = s.queue ∧
    (s.requestHost a).evaluating = s.evaluating ∧ (s.requestHost a).writer = s.writer ∧
    (s.requestHost a).powerOns = s.powerOns ∧ (s.requestHost a).pending = s.pending := by
  unfold State.requestHost; split; · simp
  · dsimp only; split <;> simp

@[simp] theorem State.grantInternal_keeps (s : State) :
    (s.grantInternal).run = s.run ∧ (s.grantInternal).engine = s.engine ∧ (s.grantInternal).haltCause = s.haltCause ∧
    (s.grantInternal).resetLow = s.resetLow ∧ (s.grantInternal).bus = s.bus ∧ (s.grantInternal).causes = s.causes ∧
    (s.grantInternal).enables = s.enables ∧ (s.grantInternal).shelfChg = s.shelfChg ∧
    (s.grantInternal).msclkH = s.msclkH ∧ (s.grantInternal).prescaler = s.prescaler ∧ (s.grantInternal).clock = s.clock ∧
    (s.grantInternal).mem = s.mem ∧ (s.grantInternal).intake = s.intake ∧ (s.grantInternal).cands = s.cands ∧
    (s.grantInternal).params = s.params ∧ (s.grantInternal).requests = s.requests ∧
    (s.grantInternal).shelves = s.shelves ∧ (s.grantInternal).judged = s.judged ∧ (s.grantInternal).queue = s.queue ∧
    (s.grantInternal).evaluating = s.evaluating ∧ (s.grantInternal).writer = s.writer ∧
    (s.grantInternal).powerOns = s.powerOns ∧ (s.grantInternal).pending = s.pending := by
  unfold State.grantInternal; (try dsimp only); (repeat' split) <;> simp

@[simp] theorem State.releaseRecord_keeps (s : State) :
    (s.releaseRecord).run = s.run ∧ (s.releaseRecord).engine = s.engine ∧ (s.releaseRecord).haltCause = s.haltCause ∧
    (s.releaseRecord).resetLow = s.resetLow ∧ (s.releaseRecord).bus = s.bus ∧ (s.releaseRecord).causes = s.causes ∧
    (s.releaseRecord).enables = s.enables ∧ (s.releaseRecord).shelfChg = s.shelfChg ∧
    (s.releaseRecord).msclkH = s.msclkH ∧ (s.releaseRecord).prescaler = s.prescaler ∧ (s.releaseRecord).clock = s.clock ∧
    (s.releaseRecord).mem = s.mem ∧ (s.releaseRecord).intake = s.intake ∧ (s.releaseRecord).cands = s.cands ∧
    (s.releaseRecord).params = s.params ∧ (s.releaseRecord).requests = s.requests ∧
    (s.releaseRecord).shelves = s.shelves ∧ (s.releaseRecord).judged = s.judged ∧ (s.releaseRecord).queue = s.queue ∧
    (s.releaseRecord).evaluating = s.evaluating ∧ (s.releaseRecord).writer = s.writer ∧
    (s.releaseRecord).powerOns = s.powerOns ∧ (s.releaseRecord).pending = s.pending := by
  unfold State.releaseRecord; (try dsimp only); (repeat' split) <;> simp

@[simp] theorem State.makeAccess_keeps (s : State) (a : HostAccess) :
    (s.makeAccess a).run = s.run ∧ (s.makeAccess a).engine = s.engine ∧ (s.makeAccess a).haltCause = s.haltCause ∧
    (s.makeAccess a).resetLow = s.resetLow ∧ (s.makeAccess a).causes = s.causes ∧ (s.makeAccess a).enables = s.enables ∧
    (s.makeAccess a).shelfChg = s.shelfChg ∧ (s.makeAccess a).msclkH = s.msclkH ∧
    (s.makeAccess a).prescaler = s.prescaler ∧ (s.makeAccess a).clock = s.clock ∧ (s.makeAccess a).intake = s.intake ∧
    (s.makeAccess a).cands = s.cands ∧ (s.makeAccess a).params = s.params ∧ (s.makeAccess a).requests = s.requests ∧
    (s.makeAccess a).shelves = s.shelves ∧ (s.makeAccess a).judged = s.judged ∧ (s.makeAccess a).queue = s.queue ∧
    (s.makeAccess a).evaluating = s.evaluating ∧ (s.makeAccess a).writer = s.writer ∧
    (s.makeAccess a).powerOns = s.powerOns ∧ (s.makeAccess a).pending = s.pending := by
  unfold State.makeAccess; (try dsimp only); (repeat' split) <;> simp

@[simp] theorem State.finishHost_keeps (s : State) (a : HostAccess) :
    (s.finishHost a).run = s.run ∧ (s.finishHost a).engine = s.engine ∧ (s.finishHost a).haltCause = s.haltCause ∧
    (s.finishHost a).resetLow = s.resetLow ∧ (s.finishHost a).causes = s.causes ∧ (s.finishHost a).enables = s.enables ∧
    (s.finishHost a).shelfChg = s.shelfChg ∧ (s.finishHost a).msclkH = s.msclkH ∧
    (s.finishHost a).prescaler = s.prescaler ∧ (s.finishHost a).clock = s.clock ∧ (s.finishHost a).intake = s.intake ∧
    (s.finishHost a).cands = s.cands ∧ (s.finishHost a).params = s.params ∧ (s.finishHost a).requests = s.requests ∧
    (s.finishHost a).shelves = s.shelves ∧ (s.finishHost a).judged = s.judged ∧ (s.finishHost a).queue = s.queue ∧
    (s.finishHost a).evaluating = s.evaluating ∧ (s.finishHost a).writer = s.writer ∧
    (s.finishHost a).powerOns = s.powerOns ∧ (s.finishHost a).pending = s.pending := by
  unfold State.finishHost; (try dsimp only); (repeat' split) <;> simp

@[simp] theorem State.publishCand_keeps (s : State) (k : Fin 256) :
    (s.publishCand k).run = s.run ∧ (s.publishCand k).engine = s.engine ∧ (s.publishCand k).haltCause = s.haltCause ∧
    (s.publishCand k).resetLow = s.resetLow ∧ (s.publishCand k).bus = s.bus ∧ (s.publishCand k).causes = s.causes ∧
    (s.publishCand k).enables = s.enables ∧ (s.publishCand k).shelfChg = s.shelfChg ∧
    (s.publishCand k).msclkH = s.msclkH ∧ (s.publishCand k).prescaler = s.prescaler ∧ (s.publishCand k).clock = s.clock ∧
    (s.publishCand k).mem = s.mem ∧ (s.publishCand k).arbiter = s.arbiter ∧ (s.publishCand k).intake = s.intake ∧
    (s.publishCand k).cands = s.cands ∧ (s.publishCand k).params = s.params ∧ (s.publishCand k).requests = s.requests ∧
    (s.publishCand k).shelves = s.shelves ∧ (s.publishCand k).judged = s.judged ∧ (s.publishCand k).queue = s.queue ∧
    (s.publishCand k).evaluating = s.evaluating ∧ (s.publishCand k).powerOns = s.powerOns ∧
    (s.publishCand k).pending = s.pending := by
  simp [State.publishCand]

@[simp] theorem State.candEvent_keeps (s : State) (k : Fin 256) (c : Candidate) :
    (s.candEvent k c).run = s.run ∧ (s.candEvent k c).engine = s.engine ∧ (s.candEvent k c).haltCause = s.haltCause ∧
    (s.candEvent k c).resetLow = s.resetLow ∧ (s.candEvent k c).bus = s.bus ∧ (s.candEvent k c).causes = s.causes ∧
    (s.candEvent k c).enables = s.enables ∧ (s.candEvent k c).shelfChg = s.shelfChg ∧
    (s.candEvent k c).msclkH = s.msclkH ∧ (s.candEvent k c).prescaler = s.prescaler ∧ (s.candEvent k c).clock = s.clock ∧
    (s.candEvent k c).mem = s.mem ∧ (s.candEvent k c).arbiter = s.arbiter ∧ (s.candEvent k c).intake = s.intake ∧
    (s.candEvent k c).params = s.params ∧ (s.candEvent k c).requests = s.requests ∧
    (s.candEvent k c).shelves = s.shelves ∧ (s.candEvent k c).judged = s.judged ∧
    (s.candEvent k c).evaluating = s.evaluating ∧ (s.candEvent k c).powerOns = s.powerOns ∧
    (s.candEvent k c).pending = s.pending := by
  simp [State.candEvent]

@[simp] theorem State.observation_keeps (s : State) (k : Fin 256) (o : Observation) :
    (s.observation k o).run = s.run ∧ (s.observation k o).engine = s.engine ∧
    (s.observation k o).haltCause = s.haltCause ∧ (s.observation k o).resetLow = s.resetLow ∧
    (s.observation k o).bus = s.bus ∧ (s.observation k o).causes = s.causes ∧ (s.observation k o).enables = s.enables ∧
    (s.observation k o).shelfChg = s.shelfChg ∧ (s.observation k o).msclkH = s.msclkH ∧
    (s.observation k o).prescaler = s.prescaler ∧ (s.observation k o).clock = s.clock ∧ (s.observation k o).mem = s.mem ∧
    (s.observation k o).arbiter = s.arbiter ∧ (s.observation k o).intake = s.intake ∧
    (s.observation k o).params = s.params ∧ (s.observation k o).requests = s.requests ∧
    (s.observation k o).shelves = s.shelves ∧ (s.observation k o).judged = s.judged ∧
    (s.observation k o).evaluating = s.evaluating ∧ (s.observation k o).powerOns = s.powerOns ∧
    (s.observation k o).pending = s.pending := by
  unfold State.observation; (try dsimp only); (repeat' split) <;> simp

@[simp] theorem State.reportExpiry_keeps (s : State) (k : Fin 256) :
    (s.reportExpiry k).run = s.run ∧ (s.reportExpiry k).engine = s.engine ∧ (s.reportExpiry k).haltCause = s.haltCause ∧
    (s.reportExpiry k).resetLow = s.resetLow ∧ (s.reportExpiry k).bus = s.bus ∧ (s.reportExpiry k).causes = s.causes ∧
    (s.reportExpiry k).enables = s.enables ∧ (s.reportExpiry k).shelfChg = s.shelfChg ∧
    (s.reportExpiry k).msclkH = s.msclkH ∧ (s.reportExpiry k).prescaler = s.prescaler ∧
    (s.reportExpiry k).clock = s.clock ∧ (s.reportExpiry k).mem = s.mem ∧ (s.reportExpiry k).arbiter = s.arbiter ∧
    (s.reportExpiry k).intake = s.intake ∧ (s.reportExpiry k).params = s.params ∧
    (s.reportExpiry k).requests = s.requests ∧ (s.reportExpiry k).shelves = s.shelves ∧
    (s.reportExpiry k).judged = s.judged ∧ (s.reportExpiry k).evaluating = s.evaluating ∧
    (s.reportExpiry k).powerOns = s.powerOns ∧ (s.reportExpiry k).pending = s.pending := by
  unfold State.reportExpiry; (try dsimp only); (repeat' split) <;> simp

@[simp] theorem State.condemnCand_keeps (s : State) (k : Fin 256) :
    (s.condemnCand k).run = s.run ∧ (s.condemnCand k).engine = s.engine ∧ (s.condemnCand k).haltCause = s.haltCause ∧
    (s.condemnCand k).resetLow = s.resetLow ∧ (s.condemnCand k).bus = s.bus ∧ (s.condemnCand k).causes = s.causes ∧
    (s.condemnCand k).enables = s.enables ∧ (s.condemnCand k).shelfChg = s.shelfChg ∧
    (s.condemnCand k).msclkH = s.msclkH ∧ (s.condemnCand k).prescaler = s.prescaler ∧ (s.condemnCand k).clock = s.clock ∧
    (s.condemnCand k).mem = s.mem ∧ (s.condemnCand k).arbiter = s.arbiter ∧ (s.condemnCand k).intake = s.intake ∧
    (s.condemnCand k).params = s.params ∧ (s.condemnCand k).requests = s.requests ∧
    (s.condemnCand k).shelves = s.shelves ∧ (s.condemnCand k).judged = s.judged ∧
    (s.condemnCand k).evaluating = s.evaluating ∧ (s.condemnCand k).powerOns = s.powerOns ∧
    (s.condemnCand k).pending = s.pending := by
  unfold State.condemnCand; (try dsimp only); (repeat' split) <;> simp

@[simp] theorem State.clearWtr_keeps (s : State) (k : Fin 256) :
    (s.clearWtr k).run = s.run ∧ (s.clearWtr k).engine = s.engine ∧ (s.clearWtr k).haltCause = s.haltCause ∧
    (s.clearWtr k).resetLow = s.resetLow ∧ (s.clearWtr k).bus = s.bus ∧ (s.clearWtr k).causes = s.causes ∧
    (s.clearWtr k).enables = s.enables ∧ (s.clearWtr k).shelfChg = s.shelfChg ∧ (s.clearWtr k).msclkH = s.msclkH ∧
    (s.clearWtr k).prescaler = s.prescaler ∧ (s.clearWtr k).clock = s.clock ∧ (s.clearWtr k).mem = s.mem ∧
    (s.clearWtr k).arbiter = s.arbiter ∧ (s.clearWtr k).intake = s.intake ∧ (s.clearWtr k).params = s.params ∧
    (s.clearWtr k).requests = s.requests ∧ (s.clearWtr k).shelves = s.shelves ∧ (s.clearWtr k).judged = s.judged ∧
    (s.clearWtr k).evaluating = s.evaluating ∧ (s.clearWtr k).powerOns = s.powerOns ∧ (s.clearWtr k).pending = s.pending := by
  unfold State.clearWtr; (try dsimp only); (repeat' split) <;> simp

@[simp] theorem State.actOn_keeps (s : State) (r : Request) :
    (s.actOn r).run = s.run ∧ (s.actOn r).engine = s.engine ∧ (s.actOn r).haltCause = s.haltCause ∧
    (s.actOn r).resetLow = s.resetLow ∧ (s.actOn r).bus = s.bus ∧ (s.actOn r).causes = s.causes ∧
    (s.actOn r).enables = s.enables ∧ (s.actOn r).shelfChg = s.shelfChg ∧ (s.actOn r).msclkH = s.msclkH ∧
    (s.actOn r).prescaler = s.prescaler ∧ (s.actOn r).clock = s.clock ∧ (s.actOn r).mem = s.mem ∧
    (s.actOn r).arbiter = s.arbiter ∧ (s.actOn r).intake = s.intake ∧ (s.actOn r).params = s.params ∧
    (s.actOn r).requests = s.requests ∧ (s.actOn r).shelves = s.shelves ∧ (s.actOn r).judged = s.judged ∧
    (s.actOn r).evaluating = s.evaluating ∧ (s.actOn r).powerOns = s.powerOns ∧ (s.actOn r).pending = s.pending := by
  cases r <;> simp [State.actOn]

@[simp] theorem State.takeRequest_keeps (s : State) (r : Request) :
    (s.takeRequest r).run = s.run ∧ (s.takeRequest r).engine = s.engine ∧ (s.takeRequest r).haltCause = s.haltCause ∧
    (s.takeRequest r).resetLow = s.resetLow ∧ (s.takeRequest r).bus = s.bus ∧ (s.takeRequest r).causes = s.causes ∧
    (s.takeRequest r).enables = s.enables ∧ (s.takeRequest r).shelfChg = s.shelfChg ∧
    (s.takeRequest r).msclkH = s.msclkH ∧ (s.takeRequest r).prescaler = s.prescaler ∧
    (s.takeRequest r).clock = s.clock ∧ (s.takeRequest r).mem = s.mem ∧ (s.takeRequest r).arbiter = s.arbiter ∧
    (s.takeRequest r).intake = s.intake ∧ (s.takeRequest r).params = s.params ∧ (s.takeRequest r).shelves = s.shelves ∧
    (s.takeRequest r).judged = s.judged ∧ (s.takeRequest r).evaluating = s.evaluating ∧
    (s.takeRequest r).powerOns = s.powerOns ∧ (s.takeRequest r).pending = s.pending := by
  simp [State.takeRequest]

/-- What no request touches is as before all of them. -/
theorem State.takeEach_keeps (rs : List Request) (s : State) :
    (rs.foldl State.takeRequest s).run = s.run ∧ (rs.foldl State.takeRequest s).engine = s.engine ∧
    (rs.foldl State.takeRequest s).haltCause = s.haltCause ∧ (rs.foldl State.takeRequest s).resetLow = s.resetLow ∧
    (rs.foldl State.takeRequest s).bus = s.bus ∧ (rs.foldl State.takeRequest s).causes = s.causes ∧
    (rs.foldl State.takeRequest s).enables = s.enables ∧ (rs.foldl State.takeRequest s).shelfChg = s.shelfChg ∧
    (rs.foldl State.takeRequest s).msclkH = s.msclkH ∧ (rs.foldl State.takeRequest s).prescaler = s.prescaler ∧
    (rs.foldl State.takeRequest s).clock = s.clock ∧ (rs.foldl State.takeRequest s).mem = s.mem ∧
    (rs.foldl State.takeRequest s).arbiter = s.arbiter ∧ (rs.foldl State.takeRequest s).intake = s.intake ∧
    (rs.foldl State.takeRequest s).params = s.params ∧ (rs.foldl State.takeRequest s).shelves = s.shelves ∧
    (rs.foldl State.takeRequest s).judged = s.judged ∧ (rs.foldl State.takeRequest s).evaluating = s.evaluating ∧
    (rs.foldl State.takeRequest s).powerOns = s.powerOns ∧ (rs.foldl State.takeRequest s).pending = s.pending := by
  induction rs generalizing s with
  | nil => simp
  | cons r rs ih => simp [ih]

@[simp] theorem State.takeRequests_keeps (s : State) :
    (s.takeRequests).run = s.run ∧ (s.takeRequests).engine = s.engine ∧ (s.takeRequests).haltCause = s.haltCause ∧
    (s.takeRequests).resetLow = s.resetLow ∧ (s.takeRequests).bus = s.bus ∧ (s.takeRequests).causes = s.causes ∧
    (s.takeRequests).enables = s.enables ∧ (s.takeRequests).shelfChg = s.shelfChg ∧ (s.takeRequests).msclkH = s.msclkH ∧
    (s.takeRequests).prescaler = s.prescaler ∧ (s.takeRequests).clock = s.clock ∧ (s.takeRequests).mem = s.mem ∧
    (s.takeRequests).arbiter = s.arbiter ∧ (s.takeRequests).intake = s.intake ∧ (s.takeRequests).params = s.params ∧
    (s.takeRequests).shelves = s.shelves ∧ (s.takeRequests).judged = s.judged ∧
    (s.takeRequests).evaluating = s.evaluating ∧ (s.takeRequests).powerOns = s.powerOns ∧
    (s.takeRequests).pending = s.pending := by
  unfold State.takeRequests; simp [State.takeEach_keeps]

@[simp] theorem State.candConfigured_keeps (s : State) (k : Fin 256) (cfg : CandConfig) (out : CfgOutcome) :
    (s.candConfigured k cfg out).run = s.run ∧ (s.candConfigured k cfg out).engine = s.engine ∧
    (s.candConfigured k cfg out).haltCause = s.haltCause ∧ (s.candConfigured k cfg out).resetLow = s.resetLow ∧
    (s.candConfigured k cfg out).bus = s.bus ∧ (s.candConfigured k cfg out).causes = s.causes ∧
    (s.candConfigured k cfg out).enables = s.enables ∧ (s.candConfigured k cfg out).shelfChg = s.shelfChg ∧
    (s.candConfigured k cfg out).msclkH = s.msclkH ∧ (s.candConfigured k cfg out).prescaler = s.prescaler ∧
    (s.candConfigured k cfg out).clock = s.clock ∧ (s.candConfigured k cfg out).mem = s.mem ∧
    (s.candConfigured k cfg out).arbiter = s.arbiter ∧ (s.candConfigured k cfg out).intake = s.intake ∧
    (s.candConfigured k cfg out).params = s.params ∧ (s.candConfigured k cfg out).requests = s.requests ∧
    (s.candConfigured k cfg out).shelves = s.shelves ∧ (s.candConfigured k cfg out).judged = s.judged ∧
    (s.candConfigured k cfg out).evaluating = s.evaluating ∧ (s.candConfigured k cfg out).powerOns = s.powerOns ∧
    (s.candConfigured k cfg out).pending = s.pending := by
  simp [State.candConfigured]

@[simp] theorem State.candRefused_keeps (s : State) (k : Fin 256) (cause : RejectCause) :
    (s.candRefused k cause).run = s.run ∧ (s.candRefused k cause).engine = s.engine ∧
    (s.candRefused k cause).haltCause = s.haltCause ∧ (s.candRefused k cause).resetLow = s.resetLow ∧
    (s.candRefused k cause).bus = s.bus ∧ (s.candRefused k cause).causes = s.causes ∧
    (s.candRefused k cause).enables = s.enables ∧ (s.candRefused k cause).shelfChg = s.shelfChg ∧
    (s.candRefused k cause).msclkH = s.msclkH ∧ (s.candRefused k cause).prescaler = s.prescaler ∧
    (s.candRefused k cause).clock = s.clock ∧ (s.candRefused k cause).mem = s.mem ∧
    (s.candRefused k cause).arbiter = s.arbiter ∧ (s.candRefused k cause).intake = s.intake ∧
    (s.candRefused k cause).params = s.params ∧ (s.candRefused k cause).requests = s.requests ∧
    (s.candRefused k cause).shelves = s.shelves ∧ (s.candRefused k cause).judged = s.judged ∧
    (s.candRefused k cause).evaluating = s.evaluating ∧ (s.candRefused k cause).powerOns = s.powerOns ∧
    (s.candRefused k cause).pending = s.pending := by
  simp [State.candRefused]

@[simp] theorem State.offCand_keeps (s : State) (k : Fin 256) :
    (s.offCand k).run = s.run ∧ (s.offCand k).engine = s.engine ∧ (s.offCand k).haltCause = s.haltCause ∧
    (s.offCand k).resetLow = s.resetLow ∧ (s.offCand k).bus = s.bus ∧ (s.offCand k).causes = s.causes ∧
    (s.offCand k).enables = s.enables ∧ (s.offCand k).shelfChg = s.shelfChg ∧ (s.offCand k).msclkH = s.msclkH ∧
    (s.offCand k).prescaler = s.prescaler ∧ (s.offCand k).clock = s.clock ∧ (s.offCand k).mem = s.mem ∧
    (s.offCand k).arbiter = s.arbiter ∧ (s.offCand k).intake = s.intake ∧ (s.offCand k).params = s.params ∧
    (s.offCand k).requests = s.requests ∧ (s.offCand k).shelves = s.shelves ∧ (s.offCand k).judged = s.judged ∧
    (s.offCand k).queue = s.queue ∧ (s.offCand k).evaluating = s.evaluating ∧ (s.offCand k).powerOns = s.powerOns ∧
    (s.offCand k).pending = s.pending := by
  unfold State.offCand; (try dsimp only); (repeat' split) <;> simp

@[simp] theorem State.candsOff_keeps (s : State) (i : Fin 32) :
    (s.candsOff i).run = s.run ∧ (s.candsOff i).engine = s.engine ∧ (s.candsOff i).haltCause = s.haltCause ∧
    (s.candsOff i).resetLow = s.resetLow ∧ (s.candsOff i).bus = s.bus ∧ (s.candsOff i).causes = s.causes ∧
    (s.candsOff i).enables = s.enables ∧ (s.candsOff i).shelfChg = s.shelfChg ∧ (s.candsOff i).msclkH = s.msclkH ∧
    (s.candsOff i).prescaler = s.prescaler ∧ (s.candsOff i).clock = s.clock ∧ (s.candsOff i).mem = s.mem ∧
    (s.candsOff i).arbiter = s.arbiter ∧ (s.candsOff i).intake = s.intake ∧ (s.candsOff i).params = s.params ∧
    (s.candsOff i).requests = s.requests ∧ (s.candsOff i).shelves = s.shelves ∧ (s.candsOff i).judged = s.judged ∧
    (s.candsOff i).queue = s.queue ∧ (s.candsOff i).evaluating = s.evaluating ∧ (s.candsOff i).powerOns = s.powerOns ∧
    (s.candsOff i).pending = s.pending := ⟨foldl_same State.run _ (by intros; simp) _ _, foldl_same State.engine _ (by intros; simp) _ _, foldl_same State.haltCause _ (by intros; simp) _ _, foldl_same State.resetLow _ (by intros; simp) _ _, foldl_same State.bus _ (by intros; simp) _ _, foldl_same State.causes _ (by intros; simp) _ _, foldl_same State.enables _ (by intros; simp) _ _, foldl_same State.shelfChg _ (by intros; simp) _ _, foldl_same State.msclkH _ (by intros; simp) _ _, foldl_same State.prescaler _ (by intros; simp) _ _, foldl_same State.clock _ (by intros; simp) _ _, foldl_same State.mem _ (by intros; simp) _ _, foldl_same State.arbiter _ (by intros; simp) _ _, foldl_same State.intake _ (by intros; simp) _ _, foldl_same State.params _ (by intros; simp) _ _, foldl_same State.requests _ (by intros; simp) _ _, foldl_same State.shelves _ (by intros; simp) _ _, foldl_same State.judged _ (by intros; simp) _ _, foldl_same State.queue _ (by intros; simp) _ _, foldl_same State.evaluating _ (by intros; simp) _ _, foldl_same State.powerOns _ (by intros; simp) _ _, foldl_same State.pending _ (by intros; simp) _ _⟩

@[simp] theorem State.wakeCand_keeps (s : State) (k : Fin 256) :
    (s.wakeCand k).run = s.run ∧ (s.wakeCand k).engine = s.engine ∧ (s.wakeCand k).haltCause = s.haltCause ∧
    (s.wakeCand k).resetLow = s.resetLow ∧ (s.wakeCand k).bus = s.bus ∧ (s.wakeCand k).causes = s.causes ∧
    (s.wakeCand k).enables = s.enables ∧ (s.wakeCand k).shelfChg = s.shelfChg ∧ (s.wakeCand k).msclkH = s.msclkH ∧
    (s.wakeCand k).prescaler = s.prescaler ∧ (s.wakeCand k).clock = s.clock ∧ (s.wakeCand k).mem = s.mem ∧
    (s.wakeCand k).arbiter = s.arbiter ∧ (s.wakeCand k).intake = s.intake ∧ (s.wakeCand k).params = s.params ∧
    (s.wakeCand k).requests = s.requests ∧ (s.wakeCand k).shelves = s.shelves ∧ (s.wakeCand k).judged = s.judged ∧
    (s.wakeCand k).queue = s.queue ∧ (s.wakeCand k).evaluating = s.evaluating ∧ (s.wakeCand k).powerOns = s.powerOns ∧
    (s.wakeCand k).pending = s.pending := by
  unfold State.wakeCand; (try dsimp only); (repeat' split) <;> simp

@[simp] theorem State.candsUnknown_keeps (s : State) (i : Fin 32) :
    (s.candsUnknown i).run = s.run ∧ (s.candsUnknown i).engine = s.engine ∧ (s.candsUnknown i).haltCause = s.haltCause ∧
    (s.candsUnknown i).resetLow = s.resetLow ∧ (s.candsUnknown i).bus = s.bus ∧ (s.candsUnknown i).causes = s.causes ∧
    (s.candsUnknown i).enables = s.enables ∧ (s.candsUnknown i).shelfChg = s.shelfChg ∧
    (s.candsUnknown i).msclkH = s.msclkH ∧ (s.candsUnknown i).prescaler = s.prescaler ∧
    (s.candsUnknown i).clock = s.clock ∧ (s.candsUnknown i).mem = s.mem ∧ (s.candsUnknown i).arbiter = s.arbiter ∧
    (s.candsUnknown i).intake = s.intake ∧ (s.candsUnknown i).params = s.params ∧
    (s.candsUnknown i).requests = s.requests ∧ (s.candsUnknown i).shelves = s.shelves ∧
    (s.candsUnknown i).judged = s.judged ∧ (s.candsUnknown i).queue = s.queue ∧
    (s.candsUnknown i).evaluating = s.evaluating ∧ (s.candsUnknown i).powerOns = s.powerOns ∧
    (s.candsUnknown i).pending = s.pending := ⟨foldl_same State.run _ (by intros; simp) _ _, foldl_same State.engine _ (by intros; simp) _ _, foldl_same State.haltCause _ (by intros; simp) _ _, foldl_same State.resetLow _ (by intros; simp) _ _, foldl_same State.bus _ (by intros; simp) _ _, foldl_same State.causes _ (by intros; simp) _ _, foldl_same State.enables _ (by intros; simp) _ _, foldl_same State.shelfChg _ (by intros; simp) _ _, foldl_same State.msclkH _ (by intros; simp) _ _, foldl_same State.prescaler _ (by intros; simp) _ _, foldl_same State.clock _ (by intros; simp) _ _, foldl_same State.mem _ (by intros; simp) _ _, foldl_same State.arbiter _ (by intros; simp) _ _, foldl_same State.intake _ (by intros; simp) _ _, foldl_same State.params _ (by intros; simp) _ _, foldl_same State.requests _ (by intros; simp) _ _, foldl_same State.shelves _ (by intros; simp) _ _, foldl_same State.judged _ (by intros; simp) _ _, foldl_same State.queue _ (by intros; simp) _ _, foldl_same State.evaluating _ (by intros; simp) _ _, foldl_same State.powerOns _ (by intros; simp) _ _, foldl_same State.pending _ (by intros; simp) _ _⟩

@[simp] theorem State.rebase_keeps (s : State) :
    (s.rebase).run = s.run ∧ (s.rebase).engine = s.engine ∧ (s.rebase).haltCause = s.haltCause ∧
    (s.rebase).resetLow = s.resetLow ∧ (s.rebase).bus = s.bus ∧ (s.rebase).causes = s.causes ∧
    (s.rebase).enables = s.enables ∧ (s.rebase).shelfChg = s.shelfChg ∧ (s.rebase).msclkH = s.msclkH ∧
    (s.rebase).prescaler = s.prescaler ∧ (s.rebase).clock = s.clock ∧ (s.rebase).mem = s.mem ∧
    (s.rebase).arbiter = s.arbiter ∧ (s.rebase).intake = s.intake ∧ (s.rebase).params = s.params ∧
    (s.rebase).requests = s.requests ∧ (s.rebase).shelves = s.shelves ∧ (s.rebase).judged = s.judged ∧
    (s.rebase).queue = s.queue ∧ (s.rebase).evaluating = s.evaluating ∧ (s.rebase).writer = s.writer ∧
    (s.rebase).powerOns = s.powerOns ∧ (s.rebase).pending = s.pending := by
  simp [State.rebase]

@[simp] theorem State.askResults_keeps (s : State) (i : Fin 32) (slots : List (Fin 8)) (changed : Bool) :
    (s.askResults i slots changed).run = s.run ∧ (s.askResults i slots changed).engine = s.engine ∧
    (s.askResults i slots changed).haltCause = s.haltCause ∧ (s.askResults i slots changed).resetLow = s.resetLow ∧
    (s.askResults i slots changed).bus = s.bus ∧ (s.askResults i slots changed).causes = s.causes ∧
    (s.askResults i slots changed).enables = s.enables ∧ (s.askResults i slots changed).shelfChg = s.shelfChg ∧
    (s.askResults i slots changed).msclkH = s.msclkH ∧ (s.askResults i slots changed).prescaler = s.prescaler ∧
    (s.askResults i slots changed).clock = s.clock ∧ (s.askResults i slots changed).mem = s.mem ∧
    (s.askResults i slots changed).arbiter = s.arbiter ∧ (s.askResults i slots changed).intake = s.intake ∧
    (s.askResults i slots changed).cands = s.cands ∧ (s.askResults i slots changed).params = s.params ∧
    (s.askResults i slots changed).requests = s.requests ∧ (s.askResults i slots changed).shelves = s.shelves ∧
    (s.askResults i slots changed).judged = s.judged ∧ (s.askResults i slots changed).queue = s.queue ∧
    (s.askResults i slots changed).evaluating = s.evaluating ∧ (s.askResults i slots changed).powerOns = s.powerOns ∧
    (s.askResults i slots changed).pending = s.pending := by
  unfold State.askResults; (try dsimp only); (repeat' split) <;> simp

@[simp] theorem State.endEvaluation_keeps (s : State) (e : EvalInputs) :
    (s.endEvaluation e).run = s.run ∧ (s.endEvaluation e).engine = s.engine ∧
    (s.endEvaluation e).haltCause = s.haltCause ∧ (s.endEvaluation e).resetLow = s.resetLow ∧
    (s.endEvaluation e).bus = s.bus ∧ (s.endEvaluation e).causes = s.causes ∧ (s.endEvaluation e).enables = s.enables ∧
    (s.endEvaluation e).shelfChg = s.shelfChg ∧ (s.endEvaluation e).msclkH = s.msclkH ∧
    (s.endEvaluation e).prescaler = s.prescaler ∧ (s.endEvaluation e).clock = s.clock ∧ (s.endEvaluation e).mem = s.mem ∧
    (s.endEvaluation e).arbiter = s.arbiter ∧ (s.endEvaluation e).intake = s.intake ∧
    (s.endEvaluation e).cands = s.cands ∧ (s.endEvaluation e).params = s.params ∧
    (s.endEvaluation e).requests = s.requests ∧
    (s.endEvaluation e).powerOns = s.powerOns ∧ (s.endEvaluation e).pending = s.pending := by
  simp only [State.endEvaluation]; (repeat' split) <;> simp

@[simp] theorem State.sendClearWtr_keeps (s : State) (i : Fin 32) (slot : Option (Fin 8)) :
    (s.sendClearWtr i slot).run = s.run ∧ (s.sendClearWtr i slot).engine = s.engine ∧
    (s.sendClearWtr i slot).haltCause = s.haltCause ∧ (s.sendClearWtr i slot).resetLow = s.resetLow ∧
    (s.sendClearWtr i slot).bus = s.bus ∧ (s.sendClearWtr i slot).causes = s.causes ∧
    (s.sendClearWtr i slot).enables = s.enables ∧ (s.sendClearWtr i slot).shelfChg = s.shelfChg ∧
    (s.sendClearWtr i slot).msclkH = s.msclkH ∧ (s.sendClearWtr i slot).prescaler = s.prescaler ∧
    (s.sendClearWtr i slot).clock = s.clock ∧ (s.sendClearWtr i slot).mem = s.mem ∧
    (s.sendClearWtr i slot).arbiter = s.arbiter ∧ (s.sendClearWtr i slot).intake = s.intake ∧
    (s.sendClearWtr i slot).cands = s.cands ∧ (s.sendClearWtr i slot).params = s.params ∧
    (s.sendClearWtr i slot).shelves = s.shelves ∧ (s.sendClearWtr i slot).judged = s.judged ∧
    (s.sendClearWtr i slot).queue = s.queue ∧ (s.sendClearWtr i slot).evaluating = s.evaluating ∧
    (s.sendClearWtr i slot).writer = s.writer ∧ (s.sendClearWtr i slot).powerOns = s.powerOns ∧
    (s.sendClearWtr i slot).pending = s.pending := by
  cases slot <;> simp [State.sendClearWtr]

@[simp] theorem State.beginEvaluation_keeps (s : State) (i : Fin 32) :
    (s.beginEvaluation i).run = s.run ∧ (s.beginEvaluation i).engine = s.engine ∧
    (s.beginEvaluation i).haltCause = s.haltCause ∧ (s.beginEvaluation i).resetLow = s.resetLow ∧
    (s.beginEvaluation i).bus = s.bus ∧ (s.beginEvaluation i).causes = s.causes ∧
    (s.beginEvaluation i).enables = s.enables ∧ (s.beginEvaluation i).shelfChg = s.shelfChg ∧
    (s.beginEvaluation i).msclkH = s.msclkH ∧ (s.beginEvaluation i).prescaler = s.prescaler ∧
    (s.beginEvaluation i).clock = s.clock ∧ (s.beginEvaluation i).mem = s.mem ∧
    (s.beginEvaluation i).arbiter = s.arbiter ∧ (s.beginEvaluation i).intake = s.intake ∧
    (s.beginEvaluation i).cands = s.cands ∧ (s.beginEvaluation i).params = s.params ∧
    (s.beginEvaluation i).shelves = s.shelves ∧ (s.beginEvaluation i).judged = s.judged ∧
    (s.beginEvaluation i).queue = s.queue ∧ (s.beginEvaluation i).writer = s.writer ∧
    (s.beginEvaluation i).powerOns = s.powerOns ∧ (s.beginEvaluation i).pending = s.pending := by
  simp [State.beginEvaluation]

@[simp] theorem State.takeShelf_keeps (s : State) :
    (s.takeShelf).run = s.run ∧ (s.takeShelf).engine = s.engine ∧ (s.takeShelf).haltCause = s.haltCause ∧
    (s.takeShelf).resetLow = s.resetLow ∧ (s.takeShelf).bus = s.bus ∧ (s.takeShelf).causes = s.causes ∧
    (s.takeShelf).enables = s.enables ∧ (s.takeShelf).shelfChg = s.shelfChg ∧ (s.takeShelf).msclkH = s.msclkH ∧
    (s.takeShelf).prescaler = s.prescaler ∧ (s.takeShelf).clock = s.clock ∧ (s.takeShelf).mem = s.mem ∧
    (s.takeShelf).arbiter = s.arbiter ∧ (s.takeShelf).intake = s.intake ∧ (s.takeShelf).cands = s.cands ∧
    (s.takeShelf).params = s.params ∧ (s.takeShelf).shelves = s.shelves ∧
    (s.takeShelf).judged = s.judged ∧ (s.takeShelf).writer = s.writer ∧ (s.takeShelf).powerOns = s.powerOns ∧
    (s.takeShelf).pending = s.pending := by
  unfold State.takeShelf; (try dsimp only); (repeat' split) <;> simp

@[simp] theorem State.settle_keeps (s : State) (i : Fin 32) :
    (s.settle i).run = s.run ∧ (s.settle i).engine = s.engine ∧ (s.settle i).haltCause = s.haltCause ∧
    (s.settle i).resetLow = s.resetLow ∧ (s.settle i).bus = s.bus ∧ (s.settle i).causes = s.causes ∧
    (s.settle i).enables = s.enables ∧ (s.settle i).shelfChg = s.shelfChg ∧ (s.settle i).msclkH = s.msclkH ∧
    (s.settle i).prescaler = s.prescaler ∧ (s.settle i).clock = s.clock ∧ (s.settle i).mem = s.mem ∧
    (s.settle i).arbiter = s.arbiter ∧ (s.settle i).intake = s.intake ∧ (s.settle i).cands = s.cands ∧
    (s.settle i).params = s.params ∧ (s.settle i).requests = s.requests ∧ (s.settle i).powerOns = s.powerOns ∧ (s.settle i).pending = s.pending := by
  unfold State.settle; (try dsimp only); (repeat' split) <;> simp

@[simp] theorem State.dropTaken_keeps (s : State) (i : Fin 32) :
    (s.dropTaken i).run = s.run ∧ (s.dropTaken i).engine = s.engine ∧ (s.dropTaken i).haltCause = s.haltCause ∧
    (s.dropTaken i).resetLow = s.resetLow ∧ (s.dropTaken i).bus = s.bus ∧ (s.dropTaken i).causes = s.causes ∧
    (s.dropTaken i).enables = s.enables ∧ (s.dropTaken i).shelfChg = s.shelfChg ∧ (s.dropTaken i).msclkH = s.msclkH ∧
    (s.dropTaken i).prescaler = s.prescaler ∧ (s.dropTaken i).clock = s.clock ∧ (s.dropTaken i).mem = s.mem ∧
    (s.dropTaken i).arbiter = s.arbiter ∧ (s.dropTaken i).intake = s.intake ∧ (s.dropTaken i).cands = s.cands ∧
    (s.dropTaken i).params = s.params ∧ (s.dropTaken i).requests = s.requests ∧ (s.dropTaken i).shelves = s.shelves ∧
    (s.dropTaken i).judged = s.judged ∧ (s.dropTaken i).queue = s.queue ∧ (s.dropTaken i).evaluating = s.evaluating ∧
    (s.dropTaken i).powerOns = s.powerOns ∧ (s.dropTaken i).pending = s.pending := by
  unfold State.dropTaken; (try dsimp only); (repeat' split) <;> simp

@[simp] theorem State.disableShelf_keeps (s : State) (i : Fin 32) :
    (s.disableShelf i).run = s.run ∧ (s.disableShelf i).engine = s.engine ∧ (s.disableShelf i).haltCause = s.haltCause ∧
    (s.disableShelf i).resetLow = s.resetLow ∧ (s.disableShelf i).bus = s.bus ∧ (s.disableShelf i).causes = s.causes ∧
    (s.disableShelf i).enables = s.enables ∧ (s.disableShelf i).shelfChg = s.shelfChg ∧
    (s.disableShelf i).msclkH = s.msclkH ∧ (s.disableShelf i).prescaler = s.prescaler ∧
    (s.disableShelf i).clock = s.clock ∧ (s.disableShelf i).mem = s.mem ∧ (s.disableShelf i).arbiter = s.arbiter ∧
    (s.disableShelf i).intake = s.intake ∧ (s.disableShelf i).params = s.params ∧
    (s.disableShelf i).requests = s.requests ∧ (s.disableShelf i).judged = s.judged ∧
    (s.disableShelf i).evaluating = s.evaluating ∧ (s.disableShelf i).powerOns = s.powerOns ∧
    (s.disableShelf i).pending = s.pending := by
  simp [State.disableShelf]

@[simp] theorem State.enableShelf_keeps (s : State) (i : Fin 32) :
    (s.enableShelf i).run = s.run ∧ (s.enableShelf i).engine = s.engine ∧ (s.enableShelf i).haltCause = s.haltCause ∧
    (s.enableShelf i).resetLow = s.resetLow ∧ (s.enableShelf i).bus = s.bus ∧ (s.enableShelf i).causes = s.causes ∧
    (s.enableShelf i).enables = s.enables ∧ (s.enableShelf i).shelfChg = s.shelfChg ∧
    (s.enableShelf i).msclkH = s.msclkH ∧ (s.enableShelf i).prescaler = s.prescaler ∧ (s.enableShelf i).clock = s.clock ∧
    (s.enableShelf i).mem = s.mem ∧ (s.enableShelf i).arbiter = s.arbiter ∧ (s.enableShelf i).intake = s.intake ∧
    (s.enableShelf i).params = s.params ∧ (s.enableShelf i).requests = s.requests ∧ (s.enableShelf i).judged = s.judged ∧
    (s.enableShelf i).evaluating = s.evaluating ∧ (s.enableShelf i).powerOns = s.powerOns ∧
    (s.enableShelf i).pending = s.pending := by
  simp [State.enableShelf]


@[simp] theorem State.reparamCand_keeps (old new : MonitorParams) (s : State) (k : Fin 256) :
    (State.reparamCand old new s k).run = s.run ∧ (State.reparamCand old new s k).engine = s.engine ∧
    (State.reparamCand old new s k).haltCause = s.haltCause ∧ (State.reparamCand old new s k).resetLow = s.resetLow ∧
    (State.reparamCand old new s k).bus = s.bus ∧ (State.reparamCand old new s k).causes = s.causes ∧
    (State.reparamCand old new s k).enables = s.enables ∧ (State.reparamCand old new s k).shelfChg = s.shelfChg ∧
    (State.reparamCand old new s k).msclkH = s.msclkH ∧ (State.reparamCand old new s k).prescaler = s.prescaler ∧
    (State.reparamCand old new s k).clock = s.clock ∧ (State.reparamCand old new s k).mem = s.mem ∧
    (State.reparamCand old new s k).arbiter = s.arbiter ∧ (State.reparamCand old new s k).intake = s.intake ∧
    (State.reparamCand old new s k).params = s.params ∧ (State.reparamCand old new s k).requests = s.requests ∧
    (State.reparamCand old new s k).shelves = s.shelves ∧ (State.reparamCand old new s k).judged = s.judged ∧
    (State.reparamCand old new s k).evaluating = s.evaluating ∧ (State.reparamCand old new s k).powerOns = s.powerOns ∧
    (State.reparamCand old new s k).pending = s.pending := by
  unfold State.reparamCand; dsimp only; (repeat' split) <;> simp

@[simp] theorem State.setMonitoring_keeps (s : State) (i : Fin 32) (p : MonitorParams) :
    (s.setMonitoring i p).run = s.run ∧ (s.setMonitoring i p).engine = s.engine ∧
    (s.setMonitoring i p).haltCause = s.haltCause ∧ (s.setMonitoring i p).resetLow = s.resetLow ∧
    (s.setMonitoring i p).bus = s.bus ∧ (s.setMonitoring i p).causes = s.causes ∧
    (s.setMonitoring i p).enables = s.enables ∧ (s.setMonitoring i p).shelfChg = s.shelfChg ∧
    (s.setMonitoring i p).msclkH = s.msclkH ∧ (s.setMonitoring i p).prescaler = s.prescaler ∧
    (s.setMonitoring i p).clock = s.clock ∧ (s.setMonitoring i p).mem = s.mem ∧
    (s.setMonitoring i p).arbiter = s.arbiter ∧ (s.setMonitoring i p).intake = s.intake ∧
    (s.setMonitoring i p).requests = s.requests ∧ (s.setMonitoring i p).shelves = s.shelves ∧
    (s.setMonitoring i p).judged = s.judged ∧ (s.setMonitoring i p).evaluating = s.evaluating ∧
    (s.setMonitoring i p).powerOns = s.powerOns ∧ (s.setMonitoring i p).pending = s.pending := ⟨foldl_same State.run _ (by intros; simp) _ _, foldl_same State.engine _ (by intros; simp) _ _, foldl_same State.haltCause _ (by intros; simp) _ _, foldl_same State.resetLow _ (by intros; simp) _ _, foldl_same State.bus _ (by intros; simp) _ _, foldl_same State.causes _ (by intros; simp) _ _, foldl_same State.enables _ (by intros; simp) _ _, foldl_same State.shelfChg _ (by intros; simp) _ _, foldl_same State.msclkH _ (by intros; simp) _ _, foldl_same State.prescaler _ (by intros; simp) _ _, foldl_same State.clock _ (by intros; simp) _ _, foldl_same State.mem _ (by intros; simp) _ _, foldl_same State.arbiter _ (by intros; simp) _ _, foldl_same State.intake _ (by intros; simp) _ _, foldl_same State.requests _ (by intros; simp) _ _, foldl_same State.shelves _ (by intros; simp) _ _, foldl_same State.judged _ (by intros; simp) _ _, foldl_same State.evaluating _ (by intros; simp) _ _, foldl_same State.powerOns _ (by intros; simp) _ _, foldl_same State.pending _ (by intros; simp) _ _⟩

@[simp] theorem State.shelfConfigured_keeps (s : State) (i : Fin 32) (cfg : ShelfConfig) (out : CfgOutcome) (seq : Word) :
    (s.shelfConfigured i cfg out seq).run = s.run ∧ (s.shelfConfigured i cfg out seq).engine = s.engine ∧
    (s.shelfConfigured i cfg out seq).haltCause = s.haltCause ∧ (s.shelfConfigured i cfg out seq).resetLow = s.resetLow ∧
    (s.shelfConfigured i cfg out seq).bus = s.bus ∧ (s.shelfConfigured i cfg out seq).causes = s.causes ∧
    (s.shelfConfigured i cfg out seq).enables = s.enables ∧ (s.shelfConfigured i cfg out seq).shelfChg = s.shelfChg ∧
    (s.shelfConfigured i cfg out seq).msclkH = s.msclkH ∧ (s.shelfConfigured i cfg out seq).prescaler = s.prescaler ∧
    (s.shelfConfigured i cfg out seq).clock = s.clock ∧ (s.shelfConfigured i cfg out seq).mem = s.mem ∧
    (s.shelfConfigured i cfg out seq).arbiter = s.arbiter ∧ (s.shelfConfigured i cfg out seq).intake = s.intake ∧
    (s.shelfConfigured i cfg out seq).powerOns = s.powerOns ∧ (s.shelfConfigured i cfg out seq).pending = s.pending := by
  unfold State.shelfConfigured; (try dsimp only); (repeat' split) <;> simp

@[simp] theorem State.shelfRefused_keeps (s : State) (i : Fin 32) (cause : RejectCause) (seq : Word) :
    (s.shelfRefused i cause seq).run = s.run ∧ (s.shelfRefused i cause seq).engine = s.engine ∧
    (s.shelfRefused i cause seq).haltCause = s.haltCause ∧ (s.shelfRefused i cause seq).resetLow = s.resetLow ∧
    (s.shelfRefused i cause seq).bus = s.bus ∧ (s.shelfRefused i cause seq).causes = s.causes ∧
    (s.shelfRefused i cause seq).enables = s.enables ∧ (s.shelfRefused i cause seq).shelfChg = s.shelfChg ∧
    (s.shelfRefused i cause seq).msclkH = s.msclkH ∧ (s.shelfRefused i cause seq).prescaler = s.prescaler ∧
    (s.shelfRefused i cause seq).clock = s.clock ∧ (s.shelfRefused i cause seq).mem = s.mem ∧
    (s.shelfRefused i cause seq).arbiter = s.arbiter ∧ (s.shelfRefused i cause seq).intake = s.intake ∧
    (s.shelfRefused i cause seq).cands = s.cands ∧ (s.shelfRefused i cause seq).params = s.params ∧
    (s.shelfRefused i cause seq).powerOns = s.powerOns ∧ (s.shelfRefused i cause seq).pending = s.pending := by
  simp [State.shelfRefused]

@[simp] theorem State.lockShelf_keeps (s : State) (i : Fin 32) :
    (s.lockShelf i).run = s.run ∧ (s.lockShelf i).engine = s.engine ∧ (s.lockShelf i).haltCause = s.haltCause ∧
    (s.lockShelf i).resetLow = s.resetLow ∧ (s.lockShelf i).bus = s.bus ∧ (s.lockShelf i).causes = s.causes ∧
    (s.lockShelf i).enables = s.enables ∧ (s.lockShelf i).shelfChg = s.shelfChg ∧ (s.lockShelf i).msclkH = s.msclkH ∧
    (s.lockShelf i).prescaler = s.prescaler ∧ (s.lockShelf i).clock = s.clock ∧ (s.lockShelf i).mem = s.mem ∧
    (s.lockShelf i).arbiter = s.arbiter ∧ (s.lockShelf i).intake = s.intake ∧ (s.lockShelf i).cands = s.cands ∧
    (s.lockShelf i).params = s.params ∧ (s.lockShelf i).requests = s.requests ∧ (s.lockShelf i).judged = s.judged ∧
    (s.lockShelf i).queue = s.queue ∧ (s.lockShelf i).evaluating = s.evaluating ∧ (s.lockShelf i).powerOns = s.powerOns ∧
    (s.lockShelf i).pending = s.pending := by
  simp [State.lockShelf]

@[simp] theorem State.loseLock_keeps (s : State) (i : Fin 32) :
    (s.loseLock i).run = s.run ∧ (s.loseLock i).engine = s.engine ∧ (s.loseLock i).haltCause = s.haltCause ∧
    (s.loseLock i).resetLow = s.resetLow ∧ (s.loseLock i).bus = s.bus ∧ (s.loseLock i).causes = s.causes ∧
    (s.loseLock i).enables = s.enables ∧ (s.loseLock i).shelfChg = s.shelfChg ∧ (s.loseLock i).msclkH = s.msclkH ∧
    (s.loseLock i).prescaler = s.prescaler ∧ (s.loseLock i).clock = s.clock ∧ (s.loseLock i).mem = s.mem ∧
    (s.loseLock i).arbiter = s.arbiter ∧ (s.loseLock i).intake = s.intake ∧ (s.loseLock i).cands = s.cands ∧
    (s.loseLock i).params = s.params ∧ (s.loseLock i).judged = s.judged ∧ (s.loseLock i).queue = s.queue ∧
    (s.loseLock i).evaluating = s.evaluating ∧ (s.loseLock i).powerOns = s.powerOns ∧ (s.loseLock i).pending = s.pending := by
  simp only [State.loseLock]; (repeat' split) <;> simp

@[simp] theorem State.reported_keeps (s : State) (i : Fin 32) (r : Report) :
    (s.reported i r).run = s.run ∧ (s.reported i r).engine = s.engine ∧ (s.reported i r).haltCause = s.haltCause ∧
    (s.reported i r).resetLow = s.resetLow ∧ (s.reported i r).bus = s.bus ∧ (s.reported i r).causes = s.causes ∧
    (s.reported i r).enables = s.enables ∧ (s.reported i r).shelfChg = s.shelfChg ∧ (s.reported i r).msclkH = s.msclkH ∧
    (s.reported i r).prescaler = s.prescaler ∧ (s.reported i r).clock = s.clock ∧ (s.reported i r).mem = s.mem ∧
    (s.reported i r).arbiter = s.arbiter ∧ (s.reported i r).intake = s.intake ∧ (s.reported i r).cands = s.cands ∧
    (s.reported i r).params = s.params ∧ (s.reported i r).powerOns = s.powerOns ∧ (s.reported i r).pending = s.pending := by
  simp only [State.reported]; (repeat' split) <;> simp

@[simp] theorem State.acquisitionFails_keeps (s : State) (i : Fin 32) :
    (s.acquisitionFails i).run = s.run ∧ (s.acquisitionFails i).engine = s.engine ∧
    (s.acquisitionFails i).haltCause = s.haltCause ∧ (s.acquisitionFails i).resetLow = s.resetLow ∧
    (s.acquisitionFails i).bus = s.bus ∧ (s.acquisitionFails i).causes = s.causes ∧
    (s.acquisitionFails i).enables = s.enables ∧ (s.acquisitionFails i).shelfChg = s.shelfChg ∧
    (s.acquisitionFails i).msclkH = s.msclkH ∧ (s.acquisitionFails i).prescaler = s.prescaler ∧
    (s.acquisitionFails i).clock = s.clock ∧ (s.acquisitionFails i).mem = s.mem ∧
    (s.acquisitionFails i).arbiter = s.arbiter ∧ (s.acquisitionFails i).intake = s.intake ∧
    (s.acquisitionFails i).cands = s.cands ∧ (s.acquisitionFails i).params = s.params ∧
    (s.acquisitionFails i).judged = s.judged ∧ (s.acquisitionFails i).evaluating = s.evaluating ∧
    (s.acquisitionFails i).powerOns = s.powerOns ∧ (s.acquisitionFails i).pending = s.pending := by
  simp only [State.acquisitionFails]; (repeat' split) <;> simp

@[simp] theorem State.learned_keeps (s : State) (i : Fin 32) :
    (s.learned i).run = s.run ∧ (s.learned i).engine = s.engine ∧ (s.learned i).haltCause = s.haltCause ∧
    (s.learned i).resetLow = s.resetLow ∧ (s.learned i).bus = s.bus ∧ (s.learned i).causes = s.causes ∧
    (s.learned i).enables = s.enables ∧ (s.learned i).shelfChg = s.shelfChg ∧ (s.learned i).msclkH = s.msclkH ∧
    (s.learned i).prescaler = s.prescaler ∧ (s.learned i).clock = s.clock ∧ (s.learned i).mem = s.mem ∧
    (s.learned i).arbiter = s.arbiter ∧ (s.learned i).intake = s.intake ∧ (s.learned i).cands = s.cands ∧
    (s.learned i).params = s.params ∧ (s.learned i).requests = s.requests ∧ (s.learned i).judged = s.judged ∧
    (s.learned i).evaluating = s.evaluating ∧ (s.learned i).writer = s.writer ∧ (s.learned i).powerOns = s.powerOns ∧
    (s.learned i).pending = s.pending := by
  simp [State.learned]

@[simp] theorem State.holdoverExpires_keeps (s : State) (i : Fin 32) :
    (s.holdoverExpires i).run = s.run ∧ (s.holdoverExpires i).engine = s.engine ∧
    (s.holdoverExpires i).haltCause = s.haltCause ∧ (s.holdoverExpires i).resetLow = s.resetLow ∧
    (s.holdoverExpires i).bus = s.bus ∧ (s.holdoverExpires i).causes = s.causes ∧
    (s.holdoverExpires i).enables = s.enables ∧ (s.holdoverExpires i).shelfChg = s.shelfChg ∧
    (s.holdoverExpires i).msclkH = s.msclkH ∧ (s.holdoverExpires i).prescaler = s.prescaler ∧
    (s.holdoverExpires i).clock = s.clock ∧ (s.holdoverExpires i).mem = s.mem ∧
    (s.holdoverExpires i).arbiter = s.arbiter ∧ (s.holdoverExpires i).intake = s.intake ∧
    (s.holdoverExpires i).cands = s.cands ∧ (s.holdoverExpires i).params = s.params ∧
    (s.holdoverExpires i).requests = s.requests ∧ (s.holdoverExpires i).judged = s.judged ∧
    (s.holdoverExpires i).evaluating = s.evaluating ∧ (s.holdoverExpires i).powerOns = s.powerOns ∧
    (s.holdoverExpires i).pending = s.pending := by
  simp [State.holdoverExpires]

@[simp] theorem State.outOfService_keeps (s : State) (i : Fin 32) :
    (s.outOfService i).run = s.run ∧ (s.outOfService i).engine = s.engine ∧ (s.outOfService i).haltCause = s.haltCause ∧
    (s.outOfService i).resetLow = s.resetLow ∧ (s.outOfService i).bus = s.bus ∧ (s.outOfService i).causes = s.causes ∧
    (s.outOfService i).enables = s.enables ∧ (s.outOfService i).shelfChg = s.shelfChg ∧
    (s.outOfService i).msclkH = s.msclkH ∧ (s.outOfService i).prescaler = s.prescaler ∧
    (s.outOfService i).clock = s.clock ∧ (s.outOfService i).mem = s.mem ∧ (s.outOfService i).arbiter = s.arbiter ∧
    (s.outOfService i).params = s.params ∧ (s.outOfService i).powerOns = s.powerOns ∧
    (s.outOfService i).pending = s.pending := by
  unfold State.outOfService; (try dsimp only); (repeat' split) <;> simp

@[simp] theorem State.applyGlobals_keeps (s : State) (g : Globals) :
    (s.applyGlobals g).run = s.run ∧ (s.applyGlobals g).engine = s.engine ∧ (s.applyGlobals g).haltCause = s.haltCause ∧
    (s.applyGlobals g).resetLow = s.resetLow ∧ (s.applyGlobals g).bus = s.bus ∧ (s.applyGlobals g).causes = s.causes ∧
    (s.applyGlobals g).enables = s.enables ∧ (s.applyGlobals g).shelfChg = s.shelfChg ∧
    (s.applyGlobals g).msclkH = s.msclkH ∧ (s.applyGlobals g).prescaler = s.prescaler ∧
    (s.applyGlobals g).clock = s.clock ∧ (s.applyGlobals g).mem = s.mem ∧ (s.applyGlobals g).arbiter = s.arbiter ∧
    (s.applyGlobals g).params = s.params ∧ (s.applyGlobals g).powerOns = s.powerOns ∧
    (s.applyGlobals g).pending = s.pending := ⟨foldl_same State.run _ (by intros; simp) _ _, foldl_same State.engine _ (by intros; simp) _ _, foldl_same State.haltCause _ (by intros; simp) _ _, foldl_same State.resetLow _ (by intros; simp) _ _, foldl_same State.bus _ (by intros; simp) _ _, foldl_same State.causes _ (by intros; simp) _ _, foldl_same State.enables _ (by intros; simp) _ _, foldl_same State.shelfChg _ (by intros; simp) _ _, foldl_same State.msclkH _ (by intros; simp) _ _, foldl_same State.prescaler _ (by intros; simp) _ _, foldl_same State.clock _ (by intros; simp) _ _, foldl_same State.mem _ (by intros; simp) _ _, foldl_same State.arbiter _ (by intros; simp) _ _, foldl_same State.params _ (by intros; simp) _ _, foldl_same State.powerOns _ (by intros; simp) _ _, foldl_same State.pending _ (by intros; simp) _ _⟩

@[simp] theorem State.globalOutcome_keeps (s : State) (o : GlobalOutcome) (seq : Word) :
    (s.globalOutcome o seq).run = s.run ∧ (s.globalOutcome o seq).engine = s.engine ∧
    (s.globalOutcome o seq).haltCause = s.haltCause ∧ (s.globalOutcome o seq).resetLow = s.resetLow ∧
    (s.globalOutcome o seq).bus = s.bus ∧ (s.globalOutcome o seq).causes = s.causes ∧
    (s.globalOutcome o seq).enables = s.enables ∧ (s.globalOutcome o seq).shelfChg = s.shelfChg ∧
    (s.globalOutcome o seq).msclkH = s.msclkH ∧ (s.globalOutcome o seq).prescaler = s.prescaler ∧
    (s.globalOutcome o seq).clock = s.clock ∧ (s.globalOutcome o seq).mem = s.mem ∧
    (s.globalOutcome o seq).arbiter = s.arbiter ∧ (s.globalOutcome o seq).intake = s.intake ∧
    (s.globalOutcome o seq).cands = s.cands ∧ (s.globalOutcome o seq).params = s.params ∧
    (s.globalOutcome o seq).requests = s.requests ∧ (s.globalOutcome o seq).shelves = s.shelves ∧
    (s.globalOutcome o seq).judged = s.judged ∧ (s.globalOutcome o seq).queue = s.queue ∧
    (s.globalOutcome o seq).evaluating = s.evaluating ∧ (s.globalOutcome o seq).powerOns = s.powerOns ∧
    (s.globalOutcome o seq).pending = s.pending := by
  simp [State.globalOutcome]

@[simp] theorem State.applyPending_keeps (s : State) :
    (s.applyPending).run = s.run ∧ (s.applyPending).engine = s.engine ∧ (s.applyPending).haltCause = s.haltCause ∧
    (s.applyPending).resetLow = s.resetLow ∧ (s.applyPending).bus = s.bus ∧ (s.applyPending).causes = s.causes ∧
    (s.applyPending).enables = s.enables ∧ (s.applyPending).shelfChg = s.shelfChg ∧ (s.applyPending).msclkH = s.msclkH ∧
    (s.applyPending).prescaler = s.prescaler ∧ (s.applyPending).clock = s.clock ∧ (s.applyPending).mem = s.mem ∧
    (s.applyPending).arbiter = s.arbiter ∧ (s.applyPending).params = s.params ∧ (s.applyPending).powerOns = s.powerOns ∧
    (s.applyPending).pending = s.pending := by
  unfold State.applyPending; (try dsimp only); (repeat' split) <;> simp

@[simp] theorem State.startSweep_keeps (s : State) :
    (s.startSweep).run = s.run ∧ (s.startSweep).engine = s.engine ∧ (s.startSweep).haltCause = s.haltCause ∧
    (s.startSweep).resetLow = s.resetLow ∧ (s.startSweep).bus = s.bus ∧ (s.startSweep).causes = s.causes ∧
    (s.startSweep).enables = s.enables ∧ (s.startSweep).shelfChg = s.shelfChg ∧ (s.startSweep).msclkH = s.msclkH ∧
    (s.startSweep).prescaler = s.prescaler ∧ (s.startSweep).clock = s.clock ∧ (s.startSweep).mem = s.mem ∧
    (s.startSweep).arbiter = s.arbiter ∧ (s.startSweep).params = s.params ∧ (s.startSweep).powerOns = s.powerOns ∧
    (s.startSweep).pending = s.pending := by
  simp [State.startSweep]

@[simp] theorem State.furtherSweep_keeps (s : State) :
    (s.furtherSweep).run = s.run ∧ (s.furtherSweep).engine = s.engine ∧ (s.furtherSweep).haltCause = s.haltCause ∧
    (s.furtherSweep).resetLow = s.resetLow ∧ (s.furtherSweep).bus = s.bus ∧ (s.furtherSweep).causes = s.causes ∧
    (s.furtherSweep).enables = s.enables ∧ (s.furtherSweep).shelfChg = s.shelfChg ∧ (s.furtherSweep).msclkH = s.msclkH ∧
    (s.furtherSweep).prescaler = s.prescaler ∧ (s.furtherSweep).clock = s.clock ∧ (s.furtherSweep).mem = s.mem ∧
    (s.furtherSweep).arbiter = s.arbiter ∧ (s.furtherSweep).params = s.params ∧ (s.furtherSweep).powerOns = s.powerOns ∧
    (s.furtherSweep).pending = s.pending := by
  unfold State.furtherSweep; (try dsimp only); (repeat' split) <;> simp

@[simp] theorem State.sweepRequest_keeps (s : State) :
    (s.sweepRequest).run = s.run ∧ (s.sweepRequest).engine = s.engine ∧ (s.sweepRequest).haltCause = s.haltCause ∧
    (s.sweepRequest).resetLow = s.resetLow ∧ (s.sweepRequest).bus = s.bus ∧ (s.sweepRequest).causes = s.causes ∧
    (s.sweepRequest).enables = s.enables ∧ (s.sweepRequest).shelfChg = s.shelfChg ∧ (s.sweepRequest).msclkH = s.msclkH ∧
    (s.sweepRequest).prescaler = s.prescaler ∧ (s.sweepRequest).clock = s.clock ∧ (s.sweepRequest).mem = s.mem ∧
    (s.sweepRequest).arbiter = s.arbiter ∧ (s.sweepRequest).params = s.params ∧ (s.sweepRequest).powerOns = s.powerOns ∧
    (s.sweepRequest).pending = s.pending := by
  unfold State.sweepRequest; (try dsimp only); (repeat' split) <;> simp

@[simp] theorem State.publishAll_keeps (s : State) :
    (s.publishAll).run = s.run ∧ (s.publishAll).haltCause = s.haltCause ∧ (s.publishAll).resetLow = s.resetLow ∧
    (s.publishAll).bus = s.bus ∧ (s.publishAll).causes = s.causes ∧ (s.publishAll).enables = s.enables ∧
    (s.publishAll).shelfChg = s.shelfChg ∧ (s.publishAll).msclkH = s.msclkH ∧ (s.publishAll).prescaler = s.prescaler ∧
    (s.publishAll).clock = s.clock ∧ (s.publishAll).mem = s.mem ∧ (s.publishAll).arbiter = s.arbiter ∧
    (s.publishAll).intake = s.intake ∧ (s.publishAll).cands = s.cands ∧ (s.publishAll).params = s.params ∧
    (s.publishAll).requests = s.requests ∧ (s.publishAll).shelves = s.shelves ∧ (s.publishAll).judged = s.judged ∧
    (s.publishAll).queue = s.queue ∧ (s.publishAll).evaluating = s.evaluating ∧ (s.publishAll).powerOns = s.powerOns ∧
    (s.publishAll).pending = s.pending := by
  simp [State.publishAll]

@[simp] theorem State.sweepEnds_keeps (s : State) :
    (s.sweepEnds).run = s.run ∧ (s.sweepEnds).haltCause = s.haltCause ∧ (s.sweepEnds).resetLow = s.resetLow ∧
    (s.sweepEnds).bus = s.bus ∧ (s.sweepEnds).causes = s.causes ∧ (s.sweepEnds).enables = s.enables ∧
    (s.sweepEnds).shelfChg = s.shelfChg ∧ (s.sweepEnds).msclkH = s.msclkH ∧ (s.sweepEnds).prescaler = s.prescaler ∧
    (s.sweepEnds).clock = s.clock ∧ (s.sweepEnds).mem = s.mem ∧ (s.sweepEnds).arbiter = s.arbiter ∧
    (s.sweepEnds).params = s.params ∧ (s.sweepEnds).powerOns = s.powerOns ∧ (s.sweepEnds).pending = s.pending := by
  unfold State.sweepEnds; (try dsimp only); (repeat' split) <;> simp

@[simp] theorem State.sweepStopped_keeps (s : State) :
    (s.sweepStopped).run = s.run ∧ (s.sweepStopped).engine = s.engine ∧ (s.sweepStopped).haltCause = s.haltCause ∧
    (s.sweepStopped).resetLow = s.resetLow ∧ (s.sweepStopped).bus = s.bus ∧ (s.sweepStopped).causes = s.causes ∧
    (s.sweepStopped).enables = s.enables ∧ (s.sweepStopped).shelfChg = s.shelfChg ∧ (s.sweepStopped).msclkH = s.msclkH ∧
    (s.sweepStopped).prescaler = s.prescaler ∧ (s.sweepStopped).clock = s.clock ∧ (s.sweepStopped).mem = s.mem ∧
    (s.sweepStopped).arbiter = s.arbiter ∧ (s.sweepStopped).cands = s.cands ∧ (s.sweepStopped).params = s.params ∧
    (s.sweepStopped).requests = s.requests ∧ (s.sweepStopped).shelves = s.shelves ∧ (s.sweepStopped).judged = s.judged ∧
    (s.sweepStopped).queue = s.queue ∧ (s.sweepStopped).evaluating = s.evaluating ∧ (s.sweepStopped).writer = s.writer ∧
    (s.sweepStopped).powerOns = s.powerOns ∧ (s.sweepStopped).pending = s.pending := by
  unfold State.sweepStopped; (try dsimp only); (repeat' split) <;> simp

@[simp] theorem State.advanceSweep_keeps (s : State) :
    (s.advanceSweep).run = s.run ∧ (s.advanceSweep).haltCause = s.haltCause ∧ (s.advanceSweep).resetLow = s.resetLow ∧
    (s.advanceSweep).bus = s.bus ∧ (s.advanceSweep).causes = s.causes ∧ (s.advanceSweep).enables = s.enables ∧
    (s.advanceSweep).shelfChg = s.shelfChg ∧ (s.advanceSweep).msclkH = s.msclkH ∧
    (s.advanceSweep).prescaler = s.prescaler ∧ (s.advanceSweep).clock = s.clock ∧ (s.advanceSweep).mem = s.mem ∧
    (s.advanceSweep).arbiter = s.arbiter ∧ (s.advanceSweep).params = s.params ∧ (s.advanceSweep).powerOns = s.powerOns ∧
    (s.advanceSweep).pending = s.pending := by
  simp only [State.advanceSweep]; (repeat' split) <;> simp

@[simp] theorem State.takeGlobal_keeps (s : State) :
    (s.takeGlobal).run = s.run ∧ (s.takeGlobal).engine = s.engine ∧ (s.takeGlobal).haltCause = s.haltCause ∧
    (s.takeGlobal).resetLow = s.resetLow ∧ (s.takeGlobal).bus = s.bus ∧ (s.takeGlobal).enables = s.enables ∧
    (s.takeGlobal).shelfChg = s.shelfChg ∧ (s.takeGlobal).msclkH = s.msclkH ∧ (s.takeGlobal).prescaler = s.prescaler ∧
    (s.takeGlobal).clock = s.clock ∧ (s.takeGlobal).mem = s.mem ∧ (s.takeGlobal).arbiter = s.arbiter ∧
    (s.takeGlobal).cands = s.cands ∧ (s.takeGlobal).params = s.params ∧ (s.takeGlobal).requests = s.requests ∧
    (s.takeGlobal).shelves = s.shelves ∧ (s.takeGlobal).judged = s.judged ∧ (s.takeGlobal).queue = s.queue ∧
    (s.takeGlobal).evaluating = s.evaluating ∧ (s.takeGlobal).powerOns = s.powerOns ∧ (s.takeGlobal).pending = s.pending := by
  unfold State.takeGlobal; (try dsimp only); (repeat' split) <;> simp

@[simp] theorem State.takeSlot_keeps (s : State) (i : Fin 32) :
    (s.takeSlot i).run = s.run ∧ (s.takeSlot i).engine = s.engine ∧ (s.takeSlot i).haltCause = s.haltCause ∧
    (s.takeSlot i).resetLow = s.resetLow ∧ (s.takeSlot i).bus = s.bus ∧ (s.takeSlot i).causes = s.causes ∧
    (s.takeSlot i).enables = s.enables ∧ (s.takeSlot i).shelfChg = s.shelfChg ∧ (s.takeSlot i).msclkH = s.msclkH ∧
    (s.takeSlot i).prescaler = s.prescaler ∧ (s.takeSlot i).clock = s.clock ∧ (s.takeSlot i).arbiter = s.arbiter ∧
    (s.takeSlot i).intake = s.intake ∧ (s.takeSlot i).cands = s.cands ∧ (s.takeSlot i).params = s.params ∧
    (s.takeSlot i).requests = s.requests ∧ (s.takeSlot i).judged = s.judged ∧ (s.takeSlot i).evaluating = s.evaluating ∧
    (s.takeSlot i).writer = s.writer ∧ (s.takeSlot i).powerOns = s.powerOns ∧ (s.takeSlot i).pending = s.pending := by
  unfold State.takeSlot; (try dsimp only); (repeat' split) <;> simp

@[simp] theorem State.takeShelfConfig_keeps (s : State) (i : Fin 32) :
    (s.takeShelfConfig i).run = s.run ∧ (s.takeShelfConfig i).engine = s.engine ∧
    (s.takeShelfConfig i).haltCause = s.haltCause ∧ (s.takeShelfConfig i).resetLow = s.resetLow ∧
    (s.takeShelfConfig i).bus = s.bus ∧ (s.takeShelfConfig i).enables = s.enables ∧
    (s.takeShelfConfig i).shelfChg = s.shelfChg ∧ (s.takeShelfConfig i).msclkH = s.msclkH ∧
    (s.takeShelfConfig i).prescaler = s.prescaler ∧ (s.takeShelfConfig i).clock = s.clock ∧
    (s.takeShelfConfig i).mem = s.mem ∧ (s.takeShelfConfig i).arbiter = s.arbiter ∧
    (s.takeShelfConfig i).powerOns = s.powerOns ∧ (s.takeShelfConfig i).pending = s.pending := by
  unfold State.takeShelfConfig; (try dsimp only); (repeat' split) <;> simp

@[simp] theorem State.takeCandConfig_keeps (s : State) (k : Fin 256) :
    (s.takeCandConfig k).run = s.run ∧ (s.takeCandConfig k).engine = s.engine ∧
    (s.takeCandConfig k).haltCause = s.haltCause ∧ (s.takeCandConfig k).resetLow = s.resetLow ∧
    (s.takeCandConfig k).bus = s.bus ∧ (s.takeCandConfig k).enables = s.enables ∧
    (s.takeCandConfig k).shelfChg = s.shelfChg ∧ (s.takeCandConfig k).msclkH = s.msclkH ∧
    (s.takeCandConfig k).prescaler = s.prescaler ∧ (s.takeCandConfig k).clock = s.clock ∧
    (s.takeCandConfig k).mem = s.mem ∧ (s.takeCandConfig k).arbiter = s.arbiter ∧
    (s.takeCandConfig k).params = s.params ∧ (s.takeCandConfig k).requests = s.requests ∧
    (s.takeCandConfig k).shelves = s.shelves ∧ (s.takeCandConfig k).judged = s.judged ∧
    (s.takeCandConfig k).evaluating = s.evaluating ∧ (s.takeCandConfig k).powerOns = s.powerOns ∧
    (s.takeCandConfig k).pending = s.pending := by
  unfold State.takeCandConfig; (try dsimp only); (repeat' split) <;> simp

@[simp] theorem State.takeReport_keeps (s : State) (i : Fin 32) :
    (s.takeReport i).run = s.run ∧ (s.takeReport i).engine = s.engine ∧ (s.takeReport i).haltCause = s.haltCause ∧
    (s.takeReport i).resetLow = s.resetLow ∧ (s.takeReport i).bus = s.bus ∧ (s.takeReport i).causes = s.causes ∧
    (s.takeReport i).enables = s.enables ∧ (s.takeReport i).shelfChg = s.shelfChg ∧ (s.takeReport i).msclkH = s.msclkH ∧
    (s.takeReport i).prescaler = s.prescaler ∧ (s.takeReport i).clock = s.clock ∧ (s.takeReport i).mem = s.mem ∧
    (s.takeReport i).arbiter = s.arbiter ∧ (s.takeReport i).cands = s.cands ∧ (s.takeReport i).params = s.params ∧
    (s.takeReport i).powerOns = s.powerOns ∧ (s.takeReport i).pending = s.pending := by
  unfold State.takeReport; (try dsimp only); (repeat' split) <;> simp

@[simp] theorem State.takeObs_keeps (s : State) (k : Fin 256) :
    (s.takeObs k).run = s.run ∧ (s.takeObs k).engine = s.engine ∧ (s.takeObs k).haltCause = s.haltCause ∧
    (s.takeObs k).resetLow = s.resetLow ∧ (s.takeObs k).bus = s.bus ∧ (s.takeObs k).causes = s.causes ∧
    (s.takeObs k).enables = s.enables ∧ (s.takeObs k).shelfChg = s.shelfChg ∧ (s.takeObs k).msclkH = s.msclkH ∧
    (s.takeObs k).prescaler = s.prescaler ∧ (s.takeObs k).clock = s.clock ∧ (s.takeObs k).mem = s.mem ∧
    (s.takeObs k).arbiter = s.arbiter ∧ (s.takeObs k).params = s.params ∧ (s.takeObs k).requests = s.requests ∧
    (s.takeObs k).shelves = s.shelves ∧ (s.takeObs k).judged = s.judged ∧ (s.takeObs k).evaluating = s.evaluating ∧
    (s.takeObs k).powerOns = s.powerOns ∧ (s.takeObs k).pending = s.pending := by
  unfold State.takeObs; (try dsimp only); (repeat' split) <;> simp

@[simp] theorem State.writeItem_keeps (s : State) (item : WriteItem) :
    (s.writeItem item).run = s.run ∧ (s.writeItem item).engine = s.engine ∧ (s.writeItem item).haltCause = s.haltCause ∧
    (s.writeItem item).resetLow = s.resetLow ∧ (s.writeItem item).bus = s.bus ∧ (s.writeItem item).causes = s.causes ∧
    (s.writeItem item).enables = s.enables ∧ (s.writeItem item).shelfChg = s.shelfChg ∧
    (s.writeItem item).msclkH = s.msclkH ∧ (s.writeItem item).prescaler = s.prescaler ∧
    (s.writeItem item).clock = s.clock ∧ (s.writeItem item).arbiter = s.arbiter ∧ (s.writeItem item).intake = s.intake ∧
    (s.writeItem item).cands = s.cands ∧ (s.writeItem item).params = s.params ∧
    (s.writeItem item).requests = s.requests ∧ (s.writeItem item).shelves = s.shelves ∧
    (s.writeItem item).judged = s.judged ∧ (s.writeItem item).queue = s.queue ∧
    (s.writeItem item).evaluating = s.evaluating ∧ (s.writeItem item).powerOns = s.powerOns ∧
    (s.writeItem item).pending = s.pending := by
  simp [State.writeItem]

@[simp] theorem State.shelfResultWritten_keeps (s : State) (i : Fin 32) :
    (s.shelfResultWritten i).run = s.run ∧ (s.shelfResultWritten i).engine = s.engine ∧
    (s.shelfResultWritten i).haltCause = s.haltCause ∧ (s.shelfResultWritten i).resetLow = s.resetLow ∧
    (s.shelfResultWritten i).bus = s.bus ∧ (s.shelfResultWritten i).enables = s.enables ∧
    (s.shelfResultWritten i).msclkH = s.msclkH ∧ (s.shelfResultWritten i).prescaler = s.prescaler ∧
    (s.shelfResultWritten i).clock = s.clock ∧ (s.shelfResultWritten i).arbiter = s.arbiter ∧
    (s.shelfResultWritten i).intake = s.intake ∧ (s.shelfResultWritten i).cands = s.cands ∧
    (s.shelfResultWritten i).params = s.params ∧ (s.shelfResultWritten i).requests = s.requests ∧
    (s.shelfResultWritten i).shelves = s.shelves ∧ (s.shelfResultWritten i).judged = s.judged ∧
    (s.shelfResultWritten i).queue = s.queue ∧ (s.shelfResultWritten i).evaluating = s.evaluating ∧
    (s.shelfResultWritten i).powerOns = s.powerOns ∧ (s.shelfResultWritten i).pending = s.pending := by
  simp [State.shelfResultWritten]

@[simp] theorem State.candResultWritten_keeps (s : State) (k : Fin 256) :
    (s.candResultWritten k).run = s.run ∧ (s.candResultWritten k).engine = s.engine ∧
    (s.candResultWritten k).haltCause = s.haltCause ∧ (s.candResultWritten k).resetLow = s.resetLow ∧
    (s.candResultWritten k).bus = s.bus ∧ (s.candResultWritten k).causes = s.causes ∧
    (s.candResultWritten k).enables = s.enables ∧ (s.candResultWritten k).shelfChg = s.shelfChg ∧
    (s.candResultWritten k).msclkH = s.msclkH ∧ (s.candResultWritten k).prescaler = s.prescaler ∧
    (s.candResultWritten k).clock = s.clock ∧ (s.candResultWritten k).arbiter = s.arbiter ∧
    (s.candResultWritten k).intake = s.intake ∧ (s.candResultWritten k).cands = s.cands ∧
    (s.candResultWritten k).params = s.params ∧ (s.candResultWritten k).requests = s.requests ∧
    (s.candResultWritten k).shelves = s.shelves ∧ (s.candResultWritten k).judged = s.judged ∧
    (s.candResultWritten k).queue = s.queue ∧ (s.candResultWritten k).evaluating = s.evaluating ∧
    (s.candResultWritten k).powerOns = s.powerOns ∧ (s.candResultWritten k).pending = s.pending := by
  simp [State.candResultWritten]

@[simp] theorem State.logControlWritten_keeps (s : State) :
    (s.logControlWritten).run = s.run ∧ (s.logControlWritten).engine = s.engine ∧
    (s.logControlWritten).haltCause = s.haltCause ∧ (s.logControlWritten).resetLow = s.resetLow ∧
    (s.logControlWritten).bus = s.bus ∧ (s.logControlWritten).causes = s.causes ∧
    (s.logControlWritten).enables = s.enables ∧ (s.logControlWritten).shelfChg = s.shelfChg ∧
    (s.logControlWritten).msclkH = s.msclkH ∧ (s.logControlWritten).prescaler = s.prescaler ∧
    (s.logControlWritten).clock = s.clock ∧ (s.logControlWritten).arbiter = s.arbiter ∧
    (s.logControlWritten).intake = s.intake ∧ (s.logControlWritten).cands = s.cands ∧
    (s.logControlWritten).params = s.params ∧ (s.logControlWritten).requests = s.requests ∧
    (s.logControlWritten).shelves = s.shelves ∧ (s.logControlWritten).judged = s.judged ∧
    (s.logControlWritten).queue = s.queue ∧ (s.logControlWritten).evaluating = s.evaluating ∧
    (s.logControlWritten).powerOns = s.powerOns ∧ (s.logControlWritten).pending = s.pending := by
  simp [State.logControlWritten]

@[simp] theorem State.logEntryWritten_keeps (s : State) (e : LogEntry) :
    (s.logEntryWritten e).run = s.run ∧ (s.logEntryWritten e).engine = s.engine ∧
    (s.logEntryWritten e).haltCause = s.haltCause ∧ (s.logEntryWritten e).resetLow = s.resetLow ∧
    (s.logEntryWritten e).bus = s.bus ∧ (s.logEntryWritten e).enables = s.enables ∧
    (s.logEntryWritten e).shelfChg = s.shelfChg ∧ (s.logEntryWritten e).msclkH = s.msclkH ∧
    (s.logEntryWritten e).prescaler = s.prescaler ∧ (s.logEntryWritten e).clock = s.clock ∧
    (s.logEntryWritten e).arbiter = s.arbiter ∧ (s.logEntryWritten e).intake = s.intake ∧
    (s.logEntryWritten e).cands = s.cands ∧ (s.logEntryWritten e).params = s.params ∧
    (s.logEntryWritten e).requests = s.requests ∧ (s.logEntryWritten e).shelves = s.shelves ∧
    (s.logEntryWritten e).judged = s.judged ∧ (s.logEntryWritten e).queue = s.queue ∧
    (s.logEntryWritten e).evaluating = s.evaluating ∧ (s.logEntryWritten e).powerOns = s.powerOns ∧
    (s.logEntryWritten e).pending = s.pending := by
  simp [State.logEntryWritten]

@[simp] theorem State.completionMade_keeps (s : State) (i : Fin 32) (o : CmdOutcome) :
    (s.completionMade i o).run = s.run ∧ (s.completionMade i o).engine = s.engine ∧
    (s.completionMade i o).haltCause = s.haltCause ∧ (s.completionMade i o).resetLow = s.resetLow ∧
    (s.completionMade i o).bus = s.bus ∧ (s.completionMade i o).enables = s.enables ∧
    (s.completionMade i o).shelfChg = s.shelfChg ∧ (s.completionMade i o).msclkH = s.msclkH ∧
    (s.completionMade i o).prescaler = s.prescaler ∧ (s.completionMade i o).clock = s.clock ∧
    (s.completionMade i o).arbiter = s.arbiter ∧ (s.completionMade i o).intake = s.intake ∧
    (s.completionMade i o).cands = s.cands ∧ (s.completionMade i o).params = s.params ∧
    (s.completionMade i o).requests = s.requests ∧ (s.completionMade i o).shelves = s.shelves ∧
    (s.completionMade i o).judged = s.judged ∧ (s.completionMade i o).queue = s.queue ∧
    (s.completionMade i o).evaluating = s.evaluating ∧ (s.completionMade i o).powerOns = s.powerOns ∧
    (s.completionMade i o).pending = s.pending := by
  simp [State.completionMade]

@[simp] theorem State.slotExamined_keeps (s : State) (i : Fin 32) :
    (s.slotExamined i).run = s.run ∧ (s.slotExamined i).engine = s.engine ∧ (s.slotExamined i).haltCause = s.haltCause ∧
    (s.slotExamined i).resetLow = s.resetLow ∧ (s.slotExamined i).bus = s.bus ∧ (s.slotExamined i).enables = s.enables ∧
    (s.slotExamined i).shelfChg = s.shelfChg ∧ (s.slotExamined i).msclkH = s.msclkH ∧
    (s.slotExamined i).prescaler = s.prescaler ∧ (s.slotExamined i).clock = s.clock ∧
    (s.slotExamined i).arbiter = s.arbiter ∧ (s.slotExamined i).intake = s.intake ∧ (s.slotExamined i).cands = s.cands ∧
    (s.slotExamined i).params = s.params ∧ (s.slotExamined i).requests = s.requests ∧
    (s.slotExamined i).shelves = s.shelves ∧ (s.slotExamined i).judged = s.judged ∧ (s.slotExamined i).queue = s.queue ∧
    (s.slotExamined i).evaluating = s.evaluating ∧ (s.slotExamined i).writer = s.writer ∧
    (s.slotExamined i).powerOns = s.powerOns ∧ (s.slotExamined i).pending = s.pending := by
  unfold State.slotExamined; (try dsimp only); (repeat' split) <;> simp

@[simp] theorem State.enterHalted_keeps (s : State) :
    (s.enterHalted).run = s.run ∧ (s.enterHalted).haltCause = s.haltCause ∧ (s.enterHalted).resetLow = s.resetLow ∧
    (s.enterHalted).bus = s.bus ∧ (s.enterHalted).causes = s.causes ∧ (s.enterHalted).enables = s.enables ∧
    (s.enterHalted).shelfChg = s.shelfChg ∧ (s.enterHalted).msclkH = s.msclkH ∧ (s.enterHalted).prescaler = s.prescaler ∧
    (s.enterHalted).clock = s.clock ∧ (s.enterHalted).mem = s.mem ∧ (s.enterHalted).arbiter = s.arbiter ∧
    (s.enterHalted).cands = s.cands ∧ (s.enterHalted).params = s.params ∧ (s.enterHalted).requests = s.requests ∧
    (s.enterHalted).shelves = s.shelves ∧ (s.enterHalted).judged = s.judged ∧ (s.enterHalted).queue = s.queue ∧
    (s.enterHalted).evaluating = s.evaluating ∧ (s.enterHalted).writer = s.writer ∧
    (s.enterHalted).powerOns = s.powerOns ∧ (s.enterHalted).pending = s.pending := by
  simp [State.enterHalted]

@[simp] theorem State.enterStarting_keeps (s : State) :
    (s.enterStarting).run = s.run ∧ (s.enterStarting).resetLow = s.resetLow ∧ (s.enterStarting).bus = s.bus ∧
    (s.enterStarting).causes = s.causes ∧ (s.enterStarting).enables = s.enables ∧
    (s.enterStarting).shelfChg = s.shelfChg ∧ (s.enterStarting).msclkH = s.msclkH ∧
    (s.enterStarting).prescaler = s.prescaler ∧ (s.enterStarting).clock = s.clock ∧ (s.enterStarting).mem = s.mem ∧
    (s.enterStarting).arbiter = s.arbiter ∧ (s.enterStarting).cands = s.cands ∧ (s.enterStarting).params = s.params ∧
    (s.enterStarting).requests = s.requests ∧ (s.enterStarting).shelves = s.shelves ∧
    (s.enterStarting).judged = s.judged ∧ (s.enterStarting).queue = s.queue ∧
    (s.enterStarting).evaluating = s.evaluating ∧ (s.enterStarting).writer = s.writer ∧
    (s.enterStarting).powerOns = s.powerOns ∧ (s.enterStarting).pending = s.pending := by
  simp [State.enterStarting]

@[simp] theorem State.leaveStopping_keeps (s : State) :
    (s.leaveStopping).run = s.run ∧ (s.leaveStopping).resetLow = s.resetLow ∧ (s.leaveStopping).bus = s.bus ∧
    (s.leaveStopping).causes = s.causes ∧ (s.leaveStopping).enables = s.enables ∧
    (s.leaveStopping).shelfChg = s.shelfChg ∧ (s.leaveStopping).msclkH = s.msclkH ∧
    (s.leaveStopping).prescaler = s.prescaler ∧ (s.leaveStopping).clock = s.clock ∧ (s.leaveStopping).mem = s.mem ∧
    (s.leaveStopping).arbiter = s.arbiter ∧ (s.leaveStopping).params = s.params ∧
    (s.leaveStopping).shelves = s.shelves ∧ (s.leaveStopping).judged = s.judged ∧
    (s.leaveStopping).evaluating = s.evaluating ∧ (s.leaveStopping).powerOns = s.powerOns ∧
    (s.leaveStopping).pending = s.pending := by
  unfold State.leaveStopping; split <;> simp

@[simp] theorem State.endStopping_keeps (s : State) :
    (s.endStopping).run = s.run ∧ (s.endStopping).resetLow = s.resetLow ∧ (s.endStopping).bus = s.bus ∧
    (s.endStopping).causes = s.causes ∧ (s.endStopping).enables = s.enables ∧ (s.endStopping).shelfChg = s.shelfChg ∧
    (s.endStopping).msclkH = s.msclkH ∧ (s.endStopping).prescaler = s.prescaler ∧ (s.endStopping).clock = s.clock ∧
    (s.endStopping).mem = s.mem ∧ (s.endStopping).arbiter = s.arbiter ∧
    (s.endStopping).params = s.params ∧ (s.endStopping).shelves = s.shelves ∧
    (s.endStopping).judged = s.judged ∧ (s.endStopping).evaluating = s.evaluating ∧ (s.endStopping).powerOns = s.powerOns ∧ (s.endStopping).pending = s.pending := by
  unfold State.endStopping; (try dsimp only); (repeat' split) <;> simp

@[simp] theorem State.enterStopping_keeps (s : State) :
    (s.enterStopping).run = s.run ∧ (s.enterStopping).resetLow = s.resetLow ∧ (s.enterStopping).bus = s.bus ∧
    (s.enterStopping).causes = s.causes ∧ (s.enterStopping).enables = s.enables ∧
    (s.enterStopping).shelfChg = s.shelfChg ∧ (s.enterStopping).msclkH = s.msclkH ∧
    (s.enterStopping).prescaler = s.prescaler ∧ (s.enterStopping).clock = s.clock ∧ (s.enterStopping).mem = s.mem ∧ (s.enterStopping).params = s.params ∧
    (s.enterStopping).shelves = s.shelves ∧ (s.enterStopping).judged = s.judged ∧
    (s.enterStopping).evaluating = s.evaluating ∧
    (s.enterStopping).powerOns = s.powerOns ∧ (s.enterStopping).pending = s.pending := by
  unfold State.enterStopping; (try dsimp only); (repeat' split) <;> simp

@[simp] theorem State.runSet_keeps (s : State) :
    (s.runSet).resetLow = s.resetLow ∧ (s.runSet).bus = s.bus ∧ (s.runSet).causes = s.causes ∧
    (s.runSet).enables = s.enables ∧ (s.runSet).shelfChg = s.shelfChg ∧ (s.runSet).msclkH = s.msclkH ∧
    (s.runSet).prescaler = s.prescaler ∧ (s.runSet).clock = s.clock ∧ (s.runSet).mem = s.mem ∧
    (s.runSet).arbiter = s.arbiter ∧ (s.runSet).cands = s.cands ∧ (s.runSet).params = s.params ∧
    (s.runSet).requests = s.requests ∧ (s.runSet).shelves = s.shelves ∧ (s.runSet).judged = s.judged ∧
    (s.runSet).queue = s.queue ∧ (s.runSet).evaluating = s.evaluating ∧ (s.runSet).writer = s.writer ∧
    (s.runSet).powerOns = s.powerOns ∧ (s.runSet).pending = s.pending := by
  unfold State.runSet; (try dsimp only); (repeat' split) <;> simp

@[simp] theorem State.runClear_keeps (s : State) :
    (s.runClear).resetLow = s.resetLow ∧ (s.runClear).bus = s.bus ∧ (s.runClear).causes = s.causes ∧
    (s.runClear).enables = s.enables ∧ (s.runClear).shelfChg = s.shelfChg ∧ (s.runClear).msclkH = s.msclkH ∧
    (s.runClear).prescaler = s.prescaler ∧ (s.runClear).clock = s.clock ∧ (s.runClear).mem = s.mem ∧ (s.runClear).params = s.params ∧
    (s.runClear).shelves = s.shelves ∧ (s.runClear).judged = s.judged ∧
    (s.runClear).evaluating = s.evaluating ∧ (s.runClear).powerOns = s.powerOns ∧
    (s.runClear).pending = s.pending := by
  unfold State.runClear; (try dsimp only); (repeat' split) <;> simp

@[simp] theorem State.writeRun_keeps (s : State) (v : Bool) :
    (s.writeRun v).resetLow = s.resetLow ∧ (s.writeRun v).bus = s.bus ∧ (s.writeRun v).causes = s.causes ∧
    (s.writeRun v).enables = s.enables ∧ (s.writeRun v).shelfChg = s.shelfChg ∧ (s.writeRun v).msclkH = s.msclkH ∧
    (s.writeRun v).prescaler = s.prescaler ∧ (s.writeRun v).clock = s.clock ∧ (s.writeRun v).mem = s.mem ∧ (s.writeRun v).params = s.params ∧
    (s.writeRun v).shelves = s.shelves ∧ (s.writeRun v).judged = s.judged ∧
    (s.writeRun v).evaluating = s.evaluating ∧ (s.writeRun v).powerOns = s.powerOns ∧
    (s.writeRun v).pending = s.pending := by
  unfold State.writeRun; (try dsimp only); (repeat' split) <;> simp

@[simp] theorem State.layoutHalt_keeps (s : State) :
    (s.layoutHalt).resetLow = s.resetLow ∧ (s.layoutHalt).bus = s.bus ∧ (s.layoutHalt).enables = s.enables ∧
    (s.layoutHalt).shelfChg = s.shelfChg ∧ (s.layoutHalt).msclkH = s.msclkH ∧ (s.layoutHalt).prescaler = s.prescaler ∧
    (s.layoutHalt).clock = s.clock ∧ (s.layoutHalt).mem = s.mem ∧ (s.layoutHalt).arbiter = s.arbiter ∧
    (s.layoutHalt).cands = s.cands ∧ (s.layoutHalt).params = s.params ∧ (s.layoutHalt).requests = s.requests ∧
    (s.layoutHalt).shelves = s.shelves ∧ (s.layoutHalt).judged = s.judged ∧ (s.layoutHalt).queue = s.queue ∧
    (s.layoutHalt).evaluating = s.evaluating ∧ (s.layoutHalt).writer = s.writer ∧ (s.layoutHalt).powerOns = s.powerOns ∧
    (s.layoutHalt).pending = s.pending := by
  unfold State.layoutHalt; (try dsimp only); (repeat' split) <;> simp

@[simp] theorem State.startWith_keeps (s : State) (r : GlobalRecord) :
    (s.startWith r).run = s.run ∧ (s.startWith r).haltCause = s.haltCause ∧ (s.startWith r).resetLow = s.resetLow ∧
    (s.startWith r).bus = s.bus ∧ (s.startWith r).causes = s.causes ∧ (s.startWith r).enables = s.enables ∧
    (s.startWith r).shelfChg = s.shelfChg ∧ (s.startWith r).msclkH = s.msclkH ∧ (s.startWith r).prescaler = s.prescaler ∧
    (s.startWith r).clock = s.clock ∧ (s.startWith r).mem = s.mem ∧ (s.startWith r).arbiter = s.arbiter ∧
    (s.startWith r).params = s.params ∧ (s.startWith r).powerOns = s.powerOns ∧ (s.startWith r).pending = s.pending := by
  simp [State.startWith]

@[simp] theorem State.stepOne_keeps (s : State) :
    (s.stepOne).resetLow = s.resetLow ∧ (s.stepOne).bus = s.bus ∧ (s.stepOne).enables = s.enables ∧
    (s.stepOne).shelfChg = s.shelfChg ∧ (s.stepOne).msclkH = s.msclkH ∧ (s.stepOne).prescaler = s.prescaler ∧
    (s.stepOne).clock = s.clock ∧ (s.stepOne).mem = s.mem ∧ (s.stepOne).arbiter = s.arbiter ∧
    (s.stepOne).params = s.params ∧ (s.stepOne).powerOns = s.powerOns ∧ (s.stepOne).pending = s.pending := by
  unfold State.stepOne; (try dsimp only); (repeat' split) <;> simp

@[simp] theorem State.afterSlot_keeps (s : State) (i : Fin 32) :
    (s.afterSlot i).run = s.run ∧ (s.afterSlot i).haltCause = s.haltCause ∧ (s.afterSlot i).resetLow = s.resetLow ∧
    (s.afterSlot i).bus = s.bus ∧ (s.afterSlot i).causes = s.causes ∧ (s.afterSlot i).enables = s.enables ∧
    (s.afterSlot i).shelfChg = s.shelfChg ∧ (s.afterSlot i).msclkH = s.msclkH ∧ (s.afterSlot i).prescaler = s.prescaler ∧
    (s.afterSlot i).clock = s.clock ∧ (s.afterSlot i).mem = s.mem ∧ (s.afterSlot i).arbiter = s.arbiter ∧
    (s.afterSlot i).params = s.params ∧ (s.afterSlot i).powerOns = s.powerOns ∧ (s.afterSlot i).pending = s.pending := by
  unfold State.afterSlot; (try dsimp only); (repeat' split) <;> simp

@[simp] theorem State.tickNow_keeps (s : State) :
    (s.tickNow).run = s.run ∧ (s.tickNow).engine = s.engine ∧ (s.tickNow).haltCause = s.haltCause ∧
    (s.tickNow).resetLow = s.resetLow ∧ (s.tickNow).bus = s.bus ∧ (s.tickNow).causes = s.causes ∧
    (s.tickNow).enables = s.enables ∧ (s.tickNow).shelfChg = s.shelfChg ∧ (s.tickNow).msclkH = s.msclkH ∧
    (s.tickNow).mem = s.mem ∧ (s.tickNow).arbiter = s.arbiter ∧ (s.tickNow).params = s.params ∧
    (s.tickNow).requests = s.requests ∧ (s.tickNow).judged = s.judged ∧ (s.tickNow).queue = s.queue ∧
    (s.tickNow).evaluating = s.evaluating ∧ (s.tickNow).writer = s.writer ∧ (s.tickNow).powerOns = s.powerOns ∧
    (s.tickNow).pending = s.pending := by
  simp [State.tickNow]

@[simp] theorem State.endAbort_keeps (s : State) (i : Fin 32) (live : Bool) :
    (s.endAbort i live).run = s.run ∧ (s.endAbort i live).haltCause = s.haltCause ∧
    (s.endAbort i live).resetLow = s.resetLow ∧ (s.endAbort i live).bus = s.bus ∧
    (s.endAbort i live).enables = s.enables ∧ (s.endAbort i live).shelfChg = s.shelfChg ∧
    (s.endAbort i live).msclkH = s.msclkH ∧ (s.endAbort i live).prescaler = s.prescaler ∧
    (s.endAbort i live).clock = s.clock ∧ (s.endAbort i live).params = s.params ∧
    (s.endAbort i live).powerOns = s.powerOns ∧ (s.endAbort i live).pending = s.pending := by
  unfold State.endAbort; (try dsimp only); (repeat' split) <;> simp

@[simp] theorem State.finishEvaluation_keeps (s : State) :
    (s.finishEvaluation).run = s.run ∧ (s.finishEvaluation).resetLow = s.resetLow ∧ (s.finishEvaluation).bus = s.bus ∧
    (s.finishEvaluation).causes = s.causes ∧ (s.finishEvaluation).enables = s.enables ∧
    (s.finishEvaluation).shelfChg = s.shelfChg ∧ (s.finishEvaluation).msclkH = s.msclkH ∧
    (s.finishEvaluation).prescaler = s.prescaler ∧ (s.finishEvaluation).clock = s.clock ∧
    (s.finishEvaluation).mem = s.mem ∧ (s.finishEvaluation).arbiter = s.arbiter ∧
    (s.finishEvaluation).params = s.params ∧ (s.finishEvaluation).powerOns = s.powerOns ∧
    (s.finishEvaluation).pending = s.pending := by
  unfold State.finishEvaluation; (try dsimp only); (repeat' split) <;> simp

end Sys2Proof.Machine
end

