-- ==== Sys2Proof/Laws/Operations.lean ====
section
/-! SUPPORT. What each shared operation does to the fields it changes: one lemma for a field, cited instead of unfolding. -/

namespace Sys2Proof.Machine

/-! ### Tables -/

/-- A table after one of its entries has been replaced. -/
theorem set_at {α : Type} {n : Nat} (v : Vector α n) (i j : Fin n) (x : α) : (v.set i x)[j] = if i = j then x else v[j] := by
  simp [Vector.getElem_set, Fin.ext_iff]

/-- A table with every entry changed in the same way. -/
theorem map_at {α β : Type} {n : Nat} (v : Vector α n) (f : α → β) (j : Fin n) : (v.map f)[j] = f v[j] := by simp

/-- A table of equal entries. -/
theorem replicate_at {α : Type} {n : Nat} (x : α) (j : Fin n) : (Vector.replicate n x)[j] = x := by simp

/-- A table made entry by entry. -/
theorem ofFn_at {α : Type} {n : Nat} (f : Fin n → α) (j : Fin n) : (Vector.ofFn f)[j] = f j := by simp

@[simp] theorem shelfOf_flat (i : Fin 32) (j : Fin 8) : shelfOf (flat i j) = i := by
  apply Fin.ext; simp only [shelfOf, flat]; omega

@[simp] theorem slotOf_flat (i : Fin 32) (j : Fin 8) : slotOf (flat i j) = j := by
  apply Fin.ext; simp only [slotOf, flat]; omega

@[simp] theorem flat_shelfOf_slotOf (k : Fin 256) : flat (shelfOf k) (slotOf k) = k := by
  apply Fin.ext; simp only [shelfOf, slotOf, flat]; omega

theorem flat_inj {i i' : Fin 32} {j j' : Fin 8} (h : flat i j = flat i' j') : i = i' ∧ j = j' :=
  ⟨by rw [← shelfOf_flat i j, h, shelfOf_flat], by rw [← slotOf_flat i j, h, slotOf_flat]⟩

/-- The candidates of a shelf. -/
@[simp] theorem mem_candsOf {i : Fin 32} {k : Fin 256} : k ∈ candsOf i ↔ shelfOf k = i := by
  simp only [candsOf, List.mem_map, List.mem_finRange, true_and]
  exact ⟨fun ⟨j, hj⟩ => by rw [← hj, shelfOf_flat], fun h => ⟨slotOf k, by rw [← h, flat_shelfOf_slotOf]⟩⟩

theorem candsOf_nodup (i : Fin 32) : (candsOf i).Nodup :=
  List.Nodup.map (fun _ _ h => (flat_inj h).2) (List.nodup_finRange 8)

/-! ### The queue and the write list -/

theorem mem_joined {α : Type} [DecidableEq α] {l : List α} {x y : α} : y ∈ joined l x ↔ y ∈ l ∨ y = x := by
  unfold joined; split <;> simp; rintro rfl; assumption

theorem nodup_joined {α : Type} [DecidableEq α] {l : List α} (h : l.Nodup) (x : α) : (joined l x).Nodup := by
  unfold joined; split
  · exact h
  · rw [List.nodup_append]; exact ⟨h, by simp, by simp; intro a ha e; subst e; contradiction⟩

@[simp] theorem State.place_queue (s : State) (i : Fin 32) : (s.place i).queue = joined s.queue i := by
  unfold State.place joined; split <;> rfl

@[simp] theorem State.placeAll_queue (s : State) (is : List (Fin 32)) : (s.placeAll is).queue = is.foldl joined s.queue := by
  unfold State.placeAll
  induction is generalizing s with
  | nil => rfl
  | cons i is ih => rw [List.foldl_cons, ih, State.place_queue]; rfl

theorem nodup_joinedAll {l : List (Fin 32)} (h : l.Nodup) (is : List (Fin 32)) : (is.foldl joined l).Nodup := by
  induction is generalizing l with
  | nil => exact h
  | cons i is ih => exact ih (nodup_joined h i)

@[simp] theorem State.ask_writer (s : State) (item : WriteItem) : (s.ask item).writer = s.writer.asked item := by
  unfold State.ask Writer.asked joined; split <;> rfl

@[simp] theorem State.log_writer (s : State) (i : Fin 32) (n : LogNote) :
    (s.log i n).writer = s.writer.noted s.arbiter.servesItem s.clock i n := by
  unfold State.log Writer.noted withoutLogAt
  cases h : s.writer.logEnable <;> cases s.arbiter.servesItem <;> simp [h, logIndex, State.numbered]

@[simp] theorem Writer.asked_publication (w : Writer) (item : WriteItem) : (w.asked item).publication = w.publication := rfl

@[simp] theorem Writer.noted_publication (w : Writer) (served : Bool) (now : Nat) (i : Fin 32) (n : LogNote) :
    (w.noted served now i n).publication = w.publication := by unfold Writer.noted; split <;> rfl

@[simp] theorem Writer.completed_publication (w : Writer) (i : Fin 32) (o : CmdOutcome) :
    (w.completed i o).publication = w.publication := rfl

@[simp] theorem State.askAll_writer (s : State) (items : List WriteItem) :
    (s.askAll items).writer = items.foldl Writer.asked s.writer := by
  unfold State.askAll
  induction items generalizing s with
  | nil => rfl
  | cons a items ih => rw [List.foldl_cons, ih, State.ask_writer]; rfl

/-! ### Whole states -/

/-- A request for a record. -/
theorem State.ask_eq (s : State) (item : WriteItem) : s.ask item = { s with writer := s.writer.asked item } := by
  unfold State.ask Writer.asked joined; split <;> rfl

/-- A shelf is placed in the queue. -/
theorem State.place_eq (s : State) (i : Fin 32) : s.place i = { s with queue := joined s.queue i } := by
  unfold State.place joined; split <;> rfl

/-- A log entry is handed over. -/
theorem State.log_eq (s : State) (i : Fin 32) (n : LogNote) :
    s.log i n = { s with writer := s.writer.noted s.arbiter.servesItem s.clock i n } := by
  unfold State.log Writer.noted withoutLogAt
  cases h : s.writer.logEnable <;> cases s.arbiter.servesItem <;> simp [h, logIndex, State.numbered]

/-- An event at a candidate. -/
theorem State.candEvent_eq (s : State) (k : Fin 256) (c : Candidate) :
    s.candEvent k c = { s with cands := s.cands.set k c, writer := s.writer.asked (.candResult k),
                               queue := joined s.queue (shelfOf k) } := by
  unfold State.candEvent State.publishCand
  rw [State.place_eq, State.ask_eq]; rfl

/-! ### Events at the Candidate Table -/

@[simp] theorem State.publishCand_writer (s : State) (k : Fin 256) :
    (s.publishCand k).writer = s.writer.asked (.candResult k) := by simp [State.publishCand]

@[simp] theorem State.candEvent_cands (s : State) (k : Fin 256) (c : Candidate) :
    (s.candEvent k c).cands = s.cands.set k c := by simp [State.candEvent]

@[simp] theorem State.candEvent_queue (s : State) (k : Fin 256) (c : Candidate) :
    (s.candEvent k c).queue = joined s.queue (shelfOf k) := by simp [State.candEvent]

@[simp] theorem State.candEvent_writer (s : State) (k : Fin 256) (c : Candidate) :
    (s.candEvent k c).writer = s.writer.asked (.candResult k) := by simp [State.candEvent]

/-- The Monitor takes an observation: no effect on an OFF candidate, one event otherwise. -/
theorem State.observation_cases (s : State) (k : Fin 256) (o : Observation) :
    (s.cands[k].state = .off ∧ s.observation k o = s) ∨
    (s.cands[k].state ≠ .off ∧ s.observation k o = s.candEvent k (s.cands[k].observe s.params[shelfOf k] s.clock o)) := by
  unfold State.observation; split <;> simp_all

/-- The Monitor takes the expiry of a report deadline. -/
theorem State.reportExpiry_cases (s : State) (k : Fin 256) :
    (s.reportExpiry k = s.setCand k (s.cands[k].reportExpires s.params[shelfOf k] s.clock).1) ∨
    (s.reportExpiry k = s.candEvent k (s.cands[k].reportExpires s.params[shelfOf k] s.clock).1) := by
  unfold State.reportExpiry; split <;> simp

/-- The Monitor takes an acquisition failure or lock-lost request. -/
theorem State.condemnCand_cases (s : State) (k : Fin 256) :
    (s.condemnCand k = s) ∨
    (∃ c, s.cands[k].condemn s.params[shelfOf k] s.clock = some c ∧ s.condemnCand k = s.candEvent k c) := by
  unfold State.condemnCand; split <;> simp_all

/-- A CLEAR_WTR request. -/
theorem State.clearWtr_cases (s : State) (k : Fin 256) :
    (s.clearWtr k = s) ∨ (s.cands[k].state = .restoring ∧ s.clearWtr k = s.candEvent k s.cands[k].restored) := by
  unfold State.clearWtr; split <;> simp_all

/-- Taking requests one after the other leaves those that were sent behind them. -/
theorem State.takeEach_requests (rs rest : List Request) (s : State) (h : s.requests = rs ++ rest) :
    (rs.foldl State.takeRequest s).requests = rest := by
  induction rs generalizing s with
  | nil => exact h
  | cons r rs ih => exact ih _ (by simp [State.takeRequest, h])

/-- No request waits once all have been taken. -/
@[simp] theorem State.takeRequests_requests (s : State) : s.takeRequests.requests = [] :=
  State.takeEach_requests s.requests [] s (by simp)

/-- Without a request that waits, nothing is taken. -/
theorem State.takeRequests_of_none {s : State} (h : s.requests = []) : s.takeRequests = s := by
  unfold State.takeRequests; rw [h]; rfl

/-- A fold of events over distinct candidates, each of which replaces its own entry by a function of that entry. -/
theorem foldl_cands (g : State → Fin 256 → State) (f : Fin 256 → Candidate → Candidate)
    (hg : ∀ s k, (g s k).cands = s.cands.set k (f k s.cands[k])) (l : List (Fin 256)) (hl : l.Nodup) (s : State)
    (k : Fin 256) : (l.foldl g s).cands[k] = if k ∈ l then f k s.cands[k] else s.cands[k] := by
  induction l generalizing s with
  | nil => simp
  | cons a l ih =>
    rw [List.nodup_cons] at hl
    rw [List.foldl_cons, ih hl.2, hg, set_at]
    by_cases hk : a = k
    · subst hk; simp [hl.1]
    · simp [hk, Ne.symm hk]

theorem set_self {α : Type} {n : Nat} (v : Vector α n) (k : Fin n) : v.set k v[k] = v := by
  apply Vector.ext
  intro j hj
  simp only [Vector.getElem_set]
  split
  · rename_i h; subst h; rfl
  · rfl

/-- What a fold of events does to the write list, when each asks for a candidate result or for nothing. -/
theorem foldl_writer (Q : Writer → Prop) (hQ : ∀ w k, Q w → Q (w.asked (.candResult k))) (g : State → Fin 256 → State)
    (hg : ∀ s k, (g s k).writer = s.writer ∨ (g s k).writer = s.writer.asked (.candResult k)) (l : List (Fin 256)) (s : State)
    (hs : Q s.writer) : Q (l.foldl g s).writer := by
  induction l generalizing s with
  | nil => exact hs
  | cons a l ih =>
    refine ih _ ?_
    rcases hg s a with h | h <;> rw [h]
    · exact hs
    · exact hQ _ _ hs

/-- What a candidate is once its shelf has become DISABLED (R42). -/
def Candidate.offed (c : Candidate) : Candidate := if c.state = .off then c else c.switchOff

/-- What a candidate is once its shelf has been enabled (R42). -/
def Candidate.woken (now : Nat) (c : Candidate) : Candidate := if c.config.kind = .off then c else c.enterUnknown now

/-- What a candidate is once its shelf has new monitoring parameters (R41). -/
def Candidate.reparamed (old new : MonitorParams) (now : Nat) (c : Candidate) : Candidate :=
  if c.state = .off then c else c.reparam old new now

theorem State.candsOff_at (s : State) (i : Fin 32) (k : Fin 256) :
    (s.candsOff i).cands[k] = if shelfOf k = i then s.cands[k].offed else s.cands[k] := by
  have hg : ∀ s k, (State.offCand s k).cands = s.cands.set k (s.cands[k].offed) := by
    intro s k
    unfold State.offCand Candidate.offed
    split
    · rw [set_self]
    · simp
  unfold State.candsOff
  rw [foldl_cands State.offCand (fun _ c => c.offed) hg _ (candsOf_nodup i)]
  simp

theorem State.candsUnknown_at (s : State) (i : Fin 32) (k : Fin 256) :
    (s.candsUnknown i).cands[k] = if shelfOf k = i then s.cands[k].woken s.clock else s.cands[k] := by
  have hclock : ∀ (l : List (Fin 256)) (s : State) (k : Fin 256), l.Nodup →
      (l.foldl State.wakeCand s).cands[k] = if k ∈ l then s.cands[k].woken s.clock else s.cands[k] := by
    intro l
    induction l with
    | nil => simp
    | cons a l ih =>
      intro s k hl
      rw [List.nodup_cons] at hl
      have ha : (s.wakeCand a).cands = s.cands.set a (s.cands[a].woken s.clock) := by
        unfold State.wakeCand Candidate.woken
        split
        · rw [set_self]
        · simp
      rw [List.foldl_cons, ih _ _ hl.2, ha, set_at, (State.wakeCand_keeps s a).2.2.2.2.2.2.2.2.2.2.1]
      by_cases hk : a = k
      · subst hk; simp [hl.1]
      · simp [hk, Ne.symm hk]
  unfold State.candsUnknown
  rw [hclock _ _ _ (candsOf_nodup i)]
  simp

theorem State.reparamCand_cands (old new : MonitorParams) (s : State) (k : Fin 256) :
    (State.reparamCand old new s k).cands = s.cands.set k (s.cands[k].reparamed old new s.clock) := by
  unfold State.reparamCand Candidate.reparamed
  dsimp only
  split
  · rw [set_self]
  · (repeat' split) <;> simp

theorem State.setMonitoring_at (s : State) (i : Fin 32) (p : MonitorParams) (k : Fin 256) :
    (s.setMonitoring i p).cands[k] =
      if shelfOf k = i then s.cands[k].reparamed s.params[i] p s.clock else s.cands[k] := by
  have hclock : ∀ (l : List (Fin 256)) (s : State) (old : MonitorParams) (k : Fin 256), l.Nodup →
      (l.foldl (State.reparamCand old p) s).cands[k] =
        if k ∈ l then s.cands[k].reparamed old p s.clock else s.cands[k] := by
    intro l
    induction l with
    | nil => simp
    | cons a l ih =>
      intro s old k hl
      rw [List.nodup_cons] at hl
      rw [List.foldl_cons, ih _ _ _ hl.2, State.reparamCand_cands, set_at,
        (State.reparamCand_keeps old p s a).2.2.2.2.2.2.2.2.2.2.1]
      by_cases hk : a = k
      · subst hk; simp [hl.1]
      · simp [hk, Ne.symm hk]
  unfold State.setMonitoring
  rw [hclock _ _ _ _ (candsOf_nodup i)]
  simp

@[simp] theorem State.setMonitoring_params (s : State) (i : Fin 32) (p : MonitorParams) :
    (s.setMonitoring i p).params = s.params.set i p := by
  unfold State.setMonitoring
  rw [foldl_same State.params _ (by intros; simp)]
  simp

/-! ### Events at the Shelf Table -/

@[simp] theorem State.disableShelf_shelves (s : State) (i : Fin 32) :
    (s.disableShelf i).shelves = s.shelves.set i (s.shelves[i].disableAt s.clock) := by simp [State.disableShelf]

@[simp] theorem State.disableShelf_queue (s : State) (i : Fin 32) : (s.disableShelf i).queue = joined s.queue i := by
  simp [State.disableShelf]

theorem State.disableShelf_cands (s : State) (i : Fin 32) (k : Fin 256) :
    (s.disableShelf i).cands[k] = if shelfOf k = i then s.cands[k].offed else s.cands[k] := by
  unfold State.disableShelf
  dsimp only
  rw [show ∀ t : State, ((t.candsOff i).place i).cands = (t.candsOff i).cands from fun t => by simp, State.candsOff_at]
  simp

@[simp] theorem State.enableShelf_shelves (s : State) (i : Fin 32) :
    (s.enableShelf i).shelves = s.shelves.set i (s.shelves[i].enableAt s.clock) := by simp [State.enableShelf]

@[simp] theorem State.enableShelf_queue (s : State) (i : Fin 32) : (s.enableShelf i).queue = joined s.queue i := by
  simp [State.enableShelf]

theorem State.enableShelf_cands (s : State) (i : Fin 32) (k : Fin 256) :
    (s.enableShelf i).cands[k] = if shelfOf k = i then s.cands[k].woken s.clock else s.cands[k] := by
  unfold State.enableShelf
  dsimp only
  rw [show ∀ t : State, ((t.candsUnknown i).place i).cands = (t.candsUnknown i).cands from fun t => by simp,
    State.candsUnknown_at]
  simp

@[simp] theorem State.acquisitionFails_shelves (s : State) (i : Fin 32) :
    (s.acquisitionFails i).shelves = s.shelves.set i (s.shelves[i].lapse s.clock .acqFail) := by
  simp only [State.acquisitionFails]; split <;> simp

@[simp] theorem State.loseLock_shelves (s : State) (i : Fin 32) :
    (s.loseLock i).shelves = s.shelves.set i (s.shelves[i].lapse s.clock .lockLost) := by
  simp only [State.loseLock]; split <;> simp

@[simp] theorem State.lockShelf_shelves (s : State) (i : Fin 32) :
    (s.lockShelf i).shelves = s.shelves.set i (s.shelves[i].lock s.clock) := by simp [State.lockShelf]

@[simp] theorem State.learned_shelves (s : State) (i : Fin 32) :
    (s.learned i).shelves = s.shelves.set i { s.shelves[i] with learnDeadline := none, historyValid := true } := by
  simp [State.learned]

@[simp] theorem State.holdoverExpires_shelves (s : State) (i : Fin 32) :
    (s.holdoverExpires i).shelves = s.shelves.set i (s.shelves[i].holdoverEnds s.clock) := by simp [State.holdoverExpires]

@[simp] theorem State.acquisitionFails_queue (s : State) (i : Fin 32) : (s.acquisitionFails i).queue = joined s.queue i := by
  simp only [State.acquisitionFails]; split <;> simp

@[simp] theorem State.learned_queue (s : State) (i : Fin 32) : (s.learned i).queue = joined s.queue i := by
  simp [State.learned]

@[simp] theorem State.holdoverExpires_queue (s : State) (i : Fin 32) : (s.holdoverExpires i).queue = joined s.queue i := by
  simp [State.holdoverExpires]

/-- A shelf configuration record with no evaluation of the shelf in progress: it applies the record and the parameters, and
then keeps, disables, enables or only places the shelf. -/
theorem State.shelfConfigured_cases {s : State} {i : Fin 32} (hn : s.notEvaluating i) (cfg : ShelfConfig) (out : CfgOutcome)
    (seq : Word) :
    let u := (s.setShelf i (s.shelves[i].applyConfig cfg out seq)).setMonitoring i cfg.monitor
    (s.shelves[i].enabled = true ∧ cfg.enable = true ∧
      s.shelfConfigured i cfg out seq = (u.setShelf i { u.shelves[i] with pendingReason := some .config }).place i) ∨
    (s.shelves[i].enabled = true ∧ cfg.enable = false ∧ s.shelfConfigured i cfg out seq = u.disableShelf i) ∨
    (s.shelves[i].enabled = false ∧ cfg.enable = true ∧ s.shelfConfigured i cfg out seq = u.enableShelf i) ∨
    (s.shelves[i].enabled = false ∧ cfg.enable = false ∧ s.shelfConfigured i cfg out seq = u.place i) := by
  have hs : s.settle i = s := by
    unfold State.settle
    split
    · rw [if_neg (hn _ ‹_›)]
    · rfl
  unfold State.shelfConfigured
  rw [hs]
  dsimp only
  cases s.shelves[i].enabled <;> cases cfg.enable <;> simp

/-! ### The end of an evaluation -/

@[simp] theorem State.askResults_writer (s : State) (i : Fin 32) (slots : List (Fin 8)) (changed : Bool) :
    (s.askResults i slots changed).writer =
      if changed then ((slots.map fun j => .candResult (flat i j)).foldl Writer.asked s.writer).asked (.shelfResult i)
      else (slots.map fun j => .candResult (flat i j)).foldl Writer.asked s.writer := by
  unfold State.askResults
  dsimp only
  split <;> simp

@[simp] theorem State.sendClearWtr_requests (s : State) (i : Fin 32) (slot : Option (Fin 8)) :
    (s.sendClearWtr i slot).requests = s.requests ++ (slot.map fun j => .clearWtr (flat i j)).toList := by
  cases slot <;> simp [State.sendClearWtr]

@[simp] theorem State.beginEvaluation_evaluating (s : State) (i : Fin 32) :
    (s.beginEvaluation i).evaluating = some (s.evalInputs i) := by simp [State.beginEvaluation]

@[simp] theorem State.endEvaluation_evaluating (s : State) (e : EvalInputs) : (s.endEvaluation e).evaluating = none := by
  simp only [State.endEvaluation]; (repeat' split) <;> simp

@[simp] theorem State.endEvaluation_shelves (s : State) (e : EvalInputs) :
    (s.endEvaluation e).shelves = s.shelves.set e.shelf (e.run s.shelves[e.shelf]).finalShelf := by
  simp only [State.endEvaluation]; (repeat' split) <;> simp

@[simp] theorem State.endEvaluation_writer (s : State) (e : EvalInputs) :
    (s.endEvaluation e).writer =
      let r := e.run s.shelves[e.shelf]
      s.writer.evaluated s.arbiter.servesItem s.clock e.shelf (changedSlots s.judged e.shelf r.judged)
        (r.published != s.shelves[e.shelf].published) r.note r.outcome := by
  unfold State.endEvaluation Writer.evaluated
  dsimp only
  cases (e.run s.shelves[e.shelf]).outcome <;> cases (e.run s.shelves[e.shelf]).note <;>
    simp [apply_ite State.writer]

@[simp] theorem State.endEvaluation_judged (s : State) (e : EvalInputs) :
    (s.endEvaluation e).judged = keepJudged s.judged e.shelf (e.run s.shelves[e.shelf]).judged := by
  simp only [State.endEvaluation]; (repeat' split) <;> simp

/-! ### The Result Writer's list -/

/-- A property of the Result Writer that requests and log entries keep. -/
structure WriterKept (served : Bool) (Q : Writer → Prop) : Prop where
  asked : ∀ w item, item.publishes = true → Q w → Q (w.asked item)
  noted : ∀ w now i n, Q w → Q (w.noted served now i n)

namespace WriterKept
variable {Q : Writer → Prop} {served : Bool} (h : WriterKept served Q)
include h

theorem candsOff (s : State) (i : Fin 32) (hs : Q s.writer) : Q (s.candsOff i).writer := by
  refine foldl_writer Q (fun w k => h.asked w _ rfl) _ (fun s k => ?_) _ s hs
  unfold State.offCand; split <;> simp

theorem candsUnknown (s : State) (i : Fin 32) (hs : Q s.writer) : Q (s.candsUnknown i).writer := by
  refine foldl_writer Q (fun w k => h.asked w _ rfl) _ (fun s k => ?_) _ s hs
  unfold State.wakeCand; split <;> simp

theorem setMonitoring (s : State) (i : Fin 32) (p : MonitorParams) (hs : Q s.writer) : Q (s.setMonitoring i p).writer := by
  refine foldl_writer Q (fun w k => h.asked w _ rfl) _ (fun s k => ?_) _ _ hs
  unfold State.reparamCand; dsimp only; (repeat' split) <;> simp

theorem disableShelf (s : State) (i : Fin 32) (hg : s.arbiter.servesItem = served) (h1 : Q (s.dropTaken i).writer) : Q (s.disableShelf i).writer := by
  unfold State.disableShelf
  dsimp only
  rw [show ∀ t : State, (t.place i).writer = t.writer from fun t => by simp]
  apply h.candsOff
  simp only [State.log_writer, State.setShelf_writer]
  rw [show ((s.dropTaken i).setShelf i _).arbiter = s.arbiter by simp, hg]
  exact h.noted _ _ _ _ h1

theorem enableShelf (s : State) (i : Fin 32) (hg : s.arbiter.servesItem = served) (hs : Q s.writer) : Q (s.enableShelf i).writer := by
  unfold State.enableShelf
  dsimp only
  rw [show ∀ t : State, (t.place i).writer = t.writer from fun t => by simp]
  apply h.candsUnknown
  simp only [State.log_writer, State.setShelf_writer]
  rw [show (s.setShelf i _).arbiter = s.arbiter from rfl, hg]
  exact h.noted _ _ _ _ hs

/-- Stages 6 and 7: what is written, and then the completion. -/
theorem evaluated (w : Writer) (now : Nat) (i : Fin 32) (slots : List (Fin 8)) (changed : Bool) (note : Option LogNote)
    (outcome : Option CmdOutcome) (hw : Q w) :
    ∃ w', Q w' ∧ w.evaluated served now i slots changed note outcome =
      match outcome with
      | some o => w'.completed i o
      | none => w' := by
  have h1 : Q ((slots.map fun j => .candResult (flat i j)).foldl Writer.asked w) := by
    have hp : ∀ a ∈ slots.map (fun j => WriteItem.candResult (flat i j)), a.publishes = true := by
      intro a ha; obtain ⟨x, _, rfl⟩ := List.mem_map.mp ha; rfl
    revert hp
    generalize slots.map (fun j => WriteItem.candResult (flat i j)) = items
    induction items generalizing w with
    | nil => exact fun _ => hw
    | cons a items ih =>
      exact fun hp => ih _ (h.asked _ _ (hp a List.mem_cons_self) hw) (fun b hb => hp b (List.mem_cons_of_mem _ hb))
  have h2 : Q (if changed then ((slots.map fun j => .candResult (flat i j)).foldl Writer.asked w).asked (.shelfResult i)
      else (slots.map fun j => .candResult (flat i j)).foldl Writer.asked w) := by
    split
    · exact h.asked _ _ rfl h1
    · exact h1
  unfold Writer.evaluated
  cases note with
  | none => exact ⟨_, h2, rfl⟩
  | some n => exact ⟨_, h.noted _ _ _ _ h2, rfl⟩

end WriterKept

/-- Requests and log entries change only the write list and the next entry number. -/
def Writer.grows (w w' : Writer) : Prop := w' = { w with list := w'.list, nextEntry := w'.nextEntry }

theorem grows_kept (served : Bool) (w : Writer) : WriterKept served w.grows where
  asked := fun w' item _ h => by unfold Writer.grows at *; rw [h]; rfl
  noted := fun w' now i n h => by unfold Writer.grows Writer.noted at *; rw [h]; split <;> rfl

theorem Writer.grows_completed {w w' : Writer} (h : w.grows w') (i : Fin 32) (o : CmdOutcome) :
    w.grows (w'.completed i o) := by unfold Writer.grows at *; rw [h]; rfl

theorem Writer.grows_refl (w : Writer) : w.grows w := rfl

theorem Writer.grows_publication {w w' : Writer} (h : w.grows w') : w'.publication = w.publication := by rw [h]

@[simp] theorem State.setMonitoring_publication (s : State) (i : Fin 32) (p : MonitorParams) :
    (s.setMonitoring i p).writer.publication = s.writer.publication :=
  Writer.grows_publication ((grows_kept false _).setMonitoring s i p s.writer.grows_refl)

@[simp] theorem State.disableShelf_publication (s : State) (i : Fin 32) :
    (s.disableShelf i).writer.publication = s.writer.publication :=
  Writer.grows_publication ((grows_kept _ _).disableShelf s i rfl (by
    unfold State.dropTaken
    split
    · exact Writer.grows_completed s.writer.grows_refl _ _
    · exact s.writer.grows_refl))

@[simp] theorem State.enableShelf_publication (s : State) (i : Fin 32) :
    (s.enableShelf i).writer.publication = s.writer.publication :=
  Writer.grows_publication ((grows_kept _ _).enableShelf s i rfl s.writer.grows_refl)

@[simp] theorem Writer.evaluated_publication (w : Writer) (served : Bool) (now : Nat) (i : Fin 32) (slots : List (Fin 8)) (changed : Bool)
    (note : Option LogNote) (outcome : Option CmdOutcome) :
    (w.evaluated served now i slots changed note outcome).publication = w.publication := by
  obtain ⟨w', hw, h⟩ := (grows_kept served w).evaluated w now i slots changed note outcome w.grows_refl
  rw [h]
  split
  · exact Writer.grows_publication (Writer.grows_completed hw _ _)
  · exact Writer.grows_publication hw

theorem State.setMonitoring_nodup (s : State) (i : Fin 32) (p : MonitorParams) (h : s.queue.Nodup) :
    (s.setMonitoring i p).queue.Nodup := by
  have hg : ∀ old (s : State) k, s.queue.Nodup → (State.reparamCand old p s k).queue.Nodup := by
    intro old s k h
    unfold State.reparamCand
    dsimp only
    (repeat' split) <;> first | exact h | simpa using h | simpa using nodup_joined h _
  unfold State.setMonitoring
  generalize s.params[i] = old
  have h' : (s.setParams i p).queue.Nodup := by simpa using h
  revert h'
  generalize s.setParams i p = t
  induction candsOf i generalizing t with
  | nil => exact fun h => h
  | cons k l ih => exact fun h => ih _ (hg old t k h)

end Sys2Proof.Machine
end

