-- ==== Sys2Proof/Laws/Shelves.lean ====
section
/-! SUPPORT. Whole states after the events of a shelf that reach its candidates: new parameters, disable, enable. -/

namespace Sys2Proof.Machine

/-! ### Requests over the candidates of a shelf -/

/-- A fold of events over distinct candidates, each of which asks for the candidate's result when a condition on the state it
meets holds, and leaves the condition of the others as it was. -/
theorem foldl_asked (g : State → Fin 256 → State) (cond : State → Fin 256 → Bool)
    (hw : ∀ s k, (g s k).writer = if cond s k then s.writer.asked (.candResult k) else s.writer)
    (hc : ∀ s k j, j ≠ k → cond (g s k) j = cond s j) (l : List (Fin 256)) (hl : l.Nodup) (s : State) :
    (l.foldl g s).writer = ((l.filter (cond s)).map WriteItem.candResult).foldl Writer.asked s.writer := by
  induction l generalizing s with
  | nil => rfl
  | cons a l ih =>
    rw [List.nodup_cons] at hl
    have hf : l.filter (cond (g s a)) = l.filter (cond s) :=
      List.filter_congr fun j hj => hc s a j (fun e => hl.1 (e ▸ hj))
    rw [List.foldl_cons, ih hl.2, hf, hw, List.filter_cons]
    split <;> simp

/-- The requests over the candidates of a shelf, by slot. -/
theorem candItems_eq (i : Fin 32) (cond : Fin 256 → Bool) :
    ((candsOf i).filter cond).map WriteItem.candResult = candItems i fun j => cond (flat i j) := by
  unfold candsOf candItems
  rw [List.filter_map, List.map_map]
  rfl

theorem State.candsOff_writer (s : State) (i : Fin 32) :
    (s.candsOff i).writer = (candItems i fun j => s.cands[flat i j].state != .off).foldl Writer.asked s.writer := by
  unfold State.candsOff
  rw [foldl_asked State.offCand (fun s k => s.cands[k].state != .off) _ _ _ (candsOf_nodup i), candItems_eq]
  · intro s k
    unfold State.offCand
    by_cases h : s.cands[k].state = .off <;> simp [-Fin.getElem_fin, h]
  · intro s k j hj
    unfold State.offCand
    split
    · rfl
    · simp [Fin.val_ne_of_ne hj.symm]

theorem State.candsUnknown_writer (s : State) (i : Fin 32) :
    (s.candsUnknown i).writer = (candItems i fun j => s.cands[flat i j].config.kind != .off).foldl Writer.asked s.writer := by
  unfold State.candsUnknown
  rw [foldl_asked State.wakeCand (fun s k => s.cands[k].config.kind != .off) _ _ _ (candsOf_nodup i), candItems_eq]
  · intro s k
    unfold State.wakeCand
    by_cases h : s.cands[k].config.kind = .off <;> simp [-Fin.getElem_fin, h]
  · intro s k j hj
    unfold State.wakeCand
    split
    · rfl
    · simp [Fin.val_ne_of_ne hj.symm]

theorem State.setMonitoring_writer (s : State) (i : Fin 32) (p : MonitorParams) :
    (s.setMonitoring i p).writer = (candItems i (s.recounts i p)).foldl Writer.asked s.writer := by
  have h := foldl_asked (State.reparamCand s.params[i] p)
    (fun u k => u.cands[k].state != .off &&
      decide ((u.cands[k].reparam s.params[i] p u.clock).reasons ≠ u.cands[k].reasons ∨
        faultCount (u.cands[k].reparam s.params[i] p u.clock).history ≠ faultCount u.cands[k].history))
    (by
      intro u k
      unfold State.reparamCand
      dsimp only
      by_cases h1 : u.cands[k].state = .off
      · simp [-Fin.getElem_fin, h1]
      · by_cases h2 : (u.cands[k].reparam s.params[i] p u.clock).reasons = u.cands[k].reasons
        · by_cases h3 : faultCount (u.cands[k].reparam s.params[i] p u.clock).history = faultCount u.cands[k].history <;>
            simp [-Fin.getElem_fin, h1, h2, h3]
        · simp [-Fin.getElem_fin, h1, h2])
    (by
      intro u k j hj
      rw [show (State.reparamCand s.params[i] p u k).cands[j] = u.cands[j] by
          rw [State.reparamCand_cands, set_at, if_neg hj.symm],
        (State.reparamCand_keeps s.params[i] p u k).2.2.2.2.2.2.2.2.2.2.1])
    (candsOf i) (candsOf_nodup i) (s.setParams i p)
  unfold State.setMonitoring
  rw [h, candItems_eq]
  have e : ∀ j : Fin 8, ((s.setParams i p).cands[flat i j].state != .off &&
      decide (((s.setParams i p).cands[flat i j].reparam s.params[i] p (s.setParams i p).clock).reasons ≠
          (s.setParams i p).cands[flat i j].reasons ∨
        faultCount ((s.setParams i p).cands[flat i j].reparam s.params[i] p (s.setParams i p).clock).history ≠
          faultCount (s.setParams i p).cands[flat i j].history)) = s.recounts i p j := by
    intro j
    unfold State.recounts
    dsimp only
    rw [show (s.setParams i p).cands = s.cands from rfl, show (s.setParams i p).clock = s.clock from rfl]
    generalize s.cands[flat i j].reparam s.params[i] p s.clock = d
    rw [Bool.eq_iff_iff]
    simp [-Fin.getElem_fin]
  rw [show (s.setParams i p).writer = s.writer from rfl, funext e]

/-- A place in the queue taken twice. -/
theorem joined_joined {α : Type} [DecidableEq α] (l : List α) (x : α) : joined (joined l x) x = joined l x := by
  have : x ∈ joined l x := mem_joined.mpr (.inr rfl)
  rw [joined, if_pos this]

theorem State.setMonitoring_queue (s : State) (i : Fin 32) (p : MonitorParams) :
    joined (s.setMonitoring i p).queue i = joined s.queue i := by
  have h : ∀ (l : List (Fin 256)) (old : MonitorParams) (u : State), (∀ k ∈ l, shelfOf k = i) →
      joined (l.foldl (State.reparamCand old p) u).queue i = joined u.queue i := by
    intro l old
    induction l with
    | nil => intros; rfl
    | cons a l ih =>
      intro u hl
      rw [List.foldl_cons, ih _ (fun k hk => hl k (List.mem_cons_of_mem _ hk))]
      unfold State.reparamCand
      dsimp only
      (repeat' split) <;> simp [hl a List.mem_cons_self, joined_joined]
  unfold State.setMonitoring
  rw [h _ _ _ (fun k hk => mem_candsOf.mp hk)]
  simp

/-! ### Whole states -/

/-- The table of candidates once the candidates of shelf `i` have changed by `f`. -/
def atShelf (cands : Vector Candidate 256) (i : Fin 32) (f : Candidate → Candidate) : Vector Candidate 256 :=
  .ofFn fun k => if shelfOf k = i then f cands[k] else cands[k]

theorem atShelf_at (cands : Vector Candidate 256) (i : Fin 32) (f : Candidate → Candidate) (k : Fin 256) :
    (atShelf cands i f)[k] = if shelfOf k = i then f cands[k] else cands[k] := by unfold atShelf; rw [ofFn_at]

theorem eq_atShelf {cands cands' : Vector Candidate 256} {i : Fin 32} {f : Candidate → Candidate}
    (h : ∀ k : Fin 256, cands'[k] = if shelfOf k = i then f cands[k] else cands[k]) : cands' = atShelf cands i f := by
  apply Vector.ext
  intro k hk
  exact (h ⟨k, hk⟩).trans (atShelf_at cands i f ⟨k, hk⟩).symm

/-- The candidates of a shelf set to OFF (R42). -/
theorem State.candsOff_eq (s : State) (i : Fin 32) :
    s.candsOff i = { s with
      cands := atShelf s.cands i Candidate.offed
      writer := (candItems i fun j => s.cands[flat i j].state != .off).foldl Writer.asked s.writer } := by
  obtain ⟨h1, h2, h3, h4, h5, h6, h7, h8, h9, h10, h11, h12, h13, h14, h15, h16, h17, h18, h19, h20, h21, h22⟩ :=
    State.candsOff_keeps s i
  have hc := eq_atShelf (State.candsOff_at s i)
  have hw := State.candsOff_writer s i
  generalize s.candsOff i = t at *
  cases t; cases s
  simp only at *
  subst_vars
  rfl

/-- The candidates of a shelf brought to UNKNOWN (R42). -/
theorem State.candsUnknown_eq (s : State) (i : Fin 32) :
    s.candsUnknown i = { s with
      cands := atShelf s.cands i (Candidate.woken s.clock)
      writer := (candItems i fun j => s.cands[flat i j].config.kind != .off).foldl Writer.asked s.writer } := by
  obtain ⟨h1, h2, h3, h4, h5, h6, h7, h8, h9, h10, h11, h12, h13, h14, h15, h16, h17, h18, h19, h20, h21, h22⟩ :=
    State.candsUnknown_keeps s i
  have hc := eq_atShelf (State.candsUnknown_at s i)
  have hw := State.candsUnknown_writer s i
  generalize s.candsUnknown i = t at *
  cases t; cases s
  simp only at *
  subst_vars
  rfl

/-- A new parameter set of a shelf (R20, R41), up to the shelf's place in the queue. -/
theorem State.setMonitoring_eq (s : State) (i : Fin 32) (p : MonitorParams) :
    ∃ q, joined q i = joined s.queue i ∧ s.setMonitoring i p = { s with
      cands := atShelf s.cands i (Candidate.reparamed s.params[i] p s.clock)
      params := s.params.set i p
      queue := q
      writer := (candItems i (s.recounts i p)).foldl Writer.asked s.writer } := by
  refine ⟨_, State.setMonitoring_queue s i p, ?_⟩
  obtain ⟨h1, h2, h3, h4, h5, h6, h7, h8, h9, h10, h11, h12, h13, h14, h15, h16, h17, h18, h19, h20⟩ :=
    State.setMonitoring_keeps s i p
  have hc := eq_atShelf (State.setMonitoring_at s i p)
  have hw := State.setMonitoring_writer s i p
  have hp := State.setMonitoring_params s i p
  generalize (candItems i (s.recounts i p)).foldl Writer.asked s.writer = w at *
  generalize s.setMonitoring i p = t at *
  cases t; cases s
  simp only at *
  subst_vars
  rfl

/-- A taken command completed as SHELF_OFF (R67). -/
theorem State.dropTaken_eq (s : State) (i : Fin 32) :
    s.dropTaken i = { s with
      writer := if s.shelves[i].taken.isSome then s.writer.completed i .shelfOff else s.writer } := by
  unfold State.dropTaken
  split <;> rfl

/-- An enabled shelf becomes DISABLED (R67, R42). -/
theorem State.disableShelf_eq (s : State) (i : Fin 32) :
    s.disableShelf i = { s with
      cands := atShelf s.cands i Candidate.offed
      shelves := s.shelves.set i (s.shelves[i].disableAt s.clock)
      queue := joined s.queue i
      writer := (candItems i fun j => s.cands[flat i j].state != .off).foldl Writer.asked
        ((if s.shelves[i].taken.isSome then s.writer.completed i .shelfOff else s.writer).noted s.arbiter.servesItem s.clock i
          { kind := .disabled, previous := s.shelves[i].selected, new := none, cls := .qc6, reason := .config }) } := by
  unfold State.disableShelf
  dsimp only
  rw [State.place_eq, State.candsOff_eq, State.log_eq, State.dropTaken_eq]
  rfl

/-- A DISABLED shelf becomes enabled (R65, R42). -/
theorem State.enableShelf_eq (s : State) (i : Fin 32) :
    s.enableShelf i = { s with
      cands := atShelf s.cands i (Candidate.woken s.clock)
      shelves := s.shelves.set i (s.shelves[i].enableAt s.clock)
      queue := joined s.queue i
      writer := (candItems i fun j => s.cands[flat i j].config.kind != .off).foldl Writer.asked
        (s.writer.noted s.arbiter.servesItem s.clock i
          { kind := .freeRun, previous := none, new := none, cls := .qc4, reason := .start }) } := by
  unfold State.enableShelf
  dsimp only
  rw [State.place_eq, State.candsUnknown_eq, State.log_eq]
  rfl

end Sys2Proof.Machine
end

