-- ==== Sys2Proof/Laws/Evaluations.lean ====
section
/-! SUPPORT. The whole state after an evaluation. -/

namespace Sys2Proof.Machine

/-- Several requests for records. -/
theorem State.askAll_eq (s : State) (items : List WriteItem) :
    s.askAll items = { s with writer := items.foldl Writer.asked s.writer } := by
  unfold State.askAll
  induction items generalizing s with
  | nil => rfl
  | cons a items ih => rw [List.foldl_cons, ih, State.ask_eq]; rfl

/-- Several places in the queue. -/
theorem State.placeAll_eq (s : State) (is : List (Fin 32)) : s.placeAll is = { s with queue := is.foldl joined s.queue } := by
  unfold State.placeAll
  induction is generalizing s with
  | nil => rfl
  | cons a is ih => rw [List.foldl_cons, ih, State.place_eq]; rfl

/-- The candidates that are dependents of a shelf (R100). -/
theorem State.dependents_congr {s t : State} (h : t.cands = s.cands) (b : Fin 32) : t.dependents b = s.dependents b := by
  unfold State.dependents; rw [h]

/-- The end of an evaluation (R97, R98, R110). -/
theorem State.endEvaluation_eq (s : State) (e : EvalInputs) :
    s.endEvaluation e =
      let r := e.run s.shelves[e.shelf]
      let old := s.shelves[e.shelf].published
      { s with
        evaluating := none
        judged := keepJudged s.judged e.shelf r.judged
        shelves := s.shelves.set e.shelf r.finalShelf
        writer := s.writer.evaluated s.arbiter.servesItem s.clock e.shelf (changedSlots s.judged e.shelf r.judged) (r.published != old) r.note r.outcome
        queue := if old.movesDependents r.published then (s.dependents e.shelf).foldl joined s.queue else s.queue } := by
  dsimp only
  have hw := State.endEvaluation_writer s e
  dsimp only at hw
  rw [← hw]
  unfold State.endEvaluation State.askResults
  dsimp only
  cases (e.run s.shelves[e.shelf]).outcome <;> cases (e.run s.shelves[e.shelf]).note <;>
    cases hm : Published.movesDependents s.shelves[e.shelf].published (e.run s.shelves[e.shelf]).published <;>
    cases (e.run s.shelves[e.shelf]).published != s.shelves[e.shelf].published <;>
    simp [State.askAll_eq, State.ask_eq, State.log_eq, State.placeAll_eq, State.setShelf, State.complete,
      State.dependents_congr (s := s)]

/-- The kept judgements after an evaluation of shelf `i`. -/
theorem keepJudged_at (judged : Vector Judgement 256) (i : Fin 32) (new : Fin 8 → Judgement) (k : Fin 256) :
    (keepJudged judged i new)[k] = if shelfOf k = i then new (slotOf k) else judged[k] := by
  unfold keepJudged
  simp only [Fin.getElem_fin, Vector.getElem_mapIdx]
  by_cases h : shelfOf k = i
  · rw [if_pos h, if_pos (by rw [← h]; rfl)]; rfl
  · rw [if_neg h, if_neg (show ¬ k.val / 8 = i.val from fun e => h (Fin.ext e))]

end Sys2Proof.Machine
end

