-- ==== Sys2Proof/Laws/Events.lean ====
section
/-! SUPPORT. What every command is made of. `Kept P` says that each event of the part keeps P; then every command and every step
keeps P (`Kept.exec`, `Kept.step`), so that an invariant is proved event by event and never by unfolding exec. -/

namespace Sys2Proof.Machine

/-- The fields on which no law of the device rests. -/
def freeParts : List Part :=
  [.run, .engine, .haltCause, .resetLow, .bus, .causes, .enables, .shelfChg, .msclkH, .judged, .requests,
    .powerOns, .pending]

/-- The events that the commands are made of, each keeping P. -/
structure Kept (P : State → Prop) : Prop where
  /-- P does not rest on the free fields. -/
  congr : ∀ s t, Keeps freeParts s t → P s → P t
  /-- A word of the memory is written. -/
  store : ∀ s w v, P s → P { s with mem := s.mem.writeWord w v }
  ask : ∀ s item, item.publishes = true → P s → P (s.ask item)
  place : ∀ s i, P s → P (s.place i)
  /-- The port is asked for, granted or freed: for an item only while the list has one, and not freed of an item. -/
  port : ∀ s (a : Arbiter), (a.owner = .writer .item → s.arbiter.owner = .writer .item ∨ s.writer.list ≠ []) →
    (s.arbiter.owner = .writer .item → a.owner = .writer .item) → P s → P { s with arbiter := a }
  /-- The transaction of the item at the head of the write list ends: the item leaves the list, the port is free. -/
  served : ∀ s, s.arbiter.owner = .writer .item → P s → P { s.popItem with arbiter := { s.arbiter with owner := .none } }
  advance : ∀ s, P s → P s.advancePublication
  /-- The Result Writer's other fields change. -/
  writer : ∀ s (w : Writer), w.list = s.writer.list → w.publication = s.writer.publication → P s → P { s with writer := w }
  /-- The Intake Unit's tables and position change. -/
  table : ∀ s (v : Intake), v.applied = s.intake.applied → v.pendingGlobals = s.intake.pendingGlobals →
    v.sweepDeadline = s.intake.sweepDeadline → P s → P { s with intake := v }
  noDeadline : ∀ s, P s → P { s with intake := { s.intake with sweepDeadline := none } }
  noPending : ∀ s, P s → P { s with intake := { s.intake with pendingGlobals := none } }
  sweepStart : ∀ s, P s → P { s with intake := { s.intake with
    sweepDeadline := some (deadlineAt s.clock s.intake.applied.period), position := some .global } }
  /-- Valid global values wait for the next sweep. -/
  accept : ∀ s (r : GlobalRecord), r.refused = false → P s →
    P { s with intake := { s.intake with pendingGlobals := some r.values } }
  /-- Waiting global values are applied. -/
  applyWaiting : ∀ s g, s.intake.pendingGlobals = some g → P s →
    P { s with intake := { s.intake with pendingGlobals := none, applied := g },
               writer := { s.writer with logEnable := g.logEnable } }
  /-- Global values are applied as they are read. -/
  applyRead : ∀ s (r : GlobalRecord), r.refused = false → P s →
    P { s with intake := { s.intake with applied := r.values }, writer := { s.writer with logEnable := r.values.logEnable } }
  takeCommand : ∀ s i c, s.commandInHand i = false → P s → P (s.setShelf i { s.shelves[i] with taken := some c })
  observation : ∀ s k o, P s → P (s.observation k o)
  reportExpiry : ∀ s k, P s → P (s.reportExpiry k)
  holdOff : ∀ s k, s.cands[k].state = .suspect → P s → P (s.candEvent k s.cands[k].holdOffExpires)
  wtr : ∀ s k, s.cands[k].state = .restoring → P s → P (s.candEvent k s.cands[k].restored)
  condemn : ∀ s k, P s → P (s.condemnCand k)
  candConfigured : ∀ s k cfg out, P s → P (s.candConfigured k cfg out)
  candRefused : ∀ s k cause, P s → P (s.candRefused k cause)
  rebase : ∀ s, P s → P s.rebase
  endEvaluation : ∀ s e, s.evaluating = some e → P s → P (s.endEvaluation e)
  /-- The head of the queue leaves it for its evaluation. -/
  begins : ∀ s i rest, s.queue = i :: rest → P s → P { s with queue := rest, evaluating := some (s.evalInputs i) }
  /-- A shelf configuration record that keeps, enables or disables a shelf, with no evaluation of the shelf in progress. -/
  shelfConfigured : ∀ s i cfg out seq, s.notEvaluating i → P s → P (s.shelfConfigured i cfg out seq)
  disable : ∀ s i, s.notEvaluating i → s.shelves[i].enabled = true → P s → P (s.disableShelf i)
  /-- A refused shelf configuration record. -/
  outcome : ∀ s i out seq, s.notEvaluating i → P s →
    P (s.setShelf i { s.shelves[i] with outcome := out, outcomeSeq := seq })
  lock : ∀ s i, s.notEvaluating i → s.shelves[i].state = .acquiring → P s → P (s.lockShelf i)
  loseLock : ∀ s i, s.notEvaluating i → s.shelves[i].state = .locked → P s → P (s.loseLock i)
  acquisitionFails : ∀ s i, s.notEvaluating i → s.shelves[i].state = .acquiring → P s → P (s.acquisitionFails i)
  learned : ∀ s i, s.notEvaluating i → s.shelves[i].state = .locked → P s → P (s.learned i)
  holdoverExpires : ∀ s i, s.notEvaluating i → s.shelves[i].state = .holdover → P s → P (s.holdoverExpires i)
  count : ∀ s, s.prescaler < 49999 → P s → P { s with prescaler := s.prescaler + 1 }
  tick : ∀ s, P s → P s.tickNow
  powerOn : ∀ s, P s → P s.powerOn
  fullReset : ∀ s n, P s → P (s.fullReset n)
  restart : ∀ s n, P s → P (s.restart n)

/-- Closes a goal that two states agree on all but free fields. -/
theorem Keeps.refl (l : List Part) (s : State) : Keeps l s s := by constructor <;> exact .inr rfl

namespace Kept

variable {P : State → Prop}

/-- A change of free fields. -/
theorem free (h : Kept P) {s t : State} (hs : P s) (hk : Keeps freeParts s t) : P t := h.congr s t hk hs

theorem accesses (h : Kept P) (as : List WordAccess) : ∀ s, P s → P { s with mem := s.mem.makeAccesses as } := by
  induction as with
  | nil => exact fun s hs => hs
  | cons a as ih =>
    intro s hs
    cases a with
    | none => exact ih s hs
    | some p => exact ih _ (h.store s p.1 p.2 hs)

theorem settle (h : Kept P) (s : State) (i : Fin 32) (hs : P s) : P (s.settle i) := by
  unfold State.settle
  split
  · split
    · exact h.endEvaluation s _ ‹_› hs
    · exact hs
  · exact hs

end Kept

/-- After an evaluation of a shelf has been let end, none of that shelf is in progress. -/
theorem State.settle_notEvaluating (s : State) (i : Fin 32) : (s.settle i).notEvaluating i := by
  have hend : ∀ e, (s.endEvaluation e).evaluating = none := by
    intro e; simp only [State.endEvaluation]; (repeat' split) <;> simp
  intro e he
  unfold State.settle at he
  split at he
  · split at he
    · simp [hend] at he
    · rename_i h1 h2; rw [h1] at he; cases he; exact h2
  · rename_i h1; rw [h1] at he; cases he

/-- Letting an evaluation end that is not in progress changes nothing. -/
theorem State.settle_of_notEvaluating {s : State} {i : Fin 32} (h : s.notEvaluating i) : s.settle i = s := by
  unfold State.settle
  split
  · rw [if_neg (h _ ‹_›)]
  · rfl

namespace Kept

variable {P : State → Prop}

/-! ### The Arbiter, the registers, run control -/

theorem requestIntake (h : Kept P) (s : State) (hs : P s) : P s.requestIntake := by
  unfold State.requestIntake State.grantIntake
  split
  · exact h.port s _ (by simp) (by simp [*]) hs
  · exact hs
  · exact h.port s _ Or.inl id hs
  · exact h.port s _ Or.inl id hs

theorem requestWriter (h : Kept P) (s : State) (job : WriterJob) (hl : job = .item → s.writer.list ≠ []) (hs : P s) :
    P (s.requestWriter job) := by
  unfold State.requestWriter State.grantWriter
  split
  · exact h.port s _ (fun e => .inr (hl (by simpa using e))) (by simp [*]) hs
  · exact hs
  · exact h.port s _ Or.inl id hs
  · exact h.port s _ Or.inl id hs

theorem requestHost (h : Kept P) (s : State) (a : HostAccess) (hs : P s) : P (s.requestHost a) := by
  unfold State.requestHost State.grantHost
  dsimp only
  (repeat' split)
  · exact hs
  · exact h.port s { s.arbiter with host := some a, owner := .localBus } (by simp) (by simp [*]) hs
  · exact h.port s _ Or.inl id hs
  · exact h.port s _ Or.inl id hs
  · exact h.port s _ Or.inl id hs

/-- A free port goes to an internal requester. -/
theorem grantInternal (h : Kept P) (s : State) (ho : s.arbiter.owner = .none) (hs : P s) : P s.grantInternal := by
  unfold State.grantInternal State.grantIntake State.grantWriter
  dsimp only
  split
  · rename_i job _ hj
    split
    · exact h.port s _ (by simp) (by simp [ho]) hs
    · refine h.port s _ (fun e => .inr ?_) (by simp [ho]) hs
      cases (show job = .item by simpa using e)
      unfold State.writerJob at hj
      (repeat' split at hj) <;> simp_all
  · split
    · exact h.port s _ (by simp) (by simp [ho]) hs
    · exact h.port s _ (by simp [ho]) (by simp [ho]) hs

/-- The port is freed and handed on. -/
theorem released (h : Kept P) (s : State) (hs : P { s with arbiter := { s.arbiter with owner := .none } }) :
    P s.releaseRecord := by
  unfold State.releaseRecord
  dsimp only
  split
  · exact h.port _ _ (by simp) (by simp) hs
  · exact h.grantInternal _ rfl hs

/-- The end of a transaction that was not for an item of the write list. -/
theorem releaseRecord (h : Kept P) (s : State) (ho : s.arbiter.owner ≠ .writer .item) (hs : P s) : P s.releaseRecord :=
  h.released s (h.port s _ (by simp) (fun e => absurd e ho) hs)

theorem finishHost (h : Kept P) (s : State) (a : HostAccess) (hs : P s) : P (s.finishHost a) := by
  unfold State.finishHost
  split
  · rename_i ho
    have hp : ∀ t : State, t.arbiter = s.arbiter → P t →
        P ({ t with arbiter := { t.arbiter with owner := .none, host := none } } : State).grantInternal :=
      fun t ht h1 => h.grantInternal _ rfl (h.port t _ (by simp) (by simp [ht, ho.1]) h1)
    unfold State.makeAccess
    cases a.op with
    | read => exact hp _ (by simp) (h.free hs (by constructor <;> simp [freeParts]))
    | write v => exact hp _ (by simp) (h.free (h.store s a.word v hs) (by constructor <;> simp [freeParts]))
  · exact hs

theorem enterHalted (h : Kept P) (s : State) (hs : P s) : P s.enterHalted := by
  have h1 : P { s with intake := { s.intake with pendingGlobals := none, sweepDeadline := none } } :=
    h.noDeadline _ (h.noPending s hs)
  have h2 := h.table { s with intake := { s.intake with pendingGlobals := none, sweepDeadline := none } } { s.intake with pendingGlobals := none, sweepDeadline := none, position := none, furtherSweep := false }
    rfl rfl rfl h1
  exact h.free h2 (by constructor <;> simp [freeParts, State.enterHalted])

theorem enterStarting (h : Kept P) (s : State) (hs : P s) : P s.enterStarting :=
  h.free (h.noPending s hs) (by constructor <;> simp [freeParts, State.enterStarting])

theorem takeRequest (h : Kept P) (s : State) (r : Request) (hs : P s) : P (s.takeRequest r) := by
  have h1 : P (s.dropRequest r) := h.free hs (by constructor <;> simp [freeParts])
  cases r with
  | acqFailure k => exact h.condemn _ k h1
  | lockLost k => exact h.condemn _ k h1
  | clearWtr k =>
    simp only [State.takeRequest, State.actOn]
    rcases (s.dropRequest (.clearWtr k)).clearWtr_cases k with e | ⟨hr, e⟩ <;> rw [e]
    exacts [h1, h.wtr _ k hr h1]

theorem takeRequests (h : Kept P) (s : State) (hs : P s) : P s.takeRequests := by
  unfold State.takeRequests
  generalize s.requests = rs
  induction rs generalizing s with
  | nil => exact hs
  | cons r rs ih => exact ih _ (h.takeRequest s r hs)

theorem endStopping (h : Kept P) (s : State) (hs : P s) : P s.endStopping := by
  have h1 := h.takeRequests s hs
  unfold State.endStopping State.leaveStopping
  (repeat' split) <;> first | exact h.enterStarting _ h1 | exact h.enterHalted _ h1 | exact hs

theorem sweepStopped (h : Kept P) (s : State) (hs : P s) : P s.sweepStopped := by
  unfold State.sweepStopped
  split
  · exact h.table { s with intake := { s.intake with sweepDeadline := none } }
      { s.intake with position := none, furtherSweep := false, sweepDeadline := none } rfl rfl rfl (h.noDeadline s hs)
  · exact hs

theorem enterStopping (h : Kept P) (s : State) (hs : P s) : P s.enterStopping := by
  have h1 : P { s with
      engine := .stopping
      arbiter := { s.arbiter with owner := s.arbiter.owner.cutStep, intakeWaits := false } } :=
    h.free (h.port s { s.arbiter with owner := s.arbiter.owner.cutStep, intakeWaits := false }
      (fun e => .inl (by revert e; unfold Owner.cutStep; split <;> simp_all)) (fun e => by simp [e, Owner.cutStep]) hs)
      (by constructor <;> simp [freeParts])
  unfold State.enterStopping
  dsimp only
  split
  · exact h.endStopping _ h1
  · exact h.endStopping _ (h.sweepStopped _ h1)

theorem writeRun (h : Kept P) (s : State) (v : Bool) (hs : P s) : P (s.writeRun v) := by
  have h1 : ∀ b, P { s with run := b } := fun b => h.free hs (by constructor <;> simp [freeParts])
  unfold State.writeRun State.runSet State.runClear
  (repeat' split) <;> first
    | exact hs
    | exact h.enterStarting _ (h1 true)
    | exact h.enterStopping _ (h1 false)
    | exact h1 _

/-! ### The Intake Unit -/

theorem outOfService (h : Kept P) (s : State) (i : Fin 32) (hs : P s) : P (s.outOfService i) := by
  have h1 : P ((s.settle i).setLastShelfConfig i none) := h.table _ _ rfl rfl rfl (h.settle s i hs)
  unfold State.outOfService
  dsimp only
  split
  · refine h.disable _ i ?_ ‹_› h1
    intro e he
    exact State.settle_notEvaluating s i e (by simpa using he)
  · exact h1

theorem outOfServices (h : Kept P) (is : List (Fin 32)) : ∀ s, P s → P (is.foldl State.outOfService s) := by
  induction is with
  | nil => exact fun s hs => hs
  | cons i is ih => exact fun s hs => ih _ (h.outOfService s i hs)

theorem applyPending (h : Kept P) (s : State) (hs : P s) : P s.applyPending := by
  unfold State.applyPending
  split
  · exact h.outOfServices _ _ (h.applyWaiting s _ ‹_› hs)
  · exact hs

theorem startSweep (h : Kept P) (s : State) (hs : P s) : P s.startSweep := h.sweepStart _ (h.applyPending s hs)

theorem furtherSweep (h : Kept P) (s : State) (hs : P s) : P s.furtherSweep := by
  unfold State.furtherSweep
  split
  · exact h.startSweep _ (h.table s _ rfl rfl rfl hs)
  · exact hs

theorem sweepRequest (h : Kept P) (s : State) (hs : P s) : P s.sweepRequest := by
  unfold State.sweepRequest State.markFurther
  (repeat' split) <;> first
    | exact h.startSweep s hs
    | exact hs
    | exact h.table s _ rfl rfl rfl hs

theorem askAll (h : Kept P) (items : List WriteItem) (hi : ∀ a ∈ items, a.publishes = true) :
    ∀ s, P s → P (s.askAll items) := by
  induction items with
  | nil => exact fun s hs => hs
  | cons a items ih =>
    exact fun s hs => ih (fun b hb => hi b (List.mem_cons_of_mem _ hb)) _ (h.ask s a (hi a List.mem_cons_self) hs)

theorem publishAll (h : Kept P) (s : State) (hs : P s) : P s.publishAll := by
  have key : ∀ t, P t → P { t with engine := .running } := fun t ht => h.free ht (by constructor <;> simp [freeParts])
  unfold State.publishAll
  refine key _ (h.askAll _ ?_ _ (h.askAll _ ?_ s hs)) <;>
    (intro a ha; obtain ⟨x, _, rfl⟩ := List.mem_map.mp ha; rfl)

theorem sweepEnds (h : Kept P) (s : State) (hs : P s) : P s.sweepEnds := by
  have h1 : P { s with intake := { s.intake with position := none } } := h.table s _ rfl rfl rfl hs
  unfold State.sweepEnds
  dsimp only
  split
  exacts [h.furtherSweep _ (h.publishAll _ h1), h.furtherSweep _ h1, h1, h1, h1, h1]

theorem advanceSweep (h : Kept P) (s : State) (hs : P s) : P s.advanceSweep := by
  unfold State.advanceSweep
  (repeat' split) <;> first
    | exact h.sweepStopped s hs
    | with_reducible exact h.sweepEnds s hs
    | with_reducible exact hs
    | exact h.table s _ rfl rfl rfl hs

theorem globalOutcome (h : Kept P) (s : State) (o : GlobalOutcome) (seq : Word) (hs : P s) : P (s.globalOutcome o seq) :=
  h.ask _ _ rfl (h.writer s _ rfl rfl hs)

theorem raiseIntake (h : Kept P) (s : State) (hs : P s) : P s.raiseIntake := h.free hs (by constructor <;> simp [freeParts])

theorem takeGlobal (h : Kept P) (s : State) (hs : P s) : P s.takeGlobal := by
  have h1 : P { s with intake := { s.intake with lastGlobal := some (readGlobal s.mem).seq } } := h.table s _ rfl rfl rfl hs
  unfold State.takeGlobal
  dsimp only
  (repeat' split)
  · exact h.globalOutcome _ _ _ (h.raiseIntake _ h1)
  · exact h.globalOutcome _ _ _ (h.accept _ (readGlobal s.mem) (by simp_all) h1)
  · exact hs

theorem takeSlot (h : Kept P) (s : State) (i : Fin 32) (hs : P s) : P (s.takeSlot i) := by
  unfold State.takeSlot
  split
  · rename_i hc
    exact h.place _ _ (h.takeCommand { s with mem := s.mem.writeWord (slotAddr i 0) 2 } i _ hc.2 (h.store s _ _ hs))
  · exact hs

theorem shelfConfiguredAny (h : Kept P) (s : State) (i cfg out seq) (hs : P s) : P (s.shelfConfigured i cfg out seq) := by
  have h1 := h.shelfConfigured (s.settle i) i cfg out seq (s.settle_notEvaluating i) (h.settle s i hs)
  unfold State.shelfConfigured at h1 ⊢
  rw [State.settle_of_notEvaluating (s.settle_notEvaluating i)] at h1
  exact h1

theorem takeShelfConfig (h : Kept P) (s : State) (i : Fin 32) (hs : P s) : P (s.takeShelfConfig i) := by
  have h1 : P (s.setLastShelfConfig i (some (readShelfConfig s.mem i).seq)) := h.table s _ rfl rfl rfl hs
  unfold State.takeShelfConfig
  dsimp only
  (repeat' split)
  · exact h.place _ _ (h.outcome _ i _ _ (State.settle_notEvaluating _ i) (h.settle _ i (h.raiseIntake _ h1)))
  · exact h.shelfConfiguredAny _ _ _ _ _ h1
  · exact hs

theorem takeCandConfig (h : Kept P) (s : State) (k : Fin 256) (hs : P s) : P (s.takeCandConfig k) := by
  have h1 : P (s.setLastCandConfig k (some (readCandConfig s.mem k).seq)) := h.table s _ rfl rfl rfl hs
  unfold State.takeCandConfig
  dsimp only
  (repeat' split)
  · exact h.candRefused _ _ _ (h.raiseIntake _ h1)
  · exact h.candConfigured _ _ _ _ h1
  · exact hs

theorem reported (h : Kept P) (s : State) (i : Fin 32) (r : Report) (hs : P s) : P (s.reported i r) := by
  have h1 := h.settle s i hs
  have hn := s.settle_notEvaluating i
  unfold State.reported
  dsimp only
  apply h.place
  (repeat' split) <;> first
    | exact h.lock _ i hn ‹_› h1
    | exact h.loseLock _ i hn ‹_› h1
    | exact h1

theorem takeReport (h : Kept P) (s : State) (i : Fin 32) (hs : P s) : P (s.takeReport i) := by
  have h1 : P (s.setLastReport i (some (readReport s.mem i).seq)) := h.table s _ rfl rfl rfl hs
  unfold State.takeReport
  dsimp only
  split
  · exact h.reported _ _ _ h1
  · exact hs

theorem takeObs (h : Kept P) (s : State) (k : Fin 256) (hs : P s) : P (s.takeObs k) := by
  have h1 : P (s.setLastObs k (some (readObservation s.mem k).seq)) := h.table s _ rfl rfl rfl hs
  unfold State.takeObs
  dsimp only
  split
  · exact h.observation _ _ _ h1
  · exact hs

theorem intakeRow (h : Kept P) (s : State) (fits : Bool) (ph : Phase) (act : State → State)
    (hact : ∀ s, s.arbiter.owner = .intake → P s → P (act s)) (hs : P s) : P (s.intakeRow fits ph act) := by
  have h1 : P s.requestIntake := h.requestIntake s hs
  unfold State.intakeRow
  cases ph <;> (repeat' split) <;> first
    | exact h1
    | exact hact _ ‹_› h1
    | exact hact _ ‹_› hs
    | exact hs

theorem sweepTransaction (h : Kept P) (s : State) (f : State → State) (hf : ∀ s, P s → P (f s))
    (hp : ∀ s, (f s).arbiter = s.arbiter) (ho : s.arbiter.owner = .intake) (hs : P s) : P (s.sweepTransaction f) := by
  unfold State.sweepTransaction
  exact h.endStopping _ (h.releaseRecord _ (by simp [hp, ho]) (h.advanceSweep _ (hf s hs)))

theorem stepOne (h : Kept P) (s : State) (hs : P s) : P s.stepOne := by
  unfold State.stepOne
  dsimp only
  (repeat' split)
  · rename_i hr
    have h1 : P { s with intake := { s.intake with lastGlobal := some (readGlobal s.mem).seq } } :=
      h.table s _ rfl rfl rfl hs
    have h2 := h.globalOutcome _ (readGlobal s.mem).outcome (readGlobal s.mem).seq h1
    have h3 := h.outOfServices (fallen (readGlobal s.mem).values.shelfCount s.intake.applied.shelfCount) _
      (h.applyRead _ (readGlobal s.mem) (by simp_all) h2)
    exact h.free (h.rebase _ h3) (by constructor <;> simp [freeParts, State.startWith, State.applyGlobals])
  · have h1 : P (({ s with haltCause := .layout, run := false } : State).raiseHalt) :=
      h.free hs (by constructor <;> simp [freeParts])
    unfold State.layoutHalt
    dsimp only
    split
    · exact h.free h1 (by constructor <;> simp [freeParts])
    · exact h.enterHalted _ h1
  · exact hs

theorem afterSlot (h : Kept P) (s : State) (i : Fin 32) (hs : P s) : P (s.afterSlot i) := by
  unfold State.afterSlot
  split
  · exact h.free hs (by constructor <;> simp [freeParts])
  · exact h.startSweep _ (h.free (h.ask s .logControl rfl hs) (by constructor <;> simp [freeParts]))

/-! ### The Result Writer -/

/-- The end of the transaction of the item at the head of the write list. -/
theorem itemEnds (h : Kept P) (s : State) (item : WriteItem) (ho : s.arbiter.owner = .writer .item) (hs : P s) :
    P { s.writeItem item with arbiter := { s.arbiter with owner := .none } } :=
  h.served _ ho (h.accesses _ s hs)

theorem slotExamined (h : Kept P) (s : State) (i : Fin 32) (hs : P s) : P (s.slotExamined i) := by
  have h1 := h.accesses (s.abortAccesses i) s hs
  unfold State.slotExamined
  dsimp only
  split
  · exact h.free h1 (by constructor <;> simp [freeParts])
  · exact h1

theorem writerRow (h : Kept P) (s : State) (ph : Phase) (act : State → State)
    (hact : ∀ s, s.arbiter.owner = .writer .item → P s → P (act s).releaseRecord) (hs : P s) : P (s.writerRow ph act) := by
  have h1 : s.servesList = true → P (s.requestWriter .item) := by
    intro hl
    refine h.requestWriter s _ (fun _ => ?_) hs
    unfold State.servesList State.writerJob at hl
    (repeat' split at hl) <;> simp_all
  unfold State.writerRow
  cases ph <;> dsimp only <;> (repeat' split) <;> first
    | exact h1 ‹_›
    | exact hact _ ‹_› (h1 ‹_›)
    | exact hact _ ‹_› hs
    | exact hs

theorem writeRunCtl (h : Kept P) (s : State) (w : Word) (n : Nat) (hs : P s) : P (s.writeRunCtl w n) := by
  have hans : P (s.answer none false) := h.free hs (by constructor <;> simp [freeParts])
  unfold State.writeRunCtl
  dsimp only
  (repeat' split)
  · exact hans
  · exact h.fullReset _ _ hans
  · unfold State.runCtlBits
    (repeat' split)
    · exact h.restart _ _ (h.free hans (by constructor <;> simp [freeParts]))
    · exact h.sweepRequest _ (h.writeRun _ _ hans)
    · exact h.writeRun _ _ hans

theorem registerAccess (h : Kept P) (s : State) (reg : BitVec 14) (op : BusOp) (hs : P s) : P (s.registerAccess reg op) := by
  unfold State.registerAccess
  cases op <;> dsimp only <;> (repeat' split) <;> first
    | exact h.writeRunCtl _ _ _ hs
    | exact h.free hs (by constructor <;> simp [freeParts])

theorem takeShelf (h : Kept P) (s : State) (hs : P s) : P s.takeShelf := by
  unfold State.takeShelf
  split
  · rename_i i rest hq _
    split
    · have h1 := h.begins s i rest hq hs
      exact h.free h1 (by constructor <;> simp [freeParts]; rfl)
    · exact hs
  · exact hs

theorem finishEvaluation (h : Kept P) (s : State) (hs : P s) : P s.finishEvaluation := by
  unfold State.finishEvaluation
  split
  · exact h.endStopping _ (h.endEvaluation s _ ‹_› hs)
  · exact hs

theorem shelfResultWritten (h : Kept P) (s : State) (i : Fin 32) (ho : s.arbiter.owner = .writer .item) (hs : P s) :
    P (s.shelfResultWritten i).releaseRecord := by
  have h1 := h.advance _ (h.itemEnds s (.shelfResult i) ho hs)
  generalize hu : ({ s.writeItem (.shelfResult i) with arbiter := { s.arbiter with owner := .none } } : State).advancePublication =
    u at h1
  have h2 := h.writer u { u.writer with written := s.writer.written.set i s.shelves[i].published.state } rfl rfl h1
  subst hu
  exact h.released _ (h.free h2 (by constructor <;> simp [freeParts, State.shelfResultWritten]))

theorem candResultWritten (h : Kept P) (s : State) (k : Fin 256) (ho : s.arbiter.owner = .writer .item) (hs : P s) :
    P (s.candResultWritten k).releaseRecord := h.released _ (h.advance _ (h.itemEnds s (.candResult k) ho hs))

theorem logControlWritten (h : Kept P) (s : State) (ho : s.arbiter.owner = .writer .item) (hs : P s) :
    P s.logControlWritten.releaseRecord := h.released _ (h.advance _ (h.itemEnds s .logControl ho hs))

theorem logEntryWritten (h : Kept P) (s : State) (e : LogEntry) (ho : s.arbiter.owner = .writer .item) (hs : P s) :
    P (s.logEntryWritten e).releaseRecord := by
  have h1 := h.itemEnds s (.logEntry e) ho hs
  generalize hu : ({ s.writeItem (.logEntry e) with arbiter := { s.arbiter with owner := .none } } : State) = u at h1
  have h2 := h.ask _ .logControl rfl
    (h.writer u { u.writer with loggedEntry := e.number + 1, lastEntryTime := e.time } rfl rfl h1)
  subst hu
  exact h.released _ (h.free h2 (by constructor <;> simp [freeParts, State.logEntryWritten]))

theorem completionMade (h : Kept P) (s : State) (i : Fin 32) (o : CmdOutcome) (ho : s.arbiter.owner = .writer .item)
    (hs : P s) : P (s.completionMade i o).releaseRecord :=
  h.released _ (h.free (h.itemEnds s (.completion i o) ho hs) (by constructor <;> simp [freeParts, State.completionMade]))

theorem endAbort (h : Kept P) (s : State) (i : Fin 32) (live : Bool) (ho : s.arbiter.owner ≠ .writer .item) (hs : P s) :
    P (s.endAbort i live) := by
  have h1 := h.slotExamined s i hs
  unfold State.endAbort
  refine h.releaseRecord _ ?_ ?_
  · split <;> simpa using ho
  · split
    · exact h.afterSlot _ _ h1
    · exact h1

/-- The rows of a sweep. -/
theorem sweepRow (h : Kept P) (s : State) (fits : Bool) (ph : Phase) (f : State → State) (hf : ∀ s, P s → P (f s))
    (hp : ∀ s, (f s).arbiter = s.arbiter) (hs : P s) : P (s.intakeRow fits ph (fun s => s.sweepTransaction f)) :=
  h.intakeRow s fits ph _ (fun s ho hs => h.sweepTransaction s f hf hp ho hs) hs

/-- The expiry of a shelf deadline, an evaluation of the shelf being let end first. -/
theorem shelfExpiry (h : Kept P) (s : State) (i : Fin 32) (p q : Prop) [Decidable p] [Decidable q] (f : State → State)
    (hf : q → P (s.settle i) → P (f (s.settle i))) (hs : P s) :
    P (if p then (if q then f (s.settle i) else s.settle i) else s) := by
  have h1 := h.settle s i hs
  (repeat' split) <;> first | exact hf ‹_› h1 | exact h1 | exact hs

/-- Every command keeps what every event keeps. -/
theorem exec (h : Kept P) (c : Instr) (s t : State) (ht : Machine.exec c s = .next t) (hs : P s) : P t := by
  cases c with
  | powerOn => cases ht; exact h.powerOn s hs
  | resetN n => cases ht; exact h.free (h.fullReset s n hs) (by constructor <;> simp [freeParts])
  | resetNRelease => cases ht; exact h.free hs (by constructor <;> simp [freeParts])
  | fullReset w n => cases ht; exact h.writeRunCtl s w n hs
  | restart w n => cases ht; exact h.writeRunCtl s w n hs
  | runSet w => cases ht; exact h.writeRunCtl s w 0 hs
  | runClear w => cases ht; exact h.writeRunCtl s w 0 hs
  | sweepNow w => cases ht; exact h.writeRunCtl s w 0 hs
  | attnWrite w => cases ht; exact h.free hs (by constructor <;> simp [freeParts])
  | shelfChgWrite w => cases ht; exact h.free hs (by constructor <;> simp [freeParts])
  | attnEnWrite w => cases ht; exact h.free hs (by constructor <;> simp [freeParts])
  | msclkLRead => cases ht; exact h.free hs (by constructor <;> simp [freeParts])
  | registerWriteRefused reg op => cases ht; exact h.registerAccess s reg op hs
  | hostMemoryAccess a ph =>
    have hreq : P (s.requestHost a) := h.requestHost s a hs
    cases ph <;> cases ht
    exacts [h.finishHost _ _ hreq, hreq, h.finishHost _ _ hs]
  | tick => cases ht; split; exacts [hs, h.tick s hs]
  | reportDeadlineExpiry k => cases ht; split; exacts [h.reportExpiry s k hs, hs]
  | holdOffExpiry k => cases ht; split; exacts [h.holdOff s k (by simp_all) hs, hs]
  | wtrExpiry k => cases ht; split; exacts [h.wtr s k (by simp_all) hs, hs]
  | acquisitionExpiry i =>
    cases ht
    refine h.shelfExpiry s i _ _ (fun s => s.acquisitionFails i) (fun hq h1 => ?_) hs
    exact h.acquisitionFails _ i (s.settle_notEvaluating i) hq.1 h1
  | learningExpiry i =>
    cases ht
    refine h.shelfExpiry s i _ _ (fun s => s.learned i) (fun hq h1 => ?_) hs
    exact h.learned _ i (s.settle_notEvaluating i) hq.1 h1
  | holdoverDeadlineExpiry i =>
    cases ht
    refine h.shelfExpiry s i _ _ (fun s => s.holdoverExpires i) (fun hq h1 => ?_) hs
    exact h.holdoverExpires _ i (s.settle_notEvaluating i) hq.1 h1
  | sweepDeadlineExpiry => cases ht; split; exacts [h.sweepRequest _ (h.noDeadline s hs), hs]
  | globalRecord ph => cases ht; exact h.sweepRow s _ ph _ h.takeGlobal (by simp) hs
  | commandTake ph =>
    simp only [Machine.exec, execCommandTake] at ht
    split at ht <;> cases ht
    exacts [h.sweepRow s _ ph _ (fun s hs => h.takeSlot s _ hs) (by simp) hs, hs]
  | shelfConfiguration ph =>
    simp only [Machine.exec, execShelfConfiguration] at ht
    split at ht <;> cases ht
    exacts [h.sweepRow s _ ph _ (fun s hs => h.takeShelfConfig s _ hs) (by simp) hs, hs]
  | candidateConfiguration ph =>
    simp only [Machine.exec, execCandidateConfiguration] at ht
    split at ht <;> cases ht
    exacts [h.sweepRow s _ ph _ (fun s hs => h.takeCandConfig s _ hs) (by simp) hs, hs]
  | shelfReport ph =>
    simp only [Machine.exec, execShelfReport] at ht
    split at ht <;> cases ht
    exacts [h.sweepRow s _ ph _ (fun s hs => h.takeReport s _ hs) (by simp) hs, hs]
  | observation ph =>
    simp only [Machine.exec, execObservation] at ht
    split at ht <;> cases ht
    exacts [h.sweepRow s _ ph _ (fun s hs => h.takeObs s _ hs) (by simp) hs, hs]
  | acquisitionFailureRequest k =>
    cases ht; split
    exacts [h.takeRequest s _ hs, hs]
  | lockLostRequest k =>
    cases ht; split
    exacts [h.takeRequest s _ hs, hs]
  | clearWtrRequest k =>
    cases ht; split
    exacts [h.takeRequest s _ hs, hs]
  | evaluation ph =>
    cases ph <;> cases ht
    · split
      exacts [hs, h.finishEvaluation _ (h.takeShelf s hs)]
    · exact h.takeShelf s hs
    · exact h.finishEvaluation s hs
  | shelfResultWrite ph =>
    simp only [Machine.exec, execShelfResultWrite] at ht
    split at ht <;> cases ht
    exacts [h.writerRow s ph _ (fun s ho hs => h.shelfResultWritten s _ ho hs) hs, hs]
  | candidateResultWrite ph =>
    simp only [Machine.exec, execCandidateResultWrite] at ht
    split at ht <;> cases ht
    exacts [h.writerRow s ph _ (fun s ho hs => h.candResultWritten s _ ho hs) hs, hs]
  | logEntryWrite ph =>
    simp only [Machine.exec, execLogEntryWrite] at ht
    split at ht <;> cases ht
    exacts [h.writerRow s ph _ (fun s ho hs => h.logEntryWritten s _ ho hs) hs, hs]
  | logControlWrite ph =>
    simp only [Machine.exec, execLogControlWrite] at ht
    split at ht <;> cases ht
    exacts [h.writerRow s ph _ (fun s ho hs => h.logControlWritten s ho hs) hs, hs]
  | commandCompletion ph =>
    simp only [Machine.exec, execCommandCompletion] at ht
    split at ht <;> cases ht
    exacts [h.writerRow s ph _ (fun s ho hs => h.completionMade s _ _ ho hs) hs, hs]
  | abortedCompletion ph =>
    have hf : ∀ t : State, P t → P (match t.arbiter.owner with
        | .writer (.abort i live) => t.endAbort i live
        | .none | .localBus | .intake | .writer .item => t) := by
      intro t ht1
      split
      · exact h.endAbort t _ _ (by simp [*]) ht1
      all_goals exact ht1
    have hr : P (match s.engine with
        | .starting (.slots i) => s.requestWriter (.abort i true)
        | .starting .readGlobal | .starting .sweep | .halted | .running | .stopping => s) := by
      split
      · exact h.requestWriter s _ (by simp) hs
      all_goals exact hs
    cases ph <;> simp only [Machine.exec, execAbortedCompletion] at ht <;> cases ht
    exacts [hf _ hr, hr, hf _ hs]
  | startupGlobalRead ph =>
    cases ht
    exact h.intakeRow s _ ph _
      (fun s ho hs => h.endStopping _ (h.releaseRecord _ (by simp [ho]) (h.stepOne s hs))) hs

/-- Every step keeps what every event keeps. -/
theorem step (h : Kept P) (s t : State) (ht : Machine.step s = .next t) (hs : P s) : P t := by
  unfold Machine.step at ht
  split at ht
  · cases ht
    unfold State.clockCycle
    (repeat' split) <;> first
      | exact h.count s ‹_› hs
      | exact h.tick s hs
      | exact hs
  · exact h.exec _ _ _ ht (h.free hs (by constructor <;> simp [freeParts]))

end Kept

end Sys2Proof.Machine
end

