-- ==== Sys2Proof/Laws/Memory.lean ====
section
/-! SUPPORT. The Exchange Memory: every operation keeps the canonical form, and a read after a write. -/

namespace Sys2Proof.Machine

/-! ### Bytes -/

theorem Memory.wfFrom_mono {lo lo' : Nat} {m : Memory} (h : lo' ≤ lo) (hm : m.wfFrom lo = true) : m.wfFrom lo' = true := by
  cases m with
  | nil => rfl
  | cons c rest => simp [Memory.wfFrom] at hm ⊢; exact ⟨⟨⟨by omega, hm.1.1.2⟩, hm.1.2⟩, hm.2⟩

/-- Below the first listed offset every byte reads as unlisted. -/
theorem Memory.readByte_below {lo a : Nat} {m : Memory} (hm : m.wfFrom lo = true) (h : a < lo) :
    m.readByte a = Memory.unlisted := by
  induction m generalizing lo with
  | nil => rfl
  | cons c rest ih =>
    simp [Memory.wfFrom] at hm
    rw [Memory.readByte, if_neg (by omega)]
    exact ih hm.2 (by omega)

theorem Memory.wfFrom_writeByte {lo a : Nat} {m : Memory} (hm : m.wfFrom lo = true) (hlo : lo ≤ a) (ha : a < 65536)
    (v : Byte) : (m.writeByte a v).wfFrom lo = true := by
  induction m generalizing lo with
  | nil => unfold Memory.writeByte; split <;> simp_all [Memory.wfFrom]
  | cons c rest ih =>
    obtain ⟨b, w⟩ := c
    simp [Memory.wfFrom] at hm
    unfold Memory.writeByte
    split
    · split
      · simp [Memory.wfFrom, hm]
      · rename_i hv; simp [Memory.wfFrom, hm, hlo, ha, hv]; omega
    · split
      · rename_i hb
        split
        · exact Memory.wfFrom_mono (by omega) hm.2
        · rename_i hv; subst hb; simp [Memory.wfFrom, hm, hv]
      · simp [Memory.wfFrom, hm]; exact ih hm.2 (by omega)

/-- The canonical form survives the write of a byte. -/
theorem Memory.wf_writeByte {m : Memory} (hm : m.wf = true) {a : Nat} (ha : a < 65536) (v : Byte) :
    (m.writeByte a v).wf = true := Memory.wfFrom_writeByte hm (Nat.zero_le _) ha v

theorem Memory.readByte_writeByte_from {lo : Nat} {m : Memory} (hm : m.wfFrom lo = true) (a b : Nat) (v : Byte) :
    (m.writeByte a v).readByte b = if a = b then v else m.readByte b := by
  induction m generalizing lo with
  | nil => unfold Memory.writeByte; split <;> simp_all [Memory.readByte] <;> grind
  | cons c rest ih =>
    obtain ⟨c, w⟩ := c
    simp [Memory.wfFrom] at hm
    have hbelow : ∀ x, x ≤ c → Memory.readByte rest x = Memory.unlisted :=
      fun x hx => Memory.readByte_below hm.2 (by omega)
    unfold Memory.writeByte
    split
    · split
      · rename_i hac hv
        by_cases hb : a = b
        · subst hb; simp [Memory.readByte, hv, Nat.ne_of_lt hac, hbelow a (by omega)]
        · simp [hb]
      · by_cases hb : a = b
        · subst hb; simp [Memory.readByte]
        · simp [Memory.readByte, hb, Ne.symm hb]
    · split
      · rename_i hac; subst hac
        split
        · rename_i hv
          by_cases hb : a = b
          · subst hb; simp [hv, hbelow a (le_refl _)]
          · simp [Memory.readByte, hb, Ne.symm hb]
        · by_cases hb : a = b
          · subst hb; simp [Memory.readByte]
          · simp [Memory.readByte, hb, Ne.symm hb]
      · rename_i hac
        by_cases hbc : b = c
        · subst hbc; simp [Memory.readByte, hac]
        · simp [Memory.readByte, hbc, ih hm.2]

/-- A byte read after the write of a byte. -/
theorem Memory.readByte_writeByte {m : Memory} (hm : m.wf = true) (a b : Nat) (v : Byte) :
    (m.writeByte a v).readByte b = if a = b then v else m.readByte b := Memory.readByte_writeByte_from hm a b v

/-! ### Words -/

/-- The canonical form survives the write of a word. -/
theorem Memory.wf_writeWord {m : Memory} (hm : m.wf = true) (w : BitVec 14) (v : Word) : (m.writeWord w v).wf = true := by
  have := w.isLt
  unfold Memory.writeWord
  exact Memory.wf_writeByte (Memory.wf_writeByte (Memory.wf_writeByte (Memory.wf_writeByte hm (by omega) _) (by omega) _)
    (by omega) _) (by omega) _

/-- A byte read after the write of a word. -/
theorem Memory.readByte_writeWord {m : Memory} (hm : m.wf = true) (w : BitVec 14) (v : Word) (b : Nat) :
    (m.writeWord w v).readByte b =
      if b = 4 * w.toNat + 3 then v.extractLsb' 24 8
      else if b = 4 * w.toNat + 2 then v.extractLsb' 16 8
      else if b = 4 * w.toNat + 1 then v.extractLsb' 8 8
      else if b = 4 * w.toNat then v.extractLsb' 0 8
      else m.readByte b := by
  have := w.isLt
  have h0 := Memory.wf_writeByte hm (a := 4 * w.toNat) (by omega) (v.extractLsb' 0 8)
  have h1 := Memory.wf_writeByte h0 (a := 4 * w.toNat + 1) (by omega) (v.extractLsb' 8 8)
  have h2 := Memory.wf_writeByte h1 (a := 4 * w.toNat + 2) (by omega) (v.extractLsb' 16 8)
  unfold Memory.writeWord
  rw [Memory.readByte_writeByte h2, Memory.readByte_writeByte h1, Memory.readByte_writeByte h0,
    Memory.readByte_writeByte hm]
  simp only [eq_comm]

/-- A byte outside the four of the written word keeps its value. -/
theorem Memory.readByte_writeWord_other {m : Memory} (hm : m.wf = true) (w : BitVec 14) (v : Word) {b : Nat}
    (hb : b / 4 ≠ w.toNat) : (m.writeWord w v).readByte b = m.readByte b := by
  rw [Memory.readByte_writeWord hm]
  split_ifs <;> first | omega | rfl

theorem word_of_bytes (v : Word) :
    v.extractLsb' 24 8 ++ v.extractLsb' 16 8 ++ v.extractLsb' 8 8 ++ v.extractLsb' 0 8 = v := by
  ext i hi
  simp [BitVec.getElem_append]
  grind

/-- A word read after the write of a word. -/
theorem Memory.readWord_writeWord {m : Memory} (hm : m.wf = true) (w w' : BitVec 14) (v : Word) :
    (m.writeWord w v).readWord w' = if w = w' then v else m.readWord w' := by
  have hne : w.toNat = w'.toNat ↔ w = w' := BitVec.toNat_inj
  unfold Memory.readWord
  simp only [Memory.readByte_writeWord hm]
  by_cases h : w = w'
  · subst h
    simp only [if_pos]
    have e : ∀ x : Nat, (x + 2 = x + 3) = False ∧ (x + 1 = x + 3) = False ∧ (x + 1 = x + 2) = False ∧
      (x = x + 3) = False ∧ (x = x + 2) = False ∧ (x = x + 1) = False := by simp
    simp only [e, if_false, if_true]
    exact word_of_bytes v
  · have hn : w.toNat ≠ w'.toNat := fun e => h (hne.mp e)
    rw [if_neg h]
    have f1 : ∀ p q : Nat, p < 4 → q < 4 → (4 * w'.toNat + p = 4 * w.toNat + q) = False := by
      intro p q hp hq; simp only [eq_iff_iff, iff_false]; omega
    have a1 := f1 0 0 (by omega) (by omega)
    have a2 := f1 0 1 (by omega) (by omega)
    have a3 := f1 0 2 (by omega) (by omega)
    have a4 := f1 0 3 (by omega) (by omega)
    have a5 := fun p (hp : p < 4) => f1 p 0 hp (by omega)
    simp only [Nat.add_zero] at a1 a2 a3 a4 a5
    simp only [f1 3 3, f1 3 2, f1 3 1, a5 3, f1 2 3, f1 2 2, f1 2 1, a5 2, f1 1 3, f1 1 2, f1 1 1, a5 1, a1, a2, a3, a4,
      Nat.lt_add_one, Nat.reduceLT, if_false]

/-! ### Several words -/

/-- The word that a list of accesses writes last at a word address, if any writes there. -/
def lastWrite : List WordAccess → BitVec 14 → Option Word
  | [], _ => none
  | some (w, v) :: rest, a => (lastWrite rest a).or (if w = a then some v else none)
  | none :: rest, a => lastWrite rest a

theorem Memory.makeAccesses_cons_none (m : Memory) (as : List WordAccess) :
    m.makeAccesses (none :: as) = m.makeAccesses as := rfl

theorem Memory.makeAccesses_cons_some (m : Memory) (w : BitVec 14) (v : Word) (as : List WordAccess) :
    m.makeAccesses (some (w, v) :: as) = (m.writeWord w v).makeAccesses as := rfl

/-- The canonical form survives a transaction. -/
theorem Memory.wf_makeAccesses {m : Memory} (hm : m.wf = true) (as : List WordAccess) : (m.makeAccesses as).wf = true := by
  induction as generalizing m with
  | nil => exact hm
  | cons a as ih =>
    cases a with
    | none => exact ih hm
    | some p => exact ih (Memory.wf_writeWord hm p.1 p.2)

/-- A word read after a transaction: the last word written there, or what was there. -/
theorem Memory.readWord_makeAccesses {m : Memory} (hm : m.wf = true) (as : List WordAccess) (a : BitVec 14) :
    (m.makeAccesses as).readWord a = (lastWrite as a).getD (m.readWord a) := by
  induction as generalizing m with
  | nil => rfl
  | cons x as ih =>
    cases x with
    | none => rw [Memory.makeAccesses_cons_none, ih hm]; rfl
    | some p =>
      obtain ⟨w, v⟩ := p
      rw [Memory.makeAccesses_cons_some, ih (Memory.wf_writeWord hm w v), Memory.readWord_writeWord hm, lastWrite]
      cases lastWrite as a with
      | some x => rfl
      | none => by_cases h : w = a <;> simp [h]

/-- A byte outside the words that a transaction writes keeps its value. -/
theorem Memory.readByte_makeAccesses_other {m : Memory} (hm : m.wf = true) (as : List WordAccess) {b : Nat}
    (hb : ∀ w v, some (w, v) ∈ as → b / 4 ≠ w.toNat) : (m.makeAccesses as).readByte b = m.readByte b := by
  induction as generalizing m with
  | nil => rfl
  | cons x as ih =>
    have hb' : ∀ w v, some (w, v) ∈ as → b / 4 ≠ w.toNat := fun w v h => hb w v (List.mem_cons_of_mem _ h)
    cases x with
    | none => exact ih hm hb'
    | some p =>
      obtain ⟨w, v⟩ := p
      rw [Memory.makeAccesses_cons_some, ih (Memory.wf_writeWord hm w v) hb',
        Memory.readByte_writeWord_other hm _ _ (hb w v List.mem_cons_self)]

/-- The canonical form of a memory made of any cells. -/
theorem Memory.wf_ofCells (cells : List Host.Cell) : (Memory.ofCells cells).wf = true := by
  have h : ∀ (l : List Host.Cell) (m : Memory), m.wf = true →
      Memory.wf (l.foldl (fun m c => if c.1 < 65536 then m.writeByte c.1 c.2 else m) m) = true := by
    intro l
    induction l with
    | nil => exact fun _ h => h
    | cons c l ih =>
      intro m hm
      rw [List.foldl_cons]
      apply ih
      split
      · exact Memory.wf_writeByte hm ‹_› _
      · exact hm
  exact h cells [] rfl

/-- The canonical form survives a cut transaction (R146). -/
theorem State.wf_cutMemory {s : State} (hm : s.mem.wf = true) (made : Nat) : (s.cutMemory made).wf = true := by
  unfold State.cutMemory
  (repeat' split) <;> first | exact Memory.wf_makeAccesses hm _ | exact hm

end Sys2Proof.Machine
end

