-- ==== Sys2Proof/Laws/Invariants.lean ====
section
/-! SUPPORT. The laws of the device (Sys2Proof/Safety.lean): each event of the part keeps them. -/

namespace Sys2Proof.Machine

/-! ### The memory -/

/-- The memory stays in its canonical form. -/
theorem memoryLaw_kept : Kept MemoryLaw := by
  constructor
  case congr => intro s t hk hs; unfold MemoryLaw at *; rw [hk.mem.resolve_left (by decide)]; exact hs
  case store => intro s w v hs; exact Memory.wf_writeWord hs w v
  case powerOn => intro s _; exact Memory.wf_ofCells _
  case fullReset => intro s n hs; exact State.wf_cutMemory hs n
  case restart => intro s n hs; exact State.wf_cutMemory hs n
  all_goals intros; simp_all [MemoryLaw]

/-! ### The queue, the publication counter, the global values -/

theorem GlobalRecord.values_range {r : GlobalRecord} (h : r.refused = false) :
    (1 ≤ r.values.shelfCount ∧ r.values.shelfCount ≤ 32) ∧ 10 ≤ r.values.period ∧ r.values.period ≤ 1000 := by
  simp [GlobalRecord.refused, GlobalRecord.values, clamp] at *
  omega

theorem endEvaluation_queue (s : State) (e : EvalInputs) (h : s.queue.Nodup) : (s.endEvaluation e).queue.Nodup := by
  simp only [State.endEvaluation]
  (repeat' split) <;> simp <;> first | exact nodup_joinedAll h _ | exact h

theorem RangeLaw.of {s t : State} (hs : RangeLaw s) (h1 : t.queue.Nodup) (h2 : t.writer.publication ≠ 0)
    (h3 : t.intake = s.intake) : RangeLaw t := ⟨h1, h2, h3 ▸ hs.applied, h3 ▸ hs.pending⟩

theorem RangeLaw.candEvent {s : State} (hs : RangeLaw s) (k : Fin 256) (c : Candidate) : RangeLaw (s.candEvent k c) :=
  hs.of (by simpa using nodup_joined hs.queue _) (by simpa using hs.publication) (by simp)

theorem RangeLaw.shelfConfigured {s : State} (hs : RangeLaw s) {i : Fin 32} (hn : s.notEvaluating i) (cfg : ShelfConfig)
    (out : CfgOutcome) (seq : Word) : RangeLaw (s.shelfConfigured i cfg out seq) := by
  have hj := nodup_joined (State.setMonitoring_nodup (s.setShelf i (s.shelves[i].applyConfig cfg out seq)) i cfg.monitor
    (by simpa using hs.queue)) i
  have hp := hs.publication
  rcases State.shelfConfigured_cases hn cfg out seq with ⟨_, _, h⟩ | ⟨_, _, h⟩ | ⟨_, _, h⟩ | ⟨_, _, h⟩ <;> rw [h] <;>
    exact hs.of (by simpa using hj) (by simpa using hp) (by simp)

theorem rangeLaw_kept : Kept RangeLaw := by
  constructor
  case congr =>
    intro s t hk hs
    exact ⟨by rw [hk.queue.resolve_left (by decide)]; exact hs.queue,
      by rw [hk.writer.resolve_left (by decide)]; exact hs.publication,
      by rw [hk.intake.resolve_left (by decide)]; exact hs.applied,
      by rw [hk.intake.resolve_left (by decide)]; exact hs.pending⟩
  case ask => intro s item _ hs; exact hs.of (by simpa using hs.queue) (by simpa using hs.publication) (by simp)
  case place => intro s i hs; exact hs.of (by simpa using nodup_joined hs.queue i) (by simpa using hs.publication) (by simp)
  case advance =>
    intro s hs
    refine hs.of (by simpa using hs.queue) ?_ (by simp)
    have := hs.publication
    simp only [State.advancePublication_writer, nextPublication]
    split
    · decide
    · intro h; bv_omega
  case writer => intro s w h1 h2 hs; exact hs.of hs.queue (by simpa [h2] using hs.publication) rfl
  case table => intro s v h1 h2 h3 hs; exact ⟨hs.queue, hs.publication, by simpa [h1] using hs.applied, by simpa [h2] using hs.pending⟩
  case noPending => intro s hs; exact ⟨hs.queue, hs.publication, hs.applied, by simp⟩
  case noDeadline => intro s hs; exact ⟨hs.queue, hs.publication, hs.applied, hs.pending⟩
  case sweepStart => intro s hs; exact ⟨hs.queue, hs.publication, hs.applied, hs.pending⟩
  case tick => intro s hs; exact ⟨hs.queue, hs.publication, hs.applied, hs.pending⟩
  case accept =>
    intro s r hr hs
    exact ⟨hs.queue, hs.publication, hs.applied, by rintro _ ⟨⟩; exact GlobalRecord.values_range hr⟩
  case applyWaiting =>
    intro s g hg hs
    have := hs.pending g hg
    exact ⟨hs.queue, hs.publication, ⟨this.1.2, this.2⟩, by simp⟩
  case applyRead =>
    intro s r hr hs
    have := GlobalRecord.values_range hr
    exact ⟨hs.queue, hs.publication, ⟨this.1.2, this.2⟩, hs.pending⟩
  case observation => intro s k o hs; rcases s.observation_cases k o with ⟨_, h⟩ | ⟨_, h⟩ <;> rw [h]; exacts [hs, hs.candEvent _ _]
  case reportExpiry =>
    intro s k hs; rcases s.reportExpiry_cases k with h | h <;> rw [h]
    exacts [hs.of (by simpa using hs.queue) (by simpa using hs.publication) (by simp), hs.candEvent _ _]
  case condemn => intro s k hs; rcases s.condemnCand_cases k with h | ⟨c, _, h⟩ <;> rw [h]; exacts [hs, hs.candEvent _ _]
  case holdOff => intro s k _ hs; exact hs.candEvent _ _
  case wtr => intro s k _ hs; exact hs.candEvent _ _
  case candConfigured => intro s k cfg out hs; exact hs.candEvent _ _
  case candRefused => intro s k cause hs; exact hs.candEvent _ _
  case endEvaluation =>
    intro s e _ hs
    exact hs.of (endEvaluation_queue s e hs.queue) (by simpa using hs.publication) (by simp)
  case begins =>
    intro s i rest hq hs
    exact hs.of (by have := hs.queue; rw [hq] at this; exact (List.nodup_cons.mp this).2) hs.publication rfl
  case shelfConfigured => intro s i cfg out seq hn hs; exact hs.shelfConfigured hn _ _ _
  case disable => intro s i _ _ hs; exact hs.of (by simpa using nodup_joined hs.queue i) (by simpa using hs.publication) (by simp)
  case lock => intro s i _ _ hs; exact hs.of (by simpa using hs.queue) (by simpa [State.lockShelf] using hs.publication) (by simp)
  case loseLock =>
    intro s i _ _ hs
    exact hs.of (by simpa using hs.queue) (by simp only [State.loseLock]; split <;> simpa using hs.publication) (by simp)
  case acquisitionFails =>
    intro s i _ _ hs
    exact hs.of (by simpa using nodup_joined hs.queue i)
      (by simp only [State.acquisitionFails]; split <;> simpa using hs.publication) (by simp)
  case learned => intro s i _ _ hs; exact hs.of (by simpa using nodup_joined hs.queue i) (by simpa using hs.publication) (by simp)
  case holdoverExpires =>
    intro s i _ _ hs
    exact hs.of (by simpa using nodup_joined hs.queue i) (by simpa [State.holdoverExpires] using hs.publication) (by simp)
  case powerOn => intro s _; exact ⟨by simp, by simp [Writer.reset], by simp [Intake.reset], by simp [Intake.reset]⟩
  case fullReset => intro s n _; exact ⟨by simp, by simp [Writer.reset], by simp [Intake.reset], by simp [Intake.reset]⟩
  case restart =>
    intro s n hs
    refine ⟨by simp, ?_, by simp [Intake.reset], by simp [Intake.reset]⟩
    have := hs.publication
    simp only [State.restart_writer, State.cutPublication, nextPublication]
    (repeat' split) <;> first | exact this | decide | (intro h; bv_omega)
  all_goals intros; rename_i hs; exact hs.of (by simpa using hs.queue) (by simpa using hs.publication) (by simp)

/-! ### The shelves -/

theorem ShelvesLaw.set {s t : State} (hs : ShelvesLaw s) (i : Fin 32) {sh : Shelf}
    (ht : t.shelves = s.shelves.set i sh) (h : ShelfLaw sh) : ShelvesLaw t := by
  intro j
  rw [ht, set_at]
  split
  · exact h
  · exact hs j

theorem ShelvesLaw.same {s t : State} (hs : ShelvesLaw s) (ht : t.shelves = s.shelves) : ShelvesLaw t := by
  intro j; rw [ht]; exact hs j

theorem ShelfLaw.reset (i : Fin 32) : ShelfLaw (Shelf.reset i) := by constructor <;> simp [Shelf.reset]

/-- The law rests on eight fields of the entry. -/
theorem ShelfLaw.of {a b : Shelf} (h : ShelfLaw a) (h1 : b.selected = a.selected) (h2 : b.state = a.state)
    (h3 : b.historyValid = a.historyValid) (h4 : b.acqDeadline.isSome = a.acqDeadline.isSome)
    (h5 : b.learnDeadline.isSome = a.learnDeadline.isSome) (h6 : b.holdDeadline.isSome = a.holdDeadline.isSome)
    (h7 : b.followed = a.followed) (h8 : b.switchCount = a.switchCount) : ShelfLaw b := by
  constructor
  · rw [h1, h2]; exact h.selection
  · rw [h2, h3]; exact h.held
  · rw [h2, h3]; exact h.clear
  · rw [h2, h4]; exact h.acquisition
  · rw [h2, h3, h5]; exact h.learning
  · rw [h2, h6]; exact h.holdover
  · rw [h2, h7]; exact h.following
  · rw [h8]; exact h.count

theorem ShelfLaw.tick {a : Shelf} (h : ShelfLaw a) (now : Nat) : ShelfLaw (a.tick now) :=
  h.of rfl rfl rfl (by simp [Shelf.tick]) (by simp [Shelf.tick]) (by simp [Shelf.tick]) rfl rfl

theorem ShelfLaw.enableAt {a : Shelf} (h : ShelfLaw a) (ha : a.enabled = false) (now : Nat) : ShelfLaw (a.enableAt now) := by
  have hst : a.state = .disabled := by simpa [Shelf.enabled] using ha
  have h1 := h.selection; have h4 := h.acquisition; have h5 := h.learning; have h6 := h.holdover; have h7 := h.following
  constructor <;> simp_all [Shelf.enableAt]
  exact h.count

theorem ShelfLaw.disableAt {a : Shelf} (h : ShelfLaw a) (now : Nat) : ShelfLaw (a.disableAt now) := by
  constructor <;> simp [Shelf.disableAt]
  exact h.count

theorem ShelfLaw.lock {a : Shelf} (h : ShelfLaw a) (ha : a.state = .acquiring) (now : Nat) : ShelfLaw (a.lock now) := by
  have h1 := h.selection; have h5 := h.learning; have h6 := h.holdover; have h7 := h.following
  constructor <;> simp_all [Shelf.lock]
  exact h.count

theorem ShelfLaw.lapse {a : Shelf} (h : ShelfLaw a) (ha : a.state = .acquiring ∨ a.state = .locked) (now : Nat)
    (r : ChangeReason) : ShelfLaw (a.lapse now r) := by
  have h1 := h.selection; have h6 := h.holdover; have h7 := h.following; have h8 := h.count
  constructor <;> rcases ha with ha | ha <;> simp_all [Shelf.lapse]

theorem ShelfLaw.learned {a : Shelf} (h : ShelfLaw a) (ha : a.state = .locked) :
    ShelfLaw { a with learnDeadline := none, historyValid := true } := by
  have h1 := h.selection; have h4 := h.acquisition; have h6 := h.holdover; have h7 := h.following; have h8 := h.count
  constructor <;> simp_all

theorem ShelfLaw.holdoverEnds {a : Shelf} (h : ShelfLaw a) (ha : a.state = .holdover) (now : Nat) :
    ShelfLaw (a.holdoverEnds now) := by
  have h1 := h.selection; have h4 := h.acquisition; have h5 := h.learning; have h7 := h.following; have h8 := h.count
  constructor <;> simp_all [Shelf.holdoverEnds]

theorem ShelfLaw.acquire {a : Shelf} (now : Nat) (r : ChangeReason) (kind : Kind) (k : Fin 8) (h : ShelfLaw a) :
    ShelfLaw (a.acquire now r kind k) := by
  have h8 := h.count
  constructor <;> simp_all [Shelf.acquire]

theorem ShelfLaw.leave {a : Shelf} (h : ShelfLaw a) (ha : a.state = .acquiring ∨ a.state = .locked) (now : Nat)
    (r : ChangeReason) : ShelfLaw (a.leave now r) := by
  have h6 := h.holdover; have h8 := h.count
  constructor <;> simp only [Shelf.leave] <;> cases hh : a.historyValid <;> rcases ha with ha | ha <;> simp_all

theorem ShelfLaw.applyTarget {a : Shelf} (h : ShelfLaw a) (now : Nat) (r : ChangeReason) (kind : Fin 8 → Kind)
    (t : Option (Fin 8)) : ShelfLaw (a.applyTarget now r kind t).1 := by
  unfold Shelf.applyTarget
  split
  · split
    · exact h.acquire _ _ _ _
    · exact h
  · split <;> first
      | exact h.leave (by simp_all) _ _
      | exact h

theorem ShelfLaw.evaluated {a : Shelf} (h : ShelfLaw a) (e : EvalInputs) : ShelfLaw (e.run a).finalShelf := by
  have key : ShelfLaw (e.run a).shelf := by
    unfold EvalInputs.run
    dsimp only
    refine ShelfLaw.of (ShelfLaw.applyTarget (a := { a with mode := _, lockout := _ }) ?_ e.time _ _ _)
      rfl rfl rfl rfl rfl rfl rfl rfl
    exact h.of rfl rfl rfl rfl rfl rfl rfl rfl
  unfold EvalResult.finalShelf
  split
  · exact key.of rfl rfl rfl rfl rfl rfl rfl rfl
  · exact key

theorem ShelvesLaw.shelfConfigured {s : State} (hs : ShelvesLaw s) {i : Fin 32} (hn : s.notEvaluating i) (cfg : ShelfConfig)
    (out : CfgOutcome) (seq : Word) : ShelvesLaw (s.shelfConfigured i cfg out seq) := by
  have hset : (s.shelves.set i (s.shelves[i].applyConfig cfg out seq))[i] = s.shelves[i].applyConfig cfg out seq := by
    rw [set_at, if_pos rfl]
  have ha : ShelfLaw (s.shelves[i].applyConfig cfg out seq) := (hs i).of rfl rfl rfl rfl rfl rfl rfl rfl
  have hu : ShelvesLaw ((s.setShelf i (s.shelves[i].applyConfig cfg out seq)).setMonitoring i cfg.monitor) :=
    hs.set i (sh := s.shelves[i].applyConfig cfg out seq) (by simp) ha
  have h0' : ∀ t : State, t.shelves = s.shelves.set i (s.shelves[i].applyConfig cfg out seq) →
      t.shelves[i] = s.shelves[i].applyConfig cfg out seq := fun t ht => by rw [ht, hset]
  revert hu
  have hus : ((s.setShelf i (s.shelves[i].applyConfig cfg out seq)).setMonitoring i cfg.monitor).shelves =
    s.shelves.set i (s.shelves[i].applyConfig cfg out seq) := by simp
  rcases State.shelfConfigured_cases hn cfg out seq with ⟨h0, _, h⟩ | ⟨_, _, h⟩ | ⟨h0, _, h⟩ | ⟨_, _, h⟩ <;> rw [h] <;>
    revert hus <;> generalize (s.setShelf i (s.shelves[i].applyConfig cfg out seq)).setMonitoring i cfg.monitor = u <;>
    intro hus hu
  · refine hu.set i (sh := { u.shelves[i] with pendingReason := some .config }) (by simp) ?_
    exact (hu i).of rfl rfl rfl rfl rfl rfl rfl rfl
  · exact hu.set i (State.disableShelf_shelves u i) ((hu i).disableAt _)
  · refine hu.set i (State.enableShelf_shelves u i) ((hu i).enableAt ?_ _)
    rw [h0' u hus]; exact h0
  · exact hu.same (by simp)

theorem shelvesLaw_kept : Kept ShelvesLaw := by
  constructor
  case congr => intro s t hk hs; exact hs.same (hk.shelves.resolve_left (by decide))
  case takeCommand => intro s i c _ hs; exact hs.set i (State.setShelf_shelves s i _) ((hs i).of rfl rfl rfl rfl rfl rfl rfl rfl)
  case outcome => intro s i out seq _ hs; exact hs.set i (State.setShelf_shelves s i _) ((hs i).of rfl rfl rfl rfl rfl rfl rfl rfl)
  case endEvaluation => intro s e _ hs; exact hs.set e.shelf (State.endEvaluation_shelves s e) ((hs e.shelf).evaluated e)
  case shelfConfigured => intro s i cfg out seq hn hs; exact hs.shelfConfigured hn _ _ _
  case disable => intro s i _ _ hs; exact hs.set i (State.disableShelf_shelves s i) ((hs i).disableAt _)
  case lock => intro s i _ h hs; exact hs.set i (State.lockShelf_shelves s i) ((hs i).lock h _)
  case loseLock => intro s i _ h hs; exact hs.set i (State.loseLock_shelves s i) ((hs i).lapse (.inr h) _ _)
  case acquisitionFails => intro s i _ h hs; exact hs.set i (State.acquisitionFails_shelves s i) ((hs i).lapse (.inl h) _ _)
  case learned => intro s i _ h hs; exact hs.set i (State.learned_shelves s i) ((hs i).learned h)
  case holdoverExpires => intro s i _ h hs; exact hs.set i (State.holdoverExpires_shelves s i) ((hs i).holdoverEnds h _)
  case tick => intro s hs i; simp only [State.tickNow]; rw [map_at]; exact (hs i).tick _
  case powerOn => intro s _ i; rw [State.powerOn_shelves, ofFn_at]; exact .reset i
  case fullReset => intro s n _ i; rw [State.fullReset_shelves, ofFn_at]; exact .reset i
  case restart => intro s n _ i; rw [State.restart_shelves, ofFn_at]; exact .reset i
  case observation => intro s k o hs; exact hs.same (by simp)
  case reportExpiry => intro s k hs; exact hs.same (by simp)
  case condemn => intro s k hs; exact hs.same (by simp)
  all_goals intros; rename_i hs; exact hs.same (by simp)

/-! ### Offsets (R48, R49, R52) -/

theorem saturate_bounds (x : Int) : -1000000 ≤ saturate x ∧ saturate x ≤ 1000000 := by
  unfold saturate; omega

theorem rawOffset_bounds (count f gate : Nat) : -1000000 ≤ rawOffset count f gate ∧ rawOffset count f gate ≤ 1000000 :=
  saturate_bounds _

/-- A quotient by a whole number, rounded, is no larger than what was divided. -/
theorem roundDiv_bounds (n : Int) (d : Nat) (hd : 0 < d) :
    (0 ≤ n → 0 ≤ roundDiv n d ∧ roundDiv n d ≤ n) ∧ (n ≤ 0 → n ≤ roundDiv n d ∧ roundDiv n d ≤ 0) := by
  have key : ∀ m : Nat, 0 < m → (2 * m + d) / (2 * d) ≤ m := by
    intro m hm
    rw [Nat.div_le_iff_le_mul_add_pred (by omega)]
    have : d * 1 ≤ d * m := Nat.mul_le_mul_left d hm
    have h2 : m * 1 ≤ m * d := Nat.mul_le_mul_left m hd
    rcases Nat.lt_or_ge 1 d with h | h
    · have : 2 * d * m = d * m + d * m := by ring
      nlinarith
    · have : d = 1 := by omega
      subst this; omega
  unfold roundDiv
  rcases Int.lt_trichotomy n 0 with h | h | h
  · rw [if_pos h]
    have := key n.natAbs (by omega)
    generalize (2 * n.natAbs + d) / (2 * d) = q at *
    omega
  · subst h
    have h0 : (2 * (0 : Int).natAbs + d) / (2 * d) = 0 := by rw [Nat.div_eq_zero_iff]; omega
    rw [if_neg (by omega), h0]
    simp
  · rw [if_neg (by omega)]
    have := key n.natAbs (by omega)
    generalize (2 * n.natAbs + d) / (2 * d) = q at *
    omega

/-- The new average lies between the old average and the raw offset, inclusive of both (R52). -/
theorem updateAverage_bounds (k : Nat) (average : Option Int) (raw : Int) (ha : ∀ a, average = some a → -1000000 ≤ a ∧ a ≤ 1000000)
    (hr : -1000000 ≤ raw ∧ raw ≤ 1000000) :
    -1000000 ≤ updateAverage k average raw ∧ updateAverage k average raw ≤ 1000000 := by
  unfold updateAverage
  split
  · exact hr
  · rename_i a
    have h1 := ha a rfl
    have h2 := roundDiv_bounds (raw - a) (2 ^ k) (Nat.two_pow_pos k)
    have h3 := h2.1
    have h4 := h2.2
    generalize roundDiv (raw - a) (2 ^ k) = q at *
    omega

/-! ### The candidates -/

theorem newest_length (w : Nat) (h : List Bool) : (newest w h).length ≤ w := by
  simp [newest]; omega

/-- What a transition leaves is lawful, whatever the reasons were before it. -/
theorem CandLaw.transition {w : Nat} {c : Candidate} (p : MonitorParams) (now : Nat)
    (hd : c.stateDeadline.isSome = true ↔ (c.state = .suspect ∨ c.state = .restoring))
    (ho : c.state = .off → c.reasons.any = false ∧ c.history = [] ∧ c.received = none ∧ c.average = none ∧ c.lastRaw = none ∧
      c.lastObs = none ∧ c.reportDeadline = none)
    (hw : c.history.length ≤ w) (ha : ∀ a, c.average = some a → -1000000 ≤ a ∧ a ≤ 1000000) :
    CandLaw w (c.transition p now) := by
  cases hs : c.state <;> cases hr : c.reasons.any <;>
    simp only [Candidate.transition, hs, hr, Candidate.suspectOrFail, Candidate.restore] <;> (repeat' split) <;>
    constructor <;> simp_all

theorem CandLaw.transition' {w : Nat} {c c' : Candidate} (h : CandLaw w c) (p : MonitorParams) (now : Nat)
    (h1 : c'.state = c.state) (h2 : c'.stateDeadline = c.stateDeadline)
    (h3 : c.state = .off → c' = c) (h4 : c'.history.length ≤ w)
    (h5 : ∀ a, c'.average = some a → -1000000 ≤ a ∧ a ≤ 1000000) : CandLaw w (c'.transition p now) := by
  refine CandLaw.transition p now (by rw [h1, h2]; exact h.deadline) (fun ho => ?_) h4 h5
  rw [h1] at ho
  rw [h3 ho]
  have h6 := h.reasons
  refine ⟨?_, h.off ho⟩
  cases hr : c.reasons.any <;> simp_all

theorem CandLaw.reset (w : Nat) : CandLaw w Candidate.reset := by
  constructor <;> simp [Candidate.reset, Reasons.any]

/-- The law does not rest on the configuration copy, its outcome or the time of the report deadline. -/
theorem CandLaw.of {w : Nat} {a b : Candidate} (h : CandLaw w a) (h1 : b.state = a.state) (h2 : b.reasons = a.reasons)
    (h3 : b.history = a.history) (h4 : b.received = a.received) (h5 : b.average = a.average) (h6 : b.lastRaw = a.lastRaw)
    (h7 : b.lastObs = a.lastObs) (h8 : b.stateDeadline.isSome = a.stateDeadline.isSome)
    (h9 : a.state = .off → a.reportDeadline = none → b.reportDeadline = none) : CandLaw w b := by
  constructor
  · rw [h1, h2]; exact h.reasons
  · rw [h1, h8]; exact h.deadline
  · rw [h1]
    intro ho
    obtain ⟨a1, a2, a3, a4, a5, a6⟩ := h.off ho
    exact ⟨h3 ▸ a1, h4 ▸ a2, h5 ▸ a3, h6 ▸ a4, h7 ▸ a5, h9 ho a6⟩
  · rw [h3]; exact h.window
  · rw [h5]; exact h.offset

theorem CandLaw.tick {w : Nat} {c : Candidate} (h : CandLaw w c) (now : Nat) : CandLaw w (c.tick now) :=
  h.of rfl rfl rfl rfl rfl rfl rfl (by simp [Candidate.tick]) (by intro _ hr; simp [Candidate.tick, hr])

theorem CandLaw.cleared {w : Nat} (c : Candidate) (st : CandState) (hst : st = .off ∨ st = .unknown) :
    CandLaw w (c.cleared st) := by
  rcases hst with rfl | rfl <;> constructor <;> simp [Candidate.cleared, Reasons.any, Reasons.empty]

theorem CandLaw.enterUnknown {w : Nat} (c : Candidate) (now : Nat) : CandLaw w (c.enterUnknown now) := by
  constructor <;> simp [Candidate.enterUnknown, Candidate.cleared, Reasons.any, Reasons.empty]

theorem CandLaw.observe {w : Nat} {c : Candidate} (h : CandLaw w c) {p : MonitorParams} (hw : p.window = w) (now : Nat)
    (o : Observation) (hs : c.state ≠ .off) : CandLaw w (c.observe p now o) := by
  unfold Candidate.observe
  dsimp only
  refine CandLaw.transition' h p now ?_ ?_ (fun ho => absurd ho hs) ?_ ?_
  · unfold Candidate.measure; split <;> rfl
  · unfold Candidate.measure; split <;> rfl
  · have : ∀ c : Candidate, (c.measure p o).history = c.history := by
      intro c; unfold Candidate.measure; split <;> rfl
    rw [this, ← hw]; exact newest_length _ _
  · intro a ha
    unfold Candidate.measure at ha
    split at ha
    · simp only [Option.some.injEq] at ha
      rw [← ha]
      exact updateAverage_bounds _ _ _ h.offset (rawOffset_bounds _ _ _)
    · exact h.offset a ha

theorem CandLaw.reportExpires {w : Nat} {c : Candidate} (h : CandLaw w c) (p : MonitorParams) (now : Nat) :
    CandLaw w (c.reportExpires p now).1 := by
  unfold Candidate.reportExpires
  dsimp only
  split
  · exact h.of rfl rfl rfl rfl rfl rfl rfl rfl (fun _ _ => rfl)
  · rename_i hc
    have hoff : c.state ≠ .off := by intro ho; simp [ho] at hc
    exact CandLaw.transition' h p now rfl rfl (fun ho => absurd ho hoff) h.window h.offset

theorem CandLaw.holdOff {w : Nat} {c : Candidate} (h : CandLaw w c) (hs : c.state = .suspect) : CandLaw w c.holdOffExpires := by
  have h1 := h.reasons; have h2 := h.window; have h3 := h.offset
  constructor <;> simp_all [Candidate.holdOffExpires]

theorem CandLaw.restored {w : Nat} {c : Candidate} (h : CandLaw w c) (hs : c.state = .restoring) : CandLaw w c.restored := by
  have h1 := h.reasons; have h2 := h.window; have h3 := h.offset
  constructor <;> simp_all [Candidate.restored]

theorem CandLaw.condemn {w : Nat} {c d : Candidate} (h : CandLaw w c) (p : MonitorParams) (now : Nat)
    (hd : c.condemn p now = some d) : CandLaw w d := by
  have h1 := h.reasons; have h2 := h.window; have h3 := h.offset
  unfold Candidate.condemn Candidate.restore at hd
  (repeat' split at hd) <;> cases hd <;> constructor <;> simp_all

theorem CandLaw.configure {w : Nat} {c : Candidate} (h : CandLaw w c) (b : Bool) (p : MonitorParams) (now : Nat)
    (cfg : CandConfig) (out : CfgOutcome) : CandLaw w (c.configure b p now cfg out) := by
  have h0 : CandLaw w { c with config := cfg, outcome := out } := h.of rfl rfl rfl rfl rfl rfl rfl rfl (fun _ h => h)
  unfold Candidate.configure
  dsimp only
  (repeat' split) <;> first
    | exact h0
    | exact CandLaw.cleared _ _ (.inl rfl)
    | exact CandLaw.enterUnknown _ _
    | skip
  rename_i hf
  refine CandLaw.transition' h0 p now rfl rfl (fun ho => ?_) h.window h.offset
  have ho' : c.state = .off := ho
  have havg := (h.off ho').2.2.1
  have hq : c.reasons.any = false := by
    have := h.reasons; cases hr : c.reasons.any <;> simp_all
  simp [Reasons.any] at hq
  simp [havg, judgeFreq, hq] at hf

theorem CandLaw.offed {w : Nat} {c : Candidate} (h : CandLaw w c) : CandLaw w c.offed := by
  unfold Candidate.offed; split
  · exact h
  · exact CandLaw.cleared _ _ (.inl rfl)

theorem CandLaw.woken {w : Nat} {c : Candidate} (h : CandLaw w c) (now : Nat) : CandLaw w (c.woken now) := by
  unfold Candidate.woken; split
  · exact h
  · exact CandLaw.enterUnknown _ _

theorem CandLaw.reparamed {w : Nat} {c : Candidate} {old new : MonitorParams} (h : CandLaw w c) (ho : old.window = w)
    (now : Nat) : CandLaw new.window (c.reparamed old new now) := by
  have hlen : (c.recount old new).history.length ≤ new.window := by
    unfold Candidate.recount
    dsimp only
    split
    · exact newest_length _ _
    · rename_i hne
      simp only [not_or, not_not] at hne
      rw [hne.1, ho]; exact h.window
  have hst : (c.recount old new).state = c.state ∧ (c.recount old new).stateDeadline = c.stateDeadline ∧
      (c.recount old new).average = c.average := by
    unfold Candidate.recount; dsimp only; split <;> exact ⟨rfl, rfl, rfl⟩
  unfold Candidate.reparamed
  split
  · rename_i hoff
    have h0 := h.off hoff
    exact ⟨h.reasons, h.deadline, h.off, by rw [h0.1]; exact Nat.zero_le _, h.offset⟩
  · rename_i hoff
    unfold Candidate.reparam
    dsimp only
    split
    · rename_i hre
      refine ⟨by rw [hre, hst.1]; exact h.reasons, by rw [hst.1, hst.2.1]; exact h.deadline,
        fun ho => absurd (hst.1 ▸ ho) hoff, hlen, by rw [hst.2.2]; exact h.offset⟩
    · refine CandLaw.transition (c := c.recount old new) new now (by rw [hst.1, hst.2.1]; exact h.deadline)
        (fun ho => absurd (hst.1 ▸ ho) hoff) hlen (by rw [hst.2.2]; exact h.offset)

theorem CandsLaw.set {s t : State} (hs : CandsLaw s) (k : Fin 256) {c : Candidate} (hp : t.params = s.params)
    (ht : t.cands = s.cands.set k c) (h : CandLaw s.params[shelfOf k].window c) : CandsLaw t := by
  intro j
  rw [ht, hp, set_at]
  split
  · rename_i e; subst e; exact h
  · exact hs j

theorem CandsLaw.same {s t : State} (hs : CandsLaw s) (hp : t.params = s.params) (ht : t.cands = s.cands) : CandsLaw t := by
  intro j; rw [ht, hp]; exact hs j

theorem CandsLaw.candEvent {s : State} (hs : CandsLaw s) (k : Fin 256) {c : Candidate}
    (h : CandLaw s.params[shelfOf k].window c) : CandsLaw (s.candEvent k c) :=
  hs.set k (by simp) (State.candEvent_cands s k c) h

theorem CandsLaw.disableShelf {s : State} (hs : CandsLaw s) (i : Fin 32) : CandsLaw (s.disableShelf i) := by
  intro k
  rw [State.disableShelf_cands, (show (s.disableShelf i).params = s.params by simp)]
  split
  · exact (hs k).offed
  · exact hs k

theorem CandsLaw.enableShelf {s : State} (hs : CandsLaw s) (i : Fin 32) : CandsLaw (s.enableShelf i) := by
  intro k
  rw [State.enableShelf_cands, (show (s.enableShelf i).params = s.params by simp)]
  split
  · exact (hs k).woken _
  · exact hs k

theorem CandsLaw.setMonitoring {s : State} (hs : CandsLaw s) (i : Fin 32) (p : MonitorParams) :
    CandsLaw (s.setMonitoring i p) := by
  intro k
  rw [State.setMonitoring_at, State.setMonitoring_params, set_at]
  by_cases hk : shelfOf k = i
  · rw [if_pos hk, if_pos hk.symm]; subst hk; exact (hs k).reparamed rfl _
  · rw [if_neg hk, if_neg (Ne.symm hk)]; exact hs k

theorem CandsLaw.shelfConfigured {s : State} (hs : CandsLaw s) {i : Fin 32} (hn : s.notEvaluating i) (cfg : ShelfConfig)
    (out : CfgOutcome) (seq : Word) : CandsLaw (s.shelfConfigured i cfg out seq) := by
  have h0 : CandsLaw (s.setShelf i (s.shelves[i].applyConfig cfg out seq)) := hs.same rfl rfl
  have hu := h0.setMonitoring i cfg.monitor
  rcases State.shelfConfigured_cases hn cfg out seq with ⟨_, _, h⟩ | ⟨_, _, h⟩ | ⟨_, _, h⟩ | ⟨_, _, h⟩ <;> rw [h]
  · exact hu.same (by simp only [State.place_keeps, State.setShelf_params]) (by simp only [State.place_keeps, State.setShelf_cands])
  · exact hu.disableShelf i
  · exact hu.enableShelf i
  · exact hu.same (by simp only [State.place_keeps]) (by simp only [State.place_keeps])

theorem candsLaw_kept : Kept CandsLaw := by
  constructor
  case congr => intro s t hk hs; exact hs.same (hk.params.resolve_left (by decide)) (hk.cands.resolve_left (by decide))
  case observation =>
    intro s k o hs
    rcases s.observation_cases k o with ⟨_, h⟩ | ⟨ho, h⟩ <;> rw [h]
    exacts [hs, hs.candEvent k ((hs k).observe rfl _ _ ho)]
  case reportExpiry =>
    intro s k hs
    have h1 := (hs k).reportExpires s.params[shelfOf k] s.clock
    rcases s.reportExpiry_cases k with h | h <;> rw [h]
    exacts [hs.set k rfl (State.setCand_cands s k _) h1, hs.candEvent k h1]
  case condemn =>
    intro s k hs
    rcases s.condemnCand_cases k with h | ⟨c, hc, h⟩ <;> rw [h]
    exacts [hs, hs.candEvent k ((hs k).condemn _ _ hc)]
  case holdOff => intro s k h hs; exact hs.candEvent k ((hs k).holdOff h)
  case wtr => intro s k h hs; exact hs.candEvent k ((hs k).restored h)
  case candConfigured => intro s k cfg out hs; exact hs.candEvent k ((hs k).configure _ _ _ _ _)
  case candRefused => intro s k cause hs; exact hs.candEvent k ((hs k).of rfl rfl rfl rfl rfl rfl rfl rfl (fun _ h => h))
  case rebase =>
    intro s hs k
    simp only [State.rebase]
    rw [map_at]
    split
    · exact hs k
    · exact (hs k).of rfl rfl rfl rfl rfl rfl rfl rfl (fun ho => absurd ho ‹_›)
  case shelfConfigured => intro s i cfg out seq hn hs; exact hs.shelfConfigured hn _ _ _
  case disable => intro s i _ _ hs; exact hs.disableShelf i
  case tick => intro s hs k; simp only [State.tickNow]; rw [map_at]; exact (hs k).tick _
  case powerOn => intro s _ k; rw [State.powerOn_cands, replicate_at]; exact .reset _
  case fullReset => intro s n _ k; rw [State.fullReset_cands, replicate_at]; exact .reset _
  case restart => intro s n _ k; rw [State.restart_cands, replicate_at]; exact .reset _
  all_goals intros; rename_i hs; exact hs.same (by simp) (by simp)

/-! ### Candidates of a DISABLED shelf -/

theorem ServiceLaw.same {s t : State} (hs : ServiceLaw s) (h1 : t.shelves = s.shelves) (ht : t.cands = s.cands) :
    ServiceLaw t := by
  intro k; rw [h1, ht]; exact hs k

/-- An event at a candidate that leaves an OFF candidate of a DISABLED shelf OFF. -/
theorem ServiceLaw.cand {s t : State} (hs : ServiceLaw s) (k : Fin 256) {c : Candidate} (h1 : t.shelves = s.shelves)
    (ht : t.cands = s.cands.set k c)
    (h : s.shelves[shelfOf k].state = .disabled → s.cands[k].state = .off → c.state = .off) : ServiceLaw t := by
  intro j hj
  rw [h1] at hj
  rw [ht, set_at]
  split
  · rename_i e; subst e; exact h hj (hs _ hj)
  · exact hs j hj

theorem ServiceLaw.candEvent {s : State} (hs : ServiceLaw s) (k : Fin 256) {c : Candidate}
    (h : s.shelves[shelfOf k].state = .disabled → s.cands[k].state = .off → c.state = .off) : ServiceLaw (s.candEvent k c) :=
  hs.cand k (by simp) (State.candEvent_cands s k c) h

/-- An event at a shelf that does not make it DISABLED. -/
theorem ServiceLaw.shelf {s t : State} (hs : ServiceLaw s) (i : Fin 32) {sh : Shelf} (h1 : t.shelves = s.shelves.set i sh)
    (ht : t.cands = s.cands) (h : sh.state = .disabled → s.shelves[i].state = .disabled) : ServiceLaw t := by
  intro k hk
  rw [h1, set_at] at hk
  rw [ht]
  split at hk
  · rename_i e; subst e; exact hs k (h hk)
  · exact hs k hk

theorem offed_off (c : Candidate) : c.offed.state = .off := by
  unfold Candidate.offed; split
  · assumption
  · rfl

theorem ServiceLaw.disableShelf {s : State} (hs : ServiceLaw s) (i : Fin 32) : ServiceLaw (s.disableShelf i) := by
  intro k hk
  rw [State.disableShelf_shelves, set_at] at hk
  rw [State.disableShelf_cands]
  by_cases h : shelfOf k = i
  · rw [if_pos h]; exact offed_off _
  · rw [if_neg h]; rw [if_neg (Ne.symm h)] at hk; exact hs k hk

theorem ServiceLaw.enableShelf {s : State} (hs : ServiceLaw s) (i : Fin 32) : ServiceLaw (s.enableShelf i) := by
  intro k hk
  rw [State.enableShelf_shelves, set_at] at hk
  rw [State.enableShelf_cands]
  by_cases h : shelfOf k = i
  · rw [if_pos h.symm] at hk; simp [Shelf.enableAt] at hk
  · rw [if_neg h]; rw [if_neg (Ne.symm h)] at hk; exact hs k hk

theorem ServiceLaw.setMonitoring {s : State} (hs : ServiceLaw s) (i : Fin 32) (p : MonitorParams) :
    ServiceLaw (s.setMonitoring i p) := by
  intro k hk
  rw [(show (s.setMonitoring i p).shelves = s.shelves by simp)] at hk
  rw [State.setMonitoring_at]
  split
  · unfold Candidate.reparamed; rw [if_pos (hs k hk)]; exact hs k hk
  · exact hs k hk

theorem ServiceLaw.shelfConfigured {s : State} (hs : ServiceLaw s) {i : Fin 32} (hn : s.notEvaluating i) (cfg : ShelfConfig)
    (out : CfgOutcome) (seq : Word) : ServiceLaw (s.shelfConfigured i cfg out seq) := by
  have h0 : ServiceLaw (s.setShelf i (s.shelves[i].applyConfig cfg out seq)) :=
    hs.shelf i (State.setShelf_shelves s i _) rfl (fun h => h)
  have hu := h0.setMonitoring i cfg.monitor
  revert hu
  rcases State.shelfConfigured_cases hn cfg out seq with ⟨_, _, h⟩ | ⟨_, _, h⟩ | ⟨_, _, h⟩ | ⟨_, _, h⟩ <;> rw [h] <;>
    generalize (s.setShelf i (s.shelves[i].applyConfig cfg out seq)).setMonitoring i cfg.monitor = u <;> intro hu
  · exact hu.shelf i (sh := { u.shelves[i] with pendingReason := some .config }) (by simp) (by simp) (fun h => h)
  · exact hu.disableShelf i
  · exact hu.enableShelf i
  · exact hu.same (by simp) (by simp)

theorem applyTarget_disabled (sh : Shelf) (now : Nat) (r : ChangeReason) (kind : Fin 8 → Kind) (t : Option (Fin 8))
    (h : (sh.applyTarget now r kind t).1.state = .disabled) : sh.state = .disabled := by
  unfold Shelf.applyTarget Shelf.acquire Shelf.leave at h
  dsimp only at h
  (repeat' split at h) <;> simp_all

theorem evaluated_disabled (e : EvalInputs) (sh : Shelf) (h : (e.run sh).finalShelf.state = .disabled) :
    sh.state = .disabled := by
  have h1 : (e.run sh).finalShelf.state = (e.run sh).shelf.state := by unfold EvalResult.finalShelf; split <;> rfl
  rw [h1] at h
  unfold EvalInputs.run at h
  dsimp only at h
  have h2 := applyTarget_disabled _ _ _ _ _ h
  exact h2

theorem transition_off {c : Candidate} (p : MonitorParams) (now : Nat) (h : c.state = .off) : c.transition p now = c := by
  unfold Candidate.transition; rw [h]

theorem serviceLaw_kept : Kept ServiceLaw := by
  constructor
  case congr => intro s t hk hs; exact hs.same (hk.shelves.resolve_left (by decide)) (hk.cands.resolve_left (by decide))
  case takeCommand => intro s i c _ hs; exact hs.shelf i (State.setShelf_shelves s i _) rfl (fun h => h)
  case outcome => intro s i out seq _ hs; exact hs.shelf i (State.setShelf_shelves s i _) rfl (fun h => h)
  case observation =>
    intro s k o hs
    rcases s.observation_cases k o with ⟨_, h⟩ | ⟨ho, h⟩ <;> rw [h]
    exacts [hs, hs.candEvent k (fun _ h => absurd h ho)]
  case reportExpiry =>
    intro s k hs
    have h1 : s.cands[k].state = .off → (s.cands[k].reportExpires s.params[shelfOf k] s.clock).1.state = .off := by
      generalize s.cands[k] = c; intro ho; unfold Candidate.reportExpires; simp [ho]
    rcases s.reportExpiry_cases k with h | h <;> rw [h]
    exacts [hs.cand k rfl (State.setCand_cands s k _) (fun _ => h1), hs.candEvent k (fun _ => h1)]
  case condemn =>
    intro s k hs
    rcases s.condemnCand_cases k with h | ⟨c, hc, h⟩ <;> rw [h]
    · exact hs
    · refine hs.candEvent k (fun _ ho => ?_)
      revert hc ho
      generalize s.cands[k] = a
      intro hc ho
      simp [Candidate.condemn, ho] at hc
  case holdOff => intro s k h hs; exact hs.candEvent k (fun _ ho => by rw [h] at ho; cases ho)
  case wtr => intro s k h hs; exact hs.candEvent k (fun _ ho => by rw [h] at ho; cases ho)
  case candConfigured =>
    intro s k cfg out hs
    refine hs.candEvent k (fun hd ho => ?_)
    revert hd ho
    generalize s.cands[k] = a
    generalize s.shelves[shelfOf k] = b
    intro hd ho
    simp [Candidate.configure, Shelf.enabled, hd, ho]
  case candRefused => intro s k cause hs; exact hs.candEvent k (fun _ ho => ho)
  case rebase =>
    intro s hs k hk
    simp only [State.rebase] at hk ⊢
    rw [map_at, if_pos (hs k hk)]; exact hs k hk
  case endEvaluation =>
    intro s e _ hs
    exact hs.shelf e.shelf (State.endEvaluation_shelves s e) (by simp) (evaluated_disabled e _)
  case shelfConfigured => intro s i cfg out seq hn hs; exact hs.shelfConfigured hn _ _ _
  case disable => intro s i _ _ hs; exact hs.disableShelf i
  case lock => intro s i _ h hs; exact hs.shelf i (State.lockShelf_shelves s i) (by simp) (fun h => by cases h)
  case loseLock => intro s i _ h hs; exact hs.shelf i (State.loseLock_shelves s i) (by simp) (fun h => by cases h)
  case acquisitionFails => intro s i _ h hs; exact hs.shelf i (State.acquisitionFails_shelves s i) (by simp) (fun h => by cases h)
  case learned => intro s i _ h hs; exact hs.shelf i (State.learned_shelves s i) (by simp) (fun h => h)
  case holdoverExpires => intro s i _ h hs; exact hs.shelf i (State.holdoverExpires_shelves s i) (by simp) (fun h => by cases h)
  case tick =>
    intro s hs k hk
    simp only [State.tickNow] at hk ⊢
    rw [map_at] at hk ⊢; exact hs k hk
  case powerOn => intro s _ k _; rw [State.powerOn_cands, replicate_at]; rfl
  case fullReset => intro s n _ k _; rw [State.fullReset_cands, replicate_at]; rfl
  case restart => intro s n _ k _; rw [State.restart_cands, replicate_at]; rfl
  all_goals intros; rename_i hs; exact hs.same (by simp) (by simp)

/-! ### The clock and the deadlines -/

@[simp] theorem timely_none : timely none := fun _ h => by cases h

@[simp] theorem timely_deadlineAt (now n : Nat) : timely (some (deadlineAt now n)) := by
  rintro _ ⟨⟩; simp [deadlineAt]

theorem timely_tick {d : Option Deadline} (h : timely d) (now : Nat) : timely (d.map (Deadline.tick now)) := by
  intro x hx
  obtain ⟨y, hy, rfl⟩ := Option.map_eq_some_iff.mp hx
  unfold Deadline.tick; split <;> exact h y hy

/-- Both deadlines of a candidate hold 48-bit times. -/
def CandTimely (c : Candidate) : Prop := timely c.reportDeadline ∧ timely c.stateDeadline

/-- The three deadlines of a shelf hold 48-bit times. -/
def ShelfTimely (sh : Shelf) : Prop := timely sh.acqDeadline ∧ timely sh.learnDeadline ∧ timely sh.holdDeadline

theorem CandTimely.transition {c : Candidate} (h : CandTimely c) (p : MonitorParams) (now : Nat) :
    CandTimely (c.transition p now) := by
  unfold Candidate.transition Candidate.suspectOrFail Candidate.restore
  (repeat' split) <;> first | exact h | exact ⟨h.1, by simp⟩

theorem CandTimely.observe {c : Candidate} (h : CandTimely c) (p : MonitorParams) (now : Nat) (o : Observation) :
    CandTimely (c.observe p now o) := by
  unfold Candidate.observe
  dsimp only
  apply CandTimely.transition
  unfold Candidate.measure
  split <;> exact ⟨timely_deadlineAt _ _, h.2⟩

theorem CandTimely.reportExpires {c : Candidate} (h : CandTimely c) (p : MonitorParams) (now : Nat) :
    CandTimely (c.reportExpires p now).1 := by
  unfold Candidate.reportExpires
  dsimp only
  split
  · exact ⟨by simp, h.2⟩
  · exact CandTimely.transition (c := { c with reportDeadline := none, reasons := { c.reasons with stale := true } }) ⟨timely_none, h.2⟩ _ _

theorem CandTimely.condemn {c d : Candidate} (h : CandTimely c) (p : MonitorParams) (now : Nat)
    (hd : c.condemn p now = some d) : CandTimely d := by
  unfold Candidate.condemn Candidate.restore at hd
  (repeat' split at hd) <;> cases hd <;> first | exact ⟨h.1, timely_none⟩ | exact ⟨h.1, timely_deadlineAt _ _⟩

theorem CandTimely.cleared (c : Candidate) (st : CandState) : CandTimely (c.cleared st) := ⟨by simp [Candidate.cleared], by simp [Candidate.cleared]⟩

theorem CandTimely.enterUnknown (c : Candidate) (now : Nat) : CandTimely (c.enterUnknown now) :=
  ⟨by simp [Candidate.enterUnknown], by simp [Candidate.enterUnknown, Candidate.cleared]⟩

theorem CandTimely.configure {c : Candidate} (h : CandTimely c) (b : Bool) (p : MonitorParams) (now : Nat)
    (cfg : CandConfig) (out : CfgOutcome) : CandTimely (c.configure b p now cfg out) := by
  unfold Candidate.configure
  dsimp only
  (repeat' split) <;> first
    | exact h
    | exact CandTimely.cleared _ _
    | exact CandTimely.enterUnknown _ _
    | exact CandTimely.transition (c := { c with config := cfg, outcome := out, reasons := { c.reasons with freq := judgeFreq c.average cfg.limit c.reasons.freq } }) ⟨h.1, h.2⟩ _ _

theorem CandTimely.offed {c : Candidate} (h : CandTimely c) : CandTimely c.offed := by
  unfold Candidate.offed; split
  · exact h
  · exact CandTimely.cleared _ _

theorem CandTimely.woken {c : Candidate} (h : CandTimely c) (now : Nat) : CandTimely (c.woken now) := by
  unfold Candidate.woken; split
  · exact h
  · exact CandTimely.enterUnknown _ _

theorem CandTimely.reparamed {c : Candidate} (h : CandTimely c) (old new : MonitorParams) (now : Nat) :
    CandTimely (c.reparamed old new now) := by
  have hr : CandTimely (c.recount old new) := by unfold Candidate.recount; dsimp only; split <;> exact h
  unfold Candidate.reparamed Candidate.reparam
  dsimp only
  (repeat' split) <;> first | exact h | exact hr | exact hr.transition _ _

theorem ShelfTimely.applyTarget {a : Shelf} (h : ShelfTimely a) (now : Nat) (r : ChangeReason) (kind : Fin 8 → Kind)
    (t : Option (Fin 8)) : ShelfTimely (a.applyTarget now r kind t).1 := by
  unfold Shelf.applyTarget Shelf.acquire Shelf.leave
  dsimp only
  (repeat' split) <;> first
    | exact h
    | exact ⟨timely_deadlineAt _ _, timely_none, timely_none⟩
    | exact ⟨timely_none, timely_none, timely_deadlineAt _ _⟩
    | exact ⟨timely_none, timely_none, h.2.2⟩

theorem ShelfTimely.evaluated {a : Shelf} (h : ShelfTimely a) (e : EvalInputs) : ShelfTimely (e.run a).finalShelf := by
  have key : ShelfTimely (e.run a).shelf := by
    unfold EvalInputs.run
    dsimp only
    have h2 : ∀ a' : Shelf, ShelfTimely a' → ∀ p q, ShelfTimely { a' with published := p, pendingReason := q } :=
      fun a' h p q => ⟨h.1, h.2.1, h.2.2⟩
    refine h2 _ ?_ _ _
    apply ShelfTimely.applyTarget
    exact ⟨h.1, h.2.1, h.2.2⟩
  unfold EvalResult.finalShelf
  split <;> exact key

theorem ClockLaw.of {s t : State} (hs : ClockLaw s) (h1 : t.clock = s.clock) (h2 : t.prescaler = s.prescaler)
    (h3 : timely t.intake.sweepDeadline) (h4 : ∀ k : Fin 256, CandTimely t.cands[k])
    (h5 : ∀ i : Fin 32, ShelfTimely t.shelves[i]) : ClockLaw t :=
  ⟨h1 ▸ hs.clock, h2 ▸ hs.prescaler, h3, h4, h5⟩

theorem ClockLaw.same {s t : State} (hs : ClockLaw s) (h1 : t.clock = s.clock) (h2 : t.prescaler = s.prescaler)
    (h3 : t.intake = s.intake) (h4 : t.cands = s.cands) (h5 : t.shelves = s.shelves) : ClockLaw t :=
  hs.of h1 h2 (h3 ▸ hs.sweep) (h4 ▸ hs.cands) (h5 ▸ hs.shelves)

theorem ClockLaw.cand {s t : State} (hs : ClockLaw s) (k : Fin 256) {c : Candidate} (h1 : t.clock = s.clock)
    (h2 : t.prescaler = s.prescaler) (h3 : t.intake = s.intake) (h4 : t.cands = s.cands.set k c) (h5 : t.shelves = s.shelves)
    (h : CandTimely c) : ClockLaw t := by
  refine hs.of h1 h2 (h3 ▸ hs.sweep) (fun j => ?_) (h5 ▸ hs.shelves)
  rw [h4, set_at]
  split
  · exact h
  · exact hs.cands j

theorem ClockLaw.candEvent {s : State} (hs : ClockLaw s) (k : Fin 256) {c : Candidate} (h : CandTimely c) :
    ClockLaw (s.candEvent k c) := hs.cand k (by simp) (by simp) (by simp) (State.candEvent_cands s k c) (by simp) h

theorem ClockLaw.shelf {s t : State} (hs : ClockLaw s) (i : Fin 32) {sh : Shelf} (h5 : t.shelves = s.shelves.set i sh)
    (h : ShelfTimely sh) (h1 : t.clock = s.clock) (h2 : t.prescaler = s.prescaler) (h3 : t.intake = s.intake)
    (h4 : t.cands = s.cands) : ClockLaw t := by
  refine hs.of h1 h2 (h3 ▸ hs.sweep) (h4 ▸ hs.cands) (fun j => ?_)
  rw [h5, set_at]
  split
  · exact h
  · exact hs.shelves j

theorem ClockLaw.disableShelf {s : State} (hs : ClockLaw s) (i : Fin 32) : ClockLaw (s.disableShelf i) := by
  refine hs.of (by simp) (by simp) (by simpa using hs.sweep) (fun k => ?_) (fun j => ?_)
  · rw [State.disableShelf_cands]
    split
    · exact CandTimely.offed (hs.cands k)
    · exact hs.cands k
  · rw [State.disableShelf_shelves, set_at]
    split
    · exact ⟨by simp [Shelf.disableAt], by simp [Shelf.disableAt], by simp [Shelf.disableAt]⟩
    · exact hs.shelves j

theorem ClockLaw.enableShelf {s : State} (hs : ClockLaw s) (i : Fin 32) : ClockLaw (s.enableShelf i) := by
  refine hs.of (by simp) (by simp) (by simpa using hs.sweep) (fun k => ?_) (fun j => ?_)
  · rw [State.enableShelf_cands]
    split
    · exact CandTimely.woken (hs.cands k) _
    · exact hs.cands k
  · rw [State.enableShelf_shelves, set_at]
    split
    · exact hs.shelves i
    · exact hs.shelves j

theorem ClockLaw.setMonitoring {s : State} (hs : ClockLaw s) (i : Fin 32) (p : MonitorParams) :
    ClockLaw (s.setMonitoring i p) := by
  refine hs.of (by simp) (by simp) (by simpa using hs.sweep) (fun k => ?_)
    (by rw [show (s.setMonitoring i p).shelves = s.shelves by simp]; exact hs.shelves)
  rw [State.setMonitoring_at]
  split
  · exact CandTimely.reparamed (hs.cands k) _ _ _
  · exact hs.cands k

theorem ClockLaw.shelfConfigured {s : State} (hs : ClockLaw s) {i : Fin 32} (hn : s.notEvaluating i) (cfg : ShelfConfig)
    (out : CfgOutcome) (seq : Word) : ClockLaw (s.shelfConfigured i cfg out seq) := by
  have h0 : ClockLaw (s.setShelf i (s.shelves[i].applyConfig cfg out seq)) :=
    hs.shelf i (State.setShelf_shelves s i _) (hs.shelves i) rfl rfl rfl rfl
  have hu := h0.setMonitoring i cfg.monitor
  revert hu
  rcases State.shelfConfigured_cases hn cfg out seq with ⟨_, _, h⟩ | ⟨_, _, h⟩ | ⟨_, _, h⟩ | ⟨_, _, h⟩ <;> rw [h] <;>
    generalize (s.setShelf i (s.shelves[i].applyConfig cfg out seq)).setMonitoring i cfg.monitor = u <;> intro hu
  · exact hu.shelf i (sh := { u.shelves[i] with pendingReason := some .config }) (by simp) (hu.shelves i) (by simp) (by simp)
      (by simp) (by simp)
  · exact hu.disableShelf i
  · exact hu.enableShelf i
  · exact hu.same (by simp) (by simp) (by simp) (by simp) (by simp)

theorem ClockLaw.reset_cands (k : Fin 256) : CandTimely (State.reset.cands[k]) := by
  rw [State.reset_cands, replicate_at]; exact ⟨by simp [Candidate.reset], by simp [Candidate.reset]⟩

theorem ClockLaw.reset_shelves (i : Fin 32) : ShelfTimely (State.reset.shelves[i]) := by
  rw [State.reset_shelves, ofFn_at]; exact ⟨by simp [Shelf.reset], by simp [Shelf.reset], by simp [Shelf.reset]⟩

theorem clockLaw_kept : Kept ClockLaw := by
  have rc := ClockLaw.reset_cands
  have rs := ClockLaw.reset_shelves
  constructor
  case congr =>
    intro s t hk hs
    exact hs.same (hk.clock.resolve_left (by decide)) (hk.prescaler.resolve_left (by decide))
      (hk.intake.resolve_left (by decide)) (hk.cands.resolve_left (by decide)) (hk.shelves.resolve_left (by decide))
  case table => intro s v _ _ h hs; exact hs.of rfl rfl (by simpa [h] using hs.sweep) hs.cands hs.shelves
  case noDeadline => intro s hs; exact hs.of rfl rfl (by simp) hs.cands hs.shelves
  case noPending => intro s hs; exact hs.of rfl rfl hs.sweep hs.cands hs.shelves
  case sweepStart => intro s hs; exact hs.of rfl rfl (by simp) hs.cands hs.shelves
  case accept => intro s r _ hs; exact hs.of rfl rfl hs.sweep hs.cands hs.shelves
  case applyWaiting => intro s g _ hs; exact hs.of rfl rfl hs.sweep hs.cands hs.shelves
  case applyRead => intro s r _ hs; exact hs.of rfl rfl hs.sweep hs.cands hs.shelves
  case takeCommand => intro s i c _ hs; exact hs.shelf i (State.setShelf_shelves s i _) (hs.shelves i) rfl rfl rfl rfl
  case outcome => intro s i out seq _ hs; exact hs.shelf i (State.setShelf_shelves s i _) (hs.shelves i) rfl rfl rfl rfl
  case observation =>
    intro s k o hs
    rcases s.observation_cases k o with ⟨_, h⟩ | ⟨ho, h⟩ <;> rw [h]
    exacts [hs, hs.candEvent k (CandTimely.observe (hs.cands k) _ _ _)]
  case reportExpiry =>
    intro s k hs
    have h1 := CandTimely.reportExpires (hs.cands k) s.params[shelfOf k] s.clock
    rcases s.reportExpiry_cases k with h | h <;> rw [h]
    exacts [hs.cand k rfl rfl rfl (State.setCand_cands s k _) rfl h1, hs.candEvent k h1]
  case condemn =>
    intro s k hs
    rcases s.condemnCand_cases k with h | ⟨c, hc, h⟩ <;> rw [h]
    exacts [hs, hs.candEvent k (CandTimely.condemn (hs.cands k) _ _ hc)]
  case holdOff => intro s k h hs; exact hs.candEvent k ⟨(hs.cands k).1, by simp [Candidate.holdOffExpires]⟩
  case wtr => intro s k h hs; exact hs.candEvent k ⟨(hs.cands k).1, by simp [Candidate.restored]⟩
  case candConfigured => intro s k cfg out hs; exact hs.candEvent k (CandTimely.configure (hs.cands k) _ _ _ _ _)
  case candRefused => intro s k cause hs; exact hs.candEvent k (hs.cands k)
  case rebase =>
    intro s hs
    refine hs.of rfl rfl hs.sweep (fun k => ?_) hs.shelves
    simp only [State.rebase]
    rw [map_at]
    split
    · exact hs.cands k
    · exact ⟨by simp, (hs.cands k).2⟩
  case endEvaluation =>
    intro s e _ hs
    exact hs.shelf e.shelf (State.endEvaluation_shelves s e) (ShelfTimely.evaluated (hs.shelves e.shelf) e)
      (by simp) (by simp) (by simp) (by simp)
  case shelfConfigured => intro s i cfg out seq hn hs; exact hs.shelfConfigured hn _ _ _
  case disable => intro s i _ _ hs; exact hs.disableShelf i
  case lock =>
    intro s i _ h hs
    refine hs.shelf i (State.lockShelf_shelves s i) ?_ (by simp) (by simp) (by simp) (by simp)
    refine ⟨by simp [Shelf.lock], ?_, (hs.shelves i).2.2⟩
    unfold Shelf.lock
    dsimp only
    split
    · simp
    · exact (hs.shelves i).2.1
  case loseLock =>
    intro s i _ h hs
    exact hs.shelf i (State.loseLock_shelves s i) ⟨by simp [Shelf.lapse], by simp [Shelf.lapse], (hs.shelves i).2.2⟩
      (by simp) (by simp) (by simp) (by simp)
  case acquisitionFails =>
    intro s i _ h hs
    exact hs.shelf i (State.acquisitionFails_shelves s i) ⟨by simp [Shelf.lapse], by simp [Shelf.lapse], (hs.shelves i).2.2⟩
      (by simp) (by simp) (by simp) (by simp)
  case learned =>
    intro s i _ h hs
    exact hs.shelf i (State.learned_shelves s i) ⟨(hs.shelves i).1, by simp, (hs.shelves i).2.2⟩
      (by simp) (by simp) (by simp) (by simp)
  case holdoverExpires =>
    intro s i _ h hs
    exact hs.shelf i (State.holdoverExpires_shelves s i) ⟨(hs.shelves i).1, (hs.shelves i).2.1, by simp [Shelf.holdoverEnds]⟩
      (by simp) (by simp) (by simp) (by simp)
  case count => intro s h hs; exact ⟨hs.clock, by simp; omega, hs.sweep, hs.cands, hs.shelves⟩
  case tick =>
    intro s hs
    refine ⟨by simp [State.tickNow, nextClock], by simp [State.tickNow], timely_tick hs.sweep _, fun k => ?_, fun i => ?_⟩
    · simp only [State.tickNow]
      rw [map_at]
      exact ⟨timely_tick (hs.cands k).1 _, timely_tick (hs.cands k).2 _⟩
    · simp only [State.tickNow]
      rw [map_at]
      exact ⟨timely_tick (hs.shelves i).1 _, timely_tick (hs.shelves i).2.1 _, timely_tick (hs.shelves i).2.2 _⟩
  case powerOn => intro s _; exact ⟨by simp, by simp, by simp [Intake.reset], rc, rs⟩
  case fullReset => intro s n _; exact ⟨by simp, by simp, by simp [Intake.reset], rc, rs⟩
  case restart => intro s n hs; exact ⟨hs.clock, hs.prescaler, by simp [Intake.reset], rc, rs⟩
  all_goals intros; rename_i hs; exact hs.same (by simp) (by simp) (by simp) (by simp) (by simp)

/-! ### The write list -/

/-- The items are of different records, but for a log entry at the head whose transaction is in progress (`served`), and none
completes a command of the shelves `T`. -/
structure ListLaw (served : Bool) (T : Fin 32 → Prop) (l : List WriteItem) : Prop where
  single : (l.map WriteItem.record).Nodup ∨
    (served = true ∧ ∃ e rest, l = .logEntry e :: rest ∧ (rest.map WriteItem.record).Nodup)
  nonempty : served = true → l ≠ []
  command : ∀ i, T i → l.any (WriteItem.isCompletionOf i) = false

theorem logIndex_lt (n : Word) : logIndex n < 128 := Nat.mod_lt _ (by decide)

theorem record_publishes {a b : WriteItem} (h : a.publishes = true) (hr : b.record = a.record) : b = a := by
  cases a <;> cases b <;> simp [WriteItem.publishes, WriteItem.record, logIndex] at h hr ⊢ <;> omega

theorem record_completion {b : WriteItem} {i : Fin 32} {o : CmdOutcome} (hr : b.record = (WriteItem.completion i o).record) :
    WriteItem.isCompletionOf i b = true := by
  cases b <;> simp [WriteItem.record, WriteItem.isCompletionOf, logIndex] at hr ⊢ <;> omega

theorem record_log {b : WriteItem} {e : LogEntry} (hr : b.record = (WriteItem.logEntry e).record) :
    b.isLogAt (e.number.toNat % 128) = true := by
  cases b <;> simp [WriteItem.record, WriteItem.isLogAt, logIndex] at hr ⊢ <;> omega

/-- Another item at the end of a list of different records. -/
theorem nodup_push {l : List WriteItem} {a : WriteItem} (h : (l.map WriteItem.record).Nodup)
    (hn : ∀ b ∈ l, b.record ≠ a.record) : ((l ++ [a]).map WriteItem.record).Nodup := by
  rw [List.map_append, List.nodup_append]
  refine ⟨h, by simp, ?_⟩
  intro x hx y hy e
  obtain ⟨b, hb, rfl⟩ := List.mem_map.mp hx
  simp at hy
  exact hn b hb (e.trans hy)

/-- An item of another record joins at the tail. -/
theorem ListLaw.push {v : Bool} {T T' : Fin 32 → Prop} {l : List WriteItem} (h : ListLaw v T l) {a : WriteItem}
    (hn : ∀ b ∈ l, b.record ≠ a.record) (hT : ∀ i, T' i → T i ∧ WriteItem.isCompletionOf i a = false) :
    ListLaw v T' (l ++ [a]) where
  single := by
    rcases h.single with h1 | ⟨h1, e, rest, rfl, h2⟩
    · exact .inl (nodup_push h1 hn)
    · exact .inr ⟨h1, e, rest ++ [a], rfl, nodup_push h2 fun b hb => hn b (List.mem_cons_of_mem _ hb)⟩
  nonempty := by simp
  command := fun i hi => by rw [List.any_append, h.command i (hT i hi).1]; simp [(hT i hi).2]

theorem ListLaw.joined {v : Bool} {T : Fin 32 → Prop} {l : List WriteItem} (h : ListLaw v T l) {a : WriteItem}
    (ha : a.publishes = true) : ListLaw v T (joined l a) := by
  unfold Sys2Proof.Machine.joined
  split
  · exact h
  · rename_i hn
    exact h.push (fun b hb e => hn (record_publishes ha e ▸ hb))
      (fun i hi => ⟨hi, by cases a <;> simp_all [WriteItem.publishes, WriteItem.isCompletionOf]⟩)

theorem ListLaw.weaken {v : Bool} {T T' : Fin 32 → Prop} {l : List WriteItem} (h : ListLaw v T l) (ht : ∀ i, T' i → T i) :
    ListLaw v T' l := ⟨h.single, h.nonempty, fun i hi => h.command i (ht i hi)⟩

/-- The port is asked for, granted or freed. -/
theorem ListLaw.port {v v' : Bool} {T : Fin 32 → Prop} {l : List WriteItem} (h : ListLaw v T l)
    (h1 : v' = true → v = true ∨ l ≠ []) (h2 : v = true → v' = true) : ListLaw v' T l where
  single := h.single.imp id fun h3 => ⟨h2 h3.1, h3.2⟩
  nonempty := fun hv => (h1 hv).elim h.nonempty id
  command := h.command

/-- The item at the head has been served. -/
theorem ListLaw.served {T : Fin 32 → Prop} {l : List WriteItem} (h : ListLaw true T l) : ListLaw false T l.tail where
  single := by
    rcases h.single with h1 | ⟨_, e, rest, rfl, h2⟩
    · exact .inl (h1.sublist ((List.tail_sublist l).map _))
    · exact .inl h2
  nonempty := by simp
  command := fun i hi => by
    have := h.command i hi
    rw [List.any_eq_false] at this ⊢
    exact fun x hx => this x (List.mem_of_mem_tail hx)

/-- The list without the entry that waits for an index. -/
theorem ListLaw.without {v : Bool} {T : Fin 32 → Prop} {l : List WriteItem} (h : ListLaw v T l) (p : WriteItem → Bool) :
    ListLaw v T ((if v then l.take 1 else []) ++ (if v then l.drop 1 else l).filter p) := by
  have hc : ∀ l' : List WriteItem, l'.Sublist l → ∀ i, T i → l'.any (WriteItem.isCompletionOf i) = false := by
    intro l' hs i hi
    have := h.command i hi
    rw [List.any_eq_false] at this ⊢
    exact fun x hx => this x (hs.subset hx)
  cases v with
  | false =>
    obtain h1 | ⟨h1, _⟩ := h.single
    · exact ⟨.inl (by simpa using h1.sublist (List.filter_sublist.map _)), by simp, by simpa using hc _ List.filter_sublist⟩
    · cases h1
  | true =>
    obtain ⟨a, rest, rfl⟩ : ∃ a rest, l = a :: rest := List.exists_cons_of_ne_nil (h.nonempty rfl)
    have hs : (a :: rest.filter p).Sublist (a :: rest) := List.filter_sublist.cons_cons a
    refine ⟨?_, by simp, by simpa using hc _ hs⟩
    obtain h1 | ⟨_, e, r, he, h2⟩ := h.single
    · exact .inl (by simpa using h1.sublist (hs.map WriteItem.record))
    · cases he; exact .inr ⟨rfl, e, _, rfl, by simpa using h2.sublist (List.filter_sublist.map _)⟩

theorem ListLaw.noted {v : Bool} {T : Fin 32 → Prop} {w : Writer} (h : ListLaw v T w.list) (now : Nat) (i : Fin 32)
    (n : LogNote) : ListLaw v T (w.noted v now i n).list := by
  unfold Writer.noted
  split
  · exact h
  · generalize he : (⟨w.nextEntry, now, i, n.kind, n.previous, n.new, n.cls, n.reason⟩ : LogEntry) = e
    have hw : w.nextEntry = e.number := by rw [← he]
    rw [hw]
    have h1 := h.without fun item => !item.isLogAt (e.number.toNat % 128)
    have hf : ∀ l : List WriteItem, ∀ b ∈ l.filter fun item => !item.isLogAt (e.number.toNat % 128),
        b.record ≠ (WriteItem.logEntry e).record := by
      intro l b hb hr
      have := (List.mem_filter.mp hb).2
      rw [record_log hr] at this; cases this
    have hT : ∀ j, T j → T j ∧ WriteItem.isCompletionOf j (.logEntry e) = false := fun j hj => ⟨hj, rfl⟩
    cases v with
    | false => exact h1.push (by simpa using hf w.list) hT
    | true =>
      obtain ⟨a, rest, hl⟩ : ∃ a rest, w.list = a :: rest := List.exists_cons_of_ne_nil (h.nonempty rfl)
      rw [hl] at h h1 ⊢
      by_cases ha : a.record = (WriteItem.logEntry e).record
      · obtain ⟨e', rfl⟩ : ∃ e', a = .logEntry e' := by
          cases a <;> simp [WriteItem.record, logIndex] at ha <;> first | omega | exact ⟨_, rfl⟩
        have hr : ((rest.filter fun item => !item.isLogAt (e.number.toNat % 128)).map WriteItem.record).Nodup := by
          obtain h2 | ⟨_, _, r, hr, h2⟩ := h1.single
          · simp at h2; exact h2.2
          · simp at hr; rw [hr.2]; exact h2
        refine ⟨.inr ⟨rfl, e', _, rfl, nodup_push hr (hf rest)⟩, by simp, fun j hj => ?_⟩
        have := h1.command j hj
        rw [List.any_append, this]; rfl
      · refine h1.push (fun b hb => ?_) hT
        simp at hb
        rcases hb with rfl | hb
        · exact ha
        · exact hf rest b (by simpa using hb)

theorem ListLaw.completed {v : Bool} {T : Fin 32 → Prop} {l : List WriteItem} (h : ListLaw v T l) {i : Fin 32} (hi : T i)
    (o : CmdOutcome) : ListLaw v (fun j => T j ∧ j ≠ i) (l ++ [.completion i o]) := by
  have h0 := h.command i hi
  rw [List.any_eq_false] at h0
  exact h.push (fun b hb e => h0 b hb (record_completion e)) (fun j hj => ⟨hj.1, by simp [WriteItem.isCompletionOf, Ne.symm hj.2]⟩)

theorem listLaw_kept (v : Bool) (T : Fin 32 → Prop) : WriterKept v (fun w => ListLaw v T w.list) where
  asked := fun _ _ hi h => h.joined hi
  noted := fun _ now i n h => h.noted now i n

/-- The shelves with a taken command. -/
def State.takers (s : State) (i : Fin 32) : Prop := s.shelves[i].taken.isSome = true

theorem servesItem_iff (a : Arbiter) : a.servesItem = true ↔ a.owner = .writer .item := by simp [Arbiter.servesItem]

theorem WriteLaw.list {s : State} (h : WriteLaw s) : ListLaw s.arbiter.servesItem s.takers s.writer.list :=
  ⟨by rw [servesItem_iff]; exact h.single, by rw [servesItem_iff]; exact h.served, h.command⟩

/-- The law from the list's. -/
theorem WriteLaw.of {t : State} (h : ListLaw t.arbiter.servesItem t.takers t.writer.list)
    (he : ∀ e, t.evaluating = some e → e.taken.isSome = true → t.shelves[e.shelf].taken.isSome = true) : WriteLaw t :=
  ⟨by simpa only [servesItem_iff] using h.single, by simpa only [servesItem_iff] using h.nonempty, h.command, he⟩

theorem WriteLaw.same {s t : State} (h : WriteLaw s) (h1 : t.writer.list = s.writer.list) (h2 : t.shelves = s.shelves)
    (h3 : t.evaluating = s.evaluating) (h4 : t.arbiter = s.arbiter) : WriteLaw t := by
  refine .of ?_ ?_
  · unfold State.takers; rw [h1, h2, h4]; exact h.list
  · rw [h2, h3]; exact h.inHand

/-- An event at shelf `i` that keeps its taken command. -/
theorem WriteLaw.shelf {s t : State} (h : WriteLaw s) (i : Fin 32) {sh : Shelf} (h2 : t.shelves = s.shelves.set i sh)
    (ht : sh.taken = s.shelves[i].taken) (h3 : t.evaluating = s.evaluating) (h4 : t.arbiter = s.arbiter)
    (h1 : ListLaw s.arbiter.servesItem s.takers t.writer.list) : WriteLaw t := by
  have hk : ∀ j : Fin 32, t.shelves[j].taken = s.shelves[j].taken := by
    intro j; rw [h2, set_at]; split
    · rename_i e; rw [ht, e]
    · rfl
  refine .of (h4 ▸ h1.weaken fun j hj => ?_) (fun e he ht => ?_)
  · unfold State.takers at *; rw [← hk]; exact hj
  · rw [hk]; exact h.inHand e (h3 ▸ he) ht

theorem stage1_outcome (e : EvalInputs) (sh : Shelf) : (stage1 e sh).outcome.isSome = e.taken.isSome := by
  unfold stage1
  split
  · simp [Stage1.unchanged, *]
  · rename_i c h
    rw [h]
    (repeat' split) <;> first
      | rfl
      | (unfold withSlot; split <;> first
          | rfl
          | (first | unfold applyManual | unfold applyForced | unfold applyLockout | unfold applyUnlock | unfold applyClearWtr)
            <;> dsimp only <;> (repeat' split) <;> rfl)

theorem applyTarget_taken (sh : Shelf) (now : Nat) (r : ChangeReason) (kind : Fin 8 → Kind) (t : Option (Fin 8)) :
    (sh.applyTarget now r kind t).1.taken = sh.taken := by
  unfold Shelf.applyTarget Shelf.acquire Shelf.leave
  dsimp only
  (repeat' split) <;> rfl

theorem run_outcome (e : EvalInputs) (sh : Shelf) : (e.run sh).outcome.isSome = e.taken.isSome := stage1_outcome e sh

/-- A command applied at stage 1 is no longer taken at the end (R98). -/
theorem finalShelf_taken (e : EvalInputs) (sh : Shelf) :
    (e.run sh).finalShelf.taken = if e.taken.isSome then none else sh.taken := by
  have h1 : (e.run sh).shelf.taken = sh.taken := by
    unfold EvalInputs.run
    dsimp only
    rw [applyTarget_taken]
  have h2 := run_outcome e sh
  unfold EvalResult.finalShelf
  split <;> simp_all

theorem WriteLaw.endEvaluation {s : State} (h : WriteLaw s) (e : EvalInputs) (he : s.evaluating = some e) :
    WriteLaw (s.endEvaluation e) := by
  have hw := s.endEvaluation_writer e
  dsimp only at hw
  obtain ⟨w', hq, hev⟩ := (listLaw_kept s.arbiter.servesItem s.takers).evaluated s.writer s.clock e.shelf
    (changedSlots s.judged e.shelf (e.run s.shelves[e.shelf]).judged)
    ((e.run s.shelves[e.shelf]).published != s.shelves[e.shelf].published) (e.run s.shelves[e.shelf]).note
    (e.run s.shelves[e.shelf]).outcome h.list
  rw [hev] at hw
  have hT : ∀ j, (s.endEvaluation e).takers j ↔ (s.takers j ∧ (e.taken.isSome = true → j ≠ e.shelf)) := by
    intro j
    unfold State.takers
    rw [State.endEvaluation_shelves, set_at]
    by_cases hj : e.shelf = j
    · subst hj
      rw [if_pos rfl, finalShelf_taken]
      cases e.taken.isSome <;> simp
    · simp [hj, Ne.symm hj]
  refine .of ?_ (by simp)
  rw [hw, show (s.endEvaluation e).arbiter = s.arbiter by simp]
  have ho := run_outcome e s.shelves[e.shelf]
  split
  · rename_i o hr
    rw [hr] at ho
    have hi : s.takers e.shelf := h.inHand e he ho.symm
    exact (hq.completed hi o).weaken fun j hj => ⟨((hT j).mp hj).1, ((hT j).mp hj).2 ho.symm⟩
  · exact hq.weaken fun j hj => ((hT j).mp hj).1

theorem WriteLaw.disableShelf {s : State} (h : WriteLaw s) {i : Fin 32} (hn : s.notEvaluating i) :
    WriteLaw (s.disableShelf i) := by
  have hT : ∀ j, (s.disableShelf i).takers j ↔ (s.takers j ∧ j ≠ i) := by
    intro j
    unfold State.takers
    rw [State.disableShelf_shelves, set_at]
    by_cases hj : i = j
    · subst hj; simp [Shelf.disableAt]
    · simp [hj, Ne.symm hj]
  have hd : ListLaw s.arbiter.servesItem (fun j => s.takers j ∧ j ≠ i) (s.dropTaken i).writer.list := by
    unfold State.dropTaken
    split
    · rename_i ht; exact h.list.completed ht _
    · exact h.list.weaken fun j hj => hj.1
  have hk : ListLaw s.arbiter.servesItem (s.disableShelf i).takers (s.disableShelf i).writer.list :=
    ((listLaw_kept _ _).disableShelf s i rfl hd).weaken fun j hj => (hT j).mp hj
  refine .of (by rw [show (s.disableShelf i).arbiter = s.arbiter by simp]; exact hk) (fun e he ht => ?_)
  have he' : s.evaluating = some e := by simpa using he
  have hx := (hT e.shelf).mpr ⟨h.inHand e he' ht, hn e he'⟩
  exact hx

theorem WriteLaw.enableShelf {s : State} (h : WriteLaw s) (i : Fin 32) : WriteLaw (s.enableShelf i) :=
  h.shelf i (State.enableShelf_shelves s i) rfl (by simp) (by simp) ((listLaw_kept _ s.takers).enableShelf s i rfl h.list)

theorem WriteLaw.setMonitoring {s : State} (h : WriteLaw s) (i : Fin 32) (p : MonitorParams) :
    WriteLaw (s.setMonitoring i p) := by
  have h2 : (s.setMonitoring i p).shelves = s.shelves := by simp
  refine .of ?_ (fun e he ht => ?_)
  · unfold State.takers
    rw [h2, show (s.setMonitoring i p).arbiter = s.arbiter by simp]
    exact (listLaw_kept _ s.takers).setMonitoring s i p h.list
  · rw [h2]; exact h.inHand e (by simpa using he) ht

theorem WriteLaw.shelfConfigured {s : State} (hs : WriteLaw s) {i : Fin 32} (hn : s.notEvaluating i) (cfg : ShelfConfig)
    (out : CfgOutcome) (seq : Word) : WriteLaw (s.shelfConfigured i cfg out seq) := by
  have h0 : WriteLaw (s.setShelf i (s.shelves[i].applyConfig cfg out seq)) :=
    hs.shelf i (State.setShelf_shelves s i _) rfl rfl rfl hs.list
  have hu := h0.setMonitoring i cfg.monitor
  have hn' : ((s.setShelf i (s.shelves[i].applyConfig cfg out seq)).setMonitoring i cfg.monitor).notEvaluating i := by
    intro e he; exact hn e (by simpa using he)
  revert hu hn'
  rcases State.shelfConfigured_cases hn cfg out seq with ⟨_, _, h⟩ | ⟨_, _, h⟩ | ⟨_, _, h⟩ | ⟨_, _, h⟩ <;> rw [h] <;>
    generalize (s.setShelf i (s.shelves[i].applyConfig cfg out seq)).setMonitoring i cfg.monitor = u <;> intro hu hn'
  · exact hu.shelf i (sh := { u.shelves[i] with pendingReason := some .config }) (by simp) rfl (by simp)
      (by simp) (by simpa using hu.list)
  · exact hu.disableShelf hn'
  · exact hu.enableShelf i
  · exact hu.same (by simp) (by simp) (by simp) (by simp)

theorem WriteLaw.candEvent {s : State} (hs : WriteLaw s) (k : Fin 256) (c : Candidate) : WriteLaw (s.candEvent k c) := by
  refine .of ?_ ?_
  · rw [State.candEvent_writer]
    have h2 : (s.candEvent k c).shelves = s.shelves := by simp
    unfold State.takers; rw [h2, show (s.candEvent k c).arbiter = s.arbiter by simp]
    exact hs.list.joined rfl
  · have h2 : (s.candEvent k c).shelves = s.shelves := by simp
    have h3 : (s.candEvent k c).evaluating = s.evaluating := by simp
    rw [h2, h3]; exact hs.inHand

theorem WriteLaw.clear {t : State} (h1 : t.writer.list = []) (h3 : t.evaluating = none)
    (h4 : t.arbiter.owner ≠ .writer .item) : WriteLaw t :=
  ⟨.inl (by simp [h1]), fun h => absurd h h4, by simp [h1], by simp [h3]⟩

theorem writeLaw_kept : Kept WriteLaw := by
  constructor
  case congr =>
    intro s t hk hs
    exact hs.same (by rw [hk.writer.resolve_left (by decide)]) (hk.shelves.resolve_left (by decide))
      (hk.evaluating.resolve_left (by decide)) (hk.arbiter.resolve_left (by decide))
  case ask =>
    intro s item hi hs
    refine .of ?_ ?_
    · rw [State.ask_writer, show (s.ask item).takers = s.takers by unfold State.takers; simp,
        show (s.ask item).arbiter = s.arbiter by simp]
      exact hs.list.joined hi
    · rw [show (s.ask item).evaluating = s.evaluating by simp, show (s.ask item).shelves = s.shelves by simp]; exact hs.inHand
  case port =>
    intro s a h1 h2 hs
    exact .of (hs.list.port (by simpa only [servesItem_iff] using h1) (by simpa only [servesItem_iff] using h2)) hs.inHand
  case served =>
    intro s ho hs
    have h := hs.list
    rw [(servesItem_iff _).mpr ho] at h
    exact .of h.served hs.inHand
  case writer => intro s w h _ hs; exact hs.same h rfl rfl rfl
  case takeCommand =>
    intro s i c hc hs
    simp only [State.commandInHand, Bool.or_eq_false_iff] at hc
    refine .of ⟨hs.list.single, hs.list.nonempty, fun j hj => ?_⟩ (fun e he ht => ?_)
    · by_cases h : i = j
      · subst h; exact hc.2
      · refine hs.command j ?_
        unfold State.takers at hj
        rwa [State.setShelf_shelves, set_at, if_neg h] at hj
    · rw [State.setShelf_shelves, set_at]
      split
      · rfl
      · exact hs.inHand e he ht
  case outcome => intro s i out seq _ hs; exact hs.shelf i (State.setShelf_shelves s i _) rfl rfl rfl hs.list
  case observation =>
    intro s k o hs
    rcases s.observation_cases k o with ⟨_, h⟩ | ⟨ho, h⟩ <;> rw [h]
    exacts [hs, hs.candEvent k _]
  case reportExpiry =>
    intro s k hs
    rcases s.reportExpiry_cases k with h | h <;> rw [h]
    exacts [hs.same rfl rfl rfl rfl, hs.candEvent k _]
  case condemn =>
    intro s k hs
    rcases s.condemnCand_cases k with h | ⟨c, hc, h⟩ <;> rw [h]
    exacts [hs, hs.candEvent k _]
  case holdOff => intro s k h hs; exact hs.candEvent k _
  case wtr => intro s k h hs; exact hs.candEvent k _
  case candConfigured => intro s k cfg out hs; exact hs.candEvent k _
  case candRefused => intro s k cause hs; exact hs.candEvent k _
  case endEvaluation => intro s e he hs; exact hs.endEvaluation e he
  case begins =>
    intro s i rest _ hs
    refine .of hs.list (fun e he ht => ?_)
    cases he; exact ht
  case shelfConfigured => intro s i cfg out seq hn hs; exact hs.shelfConfigured hn _ _ _
  case disable => intro s i hn _ hs; exact hs.disableShelf hn
  case lock =>
    intro s i _ h hs
    exact hs.shelf i (State.lockShelf_shelves s i) rfl (by simp) (by simp)
      (by simp only [State.lockShelf, State.log_writer, State.setShelf_writer]; exact hs.list.noted _ _ _)
  case loseLock =>
    intro s i _ h hs
    refine hs.shelf i (State.loseLock_shelves s i) rfl (by simp) (by simp) ?_
    simp only [State.loseLock, State.log_writer]
    split <;> exact hs.list.noted _ _ _
  case acquisitionFails =>
    intro s i _ h hs
    refine hs.shelf i (State.acquisitionFails_shelves s i) rfl (by simp) (by simp) ?_
    simp only [State.acquisitionFails]
    rw [show ∀ t : State, (t.place i).writer = t.writer from fun t => by simp, State.log_writer]
    split <;> exact hs.list.noted _ _ _
  case learned =>
    intro s i _ h hs
    exact hs.shelf i (State.learned_shelves s i) rfl (by simp) (by simp) (by simpa using hs.list)
  case holdoverExpires =>
    intro s i _ h hs
    refine hs.shelf i (State.holdoverExpires_shelves s i) rfl (by simp) (by simp) ?_
    simp only [State.holdoverExpires]
    rw [show ∀ t : State, (t.place i).writer = t.writer from fun t => by simp, State.log_writer]
    exact hs.list.noted _ _ _
  case tick =>
    intro s hs
    have hk : ∀ j : Fin 32, s.tickNow.shelves[j].taken = s.shelves[j].taken := by
      intro j; simp only [State.tickNow]; rw [map_at]; rfl
    refine .of ⟨hs.list.single, hs.list.nonempty, fun j hj => hs.command j ?_⟩ (fun e he ht => ?_)
    · unfold State.takers at hj; rwa [hk] at hj
    · rw [hk]; exact hs.inHand e he ht
  case powerOn => intro s _; exact .clear (by simp [Writer.reset]) (by simp) (by simp [Arbiter.reset])
  case fullReset => intro s n _; exact .clear (by simp [Writer.reset]) (by simp) (by simp)
  case restart => intro s n _; exact .clear (by simp [Writer.reset]) (by simp) (by simp)
  all_goals intros; rename_i hs; exact hs.same (by simp) (by simp) (by simp) (by simp)

/-! ### The timing graph -/

open Relation

theorem NoRing.sub {v v' : Vector Shelf 32} (h : NoRing v) (hs : ∀ x y, follows v' x y → follows v x y) : NoRing v' :=
  fun x hx => h x (TransGen.mono hs _ _ hx)

/-- A new pointer from shelf `i` closes no ring when its source does not lead to `i` (R104). -/
theorem NoRing.point {v : Vector Shelf 32} (h : NoRing v) {i b : Fin 32} {sh : Shelf} (hb : sh.followed = some b)
    (hw : ¬ ReflTransGen (follows v) b i) : NoRing (v.set i sh) := by
  have key : ∀ x y, TransGen (follows (v.set i sh)) x y →
      TransGen (follows v) x y ∨ (ReflTransGen (follows v) x i ∧ ReflTransGen (follows v) b y) := by
    intro x y hxy
    have edge : ∀ p q, follows (v.set i sh) p q → follows v p q ∨ (p = i ∧ q = b) := by
      intro p q hpq
      unfold follows at hpq ⊢
      rw [set_at] at hpq
      split at hpq
      · rename_i e; rw [hb] at hpq; exact .inr ⟨e.symm, (Option.some.inj hpq).symm⟩
      · exact .inl hpq
    induction hxy using TransGen.head_induction_on with
    | single hpq =>
      rcases edge _ _ hpq with h1 | ⟨rfl, rfl⟩
      exacts [.inl (.single h1), .inr ⟨.refl, .refl⟩]
    | head hpq _ ih =>
      rcases edge _ _ hpq with h1 | ⟨rfl, rfl⟩
      · rcases ih with h2 | ⟨h2, h3⟩
        exacts [.inl (.head h1 h2), .inr ⟨.head h1 h2, h3⟩]
      · rcases ih with h2 | ⟨_, h3⟩
        exacts [.inr ⟨.refl, h2.to_reflTransGen⟩, .inr ⟨.refl, h3⟩]
  intro x hx
  rcases key x x hx with h1 | ⟨h1, h2⟩
  exacts [h x h1, hw (h2.trans h1)]

/-- A live walk that ends without finding the shelf: no pointers lead from its start to the shelf (R103). -/
theorem walk_ends {v : Vector Shelf 32} {i : Fin 32} : ∀ {n : Nat} {b : Fin 32}, (walk v i n b).2 = false →
    (walk v i n b).1.length < n → ¬ ReflTransGen (follows v) b i
  | 0, _, _, hl => absurd hl (Nat.not_lt_zero _)
  | n + 1, b, hf, hl => by
    intro hr
    unfold walk at hf hl
    split at hf
    · cases hf
    · rename_i hne
      rw [if_neg hne] at hl
      rcases ReflTransGen.cases_head hr with e | ⟨c, hc, hr'⟩
      · exact hne e
      · unfold follows at hc
        rw [hc] at hf hl
        exact walk_ends hf (Nat.lt_of_succ_lt_succ hl) hr'

theorem walk_reaches {v : Vector Shelf 32} {i : Fin 32} : ∀ {n : Nat} {b y : Fin 32}, y ∈ (walk v i n b).1 →
    ReflTransGen (follows v) b y
  | 0, _, _, h => by simp [walk] at h
  | n + 1, b, y, h => by
    unfold walk at h
    split at h
    · simp at h; rw [h]
    · split at h
      · simp at h; rw [h]
      · rename_i c hc
        rcases List.mem_cons.mp h with e | h
        · rw [e]
        · exact .head hc (walk_reaches h)

theorem walk_nodup {v : Vector Shelf 32} (hv : NoRing v) {i : Fin 32} : ∀ {n : Nat} {b : Fin 32}, (walk v i n b).1.Nodup
  | 0, _ => by simp [walk]
  | n + 1, b => by
    unfold walk
    split
    · simp
    · split
      · simp
      · rename_i c hc
        rw [List.nodup_cons]
        exact ⟨fun hm => hv b (TransGen.head' hc (walk_reaches hm)), walk_nodup hv⟩

theorem walk_avoids {v : Vector Shelf 32} {i : Fin 32} : ∀ {n : Nat} {b : Fin 32}, (walk v i n b).2 = false →
    i ∉ (walk v i n b).1
  | 0, _, _ => by simp [walk]
  | n + 1, b, hf => by
    unfold walk at hf ⊢
    split at hf
    · cases hf
    · rename_i hne
      rw [if_neg hne]
      split
      · simp [Ne.symm hne]
      · rename_i c hc
        rw [hc] at hf
        simp only [List.mem_cons, not_or]
        exact ⟨Ne.symm hne, walk_avoids hf⟩

/-! #### Eligible targets -/

/-- A slot that passes checks 8 and 9 of R84. -/
def EvalCtx.safeSlot (x : EvalCtx) (j : Fin 8) : Prop := x.loops j = false ∧ x.tooDeep j = false

theorem firstFailing_eligible {l : List (Bool × EligCode)} (hc : ∀ p ∈ l, p.2 ≠ .eligible) (h : firstFailing l = .eligible) :
    ∀ p ∈ l, p.1 = false := by
  induction l with
  | nil => intro p hp; cases hp
  | cons a l ih =>
    intro p hp
    unfold firstFailing at h
    split at h
    · exact absurd h (hc a List.mem_cons_self)
    · rename_i ha
      rcases List.mem_cons.mp hp with e | hm
      · rw [e]; simpa using ha
      · exact ih (fun p hp => hc p (List.mem_cons_of_mem _ hp)) h p hm

theorem EvalCtx.safe_of {x : EvalCtx} {j : Fin 8} {l : List (Bool × EligCode)} (hc : ∀ p ∈ l, p.2 ≠ .eligible)
    (h : firstFailing (l ++ x.peerChecks j) = .eligible) : x.safeSlot j := by
  have hc' : ∀ p ∈ l ++ x.peerChecks j, p.2 ≠ .eligible := by
    intro p hp
    rcases List.mem_append.mp hp with h | h
    · exact hc p h
    · simp [EvalCtx.peerChecks] at h
      rcases h with rfl | rfl | rfl <;> simp
  exact ⟨firstFailing_eligible hc' h (x.loops j, .loop) (by simp [EvalCtx.peerChecks]),
    firstFailing_eligible hc' h (x.tooDeep j, .tooDeep) (by simp [EvalCtx.peerChecks])⟩

theorem EvalCtx.newEligible_safe {x : EvalCtx} {j : Fin 8} (h : x.newEligible j = true) : x.safeSlot j :=
  EvalCtx.safe_of (by simp) (eq_of_beq h)

theorem EvalCtx.remainEligible_safe {x : EvalCtx} {j : Fin 8} (h : x.remainEligible j = true) : x.safeSlot j :=
  EvalCtx.safe_of (by simp) (eq_of_beq h)

theorem EvalCtx.forced_safe {x : EvalCtx} {j : Fin 8} (h : x.forcedCode j = .eligible) : x.safeSlot j :=
  EvalCtx.safe_of (by simp) h

theorem EvalCtx.best_eligible {x : EvalCtx} {b : Fin 8} (h : x.best = some b) : x.newEligible b = true := by
  have key : ∀ (l : List (Fin 8)) (a : Option (Fin 8)), (∀ b, a = some b → x.newEligible b = true) →
      ∀ b, l.foldl x.better a = some b → x.newEligible b = true := by
    intro l
    induction l with
    | nil => exact fun a ha => ha
    | cons j l ih =>
      intro a ha
      refine ih _ (fun b hb => ?_)
      unfold EvalCtx.better at hb
      (repeat' split at hb) <;> cases hb <;> first | assumption | exact ha _ rfl
  exact key _ none (by simp) b h

theorem EvalCtx.cur_eligible {x : EvalCtx} {sel : Option (Fin 8)} {c : Fin 8} (h : x.cur sel = some c) :
    x.remainEligible c = true := by
  unfold EvalCtx.cur at h
  (repeat' split at h) <;> cases h
  assumption

theorem EvalCtx.policyTarget_safe {x : EvalCtx} {p : Policy} {g : Quality} {cur : Option (Fin 8)} {k : Fin 8}
    (hc : ∀ c, cur = some c → x.safeSlot c) (h : x.policyTarget p g cur = some k) : x.safeSlot k := by
  unfold EvalCtx.policyTarget at h
  (repeat' split at h) <;> first
    | exact EvalCtx.newEligible_safe (EvalCtx.best_eligible h)
    | (cases h; exact hc _ rfl)
    | exact hc _ h
    | (cases h; exact EvalCtx.newEligible_safe (EvalCtx.best_eligible ‹_›))

theorem EvalCtx.stage3_safe {x : EvalCtx} {sh : Shelf} {m : Mode} {k : Fin 8} (h : (x.stage3 sh m).target = some k) :
    x.safeSlot k := by
  have hcur : ∀ c, x.cur sh.selected = some c → x.safeSlot c := fun c hc => EvalCtx.remainEligible_safe (EvalCtx.cur_eligible hc)
  unfold EvalCtx.stage3 EvalCtx.chooseTarget at h
  split at h
  · split at h
    · cases h
    · dsimp only at h
      split at h
      · cases h; exact EvalCtx.forced_safe ‹_›
      · cases h
    · split at h
      · cases h; exact EvalCtx.remainEligible_safe ‹_›
      · exact EvalCtx.policyTarget_safe hcur h
    · exact EvalCtx.policyTarget_safe hcur h
  · cases h

/-- What a safe slot's live walk has: it ends short of 8 shelves without the shelf. -/
theorem EvalCtx.safe_walk {x : EvalCtx} {j : Fin 8} (h : x.safeSlot j) {b : Fin 32} (hb : x.cands[j].config.kind = .peer b) :
    (liveWalk x.shelves x.shelf b).2 = false ∧ (liveWalk x.shelves x.shelf b).1.length < 8 := by
  have h1 := h.1; have h2 := h.2
  unfold EvalCtx.loops EvalCtx.tooDeep EvalCtx.walkOf at *
  rw [hb] at h1 h2
  simp at h1 h2
  exact ⟨h1, by omega⟩

theorem applyTarget_followed (sh : Shelf) (now : Nat) (r : ChangeReason) (kind : Fin 8 → Kind) (t : Option (Fin 8)) :
    (sh.applyTarget now r kind t).1.followed = sh.followed ∨ (sh.applyTarget now r kind t).1.followed = none ∨
      ∃ k, t = some k ∧ (sh.applyTarget now r kind t).1.followed = sourceOf (kind k) := by
  unfold Shelf.applyTarget Shelf.acquire Shelf.leave
  dsimp only
  (repeat' split) <;> first | exact .inl rfl | exact .inr (.inl rfl) | exact .inr (.inr ⟨_, rfl, rfl⟩)

theorem applyTarget_selected (sh : Shelf) (now : Nat) (r : ChangeReason) (kind : Fin 8 → Kind) (t : Option (Fin 8)) (j : Fin 8)
    (hs : (sh.applyTarget now r kind t).1.selected = some j)
    (ha : (sh.applyTarget now r kind t).1.state = .acquiring ∨ (sh.applyTarget now r kind t).1.state = .locked) :
    t = some j := by
  unfold Shelf.applyTarget Shelf.acquire Shelf.leave Shelf.isNew at *
  dsimp only at hs ha
  (repeat' split at hs) <;> simp_all

/-! #### The law -/

theorem GraphLaw.same {s t : State} (h : GraphLaw s) (h1 : t.shelves = s.shelves) (h2 : t.evaluating = s.evaluating) :
    GraphLaw t := ⟨h1 ▸ h.pointers, by rw [h1, h2]; exact h.inputs, h1 ▸ h.paths⟩

/-- An event at a shelf that follows no other source than before, and publishes nothing. -/
theorem GraphLaw.shelf {s t : State} (h : GraphLaw s) (i : Fin 32) {sh : Shelf} (h1 : t.shelves = s.shelves.set i sh)
    (hf : sh.followed = s.shelves[i].followed ∨ sh.followed = none) (hp : sh.published = s.shelves[i].published)
    (h2 : t.evaluating = s.evaluating) : GraphLaw t := by
  have hs : ∀ x y, follows t.shelves x y → follows s.shelves x y := by
    intro x y hxy
    unfold follows at hxy ⊢
    rw [h1, set_at] at hxy
    split at hxy
    · rename_i e; subst e
      rcases hf with e | e <;> rw [e] at hxy
      · exact hxy
      · cases hxy
    · exact hxy
  refine ⟨h.pointers.sub hs, fun e he => ?_, fun j => ?_⟩
  · have := h.inputs e (h2 ▸ he)
    exact ⟨this.1, fun x y hxy => this.2 x y (hs x y hxy)⟩
  · rw [h1, set_at]
    split
    · rename_i e; subst e; rw [hp]; exact h.paths i
    · exact h.paths j

theorem run_followed (e : EvalInputs) (sh : Shelf) :
    (e.run sh).finalShelf.followed = sh.followed ∨ (e.run sh).finalShelf.followed = none ∨
      ∃ b, (e.run sh).finalShelf.followed = some b ∧ (liveWalk e.shelves e.shelf b).2 = false ∧
        (liveWalk e.shelves e.shelf b).1.length < 8 := by
  have h1 : (e.run sh).finalShelf.followed = (e.run sh).shelf.followed := by unfold EvalResult.finalShelf; split <;> rfl
  rw [h1]
  unfold EvalInputs.run
  dsimp only
  rcases applyTarget_followed { sh with mode := _, lockout := _ } e.time _ _ _ with h | h | ⟨k, hk, h⟩
  · exact .inl h
  · exact .inr (.inl h)
  · rw [h]
    unfold sourceOf
    split
    · rename_i b hb
      exact .inr (.inr ⟨b, rfl, EvalCtx.safe_walk (EvalCtx.stage3_safe hk) hb⟩)
    all_goals exact .inr (.inl rfl)

theorem run_path (e : EvalInputs) (sh : Shelf) (hv : NoRing e.shelves) : PathOf e.shelf (e.run sh).finalShelf.published.path := by
  have h1 : (e.run sh).finalShelf.published = (e.run sh).shelf.published := by unfold EvalResult.finalShelf; split <;> rfl
  have own : PathOf e.shelf [e.shelf] := ⟨by simp, by simp, rfl⟩
  rw [h1]
  unfold EvalInputs.run Shelf.toPublish
  dsimp only
  have hsel := applyTarget_selected { sh with
      mode := ((e.ctx sh (stage1 e sh).lockout (stage1 e sh).cands).stage3 sh (stage1 e sh).mode).mode
      lockout := (stage1 e sh).lockout } e.time
    ((e.ctx sh (stage1 e sh).lockout (stage1 e sh).cands).reason sh (stage1 e sh).mode ((stage1 e sh).outcome == some .accepted)
      ((e.ctx sh (stage1 e sh).lockout (stage1 e sh).cands).stage3 sh (stage1 e sh).mode).dropped)
    (fun j => (stage1 e sh).cands[j].config.kind)
    ((e.ctx sh (stage1 e sh).lockout (stage1 e sh).cands).stage3 sh (stage1 e sh).mode).target
  revert hsel
  generalize (Shelf.applyTarget _ _ _ _ _).1 = r
  intro hsel
  have walked : ∀ j, ((e.ctx sh (stage1 e sh).lockout (stage1 e sh).cands).stage3 sh (stage1 e sh).mode).target = some j →
      PathOf e.shelf (match (e.ctx sh (stage1 e sh).lockout (stage1 e sh).cands).walkOf j with
        | some w => w.1.reverse ++ [e.shelf]
        | none => [e.shelf]) := by
    intro j hj
    have hsafe := EvalCtx.stage3_safe hj
    split
    · rename_i w hw
      unfold EvalCtx.walkOf at hw
      split at hw
      · rename_i b hb
        cases hw
        have hb' := EvalCtx.safe_walk hsafe hb
        have hlen : (liveWalk e.shelves e.shelf b).1.length < 8 := hb'.2
        refine ⟨?_, ?_, by simp⟩
        · rw [List.length_append, List.length_reverse]; exact hlen
        · rw [List.nodup_append]
          refine ⟨List.nodup_reverse.mpr (walk_nodup hv), by simp, ?_⟩
          intro a ha c hc hac
          simp at hc
          subst hc hac
          exact walk_avoids hb'.1 (List.mem_reverse.mp ha)
      all_goals cases hw
    · exact own
  unfold EvalCtx.livePath
  split <;> first
    | exact own
    | exact walked _ (hsel _ ‹_› (.inl ‹_›))
    | exact walked _ (hsel _ ‹_› (.inr ‹_›))

theorem GraphLaw.clear {t : State} (h2 : t.shelves = .ofFn Shelf.reset) (h3 : t.evaluating = none) : GraphLaw t := by
  refine ⟨?_, by simp [h3], fun i => ?_⟩
  · intro x hx
    obtain ⟨y, hy, _⟩ := TransGen.head'_iff.mp hx
    unfold follows at hy
    rw [h2, ofFn_at] at hy
    cases hy
  · rw [h2, ofFn_at]
    exact ⟨by simp [Shelf.reset, Published.reset], by simp [Shelf.reset, Published.reset], rfl⟩

theorem GraphLaw.endEvaluation {s : State} (h : GraphLaw s) (e : EvalInputs) (he : s.evaluating = some e) :
    GraphLaw (s.endEvaluation e) := by
  obtain ⟨hv, hsub⟩ := h.inputs e he
  have hpath := run_path e s.shelves[e.shelf] hv
  refine ⟨?_, by simp, fun j => ?_⟩
  · rw [State.endEvaluation_shelves]
    rcases run_followed e s.shelves[e.shelf] with hf | hf | ⟨b, hf, hw1, hw2⟩
    · refine h.pointers.sub fun x y hxy => ?_
      unfold follows at *
      rw [set_at] at hxy
      split at hxy
      · rename_i e'; subst e'; rwa [hf] at hxy
      · exact hxy
    · refine h.pointers.sub fun x y hxy => ?_
      unfold follows at *
      rw [set_at] at hxy
      split at hxy
      · rw [hf] at hxy; cases hxy
      · exact hxy
    · refine h.pointers.point hf (fun hr => walk_ends hw1 (by unfold liveWalk at hw2; omega) (ReflTransGen.mono hsub _ _ hr))
  · rw [State.endEvaluation_shelves, set_at]
    split
    · rename_i e'; subst e'; exact hpath
    · exact h.paths j

theorem GraphLaw.disableShelf {s : State} (h : GraphLaw s) (i : Fin 32) : GraphLaw (s.disableShelf i) :=
  h.shelf i (State.disableShelf_shelves s i) (.inr rfl) rfl (by simp)

theorem GraphLaw.shelfConfigured {s : State} (hs : GraphLaw s) {i : Fin 32} (hn : s.notEvaluating i) (cfg : ShelfConfig)
    (out : CfgOutcome) (seq : Word) : GraphLaw (s.shelfConfigured i cfg out seq) := by
  have h0 : GraphLaw (s.setShelf i (s.shelves[i].applyConfig cfg out seq)) :=
    hs.shelf i (State.setShelf_shelves s i _) (.inl rfl) rfl rfl
  have hu : GraphLaw ((s.setShelf i (s.shelves[i].applyConfig cfg out seq)).setMonitoring i cfg.monitor) :=
    h0.same (by simp) (by simp)
  revert hu
  rcases State.shelfConfigured_cases hn cfg out seq with ⟨_, _, h⟩ | ⟨_, _, h⟩ | ⟨_, _, h⟩ | ⟨_, _, h⟩ <;> rw [h] <;>
    generalize (s.setShelf i (s.shelves[i].applyConfig cfg out seq)).setMonitoring i cfg.monitor = u <;> intro hu
  · exact hu.shelf i (sh := { u.shelves[i] with pendingReason := some .config }) (by simp) (.inl rfl) rfl (by simp)
  · exact hu.disableShelf i
  · exact hu.shelf i (State.enableShelf_shelves u i) (.inl rfl) rfl (by simp)
  · exact hu.same (by simp) (by simp)

theorem graphLaw_kept : Kept GraphLaw := by
  constructor
  case congr =>
    intro s t hk hs
    exact hs.same (hk.shelves.resolve_left (by decide)) (hk.evaluating.resolve_left (by decide))
  case takeCommand => intro s i c _ hs; exact hs.shelf i (State.setShelf_shelves s i _) (.inl rfl) rfl rfl
  case outcome => intro s i out seq _ hs; exact hs.shelf i (State.setShelf_shelves s i _) (.inl rfl) rfl rfl
  case observation =>
    intro s k o hs
    rcases s.observation_cases k o with ⟨_, h⟩ | ⟨ho, h⟩ <;> rw [h]
    exacts [hs, hs.same (by simp) (by simp)]
  case reportExpiry =>
    intro s k hs
    rcases s.reportExpiry_cases k with h | h <;> rw [h]
    exacts [hs.same rfl rfl, hs.same (by simp) (by simp)]
  case condemn =>
    intro s k hs
    rcases s.condemnCand_cases k with h | ⟨c, hc, h⟩ <;> rw [h]
    exacts [hs, hs.same (by simp) (by simp)]
  case endEvaluation => intro s e he hs; exact hs.endEvaluation e he
  case begins =>
    intro s i rest _ hs
    refine ⟨hs.pointers, fun e he => ?_, hs.paths⟩
    cases he; exact ⟨hs.pointers, fun _ _ h => h⟩
  case shelfConfigured => intro s i cfg out seq hn hs; exact hs.shelfConfigured hn _ _ _
  case disable => intro s i hn _ hs; exact hs.disableShelf i
  case lock => intro s i _ h hs; exact hs.shelf i (State.lockShelf_shelves s i) (.inl rfl) rfl (by simp)
  case loseLock => intro s i _ h hs; exact hs.shelf i (State.loseLock_shelves s i) (.inl rfl) rfl (by simp)
  case acquisitionFails => intro s i _ h hs; exact hs.shelf i (State.acquisitionFails_shelves s i) (.inl rfl) rfl (by simp)
  case learned => intro s i _ h hs; exact hs.shelf i (State.learned_shelves s i) (.inl rfl) rfl (by simp)
  case holdoverExpires => intro s i _ h hs; exact hs.shelf i (State.holdoverExpires_shelves s i) (.inl rfl) rfl (by simp)
  case tick =>
    intro s hs
    have hk : ∀ j : Fin 32, s.tickNow.shelves[j] = s.shelves[j].tick (nextClock s.clock) := by
      intro j; simp only [State.tickNow]; rw [map_at]
    have hf : ∀ x y, follows s.tickNow.shelves x y → follows s.shelves x y := by
      intro x y h; unfold follows at *; rwa [hk] at h
    refine ⟨hs.pointers.sub hf, fun e he => ?_, fun j => ?_⟩
    · have := hs.inputs e he
      exact ⟨this.1, fun x y h => this.2 x y (hf x y h)⟩
    · rw [hk]; exact hs.paths j
  case powerOn => intro s _; exact .clear (by simp) (by simp)
  case fullReset => intro s n _; exact .clear (by simp) (by simp)
  case restart => intro s n _; exact .clear (by simp) (by simp)
  all_goals intros; rename_i hs; exact hs.same (by simp) (by simp)

end Sys2Proof.Machine
end

