-- ==== Sys2Proof/Laws/Records.lean ====
section
/-! SUPPORT. Records in the Exchange Memory: what a transaction of the Result Writer leaves of one, whole or cut. -/

namespace Sys2Proof.Machine

theorem lastWrite_zipIdx {addr : Nat → BitVec 14} {bound : Nat}
    (hinj : ∀ n n', n < bound → n' < bound → addr n = addr n' → n = n') :
    ∀ (l : List Word) (k n : Nat), k + l.length ≤ bound → n < bound →
      lastWrite ((l.zipIdx k).map fun p => some (addr p.2, p.1)) (addr n) = if k ≤ n then l[n - k]? else none
  | [], k, n, _, _ => by simp [lastWrite]
  | x :: l, k, n, hk, hn => by
    have hk' : k + (l.length + 1) ≤ bound := hk
    rw [List.zipIdx_cons, List.map_cons, lastWrite, lastWrite_zipIdx hinj l (k + 1) n (by omega) hn]
    by_cases h : k = n
    · subst h; simp
    · have hne : addr k ≠ addr n := fun e => h (hinj k n (by omega) hn e)
      rw [if_neg hne, Option.or_none]
      by_cases h' : k + 1 ≤ n
      · rw [if_pos h', if_pos (by omega), show n - k = (n - (k + 1)) + 1 by omega, List.getElem?_cons_succ]
      · rw [if_neg h', if_neg (by omega)]

/-- A transaction that writes words at `addr 0`, `addr 1`, … leaves them there, and every other byte as it was. -/
theorem wrote_of_accesses {s t : State} (hm : s.mem.wf = true) {addr : Nat → BitVec 14} (words : List Word)
    (hinj : ∀ n n', n < words.length → n' < words.length → addr n = addr n' → n = n')
    (ht : t.mem = s.mem.makeAccesses ((words.zipIdx).map fun p => some (addr p.2, p.1))) : s.wrote t addr words := by
  constructor
  · intro n hn
    rw [ht, Memory.readWord_makeAccesses hm, lastWrite_zipIdx hinj words 0 n (by omega) hn]
    simp [hn]
  · intro a ha
    rw [ht]
    refine Memory.readByte_makeAccesses_other hm _ (fun w v h => ?_)
    simp only [List.mem_map, Option.some.injEq, Prod.mk.injEq] at h
    obtain ⟨p, hp, rfl, rfl⟩ := h
    have := List.snd_lt_of_mem_zipIdx hp
    exact ha _ (by omega)

/-- The words of a record stand at different addresses. -/
theorem wordAddr_inj {base size i n n' : Nat} (hb : (base + size * i) / 4 + 16 ≤ 16384) (hn : n < 16) (hn' : n' < 16)
    (h : wordAddr base size i n = wordAddr base size i n') : n = n' := by
  have := congrArg BitVec.toNat h
  simp only [wordAddr, BitVec.toNat_ofNat] at this
  rw [Nat.mod_eq_of_lt (by omega), Nat.mod_eq_of_lt (by omega)] at this
  omega

theorem shelfResultAddr_inj (i : Fin 32) {n n' : Nat} (hn : n < 16) (hn' : n' < 16)
    (h : shelfResultAddr i n = shelfResultAddr i n') : n = n' := wordAddr_inj (by omega) hn hn' h

theorem candResultAddr_inj (k : Fin 256) {n n' : Nat} (hn : n < 16) (hn' : n' < 16)
    (h : candResultAddr k n = candResultAddr k n') : n = n' := wordAddr_inj (by omega) hn hn' h

theorem logAddr_inj {idx : Nat} (hi : idx < 128) {n n' : Nat} (hn : n < 16) (hn' : n' < 16)
    (h : logAddr idx n = logAddr idx n') : n = n' := wordAddr_inj (by omega) hn hn' h

theorem logControlAddr_inj {n n' : Nat} (hn : n < 16) (hn' : n' < 16) (h : logControlAddr n = logControlAddr n') : n = n' :=
  wordAddr_inj (by omega) hn hn' h

theorem slotAddr_inj (i : Fin 32) {n n' : Nat} (hn : n < 16) (hn' : n' < 16) (h : slotAddr i n = slotAddr i n') : n = n' :=
  wordAddr_inj (by omega) hn hn' h

theorem recordAccesses_eq (addr : Nat → BitVec 14) (first : Word) (body : List Word) :
    recordAccesses addr first body = ((framed first body).zipIdx).map fun p => some (addr p.2, p.1) := rfl

/-- A cut transaction has made its first accesses, never the last. -/
theorem cutAccesses_record (addr : Nat → BitVec 14) (words : List Word) (made : Nat) :
    cutAccesses made ((words.zipIdx).map fun p => some (addr p.2, p.1)) =
      (((words.dropLast.take made).zipIdx).map fun p => some (addr p.2, p.1)) := by
  unfold cutAccesses
  rw [List.dropLast_eq_take, List.dropLast_eq_take, List.take_take, List.take_take, ← List.map_take]
  congr 1
  apply List.ext_getElem?
  intro n
  simp only [List.length_map, List.length_zipIdx]
  rw [List.getElem?_take, List.getElem?_zipIdx, List.getElem?_zipIdx, List.getElem?_take]
  split <;> rfl

end Sys2Proof.Machine
end

