-- ==== Sys2Proof/Laws/Rows.lean ====
section
/-! SUPPORT. The port rows as their end makes them: how the port is handed on, and what the end of a transaction of the Intake
Unit or of the Result Writer answers. -/

namespace Sys2Proof.Machine

/-! ### The port (R145) -/

/-- The free port goes to the internal requester that waits. -/
theorem State.grantInternal_arbiter (s : State) (ho : s.arbiter.owner = .none) (hh : s.arbiter.host = none) :
    s.grantInternal.arbiter = s.arbiter.handedOn s.intakeWants s.writerJob := by
  unfold State.grantInternal Arbiter.handedOn State.grantIntake State.grantWriter

  cases hw : s.arbiter.writerWaits <;> cases hi : s.arbiter.intakeWaits <;> cases hn : s.intakeWants <;>
    cases hj : s.writerJob <;> cases ht : s.arbiter.turn <;> simp [hh, hi, hn, hj, ht, hw, ho]

/-- The port after a record transaction. -/
theorem State.releaseRecord_arbiter (s : State) :
    s.releaseRecord.arbiter = s.arbiter.handedOn s.intakeWants s.writerJob := by
  unfold State.releaseRecord
  dsimp only
  split
  · rename_i h
    unfold Arbiter.handedOn State.grantHost
    rw [if_pos h]
  · rename_i h
    rw [State.grantInternal_arbiter _ rfl (by simpa using h)]
    rfl

/-- Only the arbiter changes when the port is handed on. -/
theorem State.releaseRecord_eq (s : State) :
    s.releaseRecord = { s with arbiter := s.arbiter.handedOn s.intakeWants s.writerJob } := by
  rw [← State.releaseRecord_arbiter]
  unfold State.releaseRecord State.grantHost State.grantInternal State.grantIntake State.grantWriter
  dsimp only
  (repeat' split) <;> rfl

theorem State.portPassed_of {s u t : State} (hu : u.arbiter = s.arbiter) (ht : t = u.releaseRecord) : s.portPassed t := by
  subst ht
  unfold State.portPassed
  rw [State.releaseRecord_eq]
  rw [hu]
  rfl

/-! ### Requests of the Engine and the end of STOPPING (R44, R177) -/

/-- The row of a request that waits takes it, unless the engine is HALTED. -/
theorem Request.exec_row {s : State} {r : Request} (hr : r ∈ s.requests) (he : s.engine ≠ .halted) :
    exec r.row s = .next (s.takeRequest r) := by
  have hm : s.engine.monitors = true := by cases h : s.engine <;> first | rfl | exact absurd h he
  cases r <;> simp [Request.row, exec, execAcquisitionFailureRequest, execLockLostRequest, execClearWtrRequest, hm, hr]

/-- Requests taken one after the other are taken as their rows take them. -/
theorem Runs.takeEach (rs rest : List Request) (s : State) (h : s.requests = rs ++ rest) (he : s.engine ≠ .halted) :
    Runs (rs.map Request.row) s (rs.foldl State.takeRequest s) := by
  induction rs generalizing s with
  | nil => rfl
  | cons r rs ih =>
    exact ⟨_, Request.exec_row (by simp [h]) he, ih _ (by simp [State.takeRequest, h]) (by simpa using he)⟩

/-- What STOPPING leaves at its end. -/
theorem State.leaveStopping_stoppedTo (u : State) (h : u.engine = .stopping) : u.stoppedTo u.leaveStopping := by
  refine ⟨?_, u.takeRequests, Runs.takeEach u.requests [] u (by simp) (by simp [h]), ?_, ?_, ?_⟩
  · unfold State.leaveStopping; split <;> simp
  · unfold State.leaveStopping State.enterStarting State.enterHalted
    split <;> (constructor <;> first | (left; decide) | exact .inr rfl)
  · intro hr; unfold State.leaveStopping State.enterHalted; simp [hr]
  · intro hr; unfold State.leaveStopping State.enterStarting; simp [hr]

/-- STOPPING ends when nothing that it waits for is in progress, and goes on otherwise. -/
theorem State.endStopping_stoppedTo (u : State) (h : u.engine = .stopping) (ho : u.arbiter.owner ≠ .intake) :
    (u.evaluating.isSome = true → u.endStopping = u) ∧ (u.evaluating = none → u.stoppedTo u.endStopping) := by
  unfold State.endStopping State.atRest
  constructor <;> intro he
  · rw [if_neg]; rintro ⟨_, h2⟩; cases hx : u.evaluating <;> simp_all
  · rw [if_pos ⟨h, by simp [he, ho]⟩]; exact u.leaveStopping_stoppedTo h

/-! ### The end of a transaction of a sweep (R148) -/

/-- The handover, the next position, the port handed on. -/
theorem State.sweepTransaction_eq (s : State) (f : State → State) {p q : Position} (hp : (f s).intake.position = some p)
    (hq : p.next (f s).intake.applied.shelfCount = some q) (he : (f s).engine ≠ .stopping) :
    s.sweepTransaction f = ({ f s with intake := { (f s).intake with position := some q } } : State).releaseRecord := by
  unfold State.sweepTransaction State.advanceSweep
  rw [if_neg he, hp]
  dsimp only
  rw [hq]
  unfold State.endStopping
  rw [if_neg]
  rintro ⟨h, _⟩
  rw [State.releaseRecord_eq] at h
  exact he h

/-- A row of the Intake Unit at the end of the transaction granted to it. -/
theorem State.intakeRow_finish {s : State} (h : s.arbiter.owner = .intake) (act : State → State) :
    s.intakeRow true .finish act = act s := by unfold State.intakeRow; simp [h]

/-- A row of the Result Writer at the end of the transaction granted to it. -/
theorem State.writerRow_finish {s : State} (h : s.arbiter.owner = .writer .item) (act : State → State) :
    s.writerRow .finish act = (act s).releaseRecord := by unfold State.writerRow; simp [h]

/-- The end of a sweep's transaction whose handover keeps the position, the applied values, the engine state and the arbiter: only
the position moves further and the port is handed on. At the last position this is so in RUNNING without a further-sweep mark. -/
theorem State.sweepRow_done {s : State} {p : Position} {c : Instr} (h : s.sweepingAt p) (f : State → State)
    (hex : exec c s = .next (s.intakeRow true .finish (fun s => s.sweepTransaction f)))
    (fp : (f s).intake.position = some p) (fa : (f s).intake.applied = s.intake.applied) (fe : (f s).engine = s.engine)
    (farb : (f s).arbiter = s.arbiter)
    (hn : p ≠ .obs 255 ∨ (s.engine = .running ∧ (f s).intake.furtherSweep = false)) :
    ∃ t x, exec c s = .next t ∧
      t = { f s with
        intake := { (f s).intake with position := p.next s.intake.applied.shelfCount }
        arbiter := x } ∧ s.portPassed t := by
  rw [hex, State.intakeRow_finish h.2.1]
  have hes : ({ f s with arbiter := s.arbiter } : State).engine ≠ .stopping := by rw [show _ = (f s).engine from rfl, fe]; exact h.2.2
  cases hq : p.next s.intake.applied.shelfCount with
  | some q =>
    rw [State.sweepTransaction_eq s f fp (by rw [fa]; exact hq) hes]
    exact ⟨_, _, rfl, State.releaseRecord_eq _,
      State.portPassed_of (u := { f s with intake := { (f s).intake with position := some q } }) farb rfl⟩
  | none =>
    obtain ⟨k, rfl⟩ : ∃ k, p = .obs k := by
      cases p <;> first
        | exact ⟨_, rfl⟩
        | (exfalso; simp only [Position.next] at hq; (repeat' split at hq) <;> simp at hq)
    have hk : k = 255 := by simp only [Position.next] at hq; split at hq <;> simp at hq; omega
    subst hk
    rcases hn with hn | ⟨he, hf⟩
    · exact absurd rfl hn
    have e : s.sweepTransaction f = ({ f s with intake := { (f s).intake with position := none } } : State).releaseRecord := by
      unfold State.sweepTransaction State.advanceSweep
      rw [if_neg hes, fp]
      dsimp only
      rw [show (Position.obs 255).next (f s).intake.applied.shelfCount = none from rfl]
      unfold State.sweepEnds
      dsimp only
      rw [fe, he]
      unfold State.furtherSweep
      dsimp only
      rw [hf, if_neg (by decide)]
      unfold State.endStopping
      rw [if_neg]
      rintro ⟨h1, _⟩
      rw [State.releaseRecord_eq] at h1
      cases h1
    rw [e]
    exact ⟨_, _, rfl, State.releaseRecord_eq _,
      State.portPassed_of (u := { f s with intake := { (f s).intake with position := none } }) farb rfl⟩

/-- What the row of each position of a sweep does. -/
theorem execSweepRow (s : State) (p : Position) (hp : s.intake.position = some p) (ph : Phase) :
    exec (match p with
      | .global => .globalRecord ph
      | .slot _ => .commandTake ph
      | .shelfConfig _ => .shelfConfiguration ph
      | .candConfig _ => .candidateConfiguration ph
      | .report _ => .shelfReport ph
      | .obs _ => .observation ph) s =
    .next (s.intakeRow true ph (fun s => s.sweepTransaction (match p with
      | .global => State.takeGlobal
      | .slot i => fun s => s.takeSlot i
      | .shelfConfig i => fun s => s.takeShelfConfig i
      | .candConfig i => fun s => s.takeCandConfig i
      | .report i => fun s => s.takeReport i
      | .obs i => fun s => s.takeObs i))) := by
  cases p <;> simp [exec, execGlobalRecord, execCommandTake, execShelfConfiguration, execCandidateConfiguration, execShelfReport,
    execObservation, hp]

/-- A record is taken when it is fresh (R141). -/
theorem takes_iff_fresh (seq echo : Word) (last : Option Word) : takes seq echo last = true ↔ fresh seq echo last := by
  unfold takes whole fresh
  simp [bne_iff_ne]
  tauto

end Sys2Proof.Machine
end

