-- ==== Sys2Proof/Laws/Stopping.lean ====
section
/-! SUPPORT. What a record taken does rests neither on the engine state nor on the further-sweep mark: the record of a sweep that
STOPPING ends has the effect that it has in RUNNING (R44, R80, R150). -/

namespace Sys2Proof.Machine

/-- A state with another engine state and further-sweep mark. -/
def State.seen (s : State) (en : EngineState) (b : Bool) : State :=
  { s with engine := en, intake := { s.intake with furtherSweep := b } }

theorem State.asRunning_eq (s : State) : s.asRunning = s.seen .running false := rfl

theorem State.ask_seen (s : State) (en : EngineState) (b : Bool) (item : WriteItem) :
    (s.seen en b).ask item = (s.ask item).seen en b := by simp only [State.ask_eq]; rfl

theorem State.place_seen (s : State) (en : EngineState) (b : Bool) (i : Fin 32) :
    (s.seen en b).place i = (s.place i).seen en b := by simp only [State.place_eq]; rfl

theorem State.candEvent_seen (s : State) (en : EngineState) (b : Bool) (k : Fin 256) (c : Candidate) :
    (s.seen en b).candEvent k c = (s.candEvent k c).seen en b := by simp only [State.candEvent_eq]; rfl

theorem State.settle_seen (s : State) (en : EngineState) (b : Bool) (i : Fin 32) :
    (s.seen en b).settle i = (s.settle i).seen en b := by
  unfold State.settle
  rw [show (s.seen en b).evaluating = s.evaluating from rfl]
  cases s.evaluating with
  | none => rfl
  | some e => dsimp only; split
              · simp only [State.endEvaluation_eq]; rfl
              · rfl

theorem State.reparamCand_seen (s : State) (en : EngineState) (b : Bool) (old new : MonitorParams) (k : Fin 256) :
    State.reparamCand old new (s.seen en b) k = (State.reparamCand old new s k).seen en b := by
  unfold State.reparamCand State.publishCand
  dsimp only
  rw [show (s.seen en b).cands = s.cands from rfl, show (s.seen en b).clock = s.clock from rfl]
  (repeat' split) <;> first
    | rfl
    | exact State.candEvent_seen _ _ _ _ _
    | exact State.ask_seen (s.setCand k _) en b _

theorem State.setMonitoring_seen (s : State) (en : EngineState) (b : Bool) (i : Fin 32) (p : MonitorParams) :
    (s.seen en b).setMonitoring i p = (s.setMonitoring i p).seen en b := by
  have fold : ∀ (l : List (Fin 256)) (old : MonitorParams) (s : State),
      l.foldl (State.reparamCand old p) (s.seen en b) = (l.foldl (State.reparamCand old p) s).seen en b := by
    intro l old
    induction l with
    | nil => exact fun _ => rfl
    | cons k l ih => intro s; rw [List.foldl_cons, List.foldl_cons, State.reparamCand_seen, ih]
  exact fold _ _ (s.setParams i p)

theorem State.disableShelf_seen (s : State) (en : EngineState) (b : Bool) (i : Fin 32) :
    (s.seen en b).disableShelf i = (s.disableShelf i).seen en b := by simp only [State.disableShelf_eq]; rfl

theorem State.enableShelf_seen (s : State) (en : EngineState) (b : Bool) (i : Fin 32) :
    (s.seen en b).enableShelf i = (s.enableShelf i).seen en b := by simp only [State.enableShelf_eq]; rfl

theorem State.shelfConfigured_seen (s : State) (en : EngineState) (b : Bool) (i : Fin 32) (cfg : ShelfConfig)
    (out : CfgOutcome) (seq : Word) :
    (s.seen en b).shelfConfigured i cfg out seq = (s.shelfConfigured i cfg out seq).seen en b := by
  unfold State.shelfConfigured
  dsimp only
  rw [State.settle_seen]
  rw [show ∀ (u : State) (sh : Shelf), (u.seen en b).setShelf i sh = (u.setShelf i sh).seen en b from fun _ _ => rfl]
  rw [State.setMonitoring_seen]
  simp only [show ∀ u : State, (u.seen en b).shelves = u.shelves from fun _ => rfl,
    show ∀ (u : State) (sh : Shelf), (u.seen en b).setShelf i sh = (u.setShelf i sh).seen en b from fun _ _ => rfl,
    State.enableShelf_seen, State.disableShelf_seen, State.place_seen]
  (repeat' split) <;> rfl

theorem State.lockShelf_seen (s : State) (en : EngineState) (b : Bool) (i : Fin 32) :
    (s.seen en b).lockShelf i = (s.lockShelf i).seen en b := by unfold State.lockShelf; simp only [State.log_eq]; rfl

theorem State.loseLock_seen (s : State) (en : EngineState) (b : Bool) (i : Fin 32) :
    (s.seen en b).loseLock i = (s.loseLock i).seen en b := by
  unfold State.loseLock
  simp only [State.log_eq]
  rw [show (s.seen en b).shelves = s.shelves from rfl]
  cases s.shelves[i].selected <;> rfl

theorem State.reported_seen (s : State) (en : EngineState) (b : Bool) (i : Fin 32) (r : Report) :
    (s.seen en b).reported i r = (s.reported i r).seen en b := by
  unfold State.reported
  dsimp only
  rw [State.settle_seen, ← State.place_seen]
  congr 1
  generalize s.settle i = u
  rw [show (u.seen en b).shelves = u.shelves from rfl]
  cases u.shelves[i].state <;> dsimp only <;> (try split) <;>
    first | rfl | exact u.lockShelf_seen en b i | exact u.loseLock_seen en b i

/-- What the handover of the record at a position does. -/
def State.handover (s : State) (p : Position) : State :=
  match p with
  | .global => s.takeGlobal
  | .slot i => s.takeSlot i
  | .shelfConfig i => s.takeShelfConfig i
  | .candConfig k => s.takeCandConfig k
  | .report i => s.takeReport i
  | .obs k => s.takeObs k

/-- The handover of a record rests neither on the engine state nor on the further-sweep mark. -/
theorem State.handover_seen (s : State) (en : EngineState) (b : Bool) (p : Position) :
    (s.seen en b).handover p = (s.handover p).seen en b := by
  have hm : (s.seen en b).mem = s.mem := rfl
  cases p with
  | global =>
    simp only [State.handover, State.takeGlobal, State.globalOutcome, State.ask_eq, hm]
    (repeat' split) <;> first | rfl | (simp_all [State.seen])
  | slot i =>
    simp only [State.handover, State.takeSlot, State.place_eq, hm]
    rw [show (s.seen en b).commandInHand i = s.commandInHand i from rfl]
    split <;> rfl
  | shelfConfig i =>
    simp only [State.handover, State.takeShelfConfig, hm]
    rw [show (s.seen en b).intake.lastShelfConfig = s.intake.lastShelfConfig from rfl]
    split
    · cases (readShelfConfig s.mem i).validate with
      | refused cause =>
        simp only [State.shelfRefused, State.place_eq]
        rw [show ((s.seen en b).setLastShelfConfig i (some (readShelfConfig s.mem i).seq)).raiseIntake
          = ((s.setLastShelfConfig i (some (readShelfConfig s.mem i).seq)).raiseIntake).seen en b from rfl, State.settle_seen]
        rfl
      | accepted cfg clamped => exact State.shelfConfigured_seen (s.setLastShelfConfig i _) en b i _ _ _
    · rfl
  | candConfig k =>
    simp only [State.handover, State.takeCandConfig, hm]
    rw [show (s.seen en b).intake.lastCandConfig = s.intake.lastCandConfig from rfl]
    split
    · cases (readCandConfig s.mem k).validate (shelfOf k) with
      | refused cause => simp only [State.candRefused, State.candEvent_eq]; rfl
      | accepted cfg clamped => simp only [State.candConfigured, State.candEvent_eq]; rfl
    · rfl
  | report i =>
    simp only [State.handover, State.takeReport, hm]
    rw [show (s.seen en b).intake.lastReport = s.intake.lastReport from rfl]
    split
    · exact State.reported_seen (s.setLastReport i _) en b i _
    · rfl
  | obs k =>
    simp only [State.handover, State.takeObs, hm]
    rw [show (s.seen en b).intake.lastObs = s.intake.lastObs from rfl]
    split
    · simp only [State.observation, State.candEvent_eq]; (repeat' split) <;> first | rfl | (simp_all [State.seen])
    · rfl

/-- The handover of a record touches neither the engine state nor the arbiter nor the sweep's position. -/
theorem State.handover_keeps (s : State) (p : Position) :
    (s.handover p).engine = s.engine ∧ (s.handover p).arbiter = s.arbiter ∧
      (s.handover p).intake.position = s.intake.position ∧ (s.handover p).intake.furtherSweep = s.intake.furtherSweep := by
  have hset : ∀ i (u : State), (u.settle i).intake = u.intake := fun i u => by simp
  cases p <;> simp only [State.handover]
  case global =>
    simp only [State.takeGlobal, State.globalOutcome, State.ask_eq]
    (repeat' split) <;> exact ⟨rfl, rfl, rfl, rfl⟩
  case slot i =>
    simp only [State.takeSlot, State.place_eq]
    split <;> exact ⟨rfl, rfl, rfl, rfl⟩
  case shelfConfig i => unfold State.takeShelfConfig; dsimp only; (repeat' split) <;> simp
  case candConfig k => unfold State.takeCandConfig; dsimp only; (repeat' split) <;> simp
  case report i => unfold State.takeReport; dsimp only; split <;> simp
  case obs k => unfold State.takeObs; dsimp only; split <;> simp

end Sys2Proof.Machine
end

