-- ==== Sys2Proof/Laws/Sweeps.lean ====
section
/-! SUPPORT. The start and the end of a sweep as whole states: a fall of the shelf count, and the record at the last position. -/

namespace Sys2Proof.Machine

/-! ### Frames and folds -/

/-- A frame over two commands. -/
theorem Keeps.trans {l : List Part} {s t u : State} (h : Keeps l s t) (h' : Keeps l t u) : Keeps l s u := by
  have both : ∀ {α : Type} {p : Prop} {a b c : α}, p ∨ b = a → p ∨ c = b → p ∨ c = a := by
    intro α p a b c h h'
    rcases h with h | h
    · exact .inl h
    · rcases h' with h' | h'
      · exact .inl h'
      · exact .inr (h'.trans h)
  constructor
  · exact both h.run h'.run
  · exact both h.engine h'.engine
  · exact both h.haltCause h'.haltCause
  · exact both h.resetLow h'.resetLow
  · exact both h.bus h'.bus
  · exact both h.causes h'.causes
  · exact both h.enables h'.enables
  · exact both h.shelfChg h'.shelfChg
  · exact both h.msclkH h'.msclkH
  · exact both h.prescaler h'.prescaler
  · exact both h.clock h'.clock
  · exact both h.mem h'.mem
  · exact both h.arbiter h'.arbiter
  · exact both h.intake h'.intake
  · exact both h.cands h'.cands
  · exact both h.params h'.params
  · exact both h.requests h'.requests
  · exact both h.shelves h'.shelves
  · exact both h.judged h'.judged
  · exact both h.queue h'.queue
  · exact both h.evaluating h'.evaluating
  · exact both h.writer h'.writer
  · exact both h.powerOns h'.powerOns
  · exact both h.pending h'.pending

/-- Two folds whose steps agree on the elements of the list. -/
theorem foldl_congr_mem {α β : Type} {f g : β → α → β} (l : List α) (h : ∀ a ∈ l, ∀ b, f b a = g b a) (b : β) :
    l.foldl f b = l.foldl g b := by
  induction l generalizing b with
  | nil => rfl
  | cons a l ih =>
    rw [List.foldl_cons, List.foldl_cons, h a List.mem_cons_self]
    exact ih (fun c hc => h c (List.mem_cons_of_mem _ hc)) _

/-! ### A fall of the shelf count (R155) -/

/-- A shelf out of service that no evaluation holds (R155). -/
theorem State.outOfService_eq {s : State} {i : Fin 32} (he : s.notEvaluating i) :
    s.outOfService i =
      if s.shelves[i].state = .disabled then s.setLastShelfConfig i none
      else { s with
        intake := { s.intake with lastShelfConfig := s.intake.lastShelfConfig.set i none }
        cands := atShelf s.cands i Candidate.offed
        shelves := s.shelves.set i (s.shelves[i].disableAt s.clock)
        queue := joined s.queue i
        writer := s.disabledFrom s.writer i } := by
  unfold State.outOfService
  rw [State.settle_of_notEvaluating he]
  dsimp only
  by_cases h : s.shelves[i].state = .disabled
  · rw [if_pos h, if_neg (by simpa [Shelf.enabled, State.setLastShelfConfig] using h)]
  · rw [if_neg h, if_pos (by simpa [Shelf.enabled, State.setLastShelfConfig] using h), State.disableShelf_eq]
    rfl

/-- What the shelves of `l` falling out of service, one after another, leave of `s` (R155). -/
structure State.Fell (l : List (Fin 32)) (s t : State) : Prop where
  rest : Keeps [.cands, .intake, .shelves, .queue, .writer] s t
  intake : t.intake = { s.intake with lastShelfConfig := t.intake.lastShelfConfig }
  last : ∀ i : Fin 32, t.intake.lastShelfConfig[i] = if i ∈ l then none else s.intake.lastShelfConfig[i]
  shelves : ∀ i : Fin 32, t.shelves[i] =
    if i ∈ l ∧ s.shelves[i].state ≠ .disabled then s.shelves[i].disableAt s.clock else s.shelves[i]
  cands : ∀ k : Fin 256, t.cands[k] =
    if shelfOf k ∈ l ∧ s.shelves[shelfOf k].state ≠ .disabled then s.cands[k].offed else s.cands[k]
  queue : t.queue = (l.filter fun i => s.shelves[i].state ≠ .disabled).foldl joined s.queue
  writer : t.writer = (l.filter fun i => s.shelves[i].state ≠ .disabled).foldl s.disabledFrom s.writer

/-- The requests of a falling shelf rest on its own entries only. -/
theorem State.disabledFrom_congr {s t : State} {i : Fin 32} (h1 : ∀ j, t.cands[flat i j] = s.cands[flat i j])
    (h2 : t.shelves[i] = s.shelves[i]) (h3 : t.arbiter = s.arbiter) (h4 : t.clock = s.clock) (w : Writer) :
    t.disabledFrom w i = s.disabledFrom w i := by
  unfold State.disabledFrom
  rw [h2, h3, h4, show (fun j => t.cands[flat i j].state != CandState.off) = fun j => s.cands[flat i j].state != CandState.off from
    funext fun j => by rw [h1]]

/-- One shelf falls out of service. -/
theorem State.outOfService_fell (s : State) (i : Fin 32) (he : s.notEvaluating i) : s.Fell [i] (s.outOfService i) := by
  rw [State.outOfService_eq he]
  split
  · rename_i h
    exact ⟨by constructor <;> first | (left; decide) | exact .inr rfl, rfl, fun j => by
      simp only [State.setLastShelfConfig, List.mem_singleton]; rw [set_at]; simp [eq_comm], 
      fun j => by rw [if_neg]; rfl; rintro ⟨a, b⟩; rw [List.mem_singleton] at a; exact b (a ▸ h), 
      fun j => by rw [if_neg]; rfl; rintro ⟨a, b⟩; rw [List.mem_singleton] at a; exact b (a ▸ h), 
      by simp [-Fin.getElem_fin, h, State.setLastShelfConfig], by simp [-Fin.getElem_fin, h, State.setLastShelfConfig]⟩
  · rename_i h
    refine ⟨by constructor <;> first | (left; decide) | exact .inr rfl, rfl, fun j => ?_, fun j => ?_, fun k => ?_, ?_, ?_⟩
    · dsimp only; rw [set_at]; simp [eq_comm]
    · dsimp only; rw [set_at]; by_cases hj : i = j
      · subst hj; simp [-Fin.getElem_fin, h]
      · simp [-Fin.getElem_fin, hj, Ne.symm hj]
    · dsimp only; rw [atShelf_at]; by_cases hj : shelfOf k = i
      · subst hj; simp [-Fin.getElem_fin, h]
      · simp [-Fin.getElem_fin, hj]
    · simp [-Fin.getElem_fin, h]
    · simp [-Fin.getElem_fin, h]

/-- Distinct shelves fall out of service one after another. -/
theorem State.outOfService_fold (l : List (Fin 32)) (hl : l.Nodup) (s : State) (he : ∀ i ∈ l, s.notEvaluating i) :
    s.Fell l (l.foldl State.outOfService s) := by
  induction l generalizing s with
  | nil => exact ⟨.refl _ _, rfl, by simp, by simp, by simp, rfl, rfl⟩
  | cons a l ih =>
    rw [List.nodup_cons] at hl
    have o := s.outOfService_fell a (he a (by simp))
    have he' : ∀ i ∈ l, (s.outOfService a).notEvaluating i := fun i hi e hx =>
      he i (List.mem_cons_of_mem _ hi) e (by rwa [o.rest.evaluating.resolve_left (by decide)] at hx)
    have r := ih hl.2 (s.outOfService a) he'
    have hn : ∀ i ∈ l, i ≠ a := fun i hi e => hl.1 (e ▸ hi)
    have hs : ∀ i, i ≠ a → (s.outOfService a).shelves[i] = s.shelves[i] := fun i hi => by
      rw [o.shelves, if_neg (by simp [hi])]
    have hc : ∀ k, shelfOf k ≠ a → (s.outOfService a).cands[k] = s.cands[k] := fun k hk => by
      rw [o.cands, if_neg (by simp [hk])]
    have hclock := o.rest.clock.resolve_left (by decide)
    have harb := o.rest.arbiter.resolve_left (by decide)
    have hf : (l.filter fun i => (s.outOfService a).shelves[i].state ≠ .disabled) =
        l.filter fun i => s.shelves[i].state ≠ .disabled :=
      List.filter_congr fun i hi => by rw [hs i (hn i hi)]
    rw [List.foldl_cons]
    refine ⟨o.rest.trans r.rest, ?_, fun i => ?_, fun i => ?_, fun k => ?_, ?_, ?_⟩
    · rw [r.intake, o.intake]
    · rw [r.last, o.last]
      by_cases h1 : i ∈ l <;> by_cases h2 : i = a <;> simp [h1, h2]
    · rw [r.shelves, hclock]
      by_cases h2 : i = a
      · subst h2
        rw [if_neg (fun h => hl.1 h.1), o.shelves]
        simp
      · rw [hs i h2]
        simp [-Fin.getElem_fin, h2]
    · rw [r.cands]
      by_cases h2 : shelfOf k = a
      · rw [if_neg (fun h => hl.1 (h2 ▸ h.1)), o.cands]
        simp [-Fin.getElem_fin, h2]
      · rw [hs _ h2, hc _ h2]
        simp [-Fin.getElem_fin, h2]
    · rw [r.queue, hf, o.queue, ← List.foldl_append, ← List.filter_append]
      rfl
    · rw [r.writer, hf, o.writer]
      rw [foldl_congr_mem (g := s.disabledFrom) _ (fun i hi w => State.disabledFrom_congr
        (fun j => hc _ (by simpa using hn i (List.mem_filter.mp hi).1)) (hs i (hn i (List.mem_filter.mp hi).1)) harb hclock w),
        ← List.foldl_append, ← List.filter_append]
      rfl

/-! ### The end of a sweep and the start of the next -/

/-- The requests for every result after step 5 of STARTING (R174). -/
theorem State.publishAll_eq (s : State) : s.publishAll = { s with
    engine := .running
    writer := ((List.finRange 32).map WriteItem.shelfResult ++ (List.finRange 256).map WriteItem.candResult).foldl
      Writer.asked s.writer } := by
  have h : ∀ (l : List WriteItem) (s : State), s.askAll l = { s with writer := l.foldl Writer.asked s.writer } := by
    intro l
    induction l with
    | nil => exact fun _ => rfl
    | cons a l ih => intro s; rw [State.askAll, List.foldl_cons, ← State.askAll, ih, State.ask_eq]; rfl
  unfold State.publishAll
  rw [h, h, List.foldl_append]

/-- The part at the end of a sweep, its last record handed over, before a further sweep starts (R147, R174). -/
def State.swept (s : State) : State :=
  let f := s.handover (.obs 255)
  { f with
    engine := .running
    intake := { f.intake with furtherSweep := false, position := none }
    writer := if s.engine = .running then f.writer
      else ((List.finRange 32).map WriteItem.shelfResult ++ (List.finRange 256).map WriteItem.candResult).foldl
        Writer.asked f.writer }

/-- After the last position the sweep ends (R148). -/
theorem State.advanceSweep_last {f : State} (h : f.intake.position = some (.obs 255)) (he : f.engine ≠ .stopping) :
    f.advanceSweep = f.sweepEnds := by
  unfold State.advanceSweep
  rw [if_neg he, h]
  rfl

/-- The observation row at the last position. -/
theorem State.observation_finish {s : State} (h : s.sweepingAt (.obs 255)) :
    exec (.observation .finish) s = .next ((s.handover (.obs 255)).sweepEnds.releaseRecord).endStopping := by
  have hx := execSweepRow s (.obs 255) h.1 .finish
  obtain ⟨h1, h2, h3, h4⟩ := s.handover_keeps (.obs 255)
  rw [← State.advanceSweep_last (h3.trans h.1) (by rw [h1]; exact h.2.2)]
  exact hx.trans (congrArg _ (State.intakeRow_finish h.2.1 _))

/-- STOPPING ends only in STOPPING (R177). -/
theorem State.endStopping_running {s : State} (h : s.engine ≠ .stopping) : s.endStopping = s := by
  unfold State.endStopping; rw [if_neg fun e => h e.1]

/-- The end of a sweep, with the further one when it is marked (R147, R174). -/
theorem State.sweepEnds_eq {s f : State} (he : s.engine = .running ∨ s.engine = .starting .sweep)
    (hf : f = s.handover (.obs 255)) :
    f.sweepEnds = if s.intake.furtherSweep then s.swept.startSweep else s.swept := by
  obtain ⟨h1, h2, h3, h4⟩ := s.handover_keeps (.obs 255)
  subst hf
  have hs : s.swept = { s.handover (.obs 255) with
      engine := .running
      intake := { (s.handover (.obs 255)).intake with furtherSweep := false, position := none }
      writer := if s.engine = .running then (s.handover (.obs 255)).writer
        else ((List.finRange 32).map WriteItem.shelfResult ++ (List.finRange 256).map WriteItem.candResult).foldl
          Writer.asked (s.handover (.obs 255)).writer } := rfl
  rw [hs]
  generalize s.handover (.obs 255) = f at *
  unfold State.sweepEnds
  simp only [State.publishAll_eq]
  rcases he with he | he
  · rw [h1, he]
    simp only [State.furtherSweep, h4, if_true]
    cases s.intake.furtherSweep <;> rfl
  · rw [h1, he]
    simp only [State.furtherSweep, h4, reduceCtorEq, if_false]
    cases s.intake.furtherSweep <;> rfl

/-- The end of a sweep (R147, R174). -/
theorem State.observation_ends {s : State} (h : s.sweepingAt (.obs 255))
    (he : s.engine = .running ∨ s.engine = .starting .sweep) :
    exec (.observation .finish) s = .next (if s.intake.furtherSweep then s.swept.startSweep else s.swept).releaseRecord := by
  rw [State.observation_finish h, State.sweepEnds_eq he rfl, State.endStopping_running]
  rw [State.releaseRecord_eq]
  show (if s.intake.furtherSweep then s.swept.startSweep else s.swept).engine ≠ _
  split
  · simp [State.swept]
  · simp [State.swept]

/-- What the end of a sweep leaves is one state. -/
theorem State.sweepEndsIn_iff {s u : State} (h : s.sweepingAt (.obs 255))
    (he : s.engine = .running ∨ s.engine = .starting .sweep) :
    s.sweepEndsIn u ↔ u = s.swept := by
  have hr : s.asRunning.sweepingAt (.obs 255) := ⟨h.1, h.2.1, by simp [State.asRunning]⟩
  obtain ⟨h1, h2, h3, h4⟩ := s.handover_keeps (.obs 255)
  have hv := State.observation_ends hr (.inl rfl)
  rw [show s.asRunning.intake.furtherSweep = false from rfl] at hv
  simp only [Bool.false_eq_true, if_false] at hv
  have hw : s.asRunning.swept.releaseRecord = { s.swept with
        arbiter := s.arbiter.handedOn s.asRunning.swept.intakeWants s.asRunning.swept.writerJob
        writer := (s.handover (.obs 255)).writer } := by
    rw [State.releaseRecord_eq]
    unfold State.swept
    rw [State.asRunning_eq, State.handover_seen]
    dsimp only [State.seen]
    rw [h2]; rfl
  have hu : ({ s.swept with arbiter := s.arbiter } : State) = s.swept := by
    unfold State.swept; dsimp only; rw [← h2]
  unfold State.sweepEndsIn
  constructor
  · rintro ⟨-, v, e, hc⟩
    rw [hv] at e; cases e
    rw [hw] at hc
    rcases hc with ⟨hc, rfl⟩ | ⟨hc, rfl⟩
    · refine Eq.trans ?_ hu
      unfold State.swept; dsimp only; rw [if_pos hc]
    · refine Eq.trans ?_ hu
      unfold State.swept; dsimp only; rw [hc, if_neg (by simp)]
  · rintro rfl
    refine ⟨h, _, hv, ?_⟩
    rw [hw]
    rcases he with hc | hc
    · refine .inl ⟨hc, Eq.trans hu.symm ?_⟩
      unfold State.swept; dsimp only; rw [if_pos hc]
    · refine .inr ⟨hc, Eq.trans hu.symm ?_⟩
      unfold State.swept; dsimp only; rw [hc, if_neg (by simp)]

/-- A sweep that starts with no global values waiting (R147). -/
theorem State.startSweep_plain {u : State} (hg : u.intake.pendingGlobals = none) :
    u.startSweep = { u with intake := { u.intake with
      sweepDeadline := some (deadlineAt u.clock u.intake.applied.period), position := some .global } } := by
  unfold State.startSweep State.applyPending; rw [hg]

/-- The part with the waiting global values applied, before the shelves above them fall (R154). -/
def State.withGlobals (u : State) (g : Globals) : State :=
  { u with
    intake := { u.intake with applied := g, pendingGlobals := none }
    writer := { u.writer with logEnable := g.logEnable } }

/-- A sweep that starts with global values waiting (R147, R154, R155). -/
theorem State.startSweep_globals {u : State} {g : Globals} (hg : u.intake.pendingGlobals = some g) {v : State}
    (hv : (u.withGlobals g).Fell (fallen g.shelfCount u.intake.applied.shelfCount) v)
    (hf : v = (fallen g.shelfCount u.intake.applied.shelfCount).foldl State.outOfService (u.withGlobals g)) :
    u.startSweep = { v with intake := { v.intake with
      sweepDeadline := some (deadlineAt u.clock g.period), position := some .global } } := by
  unfold State.startSweep State.applyPending State.applyGlobals
  rw [hg]
  dsimp only
  rw [show ({ u with
      intake := { u.intake with applied := g, pendingGlobals := none }
      writer := { u.writer with logEnable := g.logEnable } } : State) = u.withGlobals g from rfl, ← hf,
    show v.clock = u.clock from hv.rest.clock.resolve_left (by decide),
    show v.intake.applied.period = g.period by rw [hv.intake]; rfl]

/-- How the start of a sweep comes about (R147). -/
theorem State.startsSweep_exec {s u : State} {c : Instr} (h : s.startsSweep c u) :
    u.engine = .running ∧ u.intake.position = none ∧
      ((c ≠ .observation .finish ∧ exec c s = .next u.startSweep) ∨
        (c = .observation .finish ∧ exec c s = .next u.startSweep.releaseRecord)) := by
  rcases h with ⟨he, hp, h⟩ | ⟨rfl, hf, h⟩
  · have key : exec c s = .next u.sweepRequest ∧ u.engine = s.engine ∧ u.intake.position = s.intake.position ∧
        c ≠ .observation .finish := by
      rcases h with ⟨w, rfl, h0, hr, h1, h2, h3, h4, rfl⟩ | ⟨rfl, ⟨d, hd, hdue⟩, rfl⟩
      · refine ⟨?_, rfl, rfl, by simp⟩
        simp only [exec, execSweepNow, State.writeRunCtl, State.runCtlBits, fullResetBit, restartBit, runBit, sweepNowBit,
          State.answer, h0, h1, h2, h3, h4, if_false, if_true, Bool.false_eq_true, State.writeRun, hr]
      · refine ⟨?_, rfl, rfl, by simp⟩
        simp [exec, execSweepDeadlineExpiry, isDue, hd, hdue]
    obtain ⟨k, k1, k2, k3⟩ := key
    refine ⟨k1.trans he, k2.trans hp, .inl ⟨k3, ?_⟩⟩
    rw [k]
    unfold State.sweepRequest
    rw [k1, he, k2, hp]
    rfl
  · have he : s.engine = .running ∨ s.engine = .starting .sweep := by
      obtain ⟨-, v, -, hc⟩ := h
      exact hc.imp And.left And.left
    have hu := (State.sweepEndsIn_iff h.1 he).mp h
    have hx := State.observation_ends h.1 he
    rw [hf, if_pos rfl, ← hu] at hx
    subst hu
    exact ⟨rfl, rfl, .inr ⟨rfl, hx⟩⟩
end Sys2Proof.Machine
end

