-- ==== Sys2Proof/WellFormed.lean ====
section
/-! DEFINITION. Which operands make a command the row it is named after (R171, R172). A command that is not well formed
still has a meaning: the word or the access does what the port does with it (log entry 18). -/

namespace Sys2Proof

/-- The well-formed commands. -/
def Instr.wf : Instr → Bool
  | .fullReset w _ => fullResetBit w
  | .restart w _ => restartBit w && !fullResetBit w
  | .runSet w => runBit w && !restartBit w && !fullResetBit w
  | .runClear w => !runBit w && !restartBit w && !fullResetBit w
  | .sweepNow w => sweepNowBit w && !restartBit w && !fullResetBit w
  | .registerWriteRefused reg op => busRefused reg op
  | .powerOn | .resetN _ | .resetNRelease | .attnWrite _ | .shelfChgWrite _ | .attnEnWrite _ | .msclkLRead
  | .hostMemoryAccess _ _ | .tick | .reportDeadlineExpiry _ | .holdOffExpiry _ | .wtrExpiry _
  | .acquisitionExpiry _ | .learningExpiry _ | .holdoverDeadlineExpiry _ | .sweepDeadlineExpiry
  | .globalRecord _ | .commandTake _ | .shelfConfiguration _ | .candidateConfiguration _ | .shelfReport _
  | .observation _ | .acquisitionFailureRequest _ | .lockLostRequest _ | .clearWtrRequest _ | .evaluation _
  | .shelfResultWrite _ | .candidateResultWrite _ | .logEntryWrite _ | .logControlWrite _ | .commandCompletion _
  | .abortedCompletion _ | .startupGlobalRead _ => true

end Sys2Proof
end

