-- ==== Sys2Proof/Tests/Slice0.lean ====
section
/-! SUPPORT. Tests: what well-formedness refuses, figures and sequences worked out in the spec, one step for each row, and for each
statement with hypotheses states that meet them. Expected values come from the spec: the section stands with each test. -/

namespace Sys2Proof.Tests

set_option Elab.async false

open Sys2Proof.Machine

/-! ### Well-formed commands -/

theorem test_wf_runSet : (Instr.runSet 0).wf = false ∧ (Instr.runSet 1).wf = true := by decide

theorem test_wf_runClear : (Instr.runClear 1).wf = false ∧ (Instr.runClear 0).wf = true := by decide

theorem test_wf_sweepNow : (Instr.sweepNow 1).wf = false ∧ (Instr.sweepNow 3).wf = true := by decide

theorem test_wf_restart : (Instr.restart 0xC 0).wf = false ∧ (Instr.restart 5 0).wf = true := by decide

theorem test_wf_fullReset : (Instr.fullReset 7 0).wf = false ∧ (Instr.fullReset 8 0).wf = true := by decide

theorem test_wf_registerWriteRefused :
    (Instr.registerWriteRefused 7 .read).wf = false ∧ (Instr.registerWriteRefused 8 .read).wf = true ∧
      (Instr.registerWriteRefused 5 (.write 0)).wf = false ∧ (Instr.registerWriteRefused 6 (.write 0)).wf = true := by decide

/-- No word spells a command: no row of the table gives bits. -/
theorem test_no_word_spells_a_command (nbits w : Nat) (s : State) :
    decodeTableWord nbits w = none ∧ s.withFetchWord nbits w = s := ⟨rfl, rfl⟩

/-! ### Frequency arithmetic -/

/-- Section 3.6.1: what one count is worth. -/
theorem test_one_count :
    rawOffset 2048001 2048000 1 = 488 ∧ rawOffset 10000001 10000000 1 = 100 ∧ rawOffset 160000001 10000000 16 = 6 ∧
      rawOffset 19440001 19440000 1 = 51 ∧ rawOffset 311040001 19440000 16 = 3 ∧ rawOffset 3200000001 200000000 16 = 0 := by
  decide +kernel

/-- Section 3.6.2: the raw offsets of the five observations. -/
theorem test_drift_raw :
    rawOffset 19440077 19440000 1 = 3961 ∧ rawOffset 77760330 19440000 4 = 4244 ∧ rawOffset 19440250 19440000 1 = 12860 ∧
      rawOffset 19440000 19440000 1 = 0 := by decide +kernel

/-- Section 3.6.2: the averages and FREQ after each observation, with L = 4,600 and k = 2. -/
theorem test_drift_average :
    updateAverage 2 none 3961 = 3961 ∧ judgeFreq (some 3961) 4600 false = false ∧
      updateAverage 2 (some 3961) 4244 = 4032 ∧ judgeFreq (some 4032) 4600 false = false ∧
      updateAverage 2 (some 4032) 12860 = 6239 ∧ judgeFreq (some 6239) 4600 false = true ∧
      updateAverage 2 (some 6239) 0 = 4679 ∧ judgeFreq (some 4679) 4600 true = true ∧
      updateAverage 2 (some 4679) 0 = 3509 ∧ judgeFreq (some 3509) 4600 true = false := by decide +kernel

/-- Section 3.6.3: a step of 1,000 ppb under k = 2, and where the average comes to rest. -/
theorem test_step_under_two :
    updateAverage 2 (some 0) 1000 = 250 ∧ updateAverage 2 (some 250) 1000 = 438 ∧ updateAverage 2 (some 438) 1000 = 579 ∧
      updateAverage 2 (some 579) 1000 = 684 ∧ updateAverage 2 (some 684) 1000 = 763 ∧ updateAverage 2 (some 763) 1000 = 822 ∧
      updateAverage 2 (some 998) 1000 = 999 ∧ updateAverage 2 (some 999) 1000 = 999 ∧ updateAverage 2 (some 0) (-1000) = -250 := by
  decide +kernel

/-- Section 3.6.4: the limit cases. -/
theorem test_offset_limits :
    rawOffset 0 19440000 1 = -1000000 ∧ rawOffset 21000000 19440000 1 = 1000000 ∧ rawOffset 4294967295 1000 1 = 1000000 ∧
      rawOffset 3200000032 200000000 16 = 10 ∧ rawOffset 1024008 1024000 1 = 7813 ∧ rawOffset 1023992 1024000 1 = -7813 ∧
      updateAverage 2 (some 6) 0 = 4 ∧ updateAverage 2 (some 1) 0 = 1 ∧ updateAverage 0 (some 500) (-200) = -200 ∧
      updateAverage 6 (some (-1000000)) 0 = -984375 ∧ usableGate 0 = false ∧ usableGate 17 = false ∧ usableGate 16 = true := by
  decide +kernel

/-- R55: the clearing bounds. -/
theorem test_clearing_bounds :
    clearingBound 1 = 1 ∧ clearingBound 8 = 7 ∧ clearingBound 100 = 88 ∧ clearingBound 2000 = 1750 ∧ clearingBound 4600 = 4025 ∧
      clearingBound 1000000 = 875000 := by decide +kernel

/-! ### Helpers -/

/-- The state a command answers. -/
def after (c : Instr) (s : State) : State :=
  match exec c s with
  | .next t => t
  | .fault _ => s
  | .refused _ => s

theorem exec_after {c : Instr} {s t : State} (h : exec c s = .next t) : exec c s = .next (after c s) := by unfold after; rw [h]

/-- A memory that holds words at byte offsets. -/
def memoryOf (words : List (Nat × Nat)) : Memory :=
  Memory.writeWords [] (words.map fun p => (BitVec.ofNat 14 (p.1 / 4), BitVec.ofNat 32 p.2))

/-- A deadline that has not come due. -/
def at_ (t : Nat) : Option Deadline := some { time := t, due := false }

/-- A deadline that has come due. -/
def due (t : Nat) : Option Deadline := some { time := t, due := true }

/-- RUNNING with RUN set, at a time. -/
def running (now : Nat) : State := { State.reset with run := true, engine := .running, clock := now }

/-- A sweep is at a position, its transaction in progress, with a memory. -/
def reading (s : State) (p : Position) (words : List (Nat × Nat)) : State :=
  { s with
    mem := memoryOf words
    arbiter := { s.arbiter with owner := .intake }
    intake := { s.intake with position := some p } }

/-- The Result Writer's transaction for the head of its list is in progress. -/
def writing (s : State) (l : List WriteItem) : State :=
  { s with arbiter := { s.arbiter with owner := .writer .item }, writer := { s.writer with list := l } }

/-! ### The site of section 11.1 once it runs -/

/-- The monitoring parameters of shelf 0. -/
def params0 : MonitorParams := ⟨4, 2, 2, 25, 45⟩

/-- Candidate 0·0: LINE, AVAILABLE with marking QC2. -/
def line00 : Candidate :=
  { Candidate.reset with
    config := { kind := .line, priority := 1, cap := .qc1, frequency := 19440000, limit := 4600, timeout := 2000 }
    state := .available, history := [false, false, false, false], received := some .qc2, average := some 0, lastRaw := some 0 }

/-- Candidate 0·1: STATION, AVAILABLE. -/
def station01 : Candidate :=
  { Candidate.reset with
    config := { kind := .station, priority := 2, cap := .qc3, frequency := 10000000, limit := 2000, timeout := 2000 }
    state := .available, history := [false] }

/-- Candidate 1·0: PEER with source 0, AVAILABLE. -/
def peer10 : Candidate :=
  { Candidate.reset with
    config := { kind := .peer 0, priority := 1, cap := .qc1, frequency := 10000000, limit := 2000, timeout := 2000 }
    state := .available, history := [false] }

/-- Shelf 0: LOCKED on slot 0 with history, sending QC2. -/
def shelf0 : Shelf :=
  { Shelf.reset 0 with
    config := { ShelfConfig.reset with enable := true, monitor := params0, learningTime := 60, acqTimeout := 20 }
    outcome := .applied, outcomeSeq := 1, state := .locked, selected := some 0, historyValid := true, switchCount := 1
    lastReason := .policy
    published :=
      { Published.reset 0 with
        state := .locked, selected := some 0, outputClass := .qc2, barring := .slot 0, historyValid := true, switchCount := 1
        lastReason := .policy, outcome := .applied, outcomeSeq := 1 } }

/-- Shelf 1: LOCKED on its PEER slot with history, sending QC2. -/
def shelf1 : Shelf :=
  { Shelf.reset 1 with
    config := { ShelfConfig.reset with enable := true }
    outcome := .applied, outcomeSeq := 1, state := .locked, selected := some 0, historyValid := true, switchCount := 1
    lastReason := .policy, followed := some 0
    published :=
      { Published.reset 1 with
        state := .locked, selected := some 0, outputClass := .qc2, barring := .shelf 0, path := [0, 1], historyValid := true
        switchCount := 1, lastReason := .policy, outcome := .applied, outcomeSeq := 1 } }

/-- The site at a time. -/
def site (now : Nat) : State :=
  { running now with
    cands := ((State.reset.cands.set 0 line00).set 1 station01).set 8 peer10
    params := State.reset.params.set 0 params0
    shelves := (State.reset.shelves.set 0 shelf0).set 1 shelf1
    judged := ((State.reset.judged.set 0 ⟨.qc2, .eligible, false⟩).set 1 ⟨.qc3, .eligible, false⟩).set 8 ⟨.qc2, .eligible, false⟩
    intake := { Intake.reset with applied := { shelfCount := 2, period := 50, logEnable := true } }
    writer := { Writer.reset with logEnable := true, nextEntry := 6, loggedEntry := 6 } }

/-- The site with another candidate 0·0. -/
def siteWith (now : Nat) (c : Candidate) : State := { site now with cands := (site now).cands.set 0 c }

/-- The site with another shelf 0. -/
def siteWithShelf (now : Nat) (sh : Shelf) : State := { site now with shelves := (site now).shelves.set 0 sh }

/-- The site with another shelf 1. -/
def siteWithShelf1 (now : Nat) (sh : Shelf) : State := { site now with shelves := (site now).shelves.set 1 sh }

/-! ### Section 11.2: a fibre cut -/

/-- The words of an observation of candidate 0·0: status word, gate, count. -/
def obsWords (status gate count : Nat) : List (Nat × Nat) :=
  [(0x3000, 9), (0x3004, status), (0x3008, gate), (0x300C, count), (0x301C, 9)]

/-- 201,500: the second fault of four with E = 2 makes the candidate SUSPECT until 204,000. -/
theorem test_observation_of_a_fault :
    let s := reading (siteWith 201500 { line00 with history := [false, false, false, true] }) (.obs 0) (obsWords 0x20101 0 0)
    let c := (after (.observation .finish) s).cands[(0 : Fin 256)]
    c.state = .suspect ∧ c.stateDeadline = at_ 204000 ∧ c.history = [false, false, true, true] ∧ c.reasons = ⟨true, false, false⟩ ∧
      c.received = some .qc2 ∧ c.reportDeadline = at_ 203500 ∧ (after (.observation .finish) s).queue = [0] := by decide +kernel

/-- 204,000: the hold-off expires. -/
theorem test_hold_off_expiry :
    let c := { line00 with state := .suspect, reasons := ⟨true, false, false⟩, stateDeadline := due 204000 }
    let t := after (.holdOffExpiry 0) (siteWith 204000 c)
    t.cands[(0 : Fin 256)].state = .failed ∧ t.cands[(0 : Fin 256)].stateDeadline = none ∧
      t.cands[(0 : Fin 256)].reasons = ⟨true, false, false⟩ ∧ t.queue = [0] ∧ t.writer.list = [.candResult 0] := by decide +kernel

/-- 204,004: the evaluation moves shelf 0 to slot 1, and shelf 1 is queued. -/
theorem test_evaluation_after_failure :
    let s := { siteWith 204004 { line00 with state := .failed, reasons := ⟨true, false, false⟩ } with queue := [0] }
    let t := after (.evaluation .whole) s
    let sh := t.shelves[(0 : Fin 32)]
    sh.state = .acquiring ∧ sh.selected = some 1 ∧ sh.switchCount = 2 ∧ sh.lastReason = .failure ∧ sh.acqDeadline = at_ 224004 ∧
      sh.published.outputClass = .qc3 ∧ sh.published.barring = .slot 1 ∧ t.queue = [1] ∧
      t.judged[(0 : Fin 256)].code = .notReady ∧
      t.writer.list = [.candResult 0, .shelfResult 0, .logEntry ⟨6, 204004, 0, .select, some 0, some 1, .qc3, .failure⟩] := by
  decide +kernel

/-- 206,050: a report of lock to slot 1. -/
theorem test_shelf_report_locks :
    let sh := { shelf0 with state := .acquiring, selected := some 1, acqDeadline := at_ 224004, lastReason := .failure }
    let s := reading (siteWithShelf 206050 sh) (.report 0) [(0x300, 3), (0x304, 1), (0x308, 1), (0x30C, 3)]
    let t := after (.shelfReport .finish) s
    t.shelves[(0 : Fin 32)].state = .locked ∧ t.shelves[(0 : Fin 32)].acqDeadline = none ∧
      t.shelves[(0 : Fin 32)].learnDeadline = none ∧ t.queue = [0] ∧
      t.writer.list = [.logEntry ⟨6, 206050, 0, .lock, none, some 1, .qc3, .failure⟩] := by decide +kernel

/-- 211,500: the third clean observation of four starts the wait-to-restore until 256,500. -/
theorem test_observation_restores :
    let c := { line00 with state := .failed, reasons := ⟨true, false, false⟩, history := [true, true, false, false] }
    let s := reading (siteWith 211500 c) (.obs 0) (obsWords 0x20100 0 0)
    let d := (after (.observation .finish) s).cands[(0 : Fin 256)]
    d.state = .restoring ∧ d.stateDeadline = at_ 256500 ∧ d.history = [true, false, false, false] := by decide +kernel

/-- 256,500: the wait-to-restore expires. -/
theorem test_wtr_expiry :
    let t := after (.wtrExpiry 0) (siteWith 256500 { line00 with state := .restoring, stateDeadline := due 256500 })
    t.cands[(0 : Fin 256)].state = .available ∧ t.cands[(0 : Fin 256)].stateDeadline = none ∧ t.queue = [0] := by decide +kernel

/-! ### Section 11.1: bringing up a site -/

/-- Step 1 at 5,000: shelf count 2, period 50 ms, log enable set, outcome APPLIED for sequence 1. -/
theorem test_startup_global_read :
    let s := { State.reset with
      run := true, engine := .starting .readGlobal, clock := 5000, arbiter := { Arbiter.reset with owner := .intake }
      mem := memoryOf [(0, 1), (4, 1), (8, 2), (12, 50), (16, 1), (60, 1)] }
    let t := after (.startupGlobalRead .finish) s
    t.engine = .starting (.slots 0) ∧ t.intake.applied = ⟨2, 50, true⟩ ∧ t.writer.globalOutcome = .applied ∧
      t.writer.globalSeq = 1 ∧ t.writer.list = [.logControl] ∧ t.arbiter.owner = .none := by decide +kernel

/-- R175: undefined memory halts start-up with cause LAYOUT. -/
theorem test_startup_layout_halt :
    let s := { State.reset with
      run := true, engine := .starting .readGlobal, arbiter := { Arbiter.reset with owner := .intake }
      mem := memoryOf [(0, 1), (4, 2), (8, 2), (60, 1)] }
    let t := after (.startupGlobalRead .finish) s
    t.engine = .halted ∧ t.haltCause = .layout ∧ t.run = false ∧ t.causes.halt = true ∧ t.regValue 2 = 0x10 := by decide +kernel

/-- Step 5: shelf configuration 0 enables shelf 0 with entry 0 FREE_RUN. -/
theorem test_shelf_configuration_enables :
    let words := [(0x800, 1), (0x804, 1), (0x808, 0x30503), (0x80C, 25), (0x810, 2), (0x814, 0x204), (0x818, 45), (0x81C, 60),
      (0x820, 240), (0x824, 20), (0x83C, 1)]
    let s := reading { State.reset with
      run := true, engine := .starting .sweep, clock := 5000, writer := { Writer.reset with logEnable := true } }
      (.shelfConfig 0) words
    let t := after (.shelfConfiguration .finish) s
    let sh := t.shelves[(0 : Fin 32)]
    sh.state = .freeRun ∧ sh.lastReason = .start ∧ sh.lastTime = 5000 ∧ sh.outcome = .applied ∧ sh.config.learningTime = 60 ∧
      sh.config.acqTimeout = 20 ∧ t.params[(0 : Fin 32)] = params0 ∧ t.queue = [0] ∧
      t.writer.list = [.logEntry ⟨0, 5000, 0, .freeRun, none, none, .qc4, .start⟩] := by decide +kernel

/-- Step 5: candidate 0·0 changes kind from OFF, becomes UNKNOWN and gets report deadline 7,000. -/
theorem test_candidate_configuration :
    let words := [(0x1000, 1), (0x1004, 0x10101), (0x1008, 19440000), (0x100C, 4600), (0x1010, 2000), (0x101C, 1)]
    let s := reading { siteWith 5000 Candidate.reset with engine := .starting .sweep } (.candConfig 0) words
    let c := (after (.candidateConfiguration .finish) s).cands[(0 : Fin 256)]
    c.state = .unknown ∧ c.reportDeadline = at_ 7000 ∧ c.config = line00.config ∧ c.outcome = .applied := by decide +kernel

/-- Step 5: the first observation makes it AVAILABLE with class QC2 and averaged offset 0. -/
theorem test_first_observation :
    let c := { line00 with
      state := .unknown, history := [], received := none, average := none, lastRaw := none, reportDeadline := at_ 7000 }
    let s := reading { siteWith 5000 c with engine := .starting .sweep } (.obs 0) (obsWords 0x20100 1 19440000)
    let d := (after (.observation .finish) s).cands[(0 : Fin 256)]
    d.state = .available ∧ d.reportDeadline = at_ 7000 ∧ d.received = some .qc2 ∧ d.average = some 0 := by decide +kernel

/-! ### Section 11.3: a loop refused -/

/-- The shelves of the chain: 20 selects its line, 21 follows 20, 22 follows 21. -/
def chain : Vector Shelf 32 :=
  let on := fun (i b : Fin 32) => { shelf1 with
    followed := some b
    published := { Published.reset i with state := .locked, selected := some 0, outputClass := .qc2, barring := .shelf b } }
  (((Vector.ofFn Shelf.reset).set 20 { shelf0 with
    config := { shelf0.config with monitor := .reset, holdoverClass := .qc3, learningTime := 600, acqTimeout := 30 } }).set 21
    (on 21 20)).set 22 (on 22 21)

/-- Shelf 20's slot 3: PEER with source 22. -/
def peer203 : Candidate := { peer10 with config := { peer10.config with kind := .peer 22, priority := 2 } }

/-- The evaluation of shelf 20 that takes FORCED(3). -/
def forced3 : EvalInputs where
  shelf := 20
  time := 900005
  taken := some ⟨2, 3⟩
  cands := ((Vector.replicate 8 Candidate.reset).set 0 line00).set 3 peer203
  shelves := chain
  shelfCount := 24

/-- The walk from 22 is 22, 21, 20, which finds shelf 20; slot 3 is judged QC2 and published as LOOP; the command is ACCEPTED and
shelf 20 goes to HOLDOVER with reason COMMAND, sending QC3 with barring NONE and path 20. -/
theorem test_forced_loop :
    liveWalk chain 20 22 = ([22, 21, 20], true) ∧
      let r := forced3.run chain[(20 : Fin 32)]
      r.outcome = some .accepted ∧ (r.judged 3).cls = .qc2 ∧ (r.judged 3).code = .loop ∧ r.shelf.mode = .forced 3 ∧
        r.shelf.state = .holdover ∧ r.shelf.lastReason = .command ∧ r.published.outputClass = .qc3 ∧
        r.published.barring = .none ∧ r.published.path = [20] := by decide +kernel

/-- Once shelf 21 follows nothing the walk is [22, 21], and shelf 20 acquires slot 3 with path 21, 22, 20. -/
theorem test_forced_opened :
    let shelves := chain.set 21 { chain[(21 : Fin 32)] with followed := none }
    let sh := { shelves[(20 : Fin 32)] with mode := .forced 3, state := .holdover, selected := none, holdDeadline := at_ 15300005 }
    let r := EvalInputs.run { forced3 with time := 900020, taken := none, shelves := shelves } sh
    liveWalk shelves 20 22 = ([22, 21], false) ∧ r.shelf.state = .acquiring ∧ r.shelf.selected = some 3 ∧
      r.shelf.followed = some 22 ∧ r.shelf.acqDeadline = at_ 930020 ∧ r.shelf.lastReason = .policy ∧
      r.published.barring = .shelf 22 ∧ r.published.path = [21, 22, 20] ∧ r.published.outputClass = .qc3 := by decide +kernel

/-! ### Section 11.4: an acquisition fails -/

/-- 930,020: the acquisition lapses, sends QC3, and names the candidate to the Monitor. -/
theorem test_acquisition_expiry :
    let sh := { shelf0 with state := .acquiring, selected := some 3, acqDeadline := due 930020 }
    let t := after (.acquisitionExpiry 0) (siteWithShelf 930020 sh)
    t.shelves[(0 : Fin 32)].state = .acquiring ∧ t.shelves[(0 : Fin 32)].selected = some 3 ∧
      t.shelves[(0 : Fin 32)].acqDeadline = none ∧ t.shelves[(0 : Fin 32)].pendingReason = some .acqFail ∧
      t.requests = [.acqFailure 3] ∧
      t.writer.list = [.logEntry ⟨6, 930020, 0, .acqFail, some 3, none, .qc3, .acqFail⟩] := by decide +kernel

/-- The Monitor takes the request: RESTORING until 1,230,020 with the reset wait-to-restore of 300 s. -/
theorem test_acquisition_failure_request :
    let t := after (.acquisitionFailureRequest 8) { site 930020 with requests := [.acqFailure 8] }
    t.cands[(8 : Fin 256)].state = .restoring ∧ t.cands[(8 : Fin 256)].stateDeadline = at_ 1230020 ∧ t.requests = [] ∧
      t.queue = [1] := by decide +kernel

/-! ### Section 11.5: holdover -/

/-- 1,000,005: HOLD is ACCEPTED, and shelf 1 holds over until 15,400,005, sending QC3. -/
theorem test_evaluation_hold :
    let s := { siteWithShelf1 1000005 { shelf1 with taken := some ⟨3, 0⟩ } with queue := [1] }
    let t := after (.evaluation .whole) s
    let sh := t.shelves[(1 : Fin 32)]
    sh.state = .holdover ∧ sh.holdDeadline = at_ 15400005 ∧ sh.mode = .hold ∧ sh.followed = none ∧ sh.taken = none ∧
      sh.published.outputClass = .qc3 ∧ sh.published.path = [1] ∧
      t.writer.list = [.shelfResult 1, .logEntry ⟨6, 1000005, 1, .holdover, some 0, none, .qc3, .command⟩, .completion 1 .accepted] := by
  decide +kernel

/-- 15,400,005: the holdover deadline expires. -/
theorem test_holdover_expiry :
    let sh := { shelf1 with state := .holdover, selected := none, followed := none, holdDeadline := due 15400005 }
    let t := after (.holdoverDeadlineExpiry 1) (siteWithShelf1 15400005 sh)
    t.shelves[(1 : Fin 32)].state = .freeRun ∧ t.shelves[(1 : Fin 32)].historyValid = false ∧
      t.shelves[(1 : Fin 32)].holdoverExpired = true ∧ t.queue = [1] ∧
      t.writer.list = [.logEntry ⟨6, 15400005, 1, .holdoverExpired, none, none, .qc4, .holdoverExpiry⟩] := by decide +kernel

/-- 16,002,050: a lock without history learns until 16,602,050 and clears the holdover-expired flag. -/
theorem test_lock_starts_learning :
    let sh := { shelf1 with
      state := .acquiring, historyValid := false, holdoverExpired := true, acqDeadline := at_ 16030010, lastReason := .command }
    let s := reading (siteWithShelf1 16002050 sh) (.report 1) [(0x310, 5), (0x314, 1), (0x318, 0), (0x31C, 5)]
    let t := after (.shelfReport .finish) s
    t.shelves[(1 : Fin 32)].state = .locked ∧ t.shelves[(1 : Fin 32)].learnDeadline = at_ 16602050 ∧
      t.shelves[(1 : Fin 32)].holdoverExpired = false ∧ t.shelves[(1 : Fin 32)].historyValid = false := by decide +kernel

/-- 16,602,050: learning ends. -/
theorem test_learning_expiry :
    let sh := { shelf1 with historyValid := false, learnDeadline := due 16602050 }
    let t := after (.learningExpiry 1) (siteWithShelf1 16602050 sh)
    t.shelves[(1 : Fin 32)].historyValid = true ∧ t.shelves[(1 : Fin 32)].learnDeadline = none ∧ t.queue = [1] := by decide +kernel

/-! ### One step for each of the other rows -/

/-- R179: power-on leaves PART_ID and 0 in every other register, whatever the part held. -/
theorem test_power_on :
    let t := after .powerOn { site 77 with causes := ⟨true, true, true, true, true⟩, shelfChg := 3, msclkH := 9 }
    (∀ n : Fin 8, t.regValue (BitVec.ofNat 14 n) = if n = 0 then 0x57320801 else 0) ∧ t.engine = .halted ∧ t.clock = 0 := by
  decide +kernel

/-- R146, R179: RESET_N cuts the write of shelf result 0 after three words; the first three are in memory, the rest is not. -/
theorem test_reset_n_cuts_a_write :
    let t := after (.resetN 3) (writing (site 5) [.shelfResult 0])
    t.mem.readWord (shelfResultAddr 0 0) = 1 ∧ t.mem.readWord (shelfResultAddr 0 1) = 0xF003 ∧
      t.mem.readWord (shelfResultAddr 0 2) = 0x102 ∧ t.mem.readWord (shelfResultAddr 0 3) = 0 ∧
      t.mem.readWord (shelfResultAddr 0 15) = 0 ∧ t.resetLow = true ∧ t.clock = 0 ∧ t.writer.publication = 1 := by decide +kernel

/-- R179: the clock stays at 0 while the pin is low and counts after its release. -/
theorem test_reset_n_release :
    let low := { State.reset with resetLow := true }
    (after .tick low).clock = 0 ∧ (after .tick (after .resetNRelease low)).clock = 1 := by decide +kernel

/-- R172, R179: FULL_RESET acts alone: RUN written with it has no effect. -/
theorem test_full_reset :
    let t := after (.fullReset 0xF 0) { site 9 with shelfChg := 1 }
    t.run = false ∧ t.engine = .halted ∧ t.shelfChg = 0 ∧ t.intake.applied.shelfCount = 0 := by decide +kernel

/-- R178: a restart with RUN 1 goes to STARTING; the clock, SHELF_CHG, the publication counter and the log stay. -/
theorem test_restart :
    let s := { site 9 with shelfChg := 1, writer := { (site 9).writer with publication := 7, nextEntry := 8 } }
    let t := after (.restart 5 0) s
    t.run = true ∧ t.engine = .starting .readGlobal ∧ t.clock = 9 ∧ t.shelfChg = 1 ∧ t.writer.publication = 7 ∧
      t.writer.nextEntry = 6 ∧ t.intake.applied.shelfCount = 0 ∧ t.cands[(0 : Fin 256)].state = .off := by decide +kernel

/-- R174. -/
theorem test_run_set :
    (after (.runSet 1) State.reset).engine = .starting .readGlobal ∧ (after (.runSet 1) State.reset).regValue 2 = 1 := by
  decide +kernel

/-- R177: with an evaluation in progress the engine is STOPPING, and HALTED without. -/
theorem test_run_clear :
    (after (.runClear 0) { site 9 with evaluating := some forced3 }).engine = .stopping ∧
      (after (.runClear 0) (site 9)).engine = .halted := by decide +kernel

/-- R147: a sweep starts with its deadline one period ahead; during a sweep a further one is marked. -/
theorem test_sweep_now :
    let t := after (.sweepNow 3) (site 1000)
    t.intake.position = some .global ∧ t.intake.sweepDeadline = at_ 1050 ∧ t.regValue 2 = 0x10002 ∧
      (after (.sweepNow 3) t).intake.furtherSweep = true := by decide +kernel

/-- R147: the expiry of the sweep deadline starts a sweep. -/
theorem test_sweep_deadline_expiry :
    let s := { site 1050 with intake := { (site 1050).intake with sweepDeadline := due 1050 } }
    let t := after .sweepDeadlineExpiry s
    t.intake.position = some .global ∧ t.intake.sweepDeadline = at_ 1100 := by decide +kernel

/-- R167, R169: a bit written 1 clears, a bit written 0 stays; the line follows the enables. -/
theorem test_attn_write :
    let s := { site 9 with causes := ⟨true, true, false, false, true⟩, enables := ⟨⟨false, true, false, false, false⟩, false⟩ }
    let t := after (.attnWrite 0x11) s
    s.regValue 3 = 0x13 ∧ s.attnAsserted = true ∧ t.regValue 3 = 2 ∧ t.attnAsserted = true ∧
      (after (.attnWrite 2) t).attnAsserted = false := by decide +kernel

/-- R167. -/
theorem test_shelf_chg_write :
    (after (.shelfChgWrite 0x80000001) { site 9 with shelfChg := 0x80000003 }).regValue 5 = 2 := by decide +kernel

/-- R168, R169: ALARM with its enable asserts the line; bits outside the six enables read 0. -/
theorem test_attn_en_write :
    let s := { site 9 with writer := { (site 9).writer with written := (site 9).writer.written.set 31 .holdover } }
    let t := after (.attnEnWrite 0xFFFFFFFF) s
    t.regValue 4 = 0x11F ∧ t.regValue 3 = 0x100 ∧ t.attnAsserted = true ∧ s.attnAsserted = false := by decide +kernel

/-- R180: the read of MSCLK_L latches bits 47:32 for MSCLK_H. -/
theorem test_msclk_read :
    let t := after .msclkLRead { site 0x0001FFFFFFFF with msclkH := 7 }
    t.bus = ⟨some 0xFFFFFFFF, false⟩ ∧ (after (.registerWriteRefused 7 .read) (after .tick t)).bus = ⟨some 1, false⟩ := by
  decide +kernel

/-- R171: a write to PART_ID is refused with a bus error; an unimplemented offset reads 0 with one. -/
theorem test_register_write_refused :
    (after (.registerWriteRefused 0 (.write 5)) (site 9)).bus = ⟨none, true⟩ ∧
      (after (.registerWriteRefused 8 .read) (site 9)).bus = ⟨some 0, true⟩ := by decide +kernel

/-- R138, R145: a host access waits for the transaction in progress and is then made; the word reads back. -/
theorem test_host_memory_access :
    let a : HostAccess := ⟨0x3FFF, .write 0x12345678⟩
    let s := after (.hostMemoryAccess a .request) (writing (site 5) [.logControl])
    let t := after (.logControlWrite .finish) s
    s.ready = false ∧ s.arbiter.owner = .writer .item ∧ t.arbiter.owner = .localBus ∧
      (after (.hostMemoryAccess ⟨0x3FFF, .read⟩ .whole) (after (.hostMemoryAccess a .finish) t)).bus = ⟨some 0x12345678, false⟩ := by
  decide +kernel

/-- R180, R181: a deadline at the new clock value comes due, a later one does not. -/
theorem test_tick :
    let s := { siteWith 99 { line00 with reportDeadline := at_ 100 } with prescaler := 49999 }
    let t := after .tick { s with intake := { s.intake with sweepDeadline := at_ 101 } }
    t.clock = 100 ∧ t.prescaler = 0 ∧ t.cands[(0 : Fin 256)].reportDeadline = due 100 ∧ t.intake.sweepDeadline = at_ 101 := by
  decide +kernel

/-- R26: silence beyond the report timeout gives STALE, and the AVAILABLE candidate its hold-off. -/
theorem test_report_deadline_expiry :
    let t := after (.reportDeadlineExpiry 0) (siteWith 7000 { line00 with reportDeadline := due 7000 })
    t.cands[(0 : Fin 256)].reasons = ⟨false, true, false⟩ ∧ t.cands[(0 : Fin 256)].state = .suspect ∧
      t.cands[(0 : Fin 256)].stateDeadline = at_ 9500 ∧ t.cands[(0 : Fin 256)].reportDeadline = none := by decide +kernel

/-- R154: a record with a period of 5 ms is applied at the next sweep with 10 ms, outcome APPLIED_CLAMPED. -/
theorem test_global_record :
    let t := after (.globalRecord .finish) (reading (site 9) .global [(0, 4), (4, 1), (8, 3), (12, 5), (60, 4)])
    t.intake.pendingGlobals = some ⟨3, 10, false⟩ ∧ t.intake.applied = ⟨2, 50, true⟩ ∧ t.writer.globalOutcome = .appliedClamped ∧
      t.intake.position = some (.slot 0) := by decide +kernel

/-- R153, R154: a record with a shelf count of 33 is refused and raises INTAKE. -/
theorem test_global_record_refused :
    let t := after (.globalRecord .finish) (reading (site 9) .global [(0, 4), (4, 1), (8, 33), (12, 5), (60, 4)])
    t.intake.pendingGlobals = none ∧ t.writer.globalOutcome = .rejected ∧ t.causes.intake = true ∧
      t.writer.list = [.logControl] := by decide +kernel

/-- R119: FORCED(3) posted in slot 1 is taken; the state word reads TAKEN. -/
theorem test_command_take :
    let t := after (.commandTake .finish) (reading (site 9) (.slot 1) [(0x110, 1), (0x114, 0x302)])
    t.shelves[(1 : Fin 32)].taken = some ⟨2, 3⟩ ∧ t.mem.readWord 0x44 = 2 ∧ t.queue = [1] ∧
      t.intake.position = some (.slot 2) := by decide +kernel

/-- R73: a LOCKED shelf that reads NOT_LOCKED loses lock and names the candidate. -/
theorem test_shelf_report_loses_lock :
    let t := after (.shelfReport .finish) (reading (site 9) (.report 0) [(0x300, 3), (0x304, 0), (0x30C, 3)])
    t.shelves[(0 : Fin 32)].state = .acquiring ∧ t.shelves[(0 : Fin 32)].acqDeadline = none ∧ t.requests = [.lockLost 0] ∧
      t.shelves[(0 : Fin 32)].pendingReason = some .lockLost ∧
      t.writer.list = [.logEntry ⟨6, 9, 0, .lockLost, some 0, none, .qc3, .lockLost⟩] := by decide +kernel

/-- R36: the candidate that lost lock serves wait-to-restore. -/
theorem test_lock_lost_request :
    let t := after (.lockLostRequest 0) { site 1000 with requests := [.lockLost 0] }
    t.cands[(0 : Fin 256)].state = .restoring ∧ t.cands[(0 : Fin 256)].stateDeadline = at_ 46000 := by decide +kernel

/-- R44, R177: STOPPING takes the requests that wait before the engine is HALTED. -/
theorem test_lock_lost_request_at_stopping :
    let t := after (.runClear 0) { site 1000 with requests := [.lockLost 0] }
    t.engine = .halted ∧ t.requests = [] ∧ t.cands[(0 : Fin 256)].stateDeadline = at_ 46000 := by decide +kernel

/-- R37. -/
theorem test_clear_wtr_request :
    let s := siteWith 9 { line00 with state := .restoring, stateDeadline := at_ 90 }
    (after (.clearWtrRequest 0) { s with requests := [.clearWtr 0] }).cands[(0 : Fin 256)].state = .available := by decide +kernel

/-- R161, R162: the record stands whole at 5040h with its publication value first and last; SHELF_CHG bit 1 and RESULT are set. -/
theorem test_shelf_result_write :
    let t := after (.shelfResultWrite .finish) (writing (site 9) [.shelfResult 1])
    t.mem.readWord 0x1410 = 1 ∧ t.mem.readWord 0x1411 = 0xF003 ∧ t.mem.readWord 0x1412 = 0x202 ∧ t.mem.readWord 0x1413 = 0x102 ∧
      t.mem.readWord 0x1414 = 0x100 ∧ t.mem.readWord 0x141F = 1 ∧ t.shelfChg = 2 ∧ t.causes.result = true ∧
      t.writer.publication = 2 ∧ t.writer.list = [] ∧ t.writer.written[(1 : Fin 32)] = .locked := by decide +kernel

/-- R161, R163: the publication counter passes from its highest value to 1. -/
theorem test_candidate_result_write :
    let s := writing (siteWith 9 { line00 with average := some (-3) }) [.candResult 0]
    let t := after (.candidateResultWrite .finish) { s with writer := { s.writer with publication := 0xFFFFFFFF } }
    t.mem.readWord 0x1600 = 0xFFFFFFFF ∧ t.mem.readWord 0x1601 = 0x03002002 ∧ t.mem.readWord 0x1602 = 0xFFFFFFFD ∧
      t.mem.readWord 0x1607 = 0xFFFFFFFF ∧ t.writer.publication = 1 := by decide +kernel

/-- R165, R159: entry 130 goes to write index 2; the log control record is requested. -/
theorem test_log_entry_write :
    let e : LogEntry := ⟨130, 0x100000002, 5, .select, none, some 3, .qc2, .policy⟩
    let t := after (.logEntryWrite .finish) (writing (site 9) [.logEntry e])
    t.mem.readWord 0x1E10 = 130 ∧ t.mem.readWord 0x1E11 = 2 ∧ t.mem.readWord 0x1E12 = 1 ∧ t.mem.readWord 0x1E13 = 0x123F0105 ∧
      t.mem.readWord 0x1E17 = 130 ∧ t.writer.loggedEntry = 131 ∧ t.writer.list = [.logControl] ∧ t.causes.log = true := by
  decide +kernel

/-- R144, R160: an entry for the same write index joins behind the head whose transaction is in progress, which is then written. -/
theorem test_log_entry_write_before_a_newer_one :
    let e : LogEntry := ⟨2, 9, 5, .select, none, some 3, .qc2, .policy⟩
    let n : LogNote := { kind := .freeRun, previous := none, new := none, cls := .qc4, reason := .start }
    let s := { site 9 with writer := { (site 9).writer with logEnable := true, nextEntry := 130, list := [.logEntry e] } }
    let u := ({ s with arbiter := { Arbiter.reset with owner := .writer .item } } : State).log 0 n
    let t := after (.logEntryWrite .finish) u
    (s.log 0 n).writer.list.length = 1 ∧ u.writer.list.length = 2 ∧ t.mem.readWord 0x1E10 = 2 ∧ t.writer.loggedEntry = 3 ∧
      t.writer.list.map WriteItem.record = [323, 288] := by decide +kernel

/-- R166: the logged entry number 6 and the write index of the next entry. -/
theorem test_log_control_write :
    let t := after (.logControlWrite .finish) (writing (site 9) [.logControl])
    t.mem.readWord 0x10 = 1 ∧ t.mem.readWord 0x11 = 6 ∧ t.mem.readWord 0x12 = 6 ∧ t.mem.readWord 0x1F = 1 := by decide +kernel

/-- R121: the outcome, the completion time, and DONE for a slot that reads TAKEN. -/
theorem test_command_completion :
    let s := { writing (site 9) [.completion 1 .accepted] with mem := memoryOf [(0x110, 2)] }
    let t := after (.commandCompletion .finish) s
    t.mem.readWord 0x44 = 3 ∧ t.mem.readWord 0x46 = 1 ∧ t.mem.readWord 0x47 = 9 ∧ t.causes.command = true := by decide +kernel

/-- R123: a slot left TAKEN is completed as ABORTED in step 3, which goes on to the next slot. -/
theorem test_aborted_completion :
    let s := { site 9 with engine := .starting (.slots 1), mem := memoryOf [(0x110, 2)] }
    let t := after (.abortedCompletion .whole) s
    t.mem.readWord 0x44 = 3 ∧ t.mem.readWord 0x46 = 10 ∧ t.mem.readWord 0x47 = 9 ∧ t.engine = .starting (.slots 2) := by
  decide +kernel

/-- Log entry 2: an empty queue lets the clock run, and the 50,000th cycle is a tick. -/
theorem test_idle_cycle :
    (match step { State.reset with prescaler := 49998 } with
      | .next t => t.prescaler == 49999 && t.clock == 0
      | _ => false) = true ∧
    (match step { State.reset with prescaler := 49999 } with
      | .next t => t.prescaler == 0 && t.clock == 1
      | _ => false) = true := by decide +kernel

/-! ### Witnesses: states and operands that meet the hypotheses of each statement

Each clause has its own, at the bounds of its ranges; a statement that is not here has no hypotheses. -/

theorem witness_StepRunsTheFrontCommand :
    ({ State.reset with pending := [.tick, .powerOn] } : State).pending = .tick :: [.powerOn] := rfl

theorem witness_EmptyQueueMakesOneInputCycle :
    let s := { State.reset with prescaler := 49998 }
    (s.pending = [] ∧ s.resetLow = false ∧ s.prescaler < 49999) ∧
      (({ s with prescaler := 49999 } : State).pending = [] ∧ 49999 ≤ ({ s with prescaler := 49999 } : State).prescaler) ∧
      ({ s with resetLow := true } : State).pending = [] ∧ ({ s with resetLow := true } : State).resetLow = true := by decide +kernel

theorem witness_FullResetsLeaveTheResetValues :
    (site 9).resetLow = false ∧ (8 : Word).getLsbD 3 = true ∧ (0xFFFFFFFF : Word).getLsbD 3 = true := by decide +kernel

theorem witness_PinHeldLowIgnoresWrites : (after (.resetN 15) (site 9)).resetLow = true := by decide +kernel

theorem witness_RestartKeepsWhatItMust :
    (site 9).resetLow = false ∧ ((4 : Word).getLsbD 3 = false ∧ (4 : Word).getLsbD 2 = true ∧ (4 : Word).getLsbD 0 = false) ∧
      (7 : Word).getLsbD 3 = false ∧ (7 : Word).getLsbD 2 = true ∧ (7 : Word).getLsbD 0 = true := by decide +kernel

/-- A step-3 transaction for a slot, with the state word of the slot. -/
def aborting (i : Fin 32) (live : Bool) (word : Nat) : State :=
  { site 9 with
    engine := .starting (.slots i)
    arbiter := { Arbiter.reset with owner := .writer (.abort i live) }
    mem := memoryOf [(0x100 + 16 * i.val, word)] }

theorem witness_ResetCutsTheTransactionInProgress :
    ((4 : Word).getLsbD 2 = true ∧ (4 : Word).getLsbD 3 = false ∧ (8 : Word).getLsbD 3 = true) ∧
    (MemoryLaw (site 9) ∧ (site 9).resetLow = false ∧ ∀ job, (site 9).arbiter.owner ≠ .writer job) ∧
    (∀ item ∈ [WriteItem.shelfResult 31, .candResult 255, .logControl,
        .logEntry ⟨0xFFFFFFFF, 9, 0, .select, none, some 7, .qc6, .policy⟩, .completion 0 .accepted],
      MemoryLaw (writing (site 9) [item]) ∧ (writing (site 9) [item]).resetLow = false ∧
        (writing (site 9) [item]).arbiter.owner = .writer .item ∧ (writing (site 9) [item]).writer.list = item :: []) ∧
    ∀ word ∈ [1, 2], MemoryLaw (aborting 31 true word) ∧ (aborting 31 true word).resetLow = false ∧
      (aborting 31 true word).arbiter.owner = .writer (.abort 31 true) ∧ (aborting 31 true word).commandInHand 31 = false ∧
      (readSlotState (aborting 31 true word).mem 31 = .taken ↔ word = 2) := by
  unfold MemoryLaw
  refine ⟨by decide +kernel, ⟨by decide +kernel, rfl, fun job h => by cases h⟩, by decide +kernel, by decide +kernel⟩

theorem witness_RunSetBeginsStarting :
    ((1 : Word).getLsbD 0 = true ∧ (1 : Word).getLsbD 1 = false ∧ (1 : Word).getLsbD 2 = false ∧ (1 : Word).getLsbD 3 = false) ∧
      ((3 : Word).getLsbD 0 = true ∧ (3 : Word).getLsbD 1 = true ∧ (3 : Word).getLsbD 2 = false ∧ (3 : Word).getLsbD 3 = false) ∧
      (State.reset.resetLow = false ∧ State.reset.run = false ∧ State.reset.engine = .halted) ∧
      ((site 9).resetLow = false ∧ (site 9).run = true ∧ (site 9).engine ≠ .halted) ∧
      ({ site 9 with run := false, engine := .stopping } : State).resetLow = false ∧
        ({ site 9 with run := false, engine := .stopping } : State).engine = .stopping := by decide +kernel

theorem witness_RunClearStopsTheEngine :
    let reads := reading (site 9) .global []
    let evaluates := { site 9 with evaluating := some forced3, intake := { (site 9).intake with position := some .global } }
    let starts := { site 9 with engine := .starting .readGlobal }
    ((0 : Word).getLsbD 0 = false ∧ (0 : Word).getLsbD 2 = false ∧ (0 : Word).getLsbD 3 = false) ∧
      (reads.resetLow = false ∧ reads.run = true ∧ reads.engine = .running ∧ reads.arbiter.owner = .intake) ∧
      (evaluates.resetLow = false ∧ evaluates.run = true ∧ evaluates.engine = .running ∧ evaluates.arbiter.owner ≠ .intake ∧
        evaluates.evaluating.isSome = true ∧ evaluates.intake.position.isSome = true) ∧
      (starts.resetLow = false ∧ starts.run = true ∧ starts.engine = .starting .readGlobal ∧ starts.arbiter.owner ≠ .intake ∧
        starts.evaluating = none) ∧
      ({ site 9 with engine := .stopping } : State).run = true ∧ ({ site 9 with engine := .stopping } : State).engine = .stopping := by
  decide +kernel

/-- The site when a sweep is due, with global values that wait. -/
def sweepDue (g : Option Globals) : State :=
  { site 1050 with intake := { (site 1050).intake with sweepDeadline := due 1050, pendingGlobals := g } }

theorem witness_SweepRequestsStartOrMarkASweep :
    ((3 : Word).getLsbD 0 = true ∧ (3 : Word).getLsbD 1 = true ∧ (3 : Word).getLsbD 2 = false ∧ (3 : Word).getLsbD 3 = false) ∧
      ((sweepDue none).resetLow = false ∧ (sweepDue none).run = true ∧ (sweepDue none).engine = .running ∧
        (sweepDue none).intake.position = none ∧ (sweepDue none).intake.pendingGlobals = none) ∧
      ((sweepDue none).intake.sweepDeadline = some ⟨1050, true⟩) ∧
      ((sweepDue (some ⟨2, 10, false⟩)).intake.pendingGlobals = some ⟨2, 10, false⟩ ∧
        (sweepDue (some ⟨2, 10, false⟩)).intake.applied.shelfCount ≤ 2) ∧
      ((reading (site 9) (.obs 255) []).engine = .running ∧ (reading (site 9) (.obs 255) []).intake.position.isSome = true ∧
        (reading (site 9) (.obs 255) []).resetLow = false ∧ (reading (site 9) (.obs 255) []).run = true) ∧
      (({ sweepDue none with engine := .starting .sweep } : State).engine = .starting .sweep ∧
        ({ sweepDue none with engine := .halted } : State).engine = .halted ∧
        ({ sweepDue none with engine := .halted } : State).run = true) := by decide +kernel

/-- The observation at the last position ends a sweep with a further one marked, with global values that wait. -/
def lastObs (engine : EngineState) (g : Option Globals) (words : List (Nat × Nat)) : State :=
  { reading (sweepDue g) (.obs 255) words with
    engine := engine
    intake := { (sweepDue g).intake with position := some (.obs 255), furtherSweep := true } }

/-- What it leaves before the further sweep starts. -/
def lastObsDone (engine : EngineState) (g : Option Globals) (words : List (Nat × Nat)) : State :=
  let s := lastObs engine g words
  let v := after (.observation .finish) s.asRunning
  { v with
    arbiter := s.arbiter
    writer := if engine = .running then v.writer
      else ((List.finRange 32).map WriteItem.shelfResult ++ (List.finRange 256).map WriteItem.candResult).foldl Writer.asked v.writer }

theorem lastObs_ends (engine : EngineState) (he : engine = .running ∨ engine = .starting .sweep) (g : Option Globals)
    (words : List (Nat × Nat)) : (lastObs engine g words).sweepEndsIn (lastObsDone engine g words) := by
  refine ⟨⟨rfl, rfl, ?_⟩, _, exec_after rfl, ?_⟩
  · rcases he with rfl | rfl <;> exact nofun
  · rcases he with rfl | rfl
    · exact .inl ⟨rfl, rfl⟩
    · exact .inr ⟨rfl, rfl⟩

theorem lastObs_starts (engine : EngineState) (he : engine = .running ∨ engine = .starting .sweep) (g : Option Globals)
    (words : List (Nat × Nat)) :
    (lastObs engine g words).startsSweep (.observation .finish) (lastObsDone engine g words) :=
  .inr ⟨rfl, rfl, lastObs_ends engine he g words⟩

theorem sweepDue_starts (g : Option Globals) (e : Option EvalInputs) :
    State.startsSweep { sweepDue g with evaluating := e } (.sweepNow 3)
        { sweepDue g with evaluating := e, bus := ⟨none, false⟩ } ∧
      State.startsSweep { sweepDue g with evaluating := e } .sweepDeadlineExpiry
        { sweepDue g with evaluating := e, intake := { (sweepDue g).intake with sweepDeadline := none } } :=
  ⟨.inl ⟨rfl, rfl, .inl ⟨3, rfl, rfl, rfl, rfl, rfl, rfl, rfl, rfl⟩⟩,
    .inl ⟨rfl, rfl, .inr ⟨rfl, ⟨⟨1050, true⟩, rfl, rfl⟩, rfl⟩⟩⟩

/-- A fall from two shelves to one while shelf 0 is evaluated, and one to shelf 31, DISABLED already; `sweepDue_starts` and
`lastObs_starts` give the three starts. -/
theorem witness_FallingShelfCountDisables :
    let g : Globals := ⟨1, 50, true⟩
    let s := { sweepDue (some g) with evaluating := some ((site 9).evalInputs 0) }
    let off := { s with intake := { s.intake with applied := ⟨32, 50, true⟩ } }
    (∀ u ∈ [s, lastObsDone .running (some g) [], lastObsDone (.starting .sweep) (some g) []],
      u.intake.pendingGlobals = some g ∧ g.shelfCount ≤ (1 : Fin 32).val ∧ (1 : Fin 32).val < u.intake.applied.shelfCount ∧
        u.shelves[(1 : Fin 32)].state ≠ .disabled ∧ u.cands[(8 : Fin 256)].state ≠ .off ∧ u.cands[(15 : Fin 256)].state = .off) ∧
      (∀ i : Fin 32, i = ((site 9).evalInputs 0).shelf → ¬ g.shelfCount ≤ i.val) ∧
      (off.intake.pendingGlobals = some g ∧ g.shelfCount ≤ (31 : Fin 32).val ∧
        (31 : Fin 32).val < off.intake.applied.shelfCount ∧ off.shelves[(31 : Fin 32)].state = .disabled) := by decide +kernel

theorem witness_AttentionRegistersAndLine : (site 9).resetLow = false ∧ (0 < 8 ∧ 7 < 8) ∧ (0 < 32 ∧ 31 < 32) := by decide +kernel

/-- Shelf 1 in HOLDOVER, its result about to be written. -/
def alarmed : State :=
  writing (siteWithShelf1 9 { shelf1 with published := { shelf1.published with state := .holdover } }) [.shelfResult 1]

theorem witness_AlarmFollowsTheWrittenShelfStates :
    ∃ t, exec (.shelfResultWrite .finish) alarmed = .next t ∧ t.alarm ≠ alarmed.alarm :=
  ⟨_, rfl, by decide +kernel⟩

theorem witness_ClockReadsAsOneValue :
    ({ State.reset with clock := 281474976710655 } : State).clock ≤ 281474976710655 ∧ State.reset.clock ≤ 281474976710655 := by
  decide +kernel

theorem witness_RegisterAccessesAnswer :
    (8 ≤ (8 : BitVec 14).toNat ∧ 8 ≤ (16383 : BitVec 14).toNat ∧ (7 : BitVec 14).toNat < 8 ∧ (7 : BitVec 14) ≠ 6 ∧
      (0 : BitVec 14).toNat < 8) ∧ (5 ≤ 5 ∧ 5 ≠ 8 ∧ 5 ≤ 31 ∧ 31 ≠ 8) ∧
    RangeLaw { site 9 with queue := List.finRange 32 } :=
  ⟨by decide +kernel, by decide, ⟨by decide +kernel, by decide +kernel, by decide +kernel, by simp [site, Intake.reset]⟩⟩

/-- A host access that the transaction in progress makes wait, and one that owns the port. -/
theorem witness_HostAccessesReadAndWriteWords :
    let a : HostAccess := ⟨0, .read⟩
    let b : HostAccess := ⟨16383, .write 7⟩
    let busy := writing (site 9) [.logControl]
    let owns := fun x : HostAccess => { site 9 with arbiter := { Arbiter.reset with owner := .localBus, host := some x } }
    ((site 9).arbiter.host = none ∧ (site 9).arbiter.owner = .none) ∧ (busy.arbiter.host = none ∧ busy.arbiter.owner ≠ .none) ∧
      ((owns a).arbiter.host.isSome = true ∧ (owns a).arbiter.host ≠ some b) ∧
      ((owns a).arbiter.owner = .localBus ∧ (owns a).arbiter.host = some a ∧ (owns a).mem.wf = true ∧ a.op = .read) ∧
      (owns b).arbiter.owner = .localBus ∧ (owns b).arbiter.host = some b ∧ (owns b).mem.wf = true ∧ b.op = .write 7 := by
  decide +kernel

/-- A sweep stands at a position, the port free. -/
def standing (p : Position) : State := { site 9 with intake := { (site 9).intake with position := some p } }

/-- The write list holds one item, the port free. -/
def listed (item : WriteItem) : State := { site 9 with writer := { (site 9).writer with list := [item] } }

theorem witness_RequestsAreGrantedOrWait :
    (∃ u, exec (.observation .request) (standing (.obs 255)) = .next u) ∧
    (∃ u, (site 9).evaluating = none ∧ exec (.evaluation .take) (site 9) = .next u) ∧
    ((standing .global).intake.position = some .global ∧ (standing .global).arbiter.owner = .none) ∧
    ({ standing (.shelfConfig 31) with arbiter := { Arbiter.reset with owner := .localBus } } : State).arbiter.owner = .localBus ∧
    ((listed (.candResult 255)).writer.list = .candResult 255 :: [] ∧ (listed (.candResult 255)).arbiter.owner = .none ∧
      ∀ i, (listed (.candResult 255)).engine ≠ .starting (.slots i)) ∧
    ({ listed .logControl with arbiter := { Arbiter.reset with owner := .intake } } : State).arbiter.owner = .intake ∧
    (({ State.reset with engine := .starting .readGlobal } : State).engine = .starting .readGlobal ∧
      ({ State.reset with engine := .starting (.slots 31) } : State).engine = .starting (.slots 31) ∧
      State.reset.arbiter.owner = .none) :=
  ⟨⟨_, rfl⟩, ⟨_, rfl, rfl⟩, by decide +kernel, by decide +kernel, by decide +kernel, by decide +kernel, by decide +kernel⟩

/-! #### The clock, the expiries and the Monitor -/

theorem witness_TickAdvancesTheClock :
    (site 281474976710654).resetLow = false ∧ (site 281474976710654).clock < 281474976710655 ∧
      (site 281474976710655).clock = 281474976710655 ∧
      ticked 10 (at_ 10) (due 10) ∧ ticked 10 (at_ 11) (at_ 11) ∧ ticked 10 none none := by
  refine ⟨by decide +kernel, by decide +kernel, by decide +kernel, ⟨by simp [at_], ?_⟩, ⟨by simp [at_], ?_⟩, ⟨fun _ => rfl, by simp⟩⟩
  · intro x h; cases h; exact ⟨fun _ => rfl, by decide⟩
  · intro x h; cases h; exact ⟨by decide, fun _ => rfl⟩

/-- Candidate 0·0 in a state, with a state deadline and a reason. -/
def inState (st : CandState) (d : Option Deadline) (signal : Bool) : Candidate :=
  { line00 with state := st, stateDeadline := d, reasons := ⟨signal, false, false⟩ }

theorem witness_CandidateTransitionTable :
    ((inState .suspect (at_ 5) true).stateDeadline.isSome = true → (inState .suspect (at_ 5) true).state = .suspect) ∧
      (∀ st : CandState, st ∈ [CandState.off, .unknown, .available, .failed] →
        (inState st none false).stateDeadline.isSome = false ∧ (inState st none false).reasons.any = false ∧
          (inState st none true).reasons.any = true) ∧
      ((inState .restoring (at_ 5) false).state = .restoring ∧ (inState .restoring (at_ 5) false).stateDeadline.isSome = true) ∧
      params0.waitToRestore ≠ 0 ∧ params0.holdOff ≠ 0 ∧ ({ params0 with waitToRestore := 0, holdOff := 0 } : MonitorParams).holdOff = 0 := by
  decide +kernel

theorem witness_CandidateDeadlinesExpire :
    let silent := siteWith 9 { line00 with reportDeadline := due 9 }
    let stale := siteWith 9 { line00 with reportDeadline := due 9, reasons := ⟨false, true, false⟩, state := .failed }
    let off := { site 9 with cands := (site 9).cands.set 255 { Candidate.reset with reportDeadline := due 9 } }
    (silent.engine.acts = true ∧ silent.cands[(0 : Fin 256)].reportDeadline = some ⟨9, true⟩ ∧
      silent.cands[(0 : Fin 256)].state ≠ .off ∧ silent.cands[(0 : Fin 256)].reasons.stale = false) ∧
    (stale.engine.acts = true ∧ stale.cands[(0 : Fin 256)].reportDeadline = some ⟨9, true⟩ ∧
      stale.cands[(0 : Fin 256)].reasons.stale = true) ∧
    (off.engine.acts = true ∧ off.cands[(255 : Fin 256)].reportDeadline = some ⟨9, true⟩ ∧ off.cands[(255 : Fin 256)].state = .off) ∧
    (∀ st : CandState, st = .suspect ∨ st = .restoring →
      (siteWith 9 (inState st (due 9) true)).engine.acts = true ∧
        (siteWith 9 (inState st (due 9) true)).cands[(0 : Fin 256)].stateDeadline = some ⟨9, true⟩ ∧
        (siteWith 9 (inState st (due 9) true)).cands[(0 : Fin 256)].state = st) := by
  refine ⟨by decide +kernel, by decide +kernel, by decide +kernel, ?_⟩
  rintro st (rfl | rfl) <;> decide +kernel

theorem notEvaluating_of {s : State} (i : Fin 32) (h : s.evaluating = none) : s.notEvaluating i := by
  intro e he; rw [h] at he; cases he

theorem witness_ShelfDeadlinesExpire :
    let acquires := siteWithShelf 9 { shelf0 with state := .acquiring, acqDeadline := due 9 }
    let learns := siteWithShelf1 9 { shelf1 with historyValid := false, learnDeadline := due 9 }
    let holds := siteWithShelf1 9 { shelf1 with state := .holdover, selected := none, followed := none, holdDeadline := due 9 }
    (acquires.notEvaluating 0 ∧ acquires.engine.acts = true ∧ acquires.shelves[(0 : Fin 32)].state = .acquiring ∧
      acquires.shelves[(0 : Fin 32)].selected = some 0 ∧ acquires.shelves[(0 : Fin 32)].acqDeadline = some ⟨9, true⟩) ∧
    (learns.notEvaluating 1 ∧ learns.engine.acts = true ∧ learns.shelves[(1 : Fin 32)].state = .locked ∧
      learns.shelves[(1 : Fin 32)].learnDeadline = some ⟨9, true⟩) ∧
    (holds.notEvaluating 1 ∧ holds.engine.acts = true ∧ holds.shelves[(1 : Fin 32)].state = .holdover ∧
      holds.shelves[(1 : Fin 32)].holdDeadline = some ⟨9, true⟩) :=
  ⟨⟨notEvaluating_of _ rfl, by decide +kernel⟩, ⟨notEvaluating_of _ rfl, by decide +kernel⟩,
    ⟨notEvaluating_of _ rfl, by decide +kernel⟩⟩

theorem witness_ExpiriesWaitForTheirTime :
    let e := (site 9).evalInputs 0
    let e1 := (site 9).evalInputs 1
    let s := { siteWithShelf 9 { shelf0 with state := .acquiring, acqDeadline := due 9, learnDeadline := due 9, holdDeadline := due 9 } with
      evaluating := some e }
    let reports := { reading (site 9) (.report 0) [(0x300, 7), (0x30C, 7)] with evaluating := some e }
    let changes := { reading (site 9) (.shelfConfig 0) [(0x800, 7), (0x83C, 7)] with evaluating := some e }
    let falls := { sweepDue (some ⟨1, 50, true⟩) with evaluating := some e1 }
    (s.engine.acts = true ∧ s.evaluating = some e ∧ isDue s.shelves[e.shelf].acqDeadline = true ∧
      isDue s.shelves[e.shelf].learnDeadline = true ∧ isDue s.shelves[e.shelf].holdDeadline = true) ∧
    (reports.evaluating = some e ∧ reports.arbiter.owner = .intake ∧ reports.intake.position = some (.report e.shelf) ∧
      fresh (readReport reports.mem e.shelf).seq (readReport reports.mem e.shelf).echo reports.intake.lastReport[e.shelf]) ∧
    (changes.evaluating = some e ∧ changes.arbiter.owner = .intake ∧ changes.intake.position = some (.shelfConfig e.shelf) ∧
      fresh (readShelfConfig changes.mem e.shelf).seq (readShelfConfig changes.mem e.shelf).echo
        changes.intake.lastShelfConfig[e.shelf]) ∧
    (falls.startsSweep (.sweepNow 3) { falls with bus := ⟨none, false⟩ } ∧ falls.evaluating = some e1 ∧
      falls.intake.pendingGlobals = some ⟨1, 50, true⟩ ∧ 1 ≤ e1.shelf.val ∧ e1.shelf.val < falls.intake.applied.shelfCount ∧
      (falls.endEvaluation e1).shelves[e1.shelf].state ≠ .disabled) ∧
    State.reset.engine = .halted ∧
    (isDue (siteWith 9 { line00 with reportDeadline := at_ 10 }).cands[(0 : Fin 256)].reportDeadline = false ∧
      isDue (site 9).cands[(255 : Fin 256)].stateDeadline = false ∧ isDue (site 9).shelves[(31 : Fin 32)].acqDeadline = false ∧
      isDue (site 9).shelves[(31 : Fin 32)].learnDeadline = false ∧ isDue (site 9).shelves[(0 : Fin 32)].holdDeadline = false ∧
      isDue (site 9).intake.sweepDeadline = false) := by
  unfold fresh
  refine ⟨⟨rfl, rfl, ?_⟩, ⟨rfl, ?_⟩, ⟨rfl, ?_⟩, ⟨(sweepDue_starts _ _).1, rfl, ?_⟩, rfl, ?_⟩ <;> decide +kernel

theorem witness_RequestsMoveTheCandidate :
    (∀ st : CandState, ∀ r ∈ [Request.acqFailure 0, .lockLost 0, .clearWtr 0],
      let s := { siteWith 9 (inState st (if st = .suspect ∨ st = .restoring then at_ 20 else none) false) with requests := [r] }
      r ∈ s.requests ∧ s.engine ≠ .halted ∧ s.cands[(0 : Fin 256)].state = st) ∧
    Request.lockLost 255 ∉ (site 9).requests ∧ State.reset.engine = .halted := by
  refine ⟨?_, by decide +kernel, rfl⟩
  intro st r hr
  cases st <;> fin_cases hr <;> decide +kernel

theorem witness_OffsetsAreRoundedAndAveraged :
    ((0 : Nat) < 1 ∧ 2 * (roundDiv 1 2 * (2 : Nat) - 1).natAbs = 2) ∧
    ((0 : Nat) < 1 ∧ roundDiv (((0 : Nat) - (1 * 1 : Nat)) * 1000000000) (1 * 1) < -1000000 ∧
      1000000 < roundDiv (((2 : Nat) - (1 * 1 : Nat)) * 1000000000) (1 * 1) ∧
      roundDiv (((1 : Nat) - (1 * 1 : Nat)) * 1000000000) (1 * 1) = 0) ∧
    ((4294967295 : Nat) < 2 ^ 32 ∧ 1000 ≤ (1000 : Nat) ∧ (200000000 : Nat) ≤ 200000000 ∧ (1 : Nat) ≤ 16) ∧
    ((-1000000 : Int) ≤ -1000000 ∧ (1000000 : Int) ≤ 1000000 ∧ 2 * ((updateAverage 1 (some 0) 1 - 0) * (2 ^ 1 : Nat) - (1 - 0)).natAbs = 2 ^ 1) := by
  decide +kernel

theorem witness_FrequencyJudgement :
    (1 ≤ 1 ∧ 1000000 ≤ 1000000) ∧ (8 : Nat) < (-9 : Int).natAbs ∧ (7 : Int).natAbs ≤ 8 - 8 / 8 ∧
      (8 - 8 / 8 < (8 : Int).natAbs ∧ (-8 : Int).natAbs ≤ 8) := by decide

theorem witness_EffectiveClassByKind :
    (Candidate.reset.state = .off ∧ line00.state ≠ .off ∧ ({ line00 with config := Candidate.reset.config } : Candidate).config.kind = .off) ∧
    (line00.config.kind = .line ∧ Quality.qc1.betterThan line00.config.cap = false ∧
      Quality.qc2.betterThan .qc3 = true ∧ line00.config.cap ≠ .qc6) ∧
    (station01.state ≠ .off ∧ station01.config.kind = .station) ∧
    (({ line00.config with kind := .satellite } : CandConfig).kind = .satellite ∧ line00.config.cap.betterThan .qc5 = true) ∧
    (peer10.state ≠ .off ∧ peer10.config.kind = .peer 0 ∧ (site 9).shelves[(0 : Fin 32)].published.barring ≠ .shelf 1 ∧
      ({ peer10.config with kind := .peer 1 } : CandConfig).kind = .peer 1 ∧
      (site 9).shelves[(1 : Fin 32)].published.barring = .shelf 0) := by decide +kernel

/-! #### The Intake Unit -/

theorem witness_SweepVisitsTheRecordsInOrder : (0 : Nat) ≤ 32 ∧ (32 : Nat) ≤ 32 ∧ 0 + 1 < 577 + 32 ∧ 607 + 1 < 577 + 32 := by decide

theorem witness_UntakenRecordsArePassedOver :
    let torn := [(0, 1), (0x110, 3), (0x800, 1), (0x1000, 1), (0x300, 1), (0x3000, 1)]
    let known := { reading (site 9) (.obs 255) [(0x4FE0, 4), (0x4FFC, 4)] with
      intake := { (site 9).intake with position := some (.obs 255), lastObs := (site 9).intake.lastObs.set 255 (some 4) } }
    ((reading (site 9) .global torn).sweepingAt .global ∧
      ¬ fresh (readGlobal (memoryOf torn)).seq (readGlobal (memoryOf torn)).echo (site 9).intake.lastGlobal) ∧
    ((reading (site 9) (.slot 1) torn).sweepingAt (.slot 1) ∧ readSlotState (memoryOf torn) 1 ≠ .posted) ∧
    ¬ fresh (readShelfConfig (memoryOf torn) 0).seq (readShelfConfig (memoryOf torn) 0).echo none ∧
    ¬ fresh (readCandConfig (memoryOf torn) 0).seq (readCandConfig (memoryOf torn) 0).echo none ∧
    ¬ fresh (readReport (memoryOf torn) 0).seq (readReport (memoryOf torn) 0).echo none ∧
    (known.sweepingAt (.obs 255) ∧ known.engine = .running ∧ known.intake.furtherSweep = false ∧
      ¬ fresh (readObservation known.mem 255).seq (readObservation known.mem 255).echo known.intake.lastObs[(255 : Fin 256)]) := by
  unfold State.sweepingAt fresh; decide +kernel

/-- A slot that reads POSTED for a shelf with a command in hand is not taken either. -/
theorem witness_UntakenRecordsArePassedOver_inHand :
    let s := reading (siteWithShelf1 9 { shelf1 with taken := some ⟨3, 0⟩ }) (.slot 1) [(0x110, 1)]
    s.sweepingAt (.slot 1) ∧ readSlotState s.mem 1 = .posted ∧ s.commandInHand 1 = true := by
  unfold State.sweepingAt; decide +kernel

/-- The words of a whole global record. -/
def globalWords (version count period : Nat) : List (Nat × Nat) := [(0, 4), (4, version), (8, count), (12, period), (60, 4)]

theorem witness_GlobalRecordIsHeldOrRefused :
    let s := fun version count period => reading (site 9) .global (globalWords version count period)
    let r := fun version count period => readGlobal (s version count period).mem
    (∀ p ∈ [(1, 1, 10), (1, 32, 1000), (1, 32, 9), (1, 1, 1001)],
      (s p.1 p.2.1 p.2.2).sweepingAt .global ∧ fresh (r p.1 p.2.1 p.2.2).seq (r p.1 p.2.1 p.2.2).echo (site 9).intake.lastGlobal ∧
        (r p.1 p.2.1 p.2.2).version = 1 ∧ 1 ≤ (r p.1 p.2.1 p.2.2).shelfCount ∧ (r p.1 p.2.1 p.2.2).shelfCount ≤ 32) ∧
    ∀ p ∈ [(0, 1, 10), (2, 1, 10), (1, 0, 10), (1, 33, 10)],
      (s p.1 p.2.1 p.2.2).sweepingAt .global ∧ fresh (r p.1 p.2.1 p.2.2).seq (r p.1 p.2.1 p.2.2).echo (site 9).intake.lastGlobal ∧
        ¬ ((r p.1 p.2.1 p.2.2).version = 1 ∧ 1 ≤ (r p.1 p.2.1 p.2.2).shelfCount ∧ (r p.1 p.2.1 p.2.2).shelfCount ≤ 32) := by
  unfold State.sweepingAt fresh; decide +kernel

theorem witness_PostedCommandIsTaken :
    let s := reading (site 9) (.slot 31) [(0x2F0, 1), (0x2F4, 0x707)]
    s.sweepingAt (.slot 31) ∧ MemoryLaw s ∧ readSlotState s.mem 31 = .posted ∧ s.commandInHand 31 = false := by
  unfold State.sweepingAt MemoryLaw; decide +kernel

/-- Shelf and candidate configuration records at the bounds of validation. -/
theorem witness_ConfigurationIsValidatedAndClamped :
    let r : ShelfRecord := readShelfConfig [] 0
    let ok := { r with guardCode := 5, floorCode := 1, holdoverCode := 6, policy := 2 }
    let c : CandRecord := readCandConfig [] 0
    let good := { c with kind := 4, capCode := 6, source := 31, frequency := 200000000 }
    (r.guardCode = 0 ∨ 6 < r.guardCode) ∧
    (¬ (ok.guardCode = 0 ∨ 6 < ok.guardCode ∨ ok.floorCode = 0 ∨ 6 < ok.floorCode ∨ ok.holdoverCode = 0 ∨ 6 < ok.holdoverCode) ∧
      ok.policy ≤ 2 ∧ 2 < ({ ok with policy := 3 } : ShelfRecord).policy) ∧
    4 < ({ c with kind := 5 } : CandRecord).kind ∧ (c.kind ≤ 4 ∧ c.capCode = 0) ∧
    (good.kind ≤ 4 ∧ 1 ≤ good.capCode ∧ good.capCode ≤ 6 ∧ (good.kind = 4 ∧ good.source = (31 : Fin 32).val)) ∧
    (¬ (good.kind = 4 ∧ (good.source = (0 : Fin 32).val ∨ 32 ≤ good.source)) ∧ 1000 ≤ good.frequency ∧ good.frequency ≤ 200000000) ∧
    (({ good with frequency := 999 } : CandRecord).frequency < 1000 ∧
      200000000 < ({ good with frequency := 200000001 } : CandRecord).frequency) := by decide +kernel

/-- The words of a whole configuration record of shelf 0. -/
def shelfWords (flags classes : Nat) : List (Nat × Nat) :=
  [(0x800, 7), (0x804, flags), (0x808, classes), (0x80C, 25), (0x810, 2), (0x814, 0x204), (0x818, 45), (0x81C, 60), (0x820, 240),
    (0x824, 20), (0x83C, 7)]

/-- The verdict on it. -/
def verdictOf (s : State) : ShelfVerdict := (readShelfConfig s.mem 0).validate

/-- The configuration that the record with these flags and classes 3, 5 and 3 asks for. -/
def asked0 (enable : Bool) : ShelfConfig := { shelf0.config with enable := enable }

theorem witness_ShelfConfigurationIsApplied :
    let refused := reading (site 9) (.shelfConfig 0) (shelfWords 1 0x30507)
    let kept := reading (site 9) (.shelfConfig 0) (shelfWords 1 0x30503)
    let stays := reading (siteWithShelf 9 (Shelf.reset 0)) (.shelfConfig 0) (shelfWords 0 0x30503)
    (∀ s ∈ [refused, kept, stays], s.sweepingAt (.shelfConfig 0) ∧
      fresh (readShelfConfig s.mem 0).seq (readShelfConfig s.mem 0).echo s.intake.lastShelfConfig[(0 : Fin 32)] ∧
      s.evaluating.isNone = true) ∧
    verdictOf refused = .refused .badClass ∧
    (verdictOf kept = .accepted (asked0 true) false ∧ (asked0 true).enable = kept.shelves[(0 : Fin 32)].enabled) ∧
    (verdictOf stays = .accepted (asked0 false) false ∧ (asked0 false).enable = stays.shelves[(0 : Fin 32)].enabled) := by
  unfold State.sweepingAt fresh; decide +kernel

theorem witness_NewParametersRecountTheHistory :
    ({ params0 with waitToRestore := 1 } : MonitorParams).window = params0.window ∧
      (({ params0 with window := 1, threshold := 1 } : MonitorParams).window ≠ params0.window) ∧
      (let c := { line00 with history := [true, false] }
       let u := c.recount params0 { params0 with window := 1, threshold := 1 }
       let v := c.recount params0 { params0 with threshold := 1 }
       u.reasons = c.reasons ∧ v.reasons ≠ c.reasons) := by decide +kernel

theorem witness_ShelfIsEnabled :
    let s := reading { State.reset with engine := .running } (.shelfConfig 0) (shelfWords 1 0x30503)
    s.sweepingAt (.shelfConfig 0) ∧ ServiceLaw s ∧
      fresh (readShelfConfig s.mem 0).seq (readShelfConfig s.mem 0).echo s.intake.lastShelfConfig[(0 : Fin 32)] ∧
      (readShelfConfig s.mem 0).validate = .accepted (asked0 true) false ∧ s.shelves[(0 : Fin 32)].state = .disabled ∧
      (asked0 true).enable = true ∧ s.evaluating.isNone = true := by
  unfold State.sweepingAt fresh ServiceLaw; decide +kernel

theorem witness_ShelfIsDisabled :
    let s := reading (siteWithShelf 9 { shelf0 with taken := some ⟨3, 0⟩ }) (.shelfConfig 0) (shelfWords 0 0x30503)
    s.sweepingAt (.shelfConfig 0) ∧
      fresh (readShelfConfig s.mem 0).seq (readShelfConfig s.mem 0).echo s.intake.lastShelfConfig[(0 : Fin 32)] ∧
      (readShelfConfig s.mem 0).validate = .accepted (asked0 false) false ∧ s.shelves[(0 : Fin 32)].state ≠ .disabled ∧
      (asked0 false).enable = false ∧ s.evaluating.isNone = true := by
  unfold State.sweepingAt fresh; decide +kernel

/-- The words of a whole configuration record of candidate 0·0. -/
def candWords (kindWord limit : Nat) : List (Nat × Nat) :=
  [(0x1000, 7), (0x1004, kindWord), (0x1008, 19440000), (0x100C, limit), (0x1010, 2000), (0x101C, 7)]

/-- A record of candidate 0·0 is at hand. -/
def candAtHand (c : Candidate) (kindWord limit : Nat) : State := reading (siteWith 9 c) (.candConfig 0) (candWords kindWord limit)

/-- Section 3.6.5: an average of 4,300 judged under a lower limit. -/
def at4300 : Candidate := { line00 with average := some 4300 }

theorem witness_CandidateConfigurationIsApplied :
    let verdict := fun s : State => (readCandConfig s.mem 0).validate 0
    (∀ s ∈ [candAtHand line00 0x10105 4600, candAtHand line00 0x10101 4600, candAtHand line00 0x10102 4600, candAtHand at4300 0x10101 4200],
      s.sweepingAt (.candConfig 0) ∧
        fresh (readCandConfig s.mem 0).seq (readCandConfig s.mem 0).echo s.intake.lastCandConfig[(0 : Fin 256)]) ∧
    verdict (candAtHand line00 0x10105 4600) = .refused .badKind ∧
    verdict (candAtHand line00 0x10101 4600) = .accepted line00.config false ∧
    verdict (candAtHand line00 0x10102 4600) = .accepted { line00.config with kind := .station } false ∧
    verdict (candAtHand at4300 0x10101 4200) = .accepted { line00.config with limit := 4200 } false ∧
    judgeFreq at4300.average 4200 at4300.reasons.freq ≠ at4300.reasons.freq ∧
    ((site 9).shelves[shelfOf 0].state ≠ .disabled ∧ (site 9).shelves[shelfOf 255].state = .disabled) := by
  unfold State.sweepingAt fresh; decide +kernel

/-- A report of shelf 0 at hand. -/
def reportAtHand (sh : Shelf) (locked slot : Nat) : State :=
  reading (siteWithShelf 9 sh) (.report 0) [(0x300, 7), (0x304, locked), (0x308, slot), (0x30C, 7)]

theorem witness_ShelfReportLocksOrLosesLock :
    let live := { shelf0 with state := .acquiring, selected := some 7, acqDeadline := at_ 99 }
    let lapsed := { shelf0 with state := .acquiring, acqDeadline := none }
    (∀ s ∈ [reportAtHand live 1 7, reportAtHand live 1 8, reportAtHand lapsed 1 0, reportAtHand shelf0 0 0, reportAtHand shelf0 1 0],
      s.sweepingAt (.report 0) ∧ s.evaluating.isNone = true ∧
        fresh (readReport s.mem 0).seq (readReport s.mem 0).echo s.intake.lastReport[(0 : Fin 32)]) ∧
    (live.acqDeadline.isSome = true ∧ live.selected = some 7 ∧ (readReport (reportAtHand live 1 7).mem 0).locked = true ∧
      (readReport (reportAtHand live 1 7).mem 0).slot = some 7) ∧
    (readReport (reportAtHand live 1 8).mem 0).slot = none ∧
    (shelf0.state = .locked ∧ shelf0.selected = some 0 ∧ (readReport (reportAtHand shelf0 0 0).mem 0).locked = false) ∧
    (readReport (reportAtHand shelf0 1 0).mem 0).locked = true ∧ (readReport (reportAtHand shelf0 1 0).mem 0).slot = some 0 := by
  unfold State.sweepingAt fresh; decide +kernel

theorem witness_ObservationIsProcessed :
    let s := fun c gate => reading (siteWith 9 c) (.obs 0) (obsWords 0x101 gate 5)
    let last := { reading (site 9) (.obs 255) [(0x4FE0, 4), (0x4FFC, 4)] with cands := (site 9).cands.set 255 line00 }
    (∀ g ∈ [0, 1, 16, 17],
      (s line00 g).sweepingAt (.obs 0) ∧ (readObservation (s line00 g).mem 0).gate = g ∧ line00.state ≠ .off ∧
        fresh (readObservation (s line00 g).mem 0).seq (readObservation (s line00 g).mem 0).echo (site 9).intake.lastObs[(0 : Fin 256)]) ∧
    ((s Candidate.reset 1).sweepingAt (.obs 0) ∧ (s Candidate.reset 1).cands[(0 : Fin 256)].state = .off) ∧
    (last.sweepingAt (.obs 255) ∧ last.engine = .running ∧ last.intake.furtherSweep = false ∧
      fresh (readObservation last.mem 255).seq (readObservation last.mem 255).echo last.intake.lastObs[(255 : Fin 256)]) := by
  unfold State.sweepingAt fresh; decide +kernel

theorem witness_SweepEndsAfterItsLastRecord :
    let s := reading (site 9) (.obs 255) []
    (s.sweepingAt (.obs 255) ∧ s.engine = .running ∧ s.intake.pendingGlobals = none ∧ s.intake.furtherSweep = false ∧
      ¬ fresh (readObservation s.mem 255).seq (readObservation s.mem 255).echo s.intake.lastObs[(255 : Fin 256)]) ∧
    (State.sweepingAt { s with engine := .starting .sweep } (.obs 255) ∧
      ({ s with engine := .starting .sweep } : State).engine = .starting .sweep) ∧
    ∀ g ∈ [none, some (⟨2, 10, false⟩ : Globals)], ∀ en ∈ [EngineState.running, .starting .sweep],
      let last := lastObs en g [(0x4FE0, 4), (0x4FFC, 4)]
      last.sweepingAt (.obs 255) ∧ last.engine = en ∧ last.intake.furtherSweep = true ∧ last.intake.pendingGlobals = g ∧
        last.intake.applied.shelfCount ≤ 2 ∧
        fresh (readObservation last.mem 255).seq (readObservation last.mem 255).echo last.intake.lastObs[(255 : Fin 256)] := by
  unfold State.sweepingAt fresh; decide +kernel

theorem witness_StartupReadAppliesOrHalts :
    let s := fun n v : Nat => { site 9 with
      engine := .starting .readGlobal, arbiter := { Arbiter.reset with owner := .intake }, mem := memoryOf (globalWords v n 50) }
    (∀ n ∈ [1, 2, 32],
      (s n 1).engine = .starting .readGlobal ∧ (s n 1).arbiter.owner = .intake ∧ (readGlobal (s n 1).mem).seq ≠ 0 ∧
        (readGlobal (s n 1).mem).seq = (readGlobal (s n 1).mem).echo ∧ (readGlobal (s n 1).mem).version = 1 ∧
        (readGlobal (s n 1).mem).shelfCount = n) ∧
    ((1 : Nat) ≤ (shelfOf 8).val ∧ (shelfOf 8).val < (s 1 1).intake.applied.shelfCount ∧ (s 1 1).shelves[shelfOf 8].state ≠ .disabled ∧
      (s 1 1).cands[(8 : Fin 256)].state ≠ .off ∧ shelfOf 15 = shelfOf 8 ∧ (s 1 1).cands[(15 : Fin 256)].state = .off ∧
      ¬ (1 : Nat) ≤ (shelfOf 7).val ∧ (s 2 1).intake.applied.shelfCount ≤ 2) ∧
    ((readGlobal (s 33 1).mem).shelfCount = 33 ∧ (readGlobal (s 2 0).mem).version ≠ 1 ∧ (s 33 1).evaluating = none ∧
      ({ s 0 1 with evaluating := some forced3 } : State).evaluating.isSome = true ∧ (readGlobal (s 0 1).mem).shelfCount = 0) := by
  decide +kernel

theorem witness_StoppingEndsWithTheTransaction :
    let s := { reading (site 9) (.report 0) [(0x300, 7), (0x30C, 7)] with engine := .stopping, run := false }
    let u := after (.shelfReport .finish) s
    let goes := after (.shelfReport .finish) { s with evaluating := some ((site 9).evalInputs 1) }
    let first := { site 9 with engine := .stopping, arbiter := { Arbiter.reset with owner := .intake } }
    (s.engine = .stopping ∧ s.arbiter.owner = .intake ∧ s.intake.position = some (.report 0) ∧
      u.engine = .halted ∧ u.requests = [] ∧ u.cands[(0 : Fin 256)].state = .restoring) ∧
    (goes.engine = .stopping ∧ goes.evaluating.isSome = true ∧ goes.requests = [.lockLost 0]) ∧
    (first.engine = .stopping ∧ first.arbiter.owner = .intake ∧ first.intake.position = none ∧ first.evaluating = none) := by
  decide +kernel

/-! #### The Selection Engine -/

theorem witness_EvaluationTakesTheHeadOfTheQueue :
    let s := { site 9 with queue := [31, 0] }
    let clears := { siteWith 9 (inState .restoring (at_ 20) false) with
      queue := [0], shelves := (site 9).shelves.set 0 { shelf0 with taken := some ⟨7, 0⟩ } }
    (s.queue = 31 :: [0] ∧ s.evaluating = none ∧ s.engine = .running ∧ s.shelves[(31 : Fin 32)].taken = none) ∧
      (clears.queue = 0 :: [] ∧ clears.evaluating = none ∧ clears.shelves[(0 : Fin 32)].taken = some ⟨7, (0 : Fin 8).val⟩ ∧
        clears.shelves[(0 : Fin 32)].state ≠ .disabled ∧ clears.cands[flat 0 0].state = .restoring ∧
        (after (.evaluation .take) clears).requests = [.clearWtr 0]) ∧
      ({ s with engine := .halted } : State).engine = .halted ∧
      ({ s with evaluating := some forced3 } : State).evaluating.isSome = true ∧ (site 9).queue = [] := by decide +kernel

theorem witness_EvaluationPublishesWhatItChanged :
    let s := { site 9 with evaluating := some ((site 9).evalInputs 0) }
    let stops := { s with engine := .stopping }
    s.evaluating = some ((site 9).evalInputs 0) ∧ s.engine ≠ .stopping ∧
      stops.evaluating = some ((site 9).evalInputs 0) ∧ stops.engine = .stopping ∧ stops.arbiter.owner ≠ .intake := by
  refine ⟨rfl, ?_, rfl, ?_⟩ <;> decide +kernel

theorem witness_TakenCommandIsApplied :
    let e := fun code arg => { (site 9).evalInputs 0 with taken := some ⟨code, arg⟩ }
    ((site 9).evalInputs 0).taken = none ∧ (Shelf.reset 0).state = .disabled ∧ shelf0.state ≠ .disabled ∧
    (e 8 0).taken = some ⟨8, 0⟩ ∧ (e 7 8).taken = some ⟨7, 8⟩ ∧
    (shelf0.mode = .auto ∧ shelf0.lockout[(7 : Fin 8)] = false ∧
      ((e 1 0).ctx shelf0 shelf0.lockout (e 1 0).cands).newCode 0 = .eligible ∧
      ((e 1 7).ctx shelf0 shelf0.lockout (e 1 7).cands).newCode 7 ≠ .eligible) ∧
    ({ shelf0 with lockout := shelf0.lockout.set 7 true } : Shelf).lockout[(7 : Fin 8)] = true ∧
    ((e 2 7).cands[(7 : Fin 8)].state = .off ∧ (e 2 0).cands[(0 : Fin 8)].state ≠ .off ∧ (e 7 0).cands[(0 : Fin 8)].state ≠ .restoring) ∧
    ({ (e 7 0) with cands := (e 7 0).cands.set 0 (inState .restoring (at_ 20) false) } : EvalInputs).cands[(0 : Fin 8)].state =
      .restoring := by decide +kernel

/-- The judgements of shelf 20 of section 11.3. -/
def ctx20 (shelves : Vector Shelf 32) (count : Nat) (lockout : Vector Bool 8) (c : Candidate) : EvalCtx where
  shelf := 20
  floorClass := .qc5
  lockout := lockout
  cands := forced3.cands.set 3 c
  shelves := shelves
  shelfCount := count

/-- Eight shelves in a row: 22 follows 23, and so on to 29. -/
def deepChain : Vector Shelf 32 :=
  Vector.ofFn fun i : Fin 32 => { shelf1 with followed := if h : 22 ≤ i.val ∧ i.val < 29 then some ⟨i.val + 1, by omega⟩ else none }

theorem witness_JudgementsFailAtTheFirstCheck :
    let free := Vector.replicate 8 false
    let x := ctx20 chain 24 free peer203
    ((x.cands[(3 : Fin 8)].state = .available ∧ x.lockout[(3 : Fin 8)] = false ∧ x.cands[(3 : Fin 8)].config.kind = .peer 22 ∧
        x.cls 3 ≠ .qc6 ∧ (x.cls 3).code ≤ x.floorClass.code) ∧
      (x.shelves[(22 : Fin 32)].state ≠ .disabled ∧ ¬ x.shelfCount ≤ (22 : Fin 32).val ∧ (liveWalk x.shelves x.shelf 22).2 = true)) ∧
    (let deep := ctx20 deepChain 32 free peer203
     (liveWalk deep.shelves deep.shelf 22).2 = false ∧ 8 < (liveWalk deep.shelves deep.shelf 22).1.length + 1 ∧
       deep.shelves[(22 : Fin 32)].state ≠ .disabled ∧ deep.cls 3 ≠ .qc6) ∧
    (ctx20 chain 22 free peer203).shelfCount ≤ (22 : Fin 32).val ∧
    (x.cands[(7 : Fin 8)].state = .off ∧ (ctx20 chain 24 (free.set 3 true) peer203).lockout[(3 : Fin 8)] = true ∧
      (ctx20 chain 24 free (inState .suspect (at_ 20) true)).cands[(3 : Fin 8)].state = .suspect ∧
      (ctx20 chain 24 free { line00 with received := some .qc6 }).cls 3 = .qc6 ∧
      (x.floorClass.code < 6 ∧ ({ x with floorClass := .qc1 } : EvalCtx).floorClass.code < (x.cls 3).code)) := by decide +kernel

/-- Shelf 1 follows shelf 0 at the site, and no ring closes. -/
theorem site_noRing : NoRing (site 9).shelves := by
  have h : ∀ x y : Fin 32, follows (site 9).shelves x y → x = 1 ∧ y = 0 := by unfold follows; decide +kernel
  intro x hx
  obtain ⟨y, h1, h2⟩ := Relation.TransGen.head'_iff.1 hx
  obtain ⟨rfl, rfl⟩ := h _ _ h1
  obtain ⟨z, -, h3⟩ := Relation.TransGen.tail'_iff.1 hx
  exact absurd (h _ _ h3).2 (by decide)

theorem witness_LiveWalkFollowsThePointers :
    NoRing (site 9).shelves ∧ (liveWalk (site 9).shelves 0 1).2 = true ∧ (liveWalk (site 9).shelves 31 1).2 = false :=
  ⟨site_noRing, by decide +kernel⟩

theorem witness_BestCandidateHasTheSmallestKey :
    let x := ((site 9).evalInputs 0).ctx shelf0 shelf0.lockout ((site 9).evalInputs 0).cands
    let y := ((site 9).evalInputs 1).ctx shelf1 shelf1.lockout ((site 9).evalInputs 1).cands
    (x.best = some 0 ∧ x.newCode 1 = .eligible ∧ x.ranksAbove 0 1 = true ∧ x.ranksAbove 1 7 = true) ∧
      (∀ b, x.cands[(0 : Fin 8)].config.kind ≠ .peer b) ∧
      (y.cands[(0 : Fin 8)].config.kind = .peer 0 ∧ y.remainCode 0 = .eligible) ∧
      ({ x with cands := Vector.replicate 8 Candidate.reset } : EvalCtx).best = none := by decide +kernel

theorem witness_TargetByModeAndPolicy :
    let x := ((site 9).evalInputs 0).ctx shelf0 shelf0.lockout ((site 9).evalInputs 0).cands
    let cur := fun sh : Shelf => sh.selected.filter fun c => x.remainCode c == .eligible
    ((Shelf.reset 0).state = .disabled ∧ shelf0.state ≠ .disabled ∧ x.remainCode 0 = .eligible ∧ x.remainCode 7 ≠ .eligible) ∧
    (shelf0.config.policy = .direct ∧ cur shelf0 = some 0 ∧ x.best = some 0 ∧ x.ranksAbove 0 0 = false ∧
      cur { shelf0 with selected := some 1 } = some 1 ∧ x.ranksAbove 0 1 = true ∧ cur { shelf0 with selected := none } = none) ∧
    (let guarded := { shelf0 with selected := some 1, config := { shelf0.config with policy := .guarded, guardClass := .qc2 } }
     guarded.config.policy = .guarded ∧ cur guarded = some 1 ∧ guarded.config.guardClass.code < (x.cls 1).code ∧
       x.newCode 0 = .eligible ∧ (x.cls 0).code < (x.cls 1).code ∧ (x.cls 0).code ≤ guarded.config.guardClass.code) ∧
    ({ shelf0.config with policy := .fixed } : ShelfConfig).policy = .fixed := by decide +kernel

theorem witness_ShelfMovesToItsTarget :
    let lapsed := { shelf0 with state := .acquiring, acqDeadline := none }
    (shelf0.selected ≠ some 7 ∧ shelf0.selected = some 0 ∧ ¬ (shelf0.state = .acquiring ∧ shelf0.acqDeadline = none)) ∧
      (lapsed.selected = some 0 ∧ lapsed.state = .acquiring ∧ lapsed.acqDeadline = none) ∧
      (shelf0.state = .locked ∧ shelf0.historyValid = true ∧ ({ shelf0 with historyValid := false } : Shelf).historyValid = false) ∧
      (Shelf.reset 0).state = .disabled := by decide +kernel

theorem witness_ReasonAndOutputsOfAnEvaluation :
    shelf0.pendingReason = none ∧ ({ shelf0 with pendingReason := some .config } : Shelf).pendingReason = some .config ∧
      (∀ b, line00.config.kind ≠ .peer b) ∧ peer203.config.kind = .peer 22 ∧
      (shelf0.state = .locked ∧ shelf0.selected = some 0 ∧ ((site 9).evalInputs 1).cands[(0 : Fin 8)].config.kind = .peer 0) := by
  decide +kernel

/-! #### The Result Writer and the laws -/

theorem witness_RecordsStandAtTheirOffsets : (0 < 16 ∧ 15 < 16) ∧ (3 < 4 ∧ 7 < 8) ∧ 127 < 128 := by decide

theorem witness_RecordsShowTheirFields :
    (shelf1.published.path.length ≤ 8 ∧ shelf1.published.switchCount ≤ 65535 ∧ shelf1.published.lastTime < 2 ^ 48 ∧
      (List.replicate 32 true).length ≤ 32 ∧ (line00.average = some 0 ∧ (-1000000 : Int) ≤ 0) ∧ station01.lastRaw = none ∧
      (site 9).writer.lastEntryTime < 2 ^ 48) ∧
    (0 < shelf1.published.path.length ∧ shelf1.published.path.length ≤ 7 ∧ 7 ≤ 7 ∧ 14 ≤ 14) ∧
    (let learns := { shelf1 with historyValid := false, learnDeadline := at_ 20 }
     ShelfLaw learns ∧ learns.learnDeadline = some ⟨20, false⟩) ∧
    ((⟨20, false⟩ : Deadline).time ≤ 20 ∧ 20 ≤ (⟨20, false⟩ : Deadline).time ∧ (⟨20, false⟩ : Deadline).time ≤ 21) := by
  refine ⟨by decide, by decide, ⟨?_, rfl⟩, by decide⟩
  constructor <;> decide

theorem witness_RecordsAreWritten :
    ((site 9).writer.publication ≠ 4294967295 ∧
      ({ (site 9).writer with publication := 4294967295 } : Writer).publication = 4294967295) ∧
    ∀ item ∈ [WriteItem.shelfResult 31, .candResult 255, .logControl, .logEntry ⟨0xFFFFFFFF, 9, 0, .select, none, some 7, .qc6, .policy⟩],
      (writing (site 9) [item]).arbiter.owner = .writer .item ∧ (writing (site 9) [item]).writer.list = item :: [] ∧
        MemoryLaw (writing (site 9) [item]) := by
  unfold MemoryLaw; decide +kernel

theorem witness_CommandsAreCompleted :
    let completes := fun word => { writing (site 9) [.completion 31 .inUse] with mem := memoryOf [(0x2F0, word)] }
    (∀ word ∈ [1, 2], MemoryLaw (completes word) ∧ (completes word).arbiter.owner = .writer .item ∧
      (completes word).writer.list = .completion 31 .inUse :: []) ∧
    (readSlotState (completes 2).mem 31 = .taken ∧ readSlotState (completes 1).mem 31 ≠ .taken) ∧
    (MemoryLaw (aborting 30 true 2) ∧ (aborting 30 true 2).arbiter.owner = .writer (.abort 30 true) ∧
      readSlotState (aborting 30 true 2).mem 30 = .taken ∧ (aborting 30 true 2).commandInHand 30 = false ∧
      (30 : Fin 32).val + 1 < 32) ∧
    (MemoryLaw (aborting 31 true 1) ∧ readSlotState (aborting 31 true 1).mem 31 ≠ .taken ∧
      (aborting 31 true 1).intake.pendingGlobals = none ∧ (aborting 31 false 1).arbiter.owner = .writer (.abort 31 false)) := by
  unfold MemoryLaw; decide +kernel

/-- The site with a command that waits, for the laws that every step keeps. -/
def next (c : Instr) : State := { site 9 with pending := [c], mem := memoryOf [(0x100, 2)], evaluating := some ((site 9).evalInputs 1) }

/-- The same with a log entry behind the head of its index, whose transaction is in progress. -/
def twoEntries : State :=
  let e := fun n : Word => WriteItem.logEntry ⟨n, 9, 0, .select, none, some 7, .qc6, .policy⟩
  writing (next .tick) [e 2, e 130]

theorem witness_MemoryAndWriteListKeepTheirForm :
    ((∃ t, step (next .tick) = .next t) ∧ MemoryLaw (next .tick) ∧ WriteLaw (next .tick)) ∧
      (∃ t, step twoEntries = .next t) ∧ WriteLaw twoEntries := by
  refine ⟨⟨⟨_, rfl⟩, by unfold MemoryLaw; decide +kernel, ⟨.inl (by decide +kernel), by decide +kernel, by decide +kernel, ?_⟩⟩,
    ⟨_, rfl⟩, ⟨.inr ⟨rfl, _, _, rfl, by decide +kernel⟩, by decide +kernel, by decide +kernel, ?_⟩⟩ <;>
  · intro e he hs; cases he; exact absurd hs (by decide +kernel)

theorem witness_ShelvesAndCandidatesKeepTheirRelations :
    (∃ t, step (next .tick) = .next t) ∧ ServiceLaw (next .tick) ∧ ShelvesLaw (next .tick) ∧ CandsLaw (next .tick) := by
  refine ⟨⟨_, rfl⟩, by unfold ServiceLaw; decide +kernel, ?_, ?_⟩
  · have h : ∀ i : Fin 32, i = 0 ∨ i = 1 ∨ (site 9).shelves[i] = Shelf.reset i := by decide +kernel
    intro i
    show ShelfLaw (site 9).shelves[i]
    rcases h i with rfl | rfl | hi
    · constructor <;> decide +kernel
    · constructor <;> decide +kernel
    · rw [hi]; constructor <;> simp [Shelf.reset]
  · have h : ∀ k : Fin 256, k = 0 ∨ k = 1 ∨ k = 8 ∨ (site 9).cands[k] = Candidate.reset := by decide +kernel
    intro k
    show CandLaw (site 9).params[shelfOf k].window (site 9).cands[k]
    rcases h k with rfl | rfl | rfl | hk
    · exact ⟨by decide +kernel, by decide +kernel, by decide +kernel, by decide +kernel, fun a h => by
        cases (show some (0 : Int) = some a from h); decide⟩
    · exact ⟨by decide +kernel, by decide +kernel, by decide +kernel, by decide +kernel, fun a h => by
        cases (show none = some a from h)⟩
    · exact ⟨by decide +kernel, by decide +kernel, by decide +kernel, by decide +kernel, fun a h => by
        cases (show none = some a from h)⟩
    · rw [hk]; constructor <;> simp [Candidate.reset, Reasons.any]

theorem witness_NoTimingRingArises : (∃ t, step (next (.evaluation .finish)) = .next t) ∧ GraphLaw (next (.evaluation .finish)) := by
  refine ⟨⟨_, rfl⟩, ⟨site_noRing, ?_, ?_⟩⟩
  · intro e he; cases he; exact ⟨site_noRing, fun _ _ h => h⟩
  · unfold PathOf; decide +kernel

theorem witness_ClockAndCountersKeepTheirRanges :
    (∃ t, step (next .powerOn) = .next t ∧ t.clock < (next .powerOn).clock) ∧ (next .powerOn).clock ≤ 281474976710655 ∧
      ClockLaw (next .powerOn) ∧ RangeLaw (next .powerOn) := by
  refine ⟨⟨_, rfl, by decide +kernel⟩, by decide +kernel, ?_, ⟨by decide +kernel, by decide +kernel, by decide +kernel, ?_⟩⟩
  · have hs : ∀ i : Fin 32, (next .powerOn).shelves[i].acqDeadline = none ∧ (next .powerOn).shelves[i].learnDeadline = none ∧
        (next .powerOn).shelves[i].holdDeadline = none := by decide +kernel
    have hc : ∀ k : Fin 256, (next .powerOn).cands[k].reportDeadline = none ∧ (next .powerOn).cands[k].stateDeadline = none := by
      decide +kernel
    refine ⟨by decide +kernel, by decide +kernel, fun x hx => (by cases hx), fun k => ?_, fun i => ?_⟩
    · rw [(hc k).1, (hc k).2]; exact ⟨fun x hx => (by cases hx), fun x hx => (by cases hx)⟩
    · rw [(hs i).1, (hs i).2.1, (hs i).2.2]
      exact ⟨fun x hx => (by cases hx), fun x hx => (by cases hx), fun x hx => (by cases hx)⟩
  · intro g hg; cases hg

end Sys2Proof.Tests
end

section
/-! PROOFS. The reset values (chapter 10). -/

namespace Sys2Proof.Machine

/-- No written shelf state holds ALARM after reset (R159, R168). -/
@[simp] theorem State.reset_alarm : State.reset.alarm = false := by
  simp [State.alarm, State.reset, Writer.reset, ShelfState.alarms]

@[simp] theorem State.reset_engineSts : State.reset.engineSts = 0 := by decide

/-- After reset PART_ID is the only register that does not read 0 (R171, R179). -/
theorem State.reset_regValue (reg : BitVec 14) : State.reset.regValue reg = if reg = 0 then 0x57320801 else 0 := by
  have causes : State.reset.causes.word = 0 := by decide
  have enables : State.reset.enables.causes.word = 0 := by decide
  unfold State.regValue
  rw [State.reset_engineSts, State.reset_alarm, causes, enables]
  split
  · rfl
  · (repeat' split) <;> rfl

/-- Settles O5: the tables entry by entry, the rest field by field. -/
theorem resetLeavesTheStatedValues : Obligations.ResetLeavesTheStatedValues := by
  have shelf : ∀ i : Fin 32, State.reset.shelves[i] = Shelf.reset i := fun i => ofFn_at _ i
  have cand : ∀ k : Fin 256, State.reset.cands[k] = Candidate.reset := fun k => replicate_at _ k
  have judged : ∀ k : Fin 256, State.reset.judged[k] = Judgement.reset := fun k => replicate_at _ k
  have params : ∀ i : Fin 32, State.reset.params[i] = MonitorParams.reset := fun i => replicate_at _ i
  have attn : State.reset.attnAsserted = false := by unfold State.attnAsserted; rw [State.reset_alarm]; rfl
  exact ⟨State.reset_regValue, attn, rfl, rfl, rfl, rfl, rfl, rfl, rfl, rfl, cand, judged, params, shelf, rfl, rfl, rfl, rfl,
    rfl, rfl, rfl, fun i => ⟨replicate_at _ i, replicate_at _ i⟩, fun k => ⟨replicate_at _ k, replicate_at _ k⟩, rfl⟩

end Sys2Proof.Machine
end

section
/-! PROOFS. Quality classes: their codes, their order, the effective class of a candidate (chapter 1). -/

namespace Sys2Proof.Machine

/-! ### Quality classes: codes and the order of R1 -/

theorem Quality.code_inj {a b : Quality} (h : a.code = b.code) : a = b := by
  cases a <;> cases b <;> first | rfl | cases h

@[simp] theorem Quality.worseOf_code (a b : Quality) : (a.worseOf b).code = max a.code b.code := by
  unfold Quality.worseOf; split <;> omega

@[simp] theorem Quality.betterOf_code (a b : Quality) : (a.betterOf b).code = min a.code b.code := by
  unfold Quality.betterOf; split <;> omega

/-- Clamping a class clamps its code (R2). -/
@[simp] theorem Quality.clampTo_code (q best worst : Quality) :
    (q.clampTo best worst).code = max best.code (min q.code worst.code) := by simp [Quality.clampTo]

theorem Quality.code_range (q : Quality) : 1 ≤ q.code ∧ q.code ≤ 6 := by cases q <;> decide

/-- The worse of two classes is the second when the first is no worse. -/
theorem Quality.worseOf_eq_right {a b : Quality} (h : a.code ≤ b.code) : a.worseOf b = b := by
  unfold Quality.worseOf; exact if_pos h

theorem Quality.worseOf_eq_left {a b : Quality} (h : b.code ≤ a.code) : a.worseOf b = a :=
  Quality.code_inj (by simp [h])

/-- A class is read exactly from its own code (section 8.2.3). -/
theorem Quality.ofCode_eq_some {n : Nat} {q : Quality} : Quality.ofCode n = some q ↔ q.code = n := by
  unfold Quality.ofCode
  cases q <;> simp only [Quality.code] <;> grind

theorem Quality.ofCode_eq_none {n : Nat} : Quality.ofCode n = none ↔ n = 0 ∨ 6 < n := by
  unfold Quality.ofCode; grind

theorem Quality.exists_of_code {n : Nat} (h : ¬ (n = 0 ∨ 6 < n)) : ∃ q : Quality, Quality.ofCode n = some q ∧ q.code = n := by
  obtain ⟨q, hq⟩ := Option.ne_none_iff_exists'.mp (mt Quality.ofCode_eq_none.mp h)
  exact ⟨q, hq, Quality.ofCode_eq_some.mp hq⟩

/-! ### The effective class (R6 to R10) -/

/-- The class a source shelf offers while it is barred toward the shelf, and otherwise (R9, R15). -/
theorem offeredClass_eq (b : Shelf) (i : Fin 32) :
    offeredClass b i = if b.published.barring = .shelf i then .qc6 else b.published.outputClass := by
  simp [offeredClass, barredToward]

theorem effectiveClass_of_off {i : Fin 32} {shelves : Vector Shelf 32} {c : Candidate} (h : c.state = .off ∨ c.config.kind = .off) :
    effectiveClass i shelves c = .qc6 := by
  unfold effectiveClass
  rcases h with h | h
  · rw [if_pos h]
  · simp [h]

section
variable {i : Fin 32} {shelves : Vector Shelf 32} {c : Candidate} (hs : c.state ≠ .off)
include hs

theorem effectiveClass_line (hk : c.config.kind = .line) :
    effectiveClass i shelves c = c.config.cap.worseOf (c.received.getD .qc5) := by
  unfold effectiveClass; rw [if_neg hs, hk]

theorem effectiveClass_station (hk : c.config.kind = .station) : effectiveClass i shelves c = c.config.cap := by
  unfold effectiveClass; rw [if_neg hs, hk]

theorem effectiveClass_satellite (hk : c.config.kind = .satellite) :
    effectiveClass i shelves c = (c.received.map c.config.cap.worseOf).getD c.config.cap := by
  unfold effectiveClass; rw [if_neg hs, hk]; cases c.received <;> rfl

theorem effectiveClass_peer {b : Fin 32} (hk : c.config.kind = .peer b) :
    effectiveClass i shelves c = c.config.cap.worseOf (offeredClass shelves[b] i) := by
  unfold effectiveClass; rw [if_neg hs, hk]

end

/-- Settles O28: kind by kind, each reduced to the order of the classes. -/
theorem effectiveClassByKind : Obligations.EffectiveClassByKind := by
  intro i shelves c
  refine ⟨effectiveClass_of_off, fun hs => ⟨fun hk => ?line, fun hk => ?satellite, effectiveClass_station hs, fun b hk => ?peer⟩⟩
  case line =>
    rw [effectiveClass_line hs hk]
    refine ⟨rfl, fun hr hc => ?_, fun r hr hb => ?_, fun h => ?_⟩
    · have : c.config.cap.code ≠ 6 := fun e => hc (Quality.code_inj e)
      have := c.config.cap.code_range
      rw [hr]
      exact Quality.worseOf_eq_right (show c.config.cap.code ≤ 5 by omega)
    · have : r.code < c.config.cap.code := of_decide_eq_true hb
      rw [hr]
      exact Quality.worseOf_eq_left (show r.code ≤ c.config.cap.code by omega)
    · rcases h with h | h <;> rw [h]
      · exact Quality.worseOf_eq_left (Quality.code_range _).2
      · exact Quality.worseOf_eq_right (Quality.code_range _).2
  case satellite =>
    rw [effectiveClass_satellite hs hk]
    refine ⟨fun r hr => by rw [hr]; rfl, fun hr => by rw [hr]; rfl, fun hr hb => ?_⟩
    rw [hr]
    exact Quality.worseOf_eq_right (Nat.le_of_lt (of_decide_eq_true hb))
  case peer =>
    rw [effectiveClass_peer hs hk, offeredClass_eq]
    refine ⟨fun hb => ?_, fun hb => ?_⟩
    · rw [if_pos hb]
      exact Quality.worseOf_eq_right (Quality.code_range _).2
    · rw [if_neg hb]
      exact ⟨rfl, Quality.worseOf_code _ _⟩

end Sys2Proof.Machine
end

section
/-! PROOFS. Configuration records: refused by the first cause, or clamped (section 8.6). -/

namespace Sys2Proof.Machine

/-! ### Validation and clamping (R2, R151, R152) -/

theorem clamp_eq_self {lo hi x : Nat} (h : lo ≤ hi) : clamp lo hi x = x ↔ lo ≤ x ∧ x ≤ hi := by
  unfold clamp; omega

/-- A class that is clamped stays as it is when it lies in the range. -/
theorem Quality.clampTo_eq_self {q best worst : Quality} (h : best.code ≤ worst.code) :
    q.clampTo best worst = q ↔ best.code ≤ q.code ∧ q.code ≤ worst.code := by
  rw [show q.clampTo best worst = q ↔ (q.clampTo best worst).code = q.code from ⟨congrArg _, Quality.code_inj⟩,
    Quality.clampTo_code]
  omega

theorem Policy.exists_of_code {n : Nat} (h : n ≤ 2) : ∃ p, Policy.ofCode n = some p := by
  unfold Policy.ofCode; (repeat' split) <;> first | exact ⟨_, rfl⟩ | omega

theorem Policy.ofCode_eq_none {n : Nat} (h : 2 < n) : Policy.ofCode n = none := by
  unfold Policy.ofCode; (repeat' split) <;> first | rfl | omega

/-- An undefined class code is the first cause (R151). -/
theorem ShelfRecord.validate_badClass {r : ShelfRecord} (h : (r.guardCode = 0 ∨ 6 < r.guardCode) ∨
    (r.floorCode = 0 ∨ 6 < r.floorCode) ∨ (r.holdoverCode = 0 ∨ 6 < r.holdoverCode)) : r.validate = .refused .badClass := by
  unfold ShelfRecord.validate
  simp only [← Quality.ofCode_eq_none] at h
  split
  · simp_all
  · rfl

/-- An undefined policy is the cause once the classes are defined (R151). -/
theorem ShelfRecord.validate_badPolicy {r : ShelfRecord} (h : ¬ ((r.guardCode = 0 ∨ 6 < r.guardCode) ∨
    (r.floorCode = 0 ∨ 6 < r.floorCode) ∨ (r.holdoverCode = 0 ∨ 6 < r.holdoverCode))) (hp : 2 < r.policy) :
    r.validate = .refused .badPolicy := by
  simp only [not_or] at h
  obtain ⟨hg, hf, hh⟩ := h
  obtain ⟨g, eg, -⟩ := Quality.exists_of_code (not_or.mpr hg)
  obtain ⟨f, ef, -⟩ := Quality.exists_of_code (not_or.mpr hf)
  obtain ⟨o, eo, -⟩ := Quality.exists_of_code (not_or.mpr hh)
  unfold ShelfRecord.validate
  rw [eg, ef, eo, Policy.ofCode_eq_none hp]

/-- A candidate record with a kind of R3 has that kind, and a PEER source names another shelf below 32. -/
theorem CandRecord.kindFor_ok {r : CandRecord} {i : Fin 32} (hk : r.kind ≤ 4)
    (hs : ¬ (r.kind = 4 ∧ (r.source = i.val ∨ 32 ≤ r.source))) : ∃ kind, r.kindFor i = .ok kind ∧
      (r.kind = 0 → kind = .off) ∧ (r.kind = 1 → kind = .line) ∧ (r.kind = 2 → kind = .station) ∧
      (r.kind = 3 → kind = .satellite) ∧ (r.kind = 4 → ∃ b : Fin 32, kind = .peer b ∧ b.val = r.source) := by
  obtain h | h | h | h | h : r.kind = 0 ∨ r.kind = 1 ∨ r.kind = 2 ∨ r.kind = 3 ∨ r.kind = 4 := by omega
  case inr.inr.inr.inr =>
    have hlt : r.source < 32 := by omega
    have hne : r.source ≠ i.val := by omega
    exact ⟨.peer ⟨r.source, hlt⟩, by simp [CandRecord.kindFor, h, hlt, hne], by simp [h]⟩
  all_goals simp [CandRecord.kindFor, h]

theorem CandRecord.kindFor_badSource {r : CandRecord} {i : Fin 32} (h : r.kind = 4 ∧ (r.source = i.val ∨ 32 ≤ r.source)) :
    r.kindFor i = .error .badSource := by
  unfold CandRecord.kindFor
  rw [h.1]
  by_cases hlt : r.source < 32
  · have : r.source = i.val := by omega
    simp [this]
  · simp [hlt]

/-- An accepted shelf record: every field in its range, and CLAMPED exactly when one was outside (R2, R151). -/
theorem ShelfRecord.validate_accepted {r : ShelfRecord} {g f o : Quality} {p : Policy} (hg : Quality.ofCode r.guardCode = some g)
    (hf : Quality.ofCode r.floorCode = some f) (ho : Quality.ofCode r.holdoverCode = some o) (hp : Policy.ofCode r.policy = some p) :
    ∃ clamped, r.validate = .accepted
      { enable := r.enable, policy := p, guardClass := g.clampTo .qc1 .qc5, floorClass := f.clampTo .qc1 .qc5
        holdoverClass := o.clampTo .qc2 .qc4
        monitor := { window := clamp 1 32 r.window, threshold := clamp 1 (clamp 1 32 r.window) r.threshold
                     exponent := clamp 0 6 r.exponent, holdOff := clamp 0 100 r.holdOff
                     waitToRestore := clamp 0 1800 r.waitToRestore }
        learningTime := clamp 0 3600 r.learningTime, holdoverLimit := clamp 1 1440 r.holdoverLimit
        acqTimeout := clamp 1 120 r.acqTimeout } clamped ∧
      (clamped = false ↔ g.clampTo .qc1 .qc5 = g ∧ f.clampTo .qc1 .qc5 = f ∧ o.clampTo .qc2 .qc4 = o ∧
        clamp 1 32 r.window = r.window ∧ clamp 1 (clamp 1 32 r.window) r.threshold = r.threshold ∧
        clamp 0 6 r.exponent = r.exponent ∧ clamp 0 100 r.holdOff = r.holdOff ∧ clamp 0 1800 r.waitToRestore = r.waitToRestore ∧
        clamp 0 3600 r.learningTime = r.learningTime ∧ clamp 1 1440 r.holdoverLimit = r.holdoverLimit ∧
        clamp 1 120 r.acqTimeout = r.acqTimeout) := by
  unfold ShelfRecord.validate
  rw [hg, hf, ho, hp]
  refine ⟨_, rfl, ?_⟩
  simp only [Bool.or_eq_false_iff, bne_eq_false_iff_eq, and_assoc]

/-- An accepted candidate record: its kind, and the numbers in their ranges (R152). -/
theorem CandRecord.validate_accepted {r : CandRecord} {i : Fin 32} {cap : Quality} {kind : Kind} (h : r.kind ≤ 4)
    (hc : Quality.ofCode r.capCode = some cap) (hk : r.kindFor i = .ok kind)
    (hf : ¬ (r.frequency < 1000 ∨ 200000000 < r.frequency)) :
    ∃ clamped, r.validate i = .accepted
      { kind := kind, priority := clamp 1 15 r.priority, cap := cap, frequency := r.frequency
        limit := clamp 1 1000000 r.limit, timeout := clamp 100 60000 r.timeout } clamped ∧
      (clamped = false ↔ clamp 1 15 r.priority = r.priority ∧ clamp 1 1000000 r.limit = r.limit ∧
        clamp 100 60000 r.timeout = r.timeout) := by
  unfold CandRecord.validate
  rw [if_neg (Nat.not_lt.mpr h), hc, hk]
  dsimp only
  rw [if_neg hf]
  refine ⟨_, rfl, ?_⟩
  simp only [Bool.or_eq_false_iff, bne_eq_false_iff_eq, and_assoc]

/-- The ranges that an accepted shelf record's fields had when none was clamped (R151). -/
theorem ShelfRecord.unclamped_iff (r : ShelfRecord) {g f o : Quality} (hg : g.code = r.guardCode) (hf : f.code = r.floorCode)
    (ho : o.code = r.holdoverCode) :
    (g.clampTo .qc1 .qc5 = g ∧ f.clampTo .qc1 .qc5 = f ∧ o.clampTo .qc2 .qc4 = o ∧
      clamp 1 32 r.window = r.window ∧ clamp 1 (clamp 1 32 r.window) r.threshold = r.threshold ∧
      clamp 0 6 r.exponent = r.exponent ∧ clamp 0 100 r.holdOff = r.holdOff ∧ clamp 0 1800 r.waitToRestore = r.waitToRestore ∧
      clamp 0 3600 r.learningTime = r.learningTime ∧ clamp 1 1440 r.holdoverLimit = r.holdoverLimit ∧
      clamp 1 120 r.acqTimeout = r.acqTimeout) ↔
    (r.guardCode ≤ 5 ∧ r.floorCode ≤ 5 ∧ 2 ≤ r.holdoverCode ∧ r.holdoverCode ≤ 4 ∧ 1 ≤ r.window ∧ r.window ≤ 32 ∧
      1 ≤ r.threshold ∧ r.threshold ≤ r.window ∧ r.exponent ≤ 6 ∧ r.holdOff ≤ 100 ∧ r.waitToRestore ≤ 1800 ∧
      r.learningTime ≤ 3600 ∧ 1 ≤ r.holdoverLimit ∧ r.holdoverLimit ≤ 1440 ∧ 1 ≤ r.acqTimeout ∧ r.acqTimeout ≤ 120) := by
  have w1 : 1 ≤ clamp 1 32 r.window := by unfold clamp; omega
  have guard : g.clampTo .qc1 .qc5 = g ↔ 1 ≤ g.code ∧ g.code ≤ 5 := Quality.clampTo_eq_self (by decide)
  have floor : f.clampTo .qc1 .qc5 = f ↔ 1 ≤ f.code ∧ f.code ≤ 5 := Quality.clampTo_eq_self (by decide)
  have hold : o.clampTo .qc2 .qc4 = o ↔ 2 ≤ o.code ∧ o.code ≤ 4 := Quality.clampTo_eq_self (by decide)
  have := g.code_range
  have := f.code_range
  rw [guard, floor, hold, clamp_eq_self w1]
  unfold clamp
  omega

/-- Settles O33: the refusals in the order of their causes, then the accepted record field by field. -/
theorem configurationIsValidatedAndClamped : Obligations.ConfigurationIsValidatedAndClamped := by
  refine ⟨fun r => ⟨ShelfRecord.validate_badClass, fun h hp => ShelfRecord.validate_badPolicy h hp, fun h hp => ?shelf⟩,
    fun r i => ⟨fun h => if_pos h, fun hk hc => ?badClass, fun hk h1 h6 hs => ?badSource,
      fun hk h1 h6 hs hf => ?badFrequency, fun hk h1 h6 hs h3 h8 => ?cand⟩⟩
  case shelf =>
    simp only [not_or] at h
    obtain ⟨hg, hf, ho⟩ := h
    obtain ⟨g, eg, cg⟩ := Quality.exists_of_code (not_or.mpr hg)
    obtain ⟨f, ef, cf⟩ := Quality.exists_of_code (not_or.mpr hf)
    obtain ⟨o, eo, co⟩ := Quality.exists_of_code (not_or.mpr ho)
    obtain ⟨p, ep⟩ := Policy.exists_of_code hp
    obtain ⟨clamped, hv, hc⟩ := ShelfRecord.validate_accepted eg ef eo ep
    refine ⟨_, clamped, hv, rfl, ep, ?guard, ?floor, ?holdover, rfl, rfl, Nat.zero_max _, Nat.zero_max _, Nat.zero_max _,
      Nat.zero_max _, rfl, rfl, hc.trans (r.unclamped_iff cg cf co)⟩
    case guard => rw [Quality.clampTo_code, cg]; simp only [Quality.code]; omega
    case floor => rw [Quality.clampTo_code, cf]; simp only [Quality.code]; omega
    case holdover => rw [Quality.clampTo_code, co]; rfl
  case badClass =>
    unfold CandRecord.validate
    rw [if_neg (Nat.not_lt.mpr hk), Quality.ofCode_eq_none.mpr hc]
  all_goals obtain ⟨cap, ec, cc⟩ := Quality.exists_of_code (n := r.capCode) (by omega)
  case badSource =>
    unfold CandRecord.validate
    rw [if_neg (Nat.not_lt.mpr hk), ec, CandRecord.kindFor_badSource hs]
  all_goals obtain ⟨kind, ek, k0, k1, k2, k3, k4⟩ := CandRecord.kindFor_ok hk hs
  case badFrequency =>
    unfold CandRecord.validate
    rw [if_neg (Nat.not_lt.mpr hk), ec, ek]
    exact if_pos hf
  case cand =>
    obtain ⟨clamped, hv, hc⟩ := CandRecord.validate_accepted hk ec ek (by omega)
    refine ⟨_, clamped, hv, cc, rfl, k0, k1, k2, k3, k4, rfl, rfl, rfl, hc.trans ?_⟩
    rw [clamp_eq_self (by decide), clamp_eq_self (by decide), clamp_eq_self (by decide)]
    simp only [and_assoc]

end Sys2Proof.Machine
end

section
/-! PROOFS. The change reason (R79) and what stage 5 of an evaluation computes: output class, barring, live path (R11, R14, R107). -/

namespace Sys2Proof.Machine

/-! ### The change reason -/

/-- The third case of R79 for the selected slot: it cannot remain, or under FORCED it fails the forced judgement (log entry 22). -/
def EvalCtx.unfit (x : EvalCtx) (mode : Mode) (c : Fin 8) : Prop :=
  x.remainCode c ≠ .eligible ∨ ((∃ k, mode = .forced k) ∧ x.forcedCode c ≠ .eligible)

theorem EvalCtx.reason_command (x : EvalCtx) (sh : Shelf) (mode : Mode) (dropped : Bool) :
    x.reason sh mode true dropped = .command := rfl

theorem EvalCtx.reason_pending {x : EvalCtx} {sh : Shelf} {mode : Mode} {dropped : Bool} {r : ChangeReason}
    (h : sh.pendingReason = some r) : x.reason sh mode false dropped = r := by simp [EvalCtx.reason, h]

/-- Neither a command nor a pending reason: FAILURE or POLICY (R79). -/
theorem EvalCtx.reason_else {x : EvalCtx} {sh : Shelf} {mode : Mode} {dropped : Bool} (h : sh.pendingReason = none) :
    (dropped = true ∨ (∃ c, sh.selected = some c ∧ x.unfit mode c) → x.reason sh mode false dropped = .failure) ∧
    (¬ (dropped = true ∨ ∃ c, sh.selected = some c ∧ x.unfit mode c) → x.reason sh mode false dropped = .policy) := by
  unfold EvalCtx.reason EvalCtx.unfit
  rw [h]
  cases sh.selected with
  | none => cases dropped <;> simp
  | some c => cases mode <;> simp [EvalCtx.remainEligible] <;> tauto

/-! ### Barring and live path -/

section
variable {st : ShelfState} (h : st = .acquiring ∨ st = .locked)
include h

theorem barringOf_peer {j : Fin 8} {kind : Fin 8 → Kind} {b : Fin 32} (hk : kind j = .peer b) :
    barringOf st (some j) kind = .shelf b := by
  rcases h with rfl | rfl <;> simp [barringOf, hk]

theorem barringOf_slot {j : Fin 8} {kind : Fin 8 → Kind} (hk : ∀ b, kind j ≠ .peer b) :
    barringOf st (some j) kind = .slot j := by
  rcases h with rfl | rfl <;> simp only [barringOf] <;> split <;> first | rfl | exact absurd ‹_› (hk _)

theorem EvalCtx.livePath_selected (x : EvalCtx) (j : Fin 8) :
    x.livePath st (some j) = ((x.walkOf j).elim [] fun w => w.1.reverse) ++ [x.shelf] := by
  rcases h with rfl | rfl <;> simp only [EvalCtx.livePath] <;> cases x.walkOf j <;> rfl

end

/-- Without a lock and without an acquisition nothing is barred and the path is the shelf alone. -/
theorem barringOf_unselected {st : ShelfState} (h : st = .freeRun ∨ st = .holdover ∨ st = .disabled) (sel : Option (Fin 8))
    (kind : Fin 8 → Kind) : barringOf st sel kind = .none := by
  rcases h with rfl | rfl | rfl <;> rfl

theorem EvalCtx.livePath_unselected (x : EvalCtx) {st : ShelfState} (h : st = .freeRun ∨ st = .holdover ∨ st = .disabled)
    (sel : Option (Fin 8)) : x.livePath st sel = [x.shelf] := by
  rcases h with rfl | rfl | rfl <;> rfl

theorem EvalCtx.walkOf_peer {x : EvalCtx} {j : Fin 8} {b : Fin 32} (h : x.cands[j].config.kind = .peer b) :
    x.walkOf j = some (liveWalk x.shelves x.shelf b) := by unfold EvalCtx.walkOf; rw [h]

theorem EvalCtx.walkOf_none {x : EvalCtx} {j : Fin 8} (h : ∀ b, x.cands[j].config.kind ≠ .peer b) : x.walkOf j = none := by
  unfold EvalCtx.walkOf
  split
  · exact absurd ‹_› (h _)
  all_goals rfl

/-- A shelf that follows no other is its own path, whatever its state (R107). -/
theorem EvalCtx.livePath_alone {x : EvalCtx} {j : Fin 8} (h : ∀ b, x.cands[j].config.kind ≠ .peer b) (st : ShelfState) :
    x.livePath st (some j) = [x.shelf] := by
  cases st
  case acquiring => rw [EvalCtx.livePath_selected (.inl rfl), EvalCtx.walkOf_none h]; rfl
  case locked => rw [EvalCtx.livePath_selected (.inr rfl), EvalCtx.walkOf_none h]; rfl
  all_goals rfl

/-- Settles O52: the reason in the order of R79, then the three outputs by the state of the shelf. -/
theorem reasonAndOutputsOfAnEvaluation : Obligations.ReasonAndOutputsOfAnEvaluation := by
  refine ⟨fun x sh mode accepted dropped => ⟨?_, ?_, ?_⟩,
    fun history holdover judged => ⟨rfl, rfl, rfl, rfl, rfl, rfl⟩,
    fun st j kind h => ⟨fun b hk => barringOf_peer h hk, fun hk => barringOf_slot h hk⟩,
    fun st kind sel h => barringOf_unselected h sel kind,
    fun x st sel => ⟨?alone, ?behind⟩⟩
  · rintro rfl; exact x.reason_command sh mode dropped
  · rintro r rfl hr; exact EvalCtx.reason_pending hr
  · rintro rfl hr
    split
    · exact (EvalCtx.reason_else hr).1 ‹_›
    · exact (EvalCtx.reason_else hr).2 ‹_›
  case alone =>
    rintro (h | h | h | ⟨j, rfl, h⟩)
    · exact x.livePath_unselected (.inl h) sel
    · exact x.livePath_unselected (.inr (.inl h)) sel
    · exact x.livePath_unselected (.inr (.inr h)) sel
    · exact EvalCtx.livePath_alone h st
  case behind =>
    rintro j b h rfl hk
    rw [EvalCtx.livePath_selected h, EvalCtx.walkOf_peer hk]
    rfl

end Sys2Proof.Machine
end

section
/-! PROOFS. An observation taken in a sweep (section 2.2). -/

namespace Sys2Proof.Machine

/-- Steps 1 to 4 of R21: the entry before the measurement and the transition. -/
def Candidate.recorded (p : MonitorParams) (now : Nat) (o : Observation) (c : Candidate) : Candidate :=
  { ({ c with lastObs := some now, reportDeadline := some (deadlineAt now c.config.timeout)
              reasons := { c.reasons with stale := false } } : Candidate).noteFault p o.fault with
    received := readMarking o.classPresent o.classCode }

theorem Candidate.observe_eq (p : MonitorParams) (now : Nat) (o : Observation) (c : Candidate) :
    c.observe p now o = ((c.recorded p now o).measure p o).transition p now := rfl

theorem usableGate_iff (g : Nat) : usableGate g = true ↔ 1 ≤ g ∧ g ≤ 16 := by simp [usableGate]

/-- A gate that carries no measurement leaves the offset values and FREQ alone (R46). -/
theorem Candidate.measure_unusable {p : MonitorParams} {o : Observation} (h : o.gate = 0 ∨ 16 < o.gate) (c : Candidate) :
    c.measure p o = c := by
  unfold Candidate.measure; rw [if_neg]; rw [usableGate_iff]; omega

/-- A usable gate gives the raw offset, the average and the FREQ judgement (R47 to R56). -/
theorem Candidate.measure_usable {p : MonitorParams} {o : Observation} (h1 : 1 ≤ o.gate) (h2 : o.gate ≤ 16) (c : Candidate) :
    c.measure p o =
      let raw := rawOffset o.count c.config.frequency o.gate
      let avg := updateAverage p.exponent c.average raw
      { c with
        lastRaw := some raw, average := some avg
        reasons := { c.reasons with freq := judgeFreq (some avg) c.config.limit c.reasons.freq } } := by
  unfold Candidate.measure; exact if_pos ((usableGate_iff _).mpr ⟨h1, h2⟩)

/-- What a measurement leaves as it was. -/
theorem Candidate.measure_keeps (p : MonitorParams) (o : Observation) (c : Candidate) :
    (c.measure p o).config = c.config ∧ (c.measure p o).outcome = c.outcome ∧ (c.measure p o).state = c.state ∧
      (c.measure p o).stateDeadline = c.stateDeadline ∧ (c.measure p o).lastObs = c.lastObs ∧
      (c.measure p o).reportDeadline = c.reportDeadline ∧ (c.measure p o).history = c.history ∧
      (c.measure p o).reasons.stale = c.reasons.stale ∧ (c.measure p o).reasons.signal = c.reasons.signal ∧
      (c.measure p o).received = c.received := by
  unfold Candidate.measure; split <;> exact ⟨rfl, rfl, rfl, rfl, rfl, rfl, rfl, rfl, rfl, rfl⟩

/-- The take of a fresh observation (R21, R142). -/
theorem State.takeObs_fresh {s : State} {k : Fin 256}
    (h : fresh (readObservation s.mem k).seq (readObservation s.mem k).echo s.intake.lastObs[k]) :
    s.takeObs k = (s.setLastObs k (some (readObservation s.mem k).seq)).observation k (readObservation s.mem k) := by
  unfold State.takeObs; exact if_pos ((takes_iff_fresh _ _ _).mpr h)

/-- The observation row at its position. -/
theorem exec_observation {s : State} {k : Fin 256} (h : s.intake.position = some (.obs k)) (ph : Phase) :
    exec (.observation ph) s = .next (s.intakeRow true ph fun s => s.sweepTransaction fun s => s.takeObs k) :=
  execSweepRow s (.obs k) h ph

/-- Settles O40: the record handed over, by whether its candidate is OFF, and the position moved on. -/
theorem observationIsProcessed : Obligations.ObservationIsProcessed := by
  intro s k hat hlast hf o c p v
  have done := State.sweepRow_done hat (fun s => s.takeObs k) (exec_observation hat.1 .finish)
  have hlast' : ∀ b : Bool, b = s.intake.furtherSweep →
      (.obs k : Position) ≠ .obs 255 ∨ (s.engine = .running ∧ b = false) := by
    rintro b rfl; exact hlast.imp_left fun h e => h (Position.obs.inj e)
  rw [State.takeObs_fresh hf] at done
  constructor
  · intro hoff
    rw [show (s.setLastObs k (some o.seq)).observation k o = s.setLastObs k (some o.seq) from if_pos hoff] at done
    obtain ⟨t, x, ht, rfl, hport⟩ := done hat.1 rfl rfl rfl (hlast' _ rfl)
    exact ⟨_, ht, by constructor <;> first | (left; decide) | exact .inr rfl, rfl, hport⟩
  · intro hon
    rw [show (s.setLastObs k (some o.seq)).observation k o
        = (s.setLastObs k (some o.seq)).candEvent k (c.observe p s.clock o) from if_neg hon,
      Candidate.observe_eq, State.candEvent_eq] at done
    obtain ⟨t, x, ht, rfl, hport⟩ := done hat.1 rfl rfl rfl (hlast' _ rfl)
    obtain ⟨m1, m2, m3, m4, m5, m6, m7, m8, m9, m10⟩ := Candidate.measure_keeps p o (c.recorded p s.clock o)
    refine ⟨_, (c.recorded p s.clock o).measure p o, ht, by constructor <;> first | (left; decide) | exact .inr rfl,
      ⟨rfl, hport⟩, rfl, rfl, rfl, m1, m2, m3, m4, m5, m6, m7, m8, ?signal, m10, fun hg => ?unusable,
      fun h1 h2 => ⟨_, _, rfl, rfl, ?usable⟩⟩
    case signal => rw [m9, m7]; rfl
    case unusable => rw [Candidate.measure_unusable hg]; exact ⟨rfl, rfl, rfl⟩
    case usable => rw [Candidate.measure_usable h1 h2]; exact ⟨rfl, rfl, rfl⟩

end Sys2Proof.Machine
end

section
/-! PROOFS. What an evaluation leaves, and the end of STOPPING that can follow it (R83 to R98, R110, R177). -/

namespace Sys2Proof.Machine

/-- A published field that queues the dependents has changed (R97, R110). -/
theorem Published.movesDependents_iff (old new : Published) : old.movesDependents new = true ↔
    old.state ≠ new.state ∨ old.outputClass ≠ new.outputClass ∨ old.barring ≠ new.barring ∨ old.path ≠ new.path := by
  simp [Published.movesDependents, or_assoc]

/-- A shelf is a dependent when one of its candidates that are not OFF has the other as its source (R100). -/
theorem State.dependents_eq (s : State) (b : Fin 32) :
    s.dependents b = (List.finRange 32).filter fun d => d ≠ b ∧ ∃ j : Fin 8, s.cands[flat d j].state ≠ .off ∧
      s.cands[flat d j].config.kind = .peer b := by
  unfold State.dependents dependsBy
  refine List.filter_congr fun d _ => ?_
  rw [Bool.eq_iff_iff]
  simp [-Fin.getElem_fin]

/-- The shelf entry after stage 7 differs from that after stage 5 in the taken command alone (R98). -/
theorem EvalResult.finalShelf_eq (r : EvalResult) :
    r.finalShelf = { r.shelf with taken := if r.outcome.isSome then none else r.shelf.taken } := by
  unfold EvalResult.finalShelf; cases r.outcome <;> rfl

/-- The taken command is not touched by stage 4. -/
theorem Shelf.applyTarget_taken (now : Nat) (why : ChangeReason) (kind : Fin 8 → Kind) (target : Option (Fin 8)) (sh : Shelf) :
    (Shelf.applyTarget now why kind target sh).1.taken = sh.taken := by
  unfold Shelf.applyTarget Shelf.acquire Shelf.leave
  (repeat' split) <;> rfl

/-- An evaluation that ends runs its stages, and STOPPING may end with it. -/
theorem exec_evaluation_finish {s : State} {e : EvalInputs} (h : s.evaluating = some e) :
    exec (.evaluation .finish) s = .next (s.endEvaluation e).endStopping := by
  simp [exec, execEvaluation, State.finishEvaluation, h]

/-- STOPPING does not end in another engine state, nor while the Intake Unit has the port (R177). -/
theorem State.endStopping_of_busy {u : State} (h : u.engine ≠ .stopping ∨ u.arbiter.owner = .intake) : u.endStopping = u := by
  unfold State.endStopping State.atRest
  refine if_neg fun ⟨h1, h2⟩ => ?_
  rcases h with h | h
  · exact h h1
  · simp [h] at h2

/-- Settles O45: the state after the stages is that of State.endEvaluation_eq, and STOPPING ends with it when the Intake Unit is at
rest. -/
theorem evaluationPublishesWhatItChanged : Obligations.EvaluationPublishesWhatItChanged := by
  intro s e he sh c x d kind why m cls pub judged changed
  have hu := s.endEvaluation_eq e
  have hrun : e.run sh = {
      shelf := { m.1 with published := pub, pendingReason := none }, judged := judged, published := pub
      note := match m.2 with
        | some (k, previous, new) => some { kind := k, previous := previous, new := new, cls := cls, reason := m.1.lastReason }
        | none => none
      outcome := c.outcome } := rfl
  have hfinal : (e.run sh).finalShelf = { m.1 with
      published := pub, pendingReason := none, taken := if c.outcome.isSome then none else sh.taken } := by
    rw [EvalResult.finalShelf_eq, hrun, Shelf.applyTarget_taken]
  generalize hv : s.endEvaluation e = u at hu
  dsimp only at hu
  have hen : u.engine = s.engine := by rw [hu]
  have harb : u.arbiter = s.arbiter := by rw [hu]
  have hev : u.evaluating = none := by rw [hu]
  refine ⟨rfl, rfl, rfl, rfl, rfl, rfl, fun j => rfl, u, u.endStopping, by rw [exec_evaluation_finish he, hv], ?keeps, hev,
    ?judgements, ?shelves, ?writer, ?queue, ?goesOn, ?stops⟩
  case keeps => rw [hu]; constructor <;> first | (left; decide) | exact .inr rfl
  case judgements => intro k; rw [hu]; exact keepJudged_at _ _ _ k
  case shelves => rw [hu]; dsimp only; rw [hfinal]
  case writer => rw [hu]; rfl
  case queue =>
    rw [hu]
    dsimp only
    rw [State.dependents_eq]
    exact if_congr (Published.movesDependents_iff _ _) rfl rfl
  case goesOn => exact fun h => State.endStopping_of_busy (by rwa [hen, harb])
  case stops => exact fun h1 h2 => (State.endStopping_stoppedTo u (hen.trans h1) (by rwa [harb])).2 hev

end Sys2Proof.Machine
end

section
/-! PROOFS. The words of the records that the part writes, field by field (sections 8.2.2 and 8.2.3). -/

namespace Sys2Proof.Machine

/-! ### Fields of a packed word (R140) -/

/-- What the `len` bits from bit `lo` hold in a word packed of these fields: the field that stands there, or 0. -/
def fieldIn (lo len : Nat) : List (Nat × Nat × Nat) → Nat
  | [] => 0
  | (v, l, n) :: fs => bif l == lo && n == len then v % 2 ^ len else fieldIn lo len fs

/-- The fields stand in ascending order from bit `low` on, and each of them is the one of `len` bits at bit `lo` or lies outside of
it, which lies inside the word. -/
def laidOut (lo len : Nat) : Nat → List (Nat × Nat × Nat) → Bool
  | _, [] => (lo + len).ble 32
  | low, (_, l, n) :: fs =>
    low.ble l && ((l + n).ble lo || (lo + len).ble l || (l == lo && n == len)) && laidOut lo len (l + n) fs

theorem laidOut_cons {lo len low v l n : Nat} {fs : List (Nat × Nat × Nat)} (h : laidOut lo len low ((v, l, n) :: fs) = true) :
    low ≤ l ∧ (l + n ≤ lo ∨ lo + len ≤ l ∨ (l = lo ∧ n = len)) ∧ laidOut lo len (l + n) fs = true := by
  simpa [laidOut, or_assoc, and_assoc] using h

theorem laidOut_bound {lo len low : Nat} {fs : List (Nat × Nat × Nat)} (h : laidOut lo len low fs = true) : lo + len ≤ 32 := by
  induction fs generalizing low with
  | nil => exact Nat.le_of_ble_eq_true h
  | cons f fs ih => exact ih (laidOut_cons h).2.2

/-- The sum that packWord takes. -/
def packed (fs : List (Nat × Nat × Nat)) : Nat := (fs.map fun f => f.1 % 2 ^ f.2.2 * 2 ^ f.2.1).sum

theorem packed_cons (v l n : Nat) (fs : List (Nat × Nat × Nat)) : packed ((v, l, n) :: fs) = v % 2 ^ n * 2 ^ l + packed fs := by
  simp [packed]

/-- Fields that stand from bit `low` on leave the bits below it 0. -/
theorem two_pow_dvd_packed {lo len low : Nat} {fs : List (Nat × Nat × Nat)} (h : laidOut lo len low fs = true) :
    2 ^ low ∣ packed fs := by
  induction fs generalizing low with
  | nil => exact Nat.dvd_zero _
  | cons f fs ih =>
    obtain ⟨v, l, n⟩ := f
    obtain ⟨hlow, -, hrest⟩ := laidOut_cons h
    rw [packed_cons]
    exact Nat.dvd_add ((Nat.pow_dvd_pow 2 hlow).mul_left _) ((Nat.pow_dvd_pow 2 (by omega)).trans (ih hrest))

theorem packed_field {lo len low : Nat} {fs : List (Nat × Nat × Nat)} (h : laidOut lo len low fs = true) :
    packed fs / 2 ^ lo % 2 ^ len = fieldIn lo len fs := by
  induction fs generalizing low with
  | nil => simp [packed, fieldIn]
  | cons f fs ih =>
    obtain ⟨v, l, n⟩ := f
    obtain ⟨hlow, hplace, hrest⟩ := laidOut_cons h
    rw [packed_cons, fieldIn]
    by_cases hf : l = lo ∧ n = len
    · -- the field itself: the fields above it vanish modulo its width
      obtain ⟨rfl, rfl⟩ := hf
      obtain ⟨r, hr⟩ := two_pow_dvd_packed hrest
      rw [hr, Nat.pow_add, Nat.mul_assoc, ← Nat.mul_comm (2 ^ l), ← Nat.mul_add,
        Nat.mul_div_cancel_left _ (Nat.two_pow_pos l), Nat.add_mul_mod_self_left, Nat.mod_mod]
      simp
    · rw [show (l == lo && n == len) = false by simpa using hf, cond_false, ← ih hrest]
      rcases hplace with hbelow | habove | hf'
      · -- a field below: what it holds does not reach bit `lo`
        obtain ⟨r, hr⟩ := two_pow_dvd_packed hrest
        have hlt : v % 2 ^ n * 2 ^ l < 2 ^ (l + n) := by
          rw [Nat.pow_add, Nat.mul_comm (2 ^ l)]
          exact Nat.mul_lt_mul_of_pos_right (Nat.mod_lt _ (Nat.two_pow_pos n)) (Nat.two_pow_pos l)
        obtain ⟨d, rfl⟩ := Nat.exists_eq_add_of_le hbelow
        rw [hr, Nat.pow_add 2 (l + n) d, ← Nat.div_div_eq_div_mul, ← Nat.div_div_eq_div_mul,
          Nat.add_mul_div_left _ _ (Nat.two_pow_pos _), Nat.div_eq_of_lt hlt, Nat.zero_add,
          Nat.mul_div_cancel_left _ (Nat.two_pow_pos _)]
      · -- a field above: it vanishes modulo the width
        obtain ⟨d, rfl⟩ := Nat.exists_eq_add_of_le habove
        rw [show v % 2 ^ n * 2 ^ (lo + len + d) = 2 ^ lo * (2 ^ len * (2 ^ d * (v % 2 ^ n))) by ring,
          Nat.mul_add_div (Nat.two_pow_pos lo), Nat.mul_add_mod]
      · exact absurd hf' hf

theorem field_eq (w : Word) (lo len : Nat) : field w lo len = w.toNat / 2 ^ lo % 2 ^ len := by
  simp [field, BitVec.extractLsb'_toNat, Nat.shiftRight_eq_div_pow]

/-- What a field of a packed word reads as. -/
theorem field_packWord {lo len : Nat} {fs : List (Nat × Nat × Nat)} (h : laidOut lo len 0 fs = true) :
    field (packWord fs) lo len = fieldIn lo len fs := by
  obtain ⟨d, hd⟩ := Nat.exists_eq_add_of_le (laidOut_bound h)
  rw [← packed_field h, field_eq]
  show BitVec.toNat (BitVec.ofNat 32 (packed fs)) / _ % _ = _
  rw [BitVec.toNat_ofNat, hd, Nat.pow_add, Nat.pow_add, Nat.mul_assoc, Nat.mod_mul_right_div_self, Nat.mod_mul_right_mod]

/-- A field holds its value where the value has the field's width. -/
theorem field_holds {lo len v : Nat} {fs : List (Nat × Nat × Nat)} (h : laidOut lo len 0 fs = true)
    (hv : fieldIn lo len fs = v % 2 ^ len) (hlt : v < 2 ^ len) : field (packWord fs) lo len = v := by
  rw [field_packWord h, hv, Nat.mod_eq_of_lt hlt]

/-- Bits without a name are 0. -/
theorem field_unnamed {lo len : Nat} {fs : List (Nat × Nat × Nat)} (h : laidOut lo len 0 fs = true)
    (hv : fieldIn lo len fs = 0) : field (packWord fs) lo len = 0 := by rw [field_packWord h, hv]

/-- A flag is the bit that holds it. -/
theorem flag_holds {n : Nat} {b : Bool} {fs : List (Nat × Nat × Nat)} (h : laidOut n 1 0 fs = true)
    (hv : fieldIn n 1 fs = b.toNat % 2 ^ 1) : (packWord fs).getLsbD n = b := by
  have hf := field_holds h hv (Bool.toNat_lt b)
  rw [field_eq, Nat.pow_one] at hf
  rw [BitVec.getLsbD, Nat.testBit_eq_decide_div_mod_eq, hf]
  cases b <;> rfl

/-- A 48-bit time in two words. -/
theorem time_holds {t : Nat} (h : t < 2 ^ 48) :
    (BitVec.ofNat 32 t : Word).toNat + 2 ^ 32 * field (packWord [(t / 2 ^ 32, 0, 16)]) 0 16 = t := by
  rw [field_holds rfl rfl (by omega), BitVec.toNat_ofNat]
  omega

/-! ### The widths of the codes (section 8.2.3) -/

theorem ShelfState.code_lt (st : ShelfState) : st.code < 16 := by cases st <;> decide
theorem CandState.code_lt (st : CandState) : st.code < 16 := by cases st <;> decide
theorem Mode.code_lt (m : Mode) : m.code < 16 := by cases m <;> simp [Mode.code]
theorem ChangeReason.code_lt (r : ChangeReason) : r.code < 16 := by cases r <;> decide
theorem LogKind.code_lt (kd : LogKind) : kd.code < 256 := by cases kd <;> decide
theorem EligCode.code_lt (c : EligCode) : c.code < 16 := by cases c <;> decide
theorem GlobalOutcome.code_lt (o : GlobalOutcome) : o.code < 256 := by cases o <;> decide
theorem Quality.code_lt (q : Quality) : q.code < 16 := by cases q <;> decide

theorem slotCode_lt (j : Option (Fin 8)) : slotCode j < 16 := by
  cases j with
  | none => decide
  | some j => exact Nat.lt_trans j.isLt (by decide)

theorem Barring.kind_lt (b : Barring) : b.codes.1 < 4 := by cases b <;> simp [Barring.codes]

theorem Barring.target_lt (b : Barring) : b.codes.2 < 32 := by
  cases b with
  | none => decide
  | slot j => exact Nat.lt_trans j.isLt (by decide)
  | shelf i => exact i.isLt

theorem CfgOutcome.code_lt (o : CfgOutcome) : o.codes.1 < 256 := by cases o <;> simp [CfgOutcome.codes]

theorem CfgOutcome.cause_lt (o : CfgOutcome) : o.codes.2 < 256 := by
  cases o with
  | rejected c => cases c <;> decide
  | none => decide
  | applied => decide
  | appliedClamped => decide

theorem pathEntry_of_lt {path : List (Fin 32)} {n : Nat} (h : n < path.length) : pathEntry path n = path[n].val := by
  simp [pathEntry, h]

theorem pathEntry_of_le {path : List (Fin 32)} {n : Nat} (h : path.length ≤ n) : pathEntry path n = 0 := by
  simp [pathEntry, h]

theorem pathEntry_lt (path : List (Fin 32)) (n : Nat) : pathEntry path n < 256 := by
  by_cases h : n < path.length
  · rw [pathEntry_of_lt h]; omega
  · rw [pathEntry_of_le (Nat.le_of_not_lt h)]; decide

theorem faultCount_lt {l : List Bool} (h : l.length ≤ 32) : faultCount l < 64 :=
  Nat.lt_of_le_of_lt (List.countP_le_length.trans h) (by decide)

/-- An offset of 1,000,000 ppb at most is its word as a signed number (R60). -/
theorem offsetWord_toInt {a : Int} (h1 : -1000000 ≤ a) (h2 : a ≤ 1000000) : (offsetWord (some a)).toInt = a := by
  rw [offsetWord, BitVec.toInt_ofInt]
  exact Int.bmod_eq_of_le (by omega) (by omega)

/-! ### The time that remains -/

/-- At most one of a shelf's three deadlines runs (R64). -/
theorem Shelf.running_iff {sh : Shelf} (law : ShelfLaw sh) (d : Deadline) :
    sh.running = some d ↔ sh.acqDeadline = some d ∨ sh.learnDeadline = some d ∨ sh.holdDeadline = some d := by
  obtain ⟨-, -, -, acquiring, learning, holding, -, -⟩ := law
  unfold Shelf.running
  cases ha : sh.acqDeadline <;> cases hl : sh.learnDeadline <;> cases hh : sh.holdDeadline <;>
    simp_all

theorem remaining_some (now : Nat) (d : Deadline) :
    (d.time ≤ now → remaining now (some d) = 0) ∧ (now ≤ d.time → remaining now (some d) + now = d.time) := by
  simp only [remaining]; omega

/-- Settles O54: record by record and field by field, each field by its place in its word and the width of its value; then the time
remaining and the tables of codes. -/
theorem recordsShowTheirFields : Obligations.RecordsShowTheirFields := by
  refine ⟨fun path n => ⟨pathEntry_of_lt, pathEntry_of_le⟩, ?shelfResult, ?candResult, ?logControl, ?logEntry,
    fun now d => ⟨rfl, remaining_some now d⟩, fun sh d law => Shelf.running_iff law d, rfl, fun k => ⟨rfl, rfl, rfl, rfl⟩, rfl, rfl,
    fun j b => rfl, rfl, rfl, rfl, rfl, rfl, rfl⟩
  case shelfResult =>
    intro now sh p w
    refine ⟨rfl, field_holds rfl rfl (ShelfState.code_lt _), field_holds rfl rfl (Mode.code_lt _),
      field_holds rfl rfl (slotCode_lt _), field_holds rfl rfl (slotCode_lt _), field_unnamed rfl rfl,
      field_holds rfl rfl (Quality.code_lt _), field_holds rfl rfl (Barring.kind_lt _), field_holds rfl rfl (Barring.target_lt _),
      field_unnamed rfl rfl, field_unnamed rfl rfl, field_unnamed rfl rfl, field_unnamed rfl rfl, field_unnamed rfl rfl,
      field_unnamed rfl rfl, field_unnamed rfl rfl, field_unnamed rfl rfl,
      fun h => field_holds rfl rfl (Nat.lt_of_le_of_lt h (by decide)), flag_holds rfl rfl, flag_holds rfl rfl, fun n => ?path,
      fun h => field_holds rfl rfl (Nat.lt_of_le_of_lt h (by decide)), field_holds rfl rfl (ChangeReason.code_lt _),
      fun h => time_holds h, rfl, field_holds rfl rfl (CfgOutcome.code_lt _), field_holds rfl rfl (CfgOutcome.cause_lt _),
      rfl, rfl, rfl, rfl⟩
    case path =>
      match n with
      | 0 | 1 | 2 | 3 => exact ⟨field_holds rfl rfl (pathEntry_lt _ _), field_holds rfl rfl (pathEntry_lt _ _)⟩
  case candResult =>
    intro now c j w
    refine ⟨rfl, field_holds rfl rfl (CandState.code_lt _), flag_holds rfl rfl, flag_holds rfl rfl, flag_holds rfl rfl,
      flag_holds rfl rfl, field_holds rfl rfl (EligCode.code_lt _), field_holds rfl rfl (Quality.code_lt _),
      fun h => field_holds rfl rfl (faultCount_lt h), field_unnamed rfl rfl, field_unnamed rfl rfl, field_unnamed rfl rfl,
      flag_holds rfl rfl, flag_holds rfl rfl, fun a ha h1 h2 => ?average, fun ha => ?noAverage, fun a ha h1 h2 => ?raw,
      fun ha => ?noRaw, rfl, field_holds rfl rfl (CfgOutcome.code_lt _), field_holds rfl rfl (CfgOutcome.cause_lt _), rfl⟩
    case average => exact (congrArg (fun x => (offsetWord x).toInt) ha).trans (offsetWord_toInt h1 h2)
    case noAverage => exact congrArg offsetWord ha
    case raw => exact (congrArg (fun x => (offsetWord x).toInt) ha).trans (offsetWord_toInt h1 h2)
    case noRaw => exact congrArg offsetWord ha
  case logControl =>
    intro v w
    refine ⟨rfl, rfl, field_holds rfl rfl (Nat.mod_lt _ (by decide)), fun h => time_holds h,
      field_holds rfl rfl (GlobalOutcome.code_lt _), rfl, field_unnamed rfl rfl, field_unnamed rfl rfl, field_unnamed rfl rfl,
      fun n h7 h14 => ?unused⟩
    case unused =>
      obtain ⟨m, rfl⟩ := Nat.exists_eq_add_of_le h7
      have : m < 8 := by omega
      match m with
      | 0 | 1 | 2 | 3 | 4 | 5 | 6 | 7 => rfl
  case logEntry =>
    intro e w
    exact ⟨rfl, fun h => time_holds h, field_unnamed rfl rfl, field_holds rfl rfl (Nat.lt_trans e.shelf.isLt (by decide)),
      field_holds rfl rfl (LogKind.code_lt _), field_holds rfl rfl (slotCode_lt _), field_holds rfl rfl (slotCode_lt _),
      field_holds rfl rfl (Quality.code_lt _), field_holds rfl rfl (ChangeReason.code_lt _), rfl, rfl, rfl⟩

end Sys2Proof.Machine
end

section
/-! PROOFS. The candidate state machine and the events at one candidate: transitions, parameters, expiries, requests (chapter 2). -/

namespace Sys2Proof.Machine

/-! ### The relations of the entries (R23, R28 to R33, R38, R42, R52, R64, R68, R101) -/

/-- Settles O58: each of the three laws is kept by every event of the part, so by every step. -/
theorem shelvesAndCandidatesKeepTheirRelations : Obligations.ShelvesAndCandidatesKeepTheirRelations :=
  fun s t h => ⟨shelvesLaw_kept.step s t h, candsLaw_kept.step s t h, serviceLaw_kept.step s t h⟩

/-! ### The transition of R25 and the parameters of R41 -/

/-- A transition moves the state and the state deadline alone. -/
theorem Candidate.transition_frame (c : Candidate) (p : MonitorParams) (now : Nat) :
    c.transition p now =
      { c with state := (c.transition p now).state, stateDeadline := (c.transition p now).stateDeadline } := by
  unfold Candidate.transition Candidate.suspectOrFail Candidate.restore
  (repeat' split) <;> rfl

/-- The rows of R25 for a candidate without a reason. -/
theorem Candidate.transition_clear {c : Candidate} (hr : c.reasons.any = false) (p : MonitorParams) (now : Nat) :
    c.transition p now = match c.state with
      | .off | .available | .restoring => c
      | .unknown => { c with state := .available }
      | .suspect => { c with state := .available, stateDeadline := none }
      | .failed => c.restore p now := by
  unfold Candidate.transition; rw [hr]; cases c.state <;> rfl

/-- The rows of R25 for a candidate with a reason. -/
theorem Candidate.transition_fault {c : Candidate} (hr : c.reasons.any = true) (p : MonitorParams) (now : Nat) :
    c.transition p now = match c.state with
      | .off | .suspect | .failed => c
      | .unknown => { c with state := .failed }
      | .available => c.suspectOrFail p now
      | .restoring => { c with state := .failed, stateDeadline := none } := by
  unfold Candidate.transition; rw [hr]; cases c.state <;> rfl

/-- Settles O21: the rows without a reason, then those with one; a state outside SUSPECT and RESTORING has no state deadline. -/
theorem candidateTransitionTable : Obligations.CandidateTransitionTable := by
  intro c p now hd
  have none_of : c.state ≠ .suspect → c.state ≠ .restoring → c.stateDeadline = none := fun h1 h2 =>
    Option.not_isSome_iff_eq_none.mp fun h => (hd h).elim h1 h2
  refine ⟨c.transition_frame p now, fun hr => ?clear, fun hr => ?fault⟩
  case clear =>
    rw [Candidate.transition_clear hr]
    refine ⟨fun h => by rw [h], ?_, fun h hw => ?_, fun h hw => ?_, fun h => by rw [h]⟩
    · rintro (h | h | h) <;> simp [h, none_of]
    · simp [h, Candidate.restore, hw]
    · simp [h, Candidate.restore, hw]
  case fault =>
    rw [Candidate.transition_fault hr]
    refine ⟨fun h => by rw [h], ?_, fun h hw => ?_, fun h hw => ?_, fun h => by rw [h]⟩
    · rintro (h | h | h) <;> simp [h, none_of]
    · simp [h, Candidate.suspectOrFail, hw]
    · simp [h, Candidate.suspectOrFail, hw]

/-- Settles O35: the recount of R41, by whether W or E has changed. -/
theorem newParametersRecountTheHistory : Obligations.NewParametersRecountTheHistory := by
  intro c old new now
  constructor
  · intro hw he
    have hc : c.recount old new = c := if_neg (not_or.mpr ⟨not_not.mpr hw, not_not.mpr he⟩)
    unfold Candidate.reparam
    rw [hc]
    exact if_pos rfl
  · intro hne d u
    have hc : c.recount old new = u := if_pos hne
    have hd : d = if u.reasons = c.reasons then u else u.transition new now := by rw [← hc]; rfl
    exact ⟨fun h => by rw [hd, if_pos h], fun h => by rw [hd, if_neg h]⟩

/-! ### Expiries (R26, R31, R34, R181) -/

/-- A deadline that stands and carries the mark has come due. -/
theorem isDue_some {o : Option Deadline} {d : Deadline} (h : o = some d) (hd : d.due = true) : isDue o = true := by
  rw [h]; exact hd

/-- The Monitor takes the expiry of a report deadline that adds nothing (R26, R181). -/
theorem State.reportExpiry_quiet {s : State} {k : Fin 256} (h : s.cands[k].state = .off ∨ s.cands[k].reasons.stale = true) :
    s.reportExpiry k = { s with cands := s.cands.set k { s.cands[k] with reportDeadline := none } } := by
  have hr : s.cands[k].reportExpires s.params[shelfOf k] s.clock = ({ s.cands[k] with reportDeadline := none }, false) :=
    if_pos (by simpa using h)
  unfold State.reportExpiry
  rw [hr]
  rfl

/-- The Monitor takes the expiry of a report deadline that adds STALE (R26). -/
theorem State.reportExpiry_stale {s : State} {k : Fin 256} (h1 : s.cands[k].state ≠ .off)
    (h2 : s.cands[k].reasons.stale = false) :
    s.reportExpiry k = s.candEvent k
      (({ s.cands[k] with reportDeadline := none, reasons := { s.cands[k].reasons with stale := true } } :
        Candidate).transition s.params[shelfOf k] s.clock) := by
  have hr : s.cands[k].reportExpires s.params[shelfOf k] s.clock =
      (({ s.cands[k] with reportDeadline := none, reasons := { s.cands[k].reasons with stale := true } } :
        Candidate).transition s.params[shelfOf k] s.clock, true) := if_neg (by simp [-Fin.getElem_fin, h1, h2])
  unfold State.reportExpiry
  rw [hr]
  rfl

/-- Settles O22: the row of each expiry, then the event at the candidate. -/
theorem candidateDeadlinesExpire : Obligations.CandidateDeadlinesExpire := by
  refine ⟨fun s k d ha hd hdue => ?report, fun s k d ha hd hdue => ⟨fun hs => ?holdOff, fun hs => ?wtr⟩⟩
  case report =>
    have hx : exec (.reportDeadlineExpiry k) s = .next (s.reportExpiry k) :=
      congrArg _ (if_pos ⟨ha, isDue_some hd hdue⟩)
    refine ⟨fun h => ?_, fun h1 h2 => ?_⟩
    · rw [hx, State.reportExpiry_quiet h]
    · rw [hx, State.reportExpiry_stale h1 h2, State.candEvent_eq]
  case holdOff =>
    have hx : exec (.holdOffExpiry k) s = .next (s.candEvent k s.cands[k].holdOffExpires) :=
      congrArg _ (if_pos ⟨ha, hs, isDue_some hd hdue⟩)
    rw [hx, State.candEvent_eq]
    rfl
  case wtr =>
    have hx : exec (.wtrExpiry k) s = .next (s.candEvent k s.cands[k].restored) :=
      congrArg _ (if_pos ⟨ha, hs, isDue_some hd hdue⟩)
    rw [hx, State.candEvent_eq]
    rfl

/-! ### Requests of the Engine (R35 to R37) -/

/-- The row of a request has no effect when it does not wait or the engine is HALTED. -/
theorem Request.exec_row_idle {s : State} {r : Request} (h : r ∉ s.requests ∨ s.engine = .halted) :
    exec r.row s = .next s := by
  have hm : ¬ (s.engine.monitors = true ∧ r ∈ s.requests) := by
    rintro ⟨h1, h2⟩
    rcases h with h | h
    · exact h h2
    · rw [h] at h1; cases h1
  cases r <;> exact congrArg _ (if_neg hm)

/-- A condemned candidate that is AVAILABLE or RESTORING has to serve wait-to-restore (R32, R35). -/
theorem Candidate.condemn_serves {c : Candidate} (h : c.state = .available ∨ c.state = .restoring) (p : MonitorParams)
    (now : Nat) : c.condemn p now = some (c.restore p now) := by
  unfold Candidate.condemn; rcases h with h | h <;> rw [h]

/-- A condemned SUSPECT candidate is FAILED (R35). -/
theorem Candidate.condemn_suspect {c : Candidate} (h : c.state = .suspect) (p : MonitorParams) (now : Nat) :
    c.condemn p now = some { c with state := .failed, stateDeadline := none } := by
  unfold Candidate.condemn; rw [h]

/-- In any other state the request is dropped (R35). -/
theorem Candidate.condemn_dropped {c : Candidate} (h : c.state = .off ∨ c.state = .unknown ∨ c.state = .failed)
    (p : MonitorParams) (now : Nat) : c.condemn p now = none := by
  unfold Candidate.condemn; rcases h with h | h | h <;> rw [h]

/-- A request to condemn a candidate that acts (R35, R36, R43). -/
theorem State.condemnCand_some {s : State} {k : Fin 256} {c : Candidate}
    (h : s.cands[k].condemn s.params[shelfOf k] s.clock = some c) : s.condemnCand k = s.candEvent k c := by
  unfold State.condemnCand; rw [h]

/-- A request to condemn a candidate that is dropped (R35, R36). -/
theorem State.condemnCand_none {s : State} {k : Fin 256} (h : s.cands[k].condemn s.params[shelfOf k] s.clock = none) :
    s.condemnCand k = s := by unfold State.condemnCand; rw [h]

/-- Settles O25: the row takes the request, and the Monitor acts by the state of the candidate. -/
theorem requestsMoveTheCandidate : Obligations.RequestsMoveTheCandidate := by
  constructor
  · intro s k c r hcr
    have hrow : c = r.row := by rcases hcr with ⟨rfl, rfl⟩ | ⟨rfl, rfl⟩ <;> rfl
    have hact : s.takeRequest r = (s.dropRequest r).condemnCand k := by rcases hcr with ⟨-, rfl⟩ | ⟨-, rfl⟩ <;> rfl
    subst hrow
    refine ⟨Request.exec_row_idle, fun hr he => ⟨fun h => ?serves, fun h => ?suspect, fun h => ?dropped⟩⟩ <;>
      rw [Request.exec_row hr he, hact]
    case serves => rw [State.condemnCand_some (s := s.dropRequest r) (Candidate.condemn_serves h _ _), State.candEvent_eq]; rfl
    case suspect => rw [State.condemnCand_some (s := s.dropRequest r) (Candidate.condemn_suspect h _ _), State.candEvent_eq]; rfl
    case dropped => rw [State.condemnCand_none (s := s.dropRequest r) (Candidate.condemn_dropped h _ _)]; rfl
  · intro s k hr he
    have hx : exec (.clearWtrRequest k) s = .next ((s.dropRequest (.clearWtr k)).clearWtr k) := Request.exec_row hr he
    refine ⟨fun h => ?_, fun h => ?_⟩ <;> rw [hx]
    · rw [show (s.dropRequest (.clearWtr k)).clearWtr k = (s.dropRequest (.clearWtr k)).candEvent k s.cands[k].restored
        from if_pos h, State.candEvent_eq]
      rfl
    · exact congrArg _ (if_neg h)

end Sys2Proof.Machine
end

section
/-! PROOFS. The take of an evaluation (R82, R115, R117) and the CLEAR_WTR request of its command stage (R37, R135). -/

namespace Sys2Proof.Machine

/-- Of the commands with a slot argument, MANUAL, FORCED, LOCKOUT and UNLOCK send no request (R127, R128, R133, R134). -/
theorem withSlot_request_none (e : EvalInputs) (sh : Shelf) (arg : Nat) (f : Fin 8 → Stage1) (hf : ∀ k, (f k).request = none) :
    (withSlot e sh arg f).request = none := by
  unfold withSlot; split
  · exact hf _
  · rfl

theorem applyManual_request (e : EvalInputs) (sh : Shelf) (k : Fin 8) : (applyManual e sh k).request = none := by
  unfold applyManual; dsimp only; (repeat' split) <;> rfl

theorem applyForced_request (e : EvalInputs) (sh : Shelf) (k : Fin 8) : (applyForced e sh k).request = none := by
  unfold applyForced; dsimp only; (repeat' split) <;> rfl

theorem applyLockout_request (e : EvalInputs) (sh : Shelf) (k : Fin 8) : (applyLockout e sh k).request = none := by
  unfold applyLockout; dsimp only; (repeat' split) <;> rfl

theorem applyUnlock_request (e : EvalInputs) (sh : Shelf) (k : Fin 8) : (applyUnlock e sh k).request = none := by
  unfold applyUnlock; dsimp only; (repeat' split) <;> rfl

/-- CLEAR_WTR(k) sends its request when the slot is RESTORING (R135). -/
theorem applyClearWtr_request (e : EvalInputs) (sh : Shelf) (k : Fin 8) :
    (applyClearWtr e sh k).request = if e.cands[k].state = .restoring then some k else none := by
  unfold applyClearWtr; dsimp only; split <;> rfl

/-- CLEAR_WTR is the command with code 7 (R124). -/
theorem Command.ofCode_eq_clearWtr {n : Nat} : Command.ofCode n = some .clearWtr ↔ n = 7 := by
  unfold Command.ofCode; (repeat' split) <;> simp <;> omega

/-- Only a CLEAR_WTR command sends a request (R83, R135). -/
theorem stage1_request_none {e : EvalInputs} {sh : Shelf} (h : ∀ c, e.taken = some c → c.code = 7 → sh.state = .disabled) :
    (stage1 e sh).request = none := by
  unfold stage1
  cases ht : e.taken with
  | none => rfl
  | some c =>
    dsimp only
    split
    · rfl
    · rename_i hen
      cases hc : Command.ofCode c.code with
      | none => rfl
      | some cmd =>
        cases cmd with
        | manual => exact withSlot_request_none _ _ _ _ (applyManual_request e sh)
        | forced => exact withSlot_request_none _ _ _ _ (applyForced_request e sh)
        | hold => rfl
        | clear => rfl
        | lockout => exact withSlot_request_none _ _ _ _ (applyLockout_request e sh)
        | unlock => exact withSlot_request_none _ _ _ _ (applyUnlock_request e sh)
        | clearWtr =>
          have hd := h c ht (Command.ofCode_eq_clearWtr.mp hc)
          simp [Shelf.enabled, hd] at hen

/-- The request of a CLEAR_WTR command for an enabled shelf (R124, R135). -/
theorem stage1_request_clearWtr {e : EvalInputs} {sh : Shelf} {c : TakenCommand} (ht : e.taken = some c) (hc : c.code = 7)
    (hs : sh.state ≠ .disabled) :
    (stage1 e sh).request =
      if h : c.arg < 8 then (if e.cands[(⟨c.arg, h⟩ : Fin 8)].state = .restoring then some ⟨c.arg, h⟩ else none) else none := by
  unfold stage1
  rw [ht]
  dsimp only
  rw [if_neg (by simpa [Shelf.enabled] using hs), Command.ofCode_eq_clearWtr.mpr hc]
  dsimp only
  unfold withSlot
  split
  · exact applyClearWtr_request _ _ _
  · rfl

/-- The slot for which the command stage sends a CLEAR_WTR request (R37, R135). -/
theorem stage1_request_iff (e : EvalInputs) (sh : Shelf) (k : Fin 8) : (stage1 e sh).request = some k ↔
    (∃ c, e.taken = some c ∧ c.code = 7 ∧ c.arg = k.val) ∧ sh.state ≠ .disabled ∧ e.cands[k].state = .restoring := by
  by_cases h : ∀ c, e.taken = some c → c.code = 7 → sh.state = .disabled
  · rw [stage1_request_none h]
    refine ⟨fun hk => absurd hk (by simp), ?_⟩
    rintro ⟨⟨c, ht, hc, -⟩, hs, -⟩
    exact absurd (h c ht hc) hs
  · push Not at h
    obtain ⟨c, ht, hc, hs⟩ := h
    rw [stage1_request_clearWtr ht hc hs]
    constructor
    · intro hk
      split at hk
      · split at hk
        · cases hk; exact ⟨⟨c, ht, hc, rfl⟩, hs, ‹_›⟩
        · cases hk
      · cases hk
    · rintro ⟨⟨c', ht', -, harg⟩, -, hr⟩
      rw [ht] at ht'; cases ht'
      have hlt : c.arg < 8 := by rw [harg]; exact k.isLt
      obtain rfl : (⟨c.arg, hlt⟩ : Fin 8) = k := Fin.ext harg
      rw [dif_pos hlt, if_pos hr]

/-- An evaluation begins: its inputs are read, and the CLEAR_WTR request of its command stage joins those that wait (R37, R82). -/
theorem State.beginEvaluation_eq (s : State) (i : Fin 32) :
    s.beginEvaluation i = { s with
      evaluating := some (s.evalInputs i)
      requests := s.requests ++
        ((stage1 (s.evalInputs i) s.shelves[i]).request.map fun k => Request.clearWtr (flat i k)).toList } := by
  unfold State.beginEvaluation State.sendClearWtr
  cases (stage1 (s.evalInputs i) s.shelves[i]).request with
  | none => simp
  | some k => rfl

/-- The take of the shelf at the head of the queue (R82, R115, R117). -/
theorem State.takeShelf_head {s : State} {i : Fin 32} {rest : List (Fin 32)} (hq : s.queue = i :: rest)
    (he : s.evaluating = none) (hen : s.engine.evaluates = true) :
    s.takeShelf = ({ s with queue := rest } : State).beginEvaluation i := by
  unfold State.takeShelf
  split
  · rename_i hq' _
    rw [hq] at hq'
    cases hq'
    exact if_pos hen
  · rename_i h
    exact (h i rest hq he).elim

/-- No evaluation begins while one is in progress or the engine state allows none (R82, R117). -/
theorem State.takeShelf_idle {s : State} (h : s.evaluating.isSome = true ∨ s.engine.evaluates = false) : s.takeShelf = s := by
  unfold State.takeShelf
  split
  · rename_i he
    rw [he] at h
    rw [h.resolve_left (by decide)]
    rfl
  · rfl

/-- Settles O44: the take of State.takeShelf_head, and the rows that find nothing to take or to end. -/
theorem evaluationTakesTheHeadOfTheQueue : Obligations.EvaluationTakesTheHeadOfTheQueue := by
  refine ⟨fun s i rest hq => ⟨fun he hen => ?takes, fun h => ?idle⟩, fun s hq => ?empty, fun s he => ?nothing⟩
  case takes =>
    intro clears
    have hev : s.engine.evaluates = true := by rcases hen with h | ⟨x, h⟩ <;> rw [h] <;> rfl
    have hreq : ∀ k, (stage1 (s.evalInputs i) s.shelves[i]).request = some k ↔ clears k := fun k => by
      rw [stage1_request_iff]
      simp only [State.evalInputs, ofFn_at, clears]
    refine ⟨_, congrArg _ ((State.takeShelf_head hq he hev).trans (State.beginEvaluation_eq _ i)), fun k hk => ?_, fun hk => ?_⟩
    · exact congrArg (fun r => (Option.map _ r).toList) ((hreq k).mpr hk)
    · exact congrArg (fun r => (Option.map _ r).toList)
        (Option.eq_none_iff_forall_ne_some.mpr fun k h => hk k ((hreq k).mp h))
  case idle =>
    refine congrArg _ (State.takeShelf_idle (h.imp_right ?_))
    rintro (h | h) <;> rw [h] <;> rfl
  case empty => exact congrArg _ (show s.takeShelf = s by unfold State.takeShelf; rw [hq])
  case nothing => exact congrArg _ (show s.finishEvaluation = s by unfold State.finishEvaluation; rw [he])

end Sys2Proof.Machine
end

section
/-! PROOFS. A shelf configuration record taken in a sweep: refused, applied, enabling and disabling (sections 4.3 and 8.6). -/

namespace Sys2Proof.Machine

/-! ### The whole state after an applied record -/

/-- The part once a record's configuration, outcome and monitoring parameters stand at shelf `i` (R20, R41, R61), before the shelf
is kept, enabled or disabled; `q` is the queue. -/
def State.reconfigured (s : State) (i : Fin 32) (cfg : ShelfConfig) (out : CfgOutcome) (seq : Word) (q : List (Fin 32)) : State :=
  { s with
    cands := atShelf s.cands i (Candidate.reparamed s.params[i] cfg.monitor s.clock)
    params := s.params.set i cfg.monitor
    shelves := s.shelves.set i (s.shelves[i].applyConfig cfg out seq)
    queue := q
    writer := (candItems i (s.recounts i cfg.monitor)).foldl Writer.asked s.writer }

/-- The record at the shelf and at its candidates, up to the shelf's place in the queue (R20, R41). -/
theorem State.setMonitoring_reconfigured (s : State) (i : Fin 32) (cfg : ShelfConfig) (out : CfgOutcome) (seq : Word) :
    ∃ q, joined q i = joined s.queue i ∧
      (s.setShelf i (s.shelves[i].applyConfig cfg out seq)).setMonitoring i cfg.monitor = s.reconfigured i cfg out seq q :=
  State.setMonitoring_eq (s.setShelf i (s.shelves[i].applyConfig cfg out seq)) i cfg.monitor

theorem State.reconfigured_shelf (s : State) (i : Fin 32) (cfg : ShelfConfig) (out : CfgOutcome) (seq : Word)
    (q : List (Fin 32)) : (s.reconfigured i cfg out seq q).shelves[i] = s.shelves[i].applyConfig cfg out seq := by
  unfold State.reconfigured; dsimp only; rw [set_at, if_pos rfl]

theorem set_set_same {α : Type} {n : Nat} (v : Vector α n) (i : Fin n) (x y : α) : (v.set i x).set i y = v.set i y := by
  apply Vector.ext
  intro j hj
  simp only [Vector.getElem_set]
  split <;> rfl

/-- A record that leaves the enable as it is (R41, R66). -/
theorem State.shelfConfigured_same {s : State} {i : Fin 32} (hn : s.notEvaluating i) {cfg : ShelfConfig}
    (h : cfg.enable = s.shelves[i].enabled) (out : CfgOutcome) (seq : Word) :
    s.shelfConfigured i cfg out seq = { s.reconfigured i cfg out seq (joined s.queue i) with
      shelves := s.shelves.set i { s.shelves[i].applyConfig cfg out seq with
        pendingReason := if cfg.enable then some .config else s.shelves[i].pendingReason } } := by
  obtain ⟨q, hq, hu⟩ := s.setMonitoring_reconfigured i cfg out seq
  have hsh := s.reconfigured_shelf i cfg out seq q
  rcases State.shelfConfigured_cases hn cfg out seq with ⟨he, hc, hs⟩ | ⟨he, hc, -⟩ | ⟨he, hc, -⟩ | ⟨he, hc, hs⟩
  · rw [hs, hu, State.place_eq, hsh, hc]
    unfold State.reconfigured State.setShelf
    dsimp only
    rw [hq, set_set_same]
    rfl
  · rw [hc, he] at h; cases h
  · rw [hc, he] at h; cases h
  · rw [hs, hu, State.place_eq, hc]
    unfold State.reconfigured
    dsimp only
    rw [hq]
    rfl

/-- A record that disables an enabled shelf (R67, R42). -/
theorem State.shelfConfigured_disables {s : State} {i : Fin 32} (hn : s.notEvaluating i) {cfg : ShelfConfig}
    (he : s.shelves[i].enabled = true) (hc : cfg.enable = false) (out : CfgOutcome) (seq : Word) :
    ∃ q, joined q i = joined s.queue i ∧
      s.shelfConfigured i cfg out seq = (s.reconfigured i cfg out seq q).disableShelf i := by
  obtain ⟨q, hq, hu⟩ := s.setMonitoring_reconfigured i cfg out seq
  refine ⟨q, hq, ?_⟩
  rcases State.shelfConfigured_cases hn cfg out seq with ⟨-, h, -⟩ | ⟨-, -, hs⟩ | ⟨h, -⟩ | ⟨h, -⟩
  · rw [hc] at h; cases h
  · rw [hs, hu]
  · rw [he] at h; cases h
  · rw [he] at h; cases h

/-- A record that enables a DISABLED shelf (R65, R42). -/
theorem State.shelfConfigured_enables {s : State} {i : Fin 32} (hn : s.notEvaluating i) {cfg : ShelfConfig}
    (he : s.shelves[i].enabled = false) (hc : cfg.enable = true) (out : CfgOutcome) (seq : Word) :
    ∃ q, joined q i = joined s.queue i ∧
      s.shelfConfigured i cfg out seq = (s.reconfigured i cfg out seq q).enableShelf i := by
  obtain ⟨q, hq, hu⟩ := s.setMonitoring_reconfigured i cfg out seq
  refine ⟨q, hq, ?_⟩
  rcases State.shelfConfigured_cases hn cfg out seq with ⟨h, -⟩ | ⟨h, -⟩ | ⟨-, -, hs⟩ | ⟨-, h, -⟩
  · rw [he] at h; cases h
  · rw [he] at h; cases h
  · rw [hs, hu]
  · rw [hc] at h; cases h

/-! ### The candidates under a changed enable -/

/-- A transition leaves the configuration copy and its outcome, and does not make a candidate OFF (R25). -/
theorem Candidate.transition_keeps (c : Candidate) (p : MonitorParams) (now : Nat) :
    (c.transition p now).config = c.config ∧ (c.transition p now).outcome = c.outcome ∧
      ((c.transition p now).state = .off ↔ c.state = .off) := by
  unfold Candidate.transition Candidate.suspectOrFail Candidate.restore
  (repeat' split) <;> simp_all

/-- A new parameter set leaves the configuration copy and its outcome, and does not make a candidate OFF (R41). -/
theorem Candidate.reparam_keeps (c : Candidate) (old new : MonitorParams) (now : Nat) :
    (c.reparam old new now).config = c.config ∧ (c.reparam old new now).outcome = c.outcome ∧
      ((c.reparam old new now).state = .off ↔ c.state = .off) := by
  have hr : (c.recount old new).config = c.config ∧ (c.recount old new).outcome = c.outcome ∧
      (c.recount old new).state = c.state := by
    unfold Candidate.recount; dsimp only; split <;> exact ⟨rfl, rfl, rfl⟩
  obtain ⟨h1, h2, h3⟩ := hr
  unfold Candidate.reparam
  dsimp only
  split
  · rw [h1, h2, h3]; simp
  · obtain ⟨t1, t2, t3⟩ := (c.recount old new).transition_keeps new now
    rw [t1, t2, t3, h1, h2, h3]; simp

/-- Under new parameters a candidate is OFF when it was (R41). -/
theorem Candidate.reparamed_off (c : Candidate) (old new : MonitorParams) (now : Nat) :
    (c.reparamed old new now).state = .off ↔ c.state = .off := by
  unfold Candidate.reparamed; split
  · rfl
  · exact (c.reparam_keeps old new now).2.2

/-- A candidate recounted and then switched OFF is the candidate switched OFF (R41, R42). -/
theorem Candidate.offed_reparamed (c : Candidate) (old new : MonitorParams) (now : Nat) :
    (c.reparamed old new now).offed = c.offed := by
  unfold Candidate.offed
  simp only [Candidate.reparamed_off]
  split
  · rename_i h; exact if_pos h
  · rename_i h
    obtain ⟨h1, h2, -⟩ := c.reparam_keeps old new now
    unfold Candidate.reparamed
    rw [if_neg h]
    unfold Candidate.switchOff Candidate.cleared
    rw [h1, h2]

/-- An OFF candidate takes no part in a recount (R41). -/
theorem Candidate.reparamed_of_off {c : Candidate} (h : c.state = .off) (old new : MonitorParams) (now : Nat) :
    c.reparamed old new now = c := if_pos h

/-- No result is requested for a recount of OFF candidates (R41). -/
theorem State.recounts_of_off {s : State} {i : Fin 32} (h : ∀ j, s.cands[flat i j].state = .off) (p : MonitorParams) :
    candItems i (s.recounts i p) = [] := by
  have hr : s.recounts i p = fun _ => false := funext fun j => by unfold State.recounts; dsimp only; rw [h j]; rfl
  rw [hr]
  unfold candItems
  rw [List.filter_false, List.map_nil]

/-- A record that enables a shelf whose candidates are OFF recounts nothing (R41, R42). -/
theorem State.reconfigured_of_off {s : State} {i : Fin 32} (h : ∀ k, shelfOf k = i → s.cands[k].state = .off)
    (cfg : ShelfConfig) (out : CfgOutcome) (seq : Word) (q : List (Fin 32)) :
    s.reconfigured i cfg out seq q = { s with
      params := s.params.set i cfg.monitor, shelves := s.shelves.set i (s.shelves[i].applyConfig cfg out seq), queue := q } := by
  have hc : s.cands = atShelf s.cands i (Candidate.reparamed s.params[i] cfg.monitor s.clock) := eq_atShelf fun k => by
    split
    · rename_i hk; rw [Candidate.reparamed_of_off (h k hk)]
    · rfl
  unfold State.reconfigured
  rw [← hc, State.recounts_of_off fun j => h _ (shelfOf_flat i j)]
  rfl

/-- An applied record and then the disable of the shelf: the recount leaves only its requests (R41, R42, R67). -/
theorem State.reconfigured_disableShelf (s : State) (i : Fin 32) (cfg : ShelfConfig) (out : CfgOutcome) (seq : Word)
    (q : List (Fin 32)) :
    (s.reconfigured i cfg out seq q).disableShelf i = { s with
      cands := atShelf s.cands i Candidate.offed
      params := s.params.set i cfg.monitor
      shelves := s.shelves.set i ((s.shelves[i].applyConfig cfg out seq).disableAt s.clock)
      queue := joined q i
      writer :=
        let w := (candItems i (s.recounts i cfg.monitor)).foldl Writer.asked s.writer
        (candItems i fun j => s.cands[flat i j].state != .off).foldl Writer.asked
          ((if s.shelves[i].taken.isSome then w.completed i .shelfOff else w).noted s.arbiter.servesItem s.clock i
            { kind := .disabled, previous := s.shelves[i].selected, new := none, cls := .qc6, reason := .config }) } := by
  have hcands : atShelf (s.reconfigured i cfg out seq q).cands i Candidate.offed = atShelf s.cands i Candidate.offed :=
    eq_atShelf fun k => by
      unfold State.reconfigured
      rw [atShelf_at, atShelf_at]
      split
      · exact Candidate.offed_reparamed _ _ _ _
      · rfl
  have hstate : (fun j => (s.reconfigured i cfg out seq q).cands[flat i j].state != CandState.off) =
      fun j => s.cands[flat i j].state != CandState.off := funext fun j => by
    unfold State.reconfigured
    rw [atShelf_at, if_pos (shelfOf_flat i j), Bool.eq_iff_iff]
    simp [-Fin.getElem_fin, Candidate.reparamed_off]
  rw [State.disableShelf_eq, hcands, hstate, State.reconfigured_shelf]
  unfold State.reconfigured
  dsimp only
  rw [set_set_same]
  rfl

/-! ### The take of a record -/

section
variable {s : State} {i : Fin 32}

/-- A fresh record that is refused (R66, R142, R153). -/
theorem State.takeShelfConfig_refused {cause : RejectCause}
    (hf : fresh (readShelfConfig s.mem i).seq (readShelfConfig s.mem i).echo s.intake.lastShelfConfig[i])
    (hv : (readShelfConfig s.mem i).validate = .refused cause) :
    s.takeShelfConfig i = ((s.setLastShelfConfig i (some (readShelfConfig s.mem i).seq)).raiseIntake).shelfRefused i cause
      (readShelfConfig s.mem i).seq := by
  unfold State.takeShelfConfig
  dsimp only
  rw [if_pos ((takes_iff_fresh _ _ _).mpr hf), hv]

/-- A fresh record that is accepted (R66, R142, R151). -/
theorem State.takeShelfConfig_accepted {cfg : ShelfConfig} {clamped : Bool}
    (hf : fresh (readShelfConfig s.mem i).seq (readShelfConfig s.mem i).echo s.intake.lastShelfConfig[i])
    (hv : (readShelfConfig s.mem i).validate = .accepted cfg clamped) :
    s.takeShelfConfig i = (s.setLastShelfConfig i (some (readShelfConfig s.mem i).seq)).shelfConfigured i cfg
      (acceptedOutcome clamped) (readShelfConfig s.mem i).seq := by
  unfold State.takeShelfConfig
  dsimp only
  rw [if_pos ((takes_iff_fresh _ _ _).mpr hf), hv]

/-- The row at the end of its transaction, for what the record does to the part (R148). -/
theorem exec_shelfConfiguration (hat : s.sweepingAt (.shelfConfig i)) {f : State} (hf : s.takeShelfConfig i = f)
    (fp : f.intake.position = some (.shelfConfig i)) (fa : f.intake.applied = s.intake.applied) (fe : f.engine = s.engine)
    (farb : f.arbiter = s.arbiter) :
    ∃ t x, exec (.shelfConfiguration .finish) s = .next t ∧
      t = { f with
        intake := { f.intake with position := (Position.shelfConfig i).next s.intake.applied.shelfCount }
        arbiter := x } ∧ s.portPassed t := by
  subst hf
  exact State.sweepRow_done hat (fun s => s.takeShelfConfig i) (execSweepRow s (.shelfConfig i) hat.1 .finish) fp fa fe farb
    (.inl (by simp))

end

/-- Settles O34: the record refused, and the record applied without a change of the enable. -/
theorem shelfConfigurationIsApplied : Obligations.ShelfConfigurationIsApplied := by
  intro s i hat hn hf r v
  refine ⟨fun cause hv => ?refused, fun cfg clamped hv hen => ?applied⟩
  case refused =>
    have hx := State.takeShelfConfig_refused hf hv
    rw [State.shelfRefused, State.settle_of_notEvaluating
      (s := (s.setLastShelfConfig i (some (readShelfConfig s.mem i).seq)).raiseIntake) hn, State.place_eq] at hx
    obtain ⟨t, x, ht, rfl, hport⟩ := exec_shelfConfiguration hat hx hat.1 rfl rfl rfl
    exact ⟨_, ht, by constructor <;> first | (left; decide) | exact .inr rfl, rfl, ⟨rfl, hport⟩, rfl, rfl⟩
  case applied =>
    have hx := State.takeShelfConfig_accepted hf hv
    rw [State.shelfConfigured_same (s := s.setLastShelfConfig i _) hn hen] at hx
    obtain ⟨t, x, ht, rfl, hport⟩ := exec_shelfConfiguration hat hx hat.1 rfl rfl rfl
    refine ⟨_, ht, by constructor <;> first | (left; decide) | exact .inr rfl, ⟨rfl, hport⟩, rfl, rfl, rfl, fun k => ?_, rfl⟩
    refine (atShelf_at _ _ _ k).trans ?_
    by_cases hk : shelfOf k = i <;> by_cases ho : s.cands[k].state = .off <;>
      simp [-Fin.getElem_fin, hk, ho, Candidate.reparamed, State.setLastShelfConfig]

/-- Settles O36: by ServiceLaw the candidates of the shelf are OFF, so the new parameters recount nothing. -/
theorem shelfIsEnabled : Obligations.ShelfIsEnabled := by
  intro s i cfg clamped hat hn hlaw hf hv hst hc
  have hoff : ∀ k, shelfOf k = i → s.cands[k].state = .off := fun k hk => hlaw k (by subst hk; exact hst)
  have hx := State.takeShelfConfig_accepted hf hv
  obtain ⟨q, hq, hs⟩ := State.shelfConfigured_enables (s := s.setLastShelfConfig i _) hn
    (by unfold Shelf.enabled; exact bne_eq_false_iff_eq.mpr hst) hc (acceptedOutcome clamped) (readShelfConfig s.mem i).seq
  rw [hs, State.reconfigured_of_off (s := s.setLastShelfConfig i _) hoff, State.enableShelf_eq] at hx
  obtain ⟨t, x, ht, rfl, hport⟩ := exec_shelfConfiguration hat hx hat.1 rfl rfl rfl
  refine ⟨_, ht, by constructor <;> first | (left; decide) | exact .inr rfl, ⟨rfl, hport⟩, ?shelves, rfl, hq,
    fun k => ⟨fun h => ?other, fun hk hkind => ?woken⟩, rfl⟩
  case shelves => dsimp only; rw [set_set_same, set_at, if_pos rfl]; rfl
  case other =>
    refine (atShelf_at _ _ _ k).trans ?_
    split
    · rename_i hk; exact if_pos (h.resolve_left (not_not.mpr hk))
    · rfl
  case woken => exact (atShelf_at _ _ _ k).trans ((if_pos hk).trans (if_neg hkind))

/-- Settles O37: the requests of the recount come first, then the disable of the shelf (log entry 14). -/
theorem shelfIsDisabled : Obligations.ShelfIsDisabled := by
  intro s i cfg clamped hat hn hf hv hst hc
  have hx := State.takeShelfConfig_accepted hf hv
  obtain ⟨q, hq, hs⟩ := State.shelfConfigured_disables (s := s.setLastShelfConfig i _) hn
    (by unfold Shelf.enabled; exact bne_iff_ne.mpr hst) hc (acceptedOutcome clamped) (readShelfConfig s.mem i).seq
  rw [hs, State.reconfigured_disableShelf] at hx
  obtain ⟨t, x, ht, rfl, hport⟩ := exec_shelfConfiguration hat hx hat.1 rfl rfl rfl
  refine ⟨_, ht, by constructor <;> first | (left; decide) | exact .inr rfl, ⟨rfl, hport⟩, rfl, rfl, hq,
    fun k => ⟨fun h => ?kept, fun hk hon => ?off⟩, rfl⟩
  case kept =>
    refine (atShelf_at _ _ _ k).trans ?_
    split
    · rename_i hk; exact if_pos (h.resolve_left (not_not.mpr hk))
    · rfl
  case off => exact (atShelf_at _ _ _ k).trans ((if_pos hk).trans (if_neg hon))

end Sys2Proof.Machine
end

section
/-! PROOFS. A candidate configuration record taken in a sweep (R38 to R40, R57, R152, R153). -/

namespace Sys2Proof.Machine

/-! ### What an applied record makes of a candidate -/

section
variable (c : Candidate) (p : MonitorParams) (now : Nat) (cfg : CandConfig) (out : CfgOutcome)

/-- At a DISABLED shelf a record changes the configuration copy and its outcome alone (R42). -/
theorem Candidate.configure_disabled : c.configure false p now cfg out = { c with config := cfg, outcome := out } := rfl

/-- A change of kind, source or frequency reinitialises the candidate (R38). -/
theorem Candidate.configure_signal (h : cfg.kind ≠ c.config.kind ∨ cfg.frequency ≠ c.config.frequency) :
    c.configure true p now cfg out = { c with
      config := cfg, outcome := out
      state := if cfg.kind = .off then .off else .unknown
      reasons := ⟨false, false, false⟩, history := [], received := none, average := none, lastRaw := none, lastObs := none
      reportDeadline := if cfg.kind = .off then none else some (deadlineAt now cfg.timeout)
      stateDeadline := none } := by
  have hc : c.configure true p now cfg out = if cfg.kind = .off
      then ({ c with config := cfg, outcome := out } : Candidate).cleared .off
      else ({ c with config := cfg, outcome := out } : Candidate).enterUnknown now := if_pos h
  rw [hc]
  split <;> rfl

/-- A record that changes neither the signal nor, through a changed limit, the FREQ judgement (R39, R57). -/
theorem Candidate.configure_same (hk : cfg.kind = c.config.kind) (hf : cfg.frequency = c.config.frequency)
    (h : cfg.limit = c.config.limit ∨ judgeFreq c.average cfg.limit c.reasons.freq = c.reasons.freq) :
    c.configure true p now cfg out = { c with config := cfg, outcome := out } := by
  unfold Candidate.configure
  dsimp only
  rw [if_neg (by simp), if_neg (by simp [hk, hf])]
  split
  · rename_i hl; exact if_pos (h.resolve_left hl)
  · rfl

/-- A changed limit that changes the FREQ judgement brings the transition of R25 (R39, R57). -/
theorem Candidate.configure_limit (hk : cfg.kind = c.config.kind) (hf : cfg.frequency = c.config.frequency)
    (hl : cfg.limit ≠ c.config.limit) (h : judgeFreq c.average cfg.limit c.reasons.freq ≠ c.reasons.freq) :
    c.configure true p now cfg out = ({ c with
      config := cfg, outcome := out
      reasons := { c.reasons with freq := judgeFreq c.average cfg.limit c.reasons.freq } } : Candidate).transition p now := by
  unfold Candidate.configure
  dsimp only
  rw [if_neg (by simp), if_neg (by simp [hk, hf]), if_pos hl, if_neg h]

/-- A record that is not refused leaves its configuration and its outcome (R38). -/
theorem Candidate.configure_applied (b : Bool) :
    (c.configure b p now cfg out).config = cfg ∧ (c.configure b p now cfg out).outcome = out := by
  have ht : ∀ d : Candidate, (d.transition p now).config = d.config ∧ (d.transition p now).outcome = d.outcome := fun d => by
    rw [d.transition_frame p now]; exact ⟨rfl, rfl⟩
  unfold Candidate.configure
  dsimp only
  (repeat' split) <;> first | exact ⟨rfl, rfl⟩ | exact ht _

end

/-! ### The row -/

section
variable {s : State} {k : Fin 256}

/-- A fresh record that is refused (R40, R142, R153). -/
theorem State.takeCandConfig_refused {cause : RejectCause}
    (hf : fresh (readCandConfig s.mem k).seq (readCandConfig s.mem k).echo s.intake.lastCandConfig[k])
    (hv : (readCandConfig s.mem k).validate (shelfOf k) = .refused cause) :
    s.takeCandConfig k = ((s.setLastCandConfig k (some (readCandConfig s.mem k).seq)).raiseIntake).candEvent k
      { s.cands[k] with outcome := .rejected cause } := by
  unfold State.takeCandConfig
  dsimp only
  rw [if_pos ((takes_iff_fresh _ _ _).mpr hf), hv]
  rfl

/-- A fresh record that is accepted (R38, R142, R152). -/
theorem State.takeCandConfig_accepted {cfg : CandConfig} {clamped : Bool}
    (hf : fresh (readCandConfig s.mem k).seq (readCandConfig s.mem k).echo s.intake.lastCandConfig[k])
    (hv : (readCandConfig s.mem k).validate (shelfOf k) = .accepted cfg clamped) :
    s.takeCandConfig k = (s.setLastCandConfig k (some (readCandConfig s.mem k).seq)).candEvent k
      (s.cands[k].configure s.shelves[shelfOf k].enabled s.params[shelfOf k] s.clock cfg (acceptedOutcome clamped)) := by
  unfold State.takeCandConfig
  dsimp only
  rw [if_pos ((takes_iff_fresh _ _ _).mpr hf), hv]
  rfl

/-- The row at the end of its transaction, for what the record does to the part (R148). -/
theorem exec_candidateConfiguration (hat : s.sweepingAt (.candConfig k)) {f : State} (hf : s.takeCandConfig k = f)
    (fp : f.intake.position = some (.candConfig k)) (fa : f.intake.applied = s.intake.applied) (fe : f.engine = s.engine)
    (farb : f.arbiter = s.arbiter) :
    ∃ t x, exec (.candidateConfiguration .finish) s = .next t ∧
      t = { f with
        intake := { f.intake with position := (Position.candConfig k).next s.intake.applied.shelfCount }
        arbiter := x } ∧ s.portPassed t := by
  subst hf
  exact State.sweepRow_done hat (fun s => s.takeCandConfig k) (execSweepRow s (.candConfig k) hat.1 .finish) fp fa fe farb
    (.inl (by simp))

end

/-- Settles O38: the record refused, or applied by what it changes at a candidate of an enabled shelf. -/
theorem candidateConfigurationIsApplied : Obligations.CandidateConfigurationIsApplied := by
  intro s k hat hf r v
  refine ⟨fun cause hv => ?refused, fun cfg clamped hv => ?applied⟩
  case refused =>
    have hx := State.takeCandConfig_refused hf hv
    rw [State.candEvent_eq] at hx
    obtain ⟨t, x, ht, rfl, hport⟩ := exec_candidateConfiguration hat hx hat.1 rfl rfl rfl
    exact ⟨_, ht, by constructor <;> first | (left; decide) | exact .inr rfl, rfl, ⟨rfl, hport⟩, rfl, rfl, rfl⟩
  case applied =>
    have hx := State.takeCandConfig_accepted hf hv
    rw [State.candEvent_eq] at hx
    obtain ⟨t, x, ht, rfl, hport⟩ := exec_candidateConfiguration hat hx hat.1 rfl rfl rfl
    obtain ⟨hcfg, hout⟩ := s.cands[k].configure_applied s.params[shelfOf k] s.clock cfg (acceptedOutcome clamped)
      s.shelves[shelfOf k].enabled
    have hon : s.shelves[shelfOf k].state ≠ .disabled → s.shelves[shelfOf k].enabled = true := bne_iff_ne.mpr
    refine ⟨_, _, ht, by constructor <;> first | (left; decide) | exact .inr rfl, ⟨rfl, hport⟩, rfl, rfl, rfl, hcfg, hout,
      fun h => ?disabled, fun h hne => ?signal, fun h hs => ⟨fun hl => ?same, fun hl hfreq => ?limit⟩⟩
    case disabled => rw [show s.shelves[shelfOf k].enabled = false from bne_eq_false_iff_eq.mpr h, Candidate.configure_disabled]
    case signal => rw [hon h, Candidate.configure_signal _ _ _ _ _ (not_and_or.mp hne)]
    case same => rw [hon h, Candidate.configure_same _ _ _ _ _ hs.1 hs.2 hl]
    case limit => rw [hon h, Candidate.configure_limit _ _ _ _ _ hs.1 hs.2 hl hfreq]

end Sys2Proof.Machine
end

section
/-! PROOFS. STOPPING: how RUN cleared enters it, and how the transaction in progress ends it (R44, R150, R175, R177). -/

namespace Sys2Proof.Machine

/-! ### The entry to STOPPING -/

/-- A sweep that STOPPING ends leaves the rest of the part alone (R150). -/
theorem State.sweepStopped_eq (s : State) :
    s.sweepStopped = { s with intake := if s.intake.position.isSome then
      { s.intake with position := none, furtherSweep := false, sweepDeadline := none } else s.intake } := by
  unfold State.sweepStopped
  split <;> rfl

/-- The part in STOPPING, before it is asked whether STOPPING ends at once: a step-3 transaction goes on without its step, and a
sweep without a transaction in progress has ended (R150, R177). -/
def State.stopping (s : State) : State :=
  { s with
    engine := .stopping
    arbiter := { s.arbiter with owner := s.arbiter.owner.cutStep, intakeWaits := false }
    intake := if s.arbiter.owner ≠ .intake ∧ s.intake.position.isSome then
      { s.intake with position := none, furtherSweep := false, sweepDeadline := none } else s.intake }

theorem Owner.cutStep_eq_intake {o : Owner} : o.cutStep = .intake ↔ o = .intake := by
  unfold Owner.cutStep; split <;> simp

theorem State.enterStopping_eq (s : State) : s.enterStopping = s.stopping.endStopping := by
  unfold State.enterStopping State.stopping
  dsimp only
  by_cases ho : s.arbiter.owner = .intake
  · rw [if_pos (Owner.cutStep_eq_intake.mpr ho), if_neg (fun h => h.1 ho)]
  · rw [if_neg (fun h => ho (Owner.cutStep_eq_intake.mp h)), State.sweepStopped_eq]
    dsimp only
    rw [if_congr (show (_ : Prop) ↔ _ from ⟨fun h => ⟨ho, h⟩, And.right⟩) rfl rfl]

/-- STOPPING left with RUN clear ends in HALTED (R177). -/
theorem State.endStopping_halts {u : State} (he : u.engine = .stopping) (hr : u.run = false) :
    u.endStopping.engine = .stopping ∨ u.endStopping.engine = .halted := by
  unfold State.endStopping
  split
  · unfold State.leaveStopping; rw [hr]; exact .inr rfl
  · exact .inl he

/-- A sweep request in STOPPING or HALTED has no effect (R147). -/
theorem State.sweepRequest_idle {s : State} (h : s.engine = .stopping ∨ s.engine = .halted) : s.sweepRequest = s := by
  unfold State.sweepRequest; rcases h with h | h <;> rw [h]

/-- RUN cleared in RUNNING or STARTING enters STOPPING (R177). -/
theorem State.runClear_acting {s : State} (h : s.engine = .running ∨ ∃ step, s.engine = .starting step) :
    s.runClear = ({ s with run := false } : State).stopping.endStopping := by
  rw [← State.enterStopping_eq]
  unfold State.runClear
  split
  · rfl
  · rfl
  · rename_i he; simp [he] at h
  · rename_i he; simp [he] at h

/-- RUN cleared in STOPPING or HALTED acts on nothing else (R177). -/
theorem State.runClear_resting {s : State} (h : s.engine = .stopping ∨ s.engine = .halted) :
    s.runClear = { s with run := false } := by
  unfold State.runClear
  split
  · rename_i he; simp [he] at h
  · rename_i he; simp [he] at h
  · rfl
  · rfl

/-- The engine acts, or is in STOPPING or HALTED (R173). -/
theorem EngineState.acting_or_resting (e : EngineState) :
    (e = .running ∨ ∃ step, e = .starting step) ∨ e = .stopping ∨ e = .halted := by
  cases e <;> simp

/-- RUN cleared leaves the part in STOPPING or HALTED (R172, R177). -/
theorem State.runClear_engine (s : State) : s.runClear.engine = .stopping ∨ s.runClear.engine = .halted := by
  rcases s.engine.acting_or_resting with h | h
  · rw [State.runClear_acting h]; exact State.endStopping_halts rfl rfl
  · rw [State.runClear_resting h]; exact h

/-- RUN_CLEAR at a part with RUN set (R172): SWEEP_NOW in the same word finds the engine STOPPING or HALTED. -/
theorem exec_runClear {s : State} {w : Word} (hlow : s.resetLow = false) (h0 : w.getLsbD 0 = false) (h2 : w.getLsbD 2 = false)
    (h3 : w.getLsbD 3 = false) (hrun : s.run = true) : exec (.runClear w) s = .next (s.answer none false).runClear := by
  have hbits : s.writeRunCtl w 0 = (s.answer none false).runCtlBits w 0 := by
    unfold State.writeRunCtl fullResetBit
    dsimp only
    rw [if_neg (by simp [State.answer, hlow]), if_neg (by rw [h3]; exact Bool.false_ne_true)]
  have hwrite : (s.answer none false).writeRun (runBit w) = (s.answer none false).runClear := by
    unfold State.writeRun runBit
    rw [h0, if_neg (by simp [State.answer, hrun]), if_neg (by simp)]
  have hreq := State.sweepRequest_idle (s.answer none false).runClear_engine
  refine congrArg _ (hbits.trans ?_)
  unfold State.runCtlBits restartBit
  rw [if_neg (by rw [h2]; exact Bool.false_ne_true), hwrite, hreq, ite_self]

/-- Settles O11: the entry to STOPPING from RUNNING or STARTING, and RUN alone in the other two engine states. -/
theorem runClearStopsTheEngine : Obligations.RunClearStopsTheEngine := by
  intro s w hlow h0 h2 h3 hrun
  have hx := exec_runClear hlow h0 h2 h3 hrun
  rcases s.engine.acting_or_resting with hact | hrest
  · have hc := State.runClear_acting (s := s.answer none false) hact
    refine ⟨({ s.answer none false with run := false } : State).stopping, _, hx.trans (congrArg _ hc),
      by constructor <;> first | (left; decide) | exact .inr rfl, rfl, rfl,
      fun _ => ⟨rfl, rfl, fun ho => ⟨?busy, ?sweeping⟩, fun ho => ⟨?swept, ?ends⟩⟩, fun h => ?other⟩
    case busy => exact State.endStopping_of_busy (.inr (Owner.cutStep_eq_intake.mpr ho))
    case sweeping => exact if_neg fun h => h.1 ho
    case swept => exact if_congr ⟨And.right, fun h => ⟨ho, h⟩⟩ rfl rfl
    case ends =>
      obtain ⟨e1, e2⟩ := State.endStopping_stoppedTo ({ s.answer none false with run := false } : State).stopping rfl
        fun h => ho (Owner.cutStep_eq_intake.mp h)
      refine ⟨e1, fun he => ⟨?_, e2 he⟩⟩
      obtain ⟨-, v, -, -, hhalt, -⟩ := e2 he
      exact (hhalt rfl).1
    case other => rcases h with h | h <;> simp [h] at hact
  · have hc := State.runClear_resting (s := s.answer none false) hrest
    exact ⟨{ s.answer none false with run := false }, _, hx.trans (congrArg _ hc),
      by constructor <;> first | (left; decide) | exact .inr rfl, rfl, rfl,
      fun h => by rcases h with h | ⟨x, h⟩ <;> simp [h] at hrest, fun _ => ⟨rfl, rfl, rfl, rfl⟩⟩

/-! ### The last transaction of the Intake Unit -/

/-- The row of a position, at the end of its transaction, hands the record of that position over (R148). -/
theorem exec_handover {s : State} {p : Position} (h : s.intake.position = some p) (ho : s.arbiter.owner = .intake) :
    exec (match p with
      | .global => .globalRecord .finish
      | .slot _ => .commandTake .finish
      | .shelfConfig _ => .shelfConfiguration .finish
      | .candConfig _ => .candidateConfiguration .finish
      | .report _ => .shelfReport .finish
      | .obs _ => .observation .finish) s = .next (s.sweepTransaction fun s => s.handover p) := by
  have hx := execSweepRow s p h .finish
  rw [State.intakeRow_finish ho] at hx
  cases p <;> exact hx

/-- A record handed over leaves the applied global values, which only the start of a sweep or step 1 changes (R154). -/
theorem State.handover_applied (s : State) (p : Position) : (s.handover p).intake.applied = s.intake.applied := by
  cases p with
  | global => simp only [State.handover, State.takeGlobal, State.globalOutcome, State.ask_eq]; (repeat' split) <;> rfl
  | slot i => simp only [State.handover, State.takeSlot, State.place_eq]; split <;> rfl
  | shelfConfig i => simp only [State.handover, State.takeShelfConfig]; (repeat' split) <;> simp
  | candConfig k => simp only [State.handover, State.takeCandConfig]; (repeat' split) <;> simp
  | report i => simp only [State.handover, State.takeReport]; split <;> simp
  | obs k => simp only [State.handover, State.takeObs]; split <;> simp

/-- In STOPPING, with no sweep left, the port is not handed to the Intake Unit (R145, R150). -/
theorem State.releaseRecord_owner {s : State} (he : s.engine = .stopping) (hp : s.intake.position = none) :
    s.releaseRecord.arbiter.owner ≠ .intake := by
  have hw : s.intakeWants = false := by unfold State.intakeWants; rw [he, hp]; rfl
  rw [State.releaseRecord_arbiter, hw]
  unfold Arbiter.handedOn
  rw [Bool.and_false, Bool.false_and]
  (repeat' split) <;> simp_all

/-- Settles O43: the record's effect does not rest on the engine state (State.handover_seen), the sweep ends with it, and STOPPING
with the sweep. -/
theorem stoppingEndsWithTheTransaction : Obligations.StoppingEndsWithTheTransaction := by
  refine ⟨fun s p row he ho hp hrow => ?sweep, fun s he ho hp => ?stepOne⟩
  case sweep =>
    have hx : ∀ s' : State, s'.intake.position = some p → s'.arbiter.owner = .intake →
        exec (row .finish) s' = .next (s'.sweepTransaction fun s => s.handover p) := fun s' h1 h2 => by
      rw [hrow, ← exec_handover h1 h2]; cases p <;> rfl
    have hrun : s.asRunning.handover p = (s.handover p).seen .running false := s.handover_seen .running false p
    obtain ⟨k1, k2, k3, k4⟩ := s.handover_keeps p
    have hpos : (s.asRunning.handover p).intake.position = some p := by rw [hrun]; exact k3.trans hp
    have hrunning : exec (row .finish) s.asRunning =
        .next (s.asRunning.intakeRow true .finish fun s => s.sweepTransaction fun s => s.handover p) := by
      rw [State.intakeRow_finish (s := s.asRunning) ho]; exact hx s.asRunning hp ho
    obtain ⟨v, x, hv, hveq, -⟩ := State.sweepRow_done (s := s.asRunning) ⟨hp, ho, by simp [State.asRunning]⟩
      (fun s => s.handover p) hrunning hpos (State.handover_applied _ p) (by rw [hrun]; rfl) (by rw [hrun]; exact k2)
      (.inr ⟨rfl, by rw [hrun]; rfl⟩)
    have hstop : (s.handover p).advanceSweep = { s.handover p with
        intake := { (s.handover p).intake with position := none, furtherSweep := false, sweepDeadline := none } } := by
      unfold State.advanceSweep
      rw [if_pos (k1.trans he), State.sweepStopped_eq, k3, hp]
      rfl
    have hen : (s.handover p).advanceSweep.releaseRecord.engine = .stopping := by
      rw [State.releaseRecord_eq, hstop]; exact k1.trans he
    refine ⟨v, (s.handover p).advanceSweep.releaseRecord, _, hv, hx s hp ho, ?keeps, hen,
      State.portPassed_of (by rw [hstop]; exact k2) rfl, ?intake,
      State.endStopping_stoppedTo _ hen (State.releaseRecord_owner (by rw [hstop]; exact k1.trans he) (by rw [hstop]))⟩
    case keeps =>
      rw [State.releaseRecord_eq, hstop, hveq, hrun]
      constructor <;> first | (left; decide) | exact .inr rfl
    case intake => rw [State.releaseRecord_eq, hstop, hveq, hrun]; rfl
  case stepOne =>
    have hx : exec (.startupGlobalRead .finish) s = .next s.releaseRecord.endStopping := by
      have hfits : s.stepOneFits = true := by unfold State.stepOneFits; rw [he, ho, hp]; rfl
      have hone : s.stepOne = s := by unfold State.stepOne; rw [he]; rfl
      refine congrArg Host.Outcome.next ?_
      rw [hfits, State.intakeRow_finish ho, hone]
    have hen : s.releaseRecord.engine = .stopping := by rw [State.releaseRecord_eq]; exact he
    obtain ⟨e1, e2⟩ := State.endStopping_stoppedTo _ hen (State.releaseRecord_owner he hp)
    rw [show s.releaseRecord.evaluating = s.evaluating by rw [State.releaseRecord_eq]] at e1 e2
    refine ⟨s.releaseRecord, _, hx, ?_, State.portPassed_of rfl rfl, e1, e2⟩
    rw [State.releaseRecord_eq]
    constructor <;> first | (left; decide) | exact .inr rfl

end Sys2Proof.Machine
end

section
/-! PROOFS. A fall of the shelf count at the start of a sweep (R147, R154, R155). -/

namespace Sys2Proof.Machine

/-- A shelf falls when it stands from the new count up to one below the old one (R155). -/
theorem mem_fallen {new old : Nat} {i : Fin 32} : i ∈ fallen new old ↔ new ≤ i.val ∧ i.val < old := by
  unfold fallen; simp

theorem fallen_nodup (new old : Nat) : (fallen new old).Nodup := (List.nodup_finRange 32).filter _

/-- The enabled ones of the shelves that fall, in ascending order. -/
theorem fallen_filter (new old : Nat) (on : Fin 32 → Prop) [DecidablePred on] :
    (fallen new old).filter (fun i => on i) = (List.finRange 32).filter fun i => (new ≤ i.val ∧ i.val < old) ∧ on i := by
  unfold fallen
  rw [List.filter_filter]
  refine List.filter_congr fun i _ => ?_
  rw [Bool.eq_iff_iff]
  simp
  tauto

/-- A shelf falls from an enabled state exactly when it is in that list. -/
theorem mem_fallen_enabled {s : State} {new old : Nat} {i : Fin 32} :
    i ∈ ((List.finRange 32).filter fun i => (new ≤ i.val ∧ i.val < old) ∧ s.shelves[i].state ≠ .disabled) ↔
      i ∈ fallen new old ∧ s.shelves[i].state ≠ .disabled := by
  simp [-Fin.getElem_fin, mem_fallen]

/-- The start of a sweep with global values waiting, no evaluation of a falling shelf being in progress (R147, R154, R155). -/
theorem State.startSweep_fell {u : State} {g : Globals} (hg : u.intake.pendingGlobals = some g)
    (he : ∀ i ∈ fallen g.shelfCount u.intake.applied.shelfCount, u.notEvaluating i) :
    ∃ v, (u.withGlobals g).Fell (fallen g.shelfCount u.intake.applied.shelfCount) v ∧
      u.startSweep = { v with intake := { v.intake with
        sweepDeadline := some (deadlineAt u.clock g.period), position := some .global } } := by
  have hv := State.outOfService_fold _ (fallen_nodup g.shelfCount u.intake.applied.shelfCount) (u.withGlobals g) he
  exact ⟨_, hv, State.startSweep_globals hg hv rfl⟩

/-- A frame that lists more parts. -/
theorem Keeps.mono {l l' : List Part} {s t : State} (hl : l ⊆ l') (h : Keeps l s t) : Keeps l' s t where
  run := h.run.imp_left (@hl _)
  engine := h.engine.imp_left (@hl _)
  haltCause := h.haltCause.imp_left (@hl _)
  resetLow := h.resetLow.imp_left (@hl _)
  bus := h.bus.imp_left (@hl _)
  causes := h.causes.imp_left (@hl _)
  enables := h.enables.imp_left (@hl _)
  shelfChg := h.shelfChg.imp_left (@hl _)
  msclkH := h.msclkH.imp_left (@hl _)
  prescaler := h.prescaler.imp_left (@hl _)
  clock := h.clock.imp_left (@hl _)
  mem := h.mem.imp_left (@hl _)
  arbiter := h.arbiter.imp_left (@hl _)
  intake := h.intake.imp_left (@hl _)
  cands := h.cands.imp_left (@hl _)
  params := h.params.imp_left (@hl _)
  requests := h.requests.imp_left (@hl _)
  shelves := h.shelves.imp_left (@hl _)
  judged := h.judged.imp_left (@hl _)
  queue := h.queue.imp_left (@hl _)
  evaluating := h.evaluating.imp_left (@hl _)
  writer := h.writer.imp_left (@hl _)
  powerOns := h.powerOns.imp_left (@hl _)
  pending := h.pending.imp_left (@hl _)

/-- How a sweep starts: alone, or at the end of another one, whose port is handed on then (R147). -/
theorem State.startsSweep_port {s u : State} {c : Instr} (h : s.startsSweep c u) (harb : u.startSweep.arbiter = u.arbiter) :
    ∃ t, exec c s = .next t ∧ t = { u.startSweep with arbiter := t.arbiter } ∧
      (c ≠ .observation .finish → t.arbiter = u.arbiter) ∧ (c = .observation .finish → u.portPassed t) := by
  obtain ⟨-, -, ⟨hc, hx⟩ | ⟨hc, hx⟩⟩ := State.startsSweep_exec h
  · exact ⟨_, hx, rfl, fun _ => harb, fun h => absurd h hc⟩
  · exact ⟨_, hx, by rw [State.releaseRecord_eq], fun h => absurd hc h, fun _ => State.portPassed_of harb rfl⟩

/-- Settles O13: the sweep starts as State.startSweep_fell says, and the port is handed on when another one ends with it. -/
theorem fallingShelfCountDisables : Obligations.FallingShelfCountDisables := by
  intro s u c g hstart hg falls off hev
  have he : ∀ i ∈ fallen g.shelfCount u.intake.applied.shelfCount, u.notEvaluating i := fun i hi e h1 h2 =>
    hev e h1 (h2 ▸ mem_fallen.mp hi)
  obtain ⟨v, fell, hw⟩ := State.startSweep_fell hg he
  obtain ⟨t, hx, ht, hport⟩ := State.startsSweep_port hstart (by rw [hw]; exact fell.rest.arbiter.resolve_left (by decide))
  rw [hw] at ht
  have hoff : (fallen g.shelfCount u.intake.applied.shelfCount).filter (fun i => u.shelves[i].state ≠ .disabled) = off :=
    fallen_filter _ _ _
  have hmem : ∀ i, i ∈ off ↔ i ∈ fallen g.shelfCount u.intake.applied.shelfCount ∧ u.shelves[i].state ≠ .disabled :=
    fun i => mem_fallen_enabled
  have hsh : t.shelves = v.shelves := by rw [ht]
  have hcands : t.cands = v.cands := by rw [ht]
  have hshelf : ∀ i : Fin 32, t.shelves[i] = if i ∈ off then u.shelves[i].disableAt u.clock else u.shelves[i] := fun i => by
    rw [hsh, if_congr (hmem i) rfl rfl]; exact fell.shelves i
  have hcand : ∀ k : Fin 256, t.cands[k] = if shelfOf k ∈ off then u.cands[k].offed else u.cands[k] := fun k => by
    rw [hcands, if_congr (hmem _) rfl rfl]; exact fell.cands k
  refine ⟨t, hx, ?keeps, hport.1, hport.2, ?intake, fun i => ?last, fun i => ⟨fun hi => ?disabled, fun hi => ?stays⟩,
    fun k => ⟨fun hk hon => ?off, fun hk => ?kept⟩, ?queue, ?writer⟩
  case keeps =>
    have h1 : Keeps [.arbiter, .cands, .intake, .shelves, .queue, .writer] u (u.withGlobals g) := by
      constructor <;> first | (left; decide) | exact .inr rfl
    have h2 : Keeps [.arbiter, .cands, .intake, .shelves, .queue, .writer] v t := by
      rw [ht]; constructor <;> first | (left; decide) | exact .inr rfl
    exact (h1.trans (fell.rest.mono (by decide))).trans h2
  case intake =>
    rw [ht]
    exact congrArg (fun x : Intake => { x with
      sweepDeadline := some (deadlineAt u.clock g.period), position := some .global }) fell.intake
  case last => rw [ht, if_congr mem_fallen.symm rfl rfl]; exact fell.last i
  case disabled => rw [hshelf, if_pos hi]; rfl
  case stays => rw [hshelf, if_neg hi]
  case off => rw [hcand, if_pos hk]; exact if_neg hon
  case kept =>
    rw [hcand]
    split
    · rename_i h; exact if_pos (hk.resolve_left (not_not.mpr h))
    · rfl
  case queue => rw [ht]; exact fell.queue.trans (congrArg (fun l => l.foldl joined u.queue) hoff)
  case writer =>
    rw [ht, ← hoff]
    exact fell.writer

end Sys2Proof.Machine
end

section
/-! PROOFS. The read of the global record at start-up (R44, R154, R155, R157, R174, R175). -/

namespace Sys2Proof.Machine

/-! ### The checks of step 1 -/

/-- The check of step 1 on the record as read (R157, R175). -/
theorem GlobalRecord.passes_iff (r : GlobalRecord) : (whole r.seq r.echo && !r.refused) = true ↔
    r.seq ≠ 0 ∧ r.seq = r.echo ∧ r.version = 1 ∧ 1 ≤ r.shelfCount ∧ r.shelfCount ≤ 32 := by
  simp [whole, GlobalRecord.refused, Nat.one_le_iff_ne_zero, and_assoc]

/-- The outcome of a record that passes (R154). -/
theorem GlobalRecord.outcome_of_passed {r : GlobalRecord} (h : r.refused = false) :
    r.outcome = if 10 ≤ r.period ∧ r.period ≤ 1000 then .applied else .appliedClamped := by
  unfold GlobalRecord.outcome
  rw [h, if_neg Bool.false_ne_true]
  refine if_congr ?_ rfl rfl
  simp only [GlobalRecord.values, clamp]
  omega

/-- The row at the end of the read of step 1 (R174). -/
theorem exec_startupGlobalRead {s : State} (he : s.engine = .starting .readGlobal) (ho : s.arbiter.owner = .intake) :
    exec (.startupGlobalRead .finish) s = .next s.stepOne.releaseRecord.endStopping := by
  have hfits : s.stepOneFits = true := by unfold State.stepOneFits; rw [he]; rfl
  refine congrArg Host.Outcome.next ?_
  rw [hfits, State.intakeRow_finish ho]

/-! ### A fall of the shelf count while a falling shelf may be under evaluation (R63, R155) -/

/-- The Result Writer has taken more on its list, and a request for the log control record that waited still waits. -/
def Writer.goesOn (w w' : Writer) : Prop := w.grows w' ∧ (.logControl ∈ w.list → .logControl ∈ w'.list)

theorem goesOn_kept (served : Bool) (w : Writer) : WriterKept served w.goesOn where
  asked := fun w' item hi h => ⟨(grows_kept served w).asked w' item hi h.1, fun hl => mem_joined.mpr (.inl (h.2 hl))⟩
  noted := fun w' now i n h => by
    refine ⟨(grows_kept served w).noted w' now i n h.1, fun hl => ?_⟩
    have hw := h.2 hl
    unfold Writer.noted
    split
    · exact hw
    · refine List.mem_append_left _ ?_
      cases served with
      | false => exact List.mem_filter.mpr ⟨hw, rfl⟩
      | true =>
        rw [← List.take_append_drop 1 w'.list, List.mem_append] at hw
        exact List.mem_append.mpr (hw.imp_right fun h => List.mem_filter.mpr ⟨h, rfl⟩)

theorem Writer.goesOn_completed {w w' : Writer} (h : w.goesOn w') (i : Fin 32) (o : CmdOutcome) : w.goesOn (w'.completed i o) :=
  ⟨Writer.grows_completed h.1 i o, fun hl => List.mem_append_left _ (h.2 hl)⟩

theorem Writer.goesOn_trans {w w' w'' : Writer} (h : w.goesOn w') (h' : w'.goesOn w'') : w.goesOn w'' :=
  ⟨by have h1 := h.1; have h2 := h'.1; unfold Writer.grows at *; rw [h2, h1], fun hl => h'.2 (h.2 hl)⟩

/-- An evaluation that is let end (R63). -/
theorem State.settle_cases (s : State) (i : Fin 32) : s.settle i = s ∨ ∃ e, s.settle i = s.endEvaluation e := by
  unfold State.settle
  (repeat' split) <;> first | exact .inl rfl | exact .inr ⟨_, rfl⟩

theorem State.settle_goesOn {w : Writer} {s : State} (h : w.goesOn s.writer) (i : Fin 32) : w.goesOn (s.settle i).writer := by
  rcases s.settle_cases i with hs | ⟨e, hs⟩ <;> rw [hs]
  · exact h
  · obtain ⟨w', hw', hx⟩ := (goesOn_kept s.arbiter.servesItem w).evaluated s.writer s.clock e.shelf
      (changedSlots s.judged e.shelf (e.run s.shelves[e.shelf]).judged)
      ((e.run s.shelves[e.shelf]).published != s.shelves[e.shelf].published) (e.run s.shelves[e.shelf]).note
      (e.run s.shelves[e.shelf]).outcome h
    refine ((State.endEvaluation_writer s e).trans hx) ▸ ?_
    split
    · exact Writer.goesOn_completed hw' _ _
    · exact hw'

theorem State.outOfService_goesOn {w : Writer} {s : State} (h : w.goesOn s.writer) (i : Fin 32) :
    w.goesOn (s.outOfService i).writer := by
  have hs := State.settle_goesOn h i
  unfold State.outOfService
  dsimp only
  split
  · refine (goesOn_kept _ w).disableShelf _ i rfl ?_
    unfold State.dropTaken
    split
    · exact Writer.goesOn_completed hs _ _
    · exact hs
  · exact hs

/-- An evaluation leaves a shelf DISABLED exactly when it finds it so: a DISABLED shelf has no target (R99). -/
theorem evaluated_disabled_iff (e : EvalInputs) (sh : Shelf) :
    (e.run sh).finalShelf.state = .disabled ↔ sh.state = .disabled := by
  refine ⟨evaluated_disabled e sh, fun h => ?_⟩
  have hoff : sh.enabled = false := by unfold Shelf.enabled; rw [h]; rfl
  rw [EvalResult.finalShelf_eq]
  unfold EvalInputs.run EvalCtx.stage3
  dsimp only
  rw [hoff, if_neg Bool.false_ne_true]
  dsimp only
  unfold Shelf.applyTarget
  simp [h]

/-- Letting an evaluation end makes no shelf DISABLED and enables none (R63, R99). -/
theorem State.settle_disabled (s : State) (i j : Fin 32) :
    (s.settle i).shelves[j].state = .disabled ↔ s.shelves[j].state = .disabled := by
  rcases s.settle_cases i with hs | ⟨e, hs⟩ <;> rw [hs]
  rw [State.endEvaluation_shelves, set_at]
  split
  · rename_i h; subst h; exact evaluated_disabled_iff _ _
  · rfl

/-- What the shelves of `l` falling out of service leave of the Intake Unit, the arbiter, the candidates and the states of the
shelves, whether an evaluation of one of them is in progress or not (R63, R155). -/
structure State.FellBusy (l : List (Fin 32)) (s t : State) : Prop where
  clock : t.clock = s.clock
  arbiter : t.arbiter = s.arbiter
  intake : t.intake = { s.intake with lastShelfConfig := t.intake.lastShelfConfig }
  last : ∀ i : Fin 32, t.intake.lastShelfConfig[i] = if i ∈ l then none else s.intake.lastShelfConfig[i]
  disabled : ∀ i : Fin 32, t.shelves[i].state = .disabled ↔ i ∈ l ∨ s.shelves[i].state = .disabled
  cands : ∀ k : Fin 256, t.cands[k] =
    if shelfOf k ∈ l ∧ s.shelves[shelfOf k].state ≠ .disabled then s.cands[k].offed else s.cands[k]
  writer : s.writer.goesOn t.writer

/-- One shelf falls out of service, its evaluation ended first (log entry 10). -/
theorem State.outOfService_fellBusy (s : State) (i : Fin 32) : s.FellBusy [i] (s.outOfService i) := by
  have hs : s.outOfService i = (s.settle i).outOfService i := by
    unfold State.outOfService; rw [State.settle_of_notEvaluating (s.settle_notEvaluating i)]
  have fell := (s.settle i).outOfService_fell i (s.settle_notEvaluating i)
  rw [← hs] at fell
  have hcands : (s.settle i).cands = s.cands := by simp
  have hintake : (s.settle i).intake = s.intake := by simp
  refine ⟨by simp, by simp, by rw [fell.intake, hintake], fun j => by rw [fell.last, hintake], fun j => ?_, fun k => ?_,
    State.outOfService_goesOn ⟨s.writer.grows_refl, id⟩ i⟩
  · rw [fell.shelves]
    by_cases hj : j ∈ [i]
    · by_cases hd : (s.settle i).shelves[j].state = .disabled
      · rw [if_neg (fun h => h.2 hd)]; exact ⟨fun _ => .inl hj, fun _ => hd⟩
      · rw [if_pos ⟨hj, hd⟩]; exact ⟨fun _ => .inl hj, fun _ => rfl⟩
    · rw [if_neg (fun h => hj h.1), State.settle_disabled]; simp [hj]
  · rw [fell.cands, hcands]
    exact if_congr (and_congr_right fun _ => not_congr (State.settle_disabled _ _ _)) rfl rfl

/-- Shelves fall out of service one after another. -/
theorem State.outOfService_foldBusy (l : List (Fin 32)) (s : State) : s.FellBusy l (l.foldl State.outOfService s) := by
  induction l generalizing s with
  | nil => exact ⟨rfl, rfl, rfl, by simp, by simp, by simp, s.writer.grows_refl, id⟩
  | cons a l ih =>
    have o := s.outOfService_fellBusy a
    have r := ih (s.outOfService a)
    rw [List.foldl_cons]
    refine ⟨r.clock.trans o.clock, r.arbiter.trans o.arbiter, by rw [r.intake, o.intake], fun i => ?last, fun i => ?disabled,
      fun k => ?cands, Writer.goesOn_trans o.writer r.writer⟩
    case last =>
      rw [r.last, o.last]
      by_cases h1 : i ∈ l <;> by_cases h2 : i = a <;> simp [h1, h2]
    case disabled =>
      rw [r.disabled, o.disabled, List.mem_singleton, List.mem_cons]
      tauto
    case cands =>
      have hd := o.disabled (shelfOf k)
      rw [List.mem_singleton] at hd
      rw [r.cands, o.cands]
      by_cases h : shelfOf k = a
      · rw [if_neg fun hk => hk.2 (hd.mpr (.inl h))]
        simp [-Fin.getElem_fin, h]
      · simp [-Fin.getElem_fin, h, hd]

/-! ### The end of step 1 -/

/-- The values of a record that passes, applied and recorded at once (R157), before the shelves above them fall. -/
def State.withStartValues (s : State) (r : GlobalRecord) : State :=
  { s with
    intake := { s.intake with lastGlobal := some r.seq, applied := r.values }
    writer := { (({ s.writer with globalSeq := r.seq, globalOutcome := r.outcome } : Writer).asked .logControl) with
      logEnable := r.logEnable } }

/-- A passed check: the values, the fall of the shelf count, step 2 and the begin of step 3 (R157, R174). -/
theorem State.startWith_eq (s : State) (r : GlobalRecord) :
    s.startWith r = { ((fallen r.shelfCount s.intake.applied.shelfCount).foldl State.outOfService (s.withStartValues r)).rebase with
      engine := .starting (.slots 0) } := by
  unfold State.startWith State.applyGlobals State.globalOutcome State.withStartValues
  simp only [State.ask_eq]
  rfl

/-- The row when the record passes. -/
theorem exec_startupGlobalRead_passed {s : State} (he : s.engine = .starting .readGlobal) (ho : s.arbiter.owner = .intake)
    (h : (whole (readGlobal s.mem).seq (readGlobal s.mem).echo && !(readGlobal s.mem).refused) = true) :
    ∃ t v, exec (.startupGlobalRead .finish) s = .next t ∧ s.portPassed t ∧
      v = (fallen (readGlobal s.mem).shelfCount s.intake.applied.shelfCount).foldl State.outOfService
        (s.withStartValues (readGlobal s.mem)) ∧
      t = { v.rebase with engine := .starting (.slots 0), arbiter := t.arbiter } := by
  have hone : s.stepOne = s.startWith (readGlobal s.mem) := by
    unfold State.stepOne; rw [if_pos he]; exact if_pos h
  have hend : (s.startWith (readGlobal s.mem)).releaseRecord.endStopping = (s.startWith (readGlobal s.mem)).releaseRecord :=
    State.endStopping_running (by rw [State.releaseRecord_eq, State.startWith_eq]; simp)
  have harb : (s.startWith (readGlobal s.mem)).arbiter = s.arbiter := by
    rw [State.startWith_eq]; exact (State.outOfService_foldBusy _ _).arbiter
  refine ⟨_, _, by rw [exec_startupGlobalRead he ho, hone, hend], State.portPassed_of harb rfl, rfl, ?_⟩
  rw [State.releaseRecord_eq, State.startWith_eq]

/-- The LAYOUT halt with no evaluation in progress enters HALTED (R175). -/
theorem State.layoutHalt_idle {s : State} (h : s.evaluating = none) :
    s.layoutHalt = { s with
      haltCause := .layout, run := false, causes := { s.causes with halt := true }, engine := .halted
      intake := { s.intake with pendingGlobals := none, sweepDeadline := none, position := none, furtherSweep := false } } :=
  if_neg fun hs => absurd (Option.isSome_iff_ne_none.mp hs) (not_not.mpr h)

/-- The LAYOUT halt while an evaluation is in progress enters STOPPING (R175, R177). -/
theorem State.layoutHalt_busy {s : State} (h : s.evaluating.isSome = true) :
    s.layoutHalt = { s with
      haltCause := .layout, run := false, causes := { s.causes with halt := true }, engine := .stopping } := if_pos h

/-- STOPPING goes on while an evaluation is in progress (R177). -/
theorem State.endStopping_evaluating {u : State} (h : u.evaluating.isSome = true) : u.endStopping = u := by
  unfold State.endStopping State.atRest
  refine if_neg fun hu => ?_
  rw [Option.isNone_eq_false_iff.mpr h, Bool.and_false] at hu
  exact Bool.false_ne_true hu.2

/-- The row when the record does not pass. -/
theorem exec_startupGlobalRead_failed {s : State} (he : s.engine = .starting .readGlobal) (ho : s.arbiter.owner = .intake)
    (h : ¬ (whole (readGlobal s.mem).seq (readGlobal s.mem).echo && !(readGlobal s.mem).refused) = true) :
    exec (.startupGlobalRead .finish) s = .next s.layoutHalt.releaseRecord := by
  have hone : s.stepOne = s.layoutHalt := by
    unfold State.stepOne; rw [if_pos he]; exact if_neg h
  have hend : s.layoutHalt.releaseRecord.endStopping = s.layoutHalt.releaseRecord := by
    cases hev : s.evaluating with
    | none => exact State.endStopping_running (by rw [State.releaseRecord_eq, State.layoutHalt_idle hev]; simp)
    | some e => exact State.endStopping_evaluating (by rw [State.releaseRecord_eq]; simp [hev])
  rw [exec_startupGlobalRead he ho, hone, hend]

/-- Step 2 at a candidate (R44). -/
theorem State.rebase_at (s : State) (k : Fin 256) : s.rebase.cands[k] = if s.cands[k].state = .off then s.cands[k]
    else { s.cands[k] with reportDeadline := some (deadlineAt s.clock s.cands[k].config.timeout) } := by
  unfold State.rebase; dsimp only; rw [map_at]

/-- Settles O42: the passed check by State.startWith_eq, the failed one by the two forms of the LAYOUT halt. -/
theorem startupReadAppliesOrHalts : Obligations.StartupReadAppliesOrHalts := by
  constructor
  · intro s he ho r h1 h2 h3 h4 h5 falls outcome rebased
    have hpass := r.passes_iff.mpr ⟨h1, h2, h3, h4, h5⟩
    have hout : r.outcome = outcome := GlobalRecord.outcome_of_passed (by simpa using (Bool.and_eq_true_iff.mp hpass).2)
    obtain ⟨t, v, hx, hport, hv, ht⟩ := exec_startupGlobalRead_passed he ho hpass
    have fell := State.outOfService_foldBusy (fallen r.shelfCount s.intake.applied.shelfCount) (s.withStartValues r)
    rw [← hv] at fell
    have hintake : t.intake = v.intake := by rw [ht]; rfl
    have hwriter : t.writer = v.writer := by rw [ht]; rfl
    have hshelves : t.shelves = v.shelves := by rw [ht]; rfl
    have hcands : t.cands = v.rebase.cands := by rw [ht]
    have hrebased : ∀ k : Fin 256, t.cands[k] = rebased v.cands[k] := fun k => by
      rw [hcands, State.rebase_at, fell.clock]; rfl
    obtain ⟨hgrows, hlog⟩ := fell.writer
    have hin : ∀ i : Fin 32, i ∈ fallen r.shelfCount s.intake.applied.shelfCount ∧ s.shelves[i].state ≠ .disabled ↔ falls i :=
      fun i => by rw [mem_fallen, and_assoc]
    have hcand : ∀ k : Fin 256, t.cands[k] = rebased (if falls (shelfOf k) then s.cands[k].offed else s.cands[k]) := fun k => by
      rw [hrebased, fell.cands]; exact congrArg _ (if_congr (hin _) rfl rfl)
    refine ⟨t, hx, by rw [ht], hport, by rw [hintake, fell.intake]; rfl, by rw [hintake, fell.intake]; rfl,
      by rw [hwriter, hgrows]; rfl, by rw [hwriter, hgrows]; rfl, by rw [hwriter, hgrows]; exact hout,
      by rw [hwriter]; exact hlog (mem_joined.mpr (.inr rfl)), fun i hi hi' => ⟨?disabled, ?last⟩,
      fun k => ⟨fun h => ?stays, fun h hoff => ?off, fun h hon => ?switched⟩, fun hle => ?same⟩
    case disabled => rw [hshelves]; exact (fell.disabled i).mpr (.inl (mem_fallen.mpr ⟨hi, hi'⟩))
    case last => rw [hintake, fell.last]; exact if_pos (mem_fallen.mpr ⟨hi, hi'⟩)
    case stays => rw [hcand, if_neg h]
    case off => rw [hcand, if_pos h, show s.cands[k].offed = s.cands[k] from if_pos hoff]; exact if_pos hoff
    case switched => rw [hcand, if_pos h]; exact (if_pos (offed_off _)).trans (if_neg hon)
    case same =>
      rw [show fallen r.shelfCount s.intake.applied.shelfCount = [] from
        List.filter_eq_nil_iff.mpr fun i _ => by simp; omega] at hv
      subst hv
      refine ⟨?_, ?_, ?_⟩
      · rw [ht]; constructor <;> first | (left; decide) | exact .inr rfl
      · rw [hintake]; rfl
      · rw [hwriter, ← hout]; rfl
  · intro s he ho r h
    have hx := exec_startupGlobalRead_failed he ho (fun hp => h (r.passes_iff.mp hp))
    have hport : s.portPassed s.layoutHalt.releaseRecord := State.portPassed_of (by simp) rfl
    cases hev : s.evaluating with
    | none =>
      rw [State.layoutHalt_idle hev, State.releaseRecord_eq] at hx hport
      exact ⟨_, hx, by constructor <;> first | (left; decide) | exact .inr rfl, rfl, rfl, rfl, hport,
        fun _ => ⟨rfl, rfl⟩, fun h => absurd h (by simp)⟩
    | some e =>
      rw [State.layoutHalt_busy (by rw [hev]; rfl), State.releaseRecord_eq] at hx hport
      exact ⟨_, hx, by constructor <;> first | (left; decide) | exact .inr rfl, rfl, rfl, rfl, hport,
        fun h => absurd h (by simp), fun _ => ⟨rfl, rfl⟩⟩

end Sys2Proof.Machine
end

section
/-! PROOFS. Frequency offset arithmetic: rounding, the raw offset, the averaged offset and the FREQ judgement (chapter 3). -/

namespace Sys2Proof.Machine

/-! ### Rounding to the nearest integer (R48, R52) -/

/-- `q` is an integer nearest to `n / d`, and on a tie the one further from zero. -/
def NearestAway (q n : Int) (d : Nat) : Prop :=
  2 * (q * d - n).natAbs ≤ d ∧ (2 * (q * d - n).natAbs = d → n.natAbs < (q * d).natAbs)

/-- "The rounding is symmetric about zero" (R53). -/
theorem NearestAway.neg {q n : Int} {d : Nat} (h : NearestAway q n d) : NearestAway (-q) (-n) d := by
  unfold NearestAway at *
  rw [Int.neg_mul]
  omega

/-- A quotient by 1 is nearest to its numerator only. -/
theorem NearestAway.eq_of_one {q n : Int} (h : NearestAway q n 1) : q = n := by
  have hnear := h.1
  omega

theorem roundDiv_natCast (m d : Nat) : roundDiv m d = ((2 * m + d) / (2 * d) : Nat) :=
  if_neg (by omega)

theorem roundDiv_neg {n : Int} {d : Nat} (hn : 0 < n) : roundDiv (-n) d = -roundDiv n d := by
  unfold roundDiv
  rw [if_pos (by omega), if_neg (by omega), Int.natAbs_neg]

/-- A numerator from zero up: the floor of (2 m + d) / 2 d lies within half of m / d, and above it on a tie. -/
theorem roundDiv_natCast_nearest (m : Nat) {d : Nat} (hd : 0 < d) : NearestAway (roundDiv m d) m d := by
  have hdiv := Nat.div_add_mod (2 * m + d) (2 * d)
  have hmod := Nat.mod_lt (2 * m + d) (Nat.mul_pos Nat.two_pos hd)
  rw [roundDiv_natCast]
  generalize (2 * m + d) / (2 * d) = q at *
  rw [Nat.mul_assoc, Nat.mul_comm d q] at hdiv
  unfold NearestAway
  rw [← Nat.cast_mul]
  generalize q * d = p at *
  omega

/-- The rounded quotient is the nearest integer, ties away from zero: by symmetry from the numerators from zero up. -/
theorem roundDiv_nearest (n : Int) {d : Nat} (hd : 0 < d) : NearestAway (roundDiv n d) n d := by
  cases n with
  | ofNat m => exact roundDiv_natCast_nearest m hd
  | negSucc m =>
    rw [Int.negSucc_eq, ← Nat.cast_succ, roundDiv_neg (Int.natCast_pos.mpr m.succ_pos)]
    exact (roundDiv_natCast_nearest m.succ hd).neg

/-! ### The raw offset (R47 to R49) -/

theorem saturate_below {x : Int} (h : x < -1000000) : saturate x = -1000000 := by
  unfold saturate; omega

theorem saturate_above {x : Int} (h : 1000000 < x) : saturate x = 1000000 := by
  unfold saturate; omega

theorem saturate_within {x : Int} (h1 : -1000000 ≤ x) (h2 : x ≤ 1000000) : saturate x = x := by
  unfold saturate; omega

/-- The range of the expected count over the ranges of R46 (R47). -/
theorem expectedCount_range {f gate : Nat} (hf1 : 1000 ≤ f) (hf2 : f ≤ 200000000) (hg1 : 1 ≤ gate) (hg2 : gate ≤ 16) :
    1000 ≤ expectedCount f gate ∧ expectedCount f gate ≤ 3200000000 :=
  ⟨Nat.mul_le_mul hf1 hg1, Nat.mul_le_mul hf2 hg2⟩

/-- The product of R48 fits a signed 64-bit intermediate. -/
theorem offsetProduct_lt {count e : Nat} (hc : count < 2 ^ 32) (he1 : 1000 ≤ e) (he2 : e ≤ 3200000000) :
    (((count : Int) - e) * 1000000000).natAbs < 4300000000000000000 := by
  omega

/-! ### The averaged offset (R52) -/

/-- The step of R52 is the rounded quotient. -/
theorem updateAverage_step (k : Nat) (a r : Int) : updateAverage k (some a) r - a = roundDiv (r - a) (2 ^ k) :=
  add_sub_cancel_left ..

/-- "The new average therefore lies between the old average and r, inclusive of both" (R52): the step has the sign of the difference
and at most its magnitude. -/
theorem updateAverage_between (k : Nat) (a r : Int) :
    (a ≤ updateAverage k (some a) r ∧ updateAverage k (some a) r ≤ r) ∨
    (r ≤ updateAverage k (some a) r ∧ updateAverage k (some a) r ≤ a) := by
  have hstep := updateAverage_step k a r
  obtain ⟨hup, hdown⟩ := roundDiv_bounds (r - a) (2 ^ k) (Nat.two_pow_pos k)
  rcases Int.le_total a r with h | h
  · have hup := hup (by omega)
    omega
  · have hdown := hdown (by omega)
    omega

/-- Settles O26: rounding by roundDiv_nearest, saturation by its three cases, and the average as a rounded step between its ends. -/
theorem offsetsAreRoundedAndAveraged : Obligations.OffsetsAreRoundedAndAveraged := by
  refine ⟨fun n d hd => roundDiv_nearest n hd, fun count f gate _ _ => ⟨saturate_below, saturate_above, saturate_within⟩,
    fun count f gate hc hf1 hf2 hg1 hg2 => ?product, fun k a r ha1 ha2 hr1 hr2 => ?average⟩
  case product =>
    obtain ⟨he1, he2⟩ := expectedCount_range hf1 hf2 hg1 hg2
    exact ⟨he1, he2, offsetProduct_lt hc he1 he2⟩
  case average =>
    intro new
    have hnear : NearestAway (new - a) (r - a) (2 ^ k) := by
      rw [updateAverage_step]; exact roundDiv_nearest _ (Nat.two_pow_pos k)
    have hbetween : (a ≤ new ∧ new ≤ r) ∨ (r ≤ new ∧ new ≤ a) := updateAverage_between k a r
    refine ⟨hnear.1, hnear.2, fun hk => ?_, by omega, by omega, hbetween, by omega, by omega, rfl⟩
    subst hk
    exact sub_left_injective hnear.eq_of_one

/-! ### The FREQ judgement (R55) -/

theorem judgeFreq_above {limit : Nat} {a : Int} (h : limit < a.natAbs) (before : Bool) : judgeFreq (some a) limit before = true :=
  if_pos h

theorem judgeFreq_cleared {limit : Nat} {a : Int} (h : a.natAbs ≤ clearingBound limit) (before : Bool) :
    judgeFreq (some a) limit before = false :=
  (if_neg (Nat.not_lt.mpr (h.trans (Nat.sub_le ..)))).trans (if_pos h)

theorem judgeFreq_held {limit : Nat} {a : Int} (h1 : clearingBound limit < a.natAbs) (h2 : a.natAbs ≤ limit) (before : Bool) :
    judgeFreq (some a) limit before = before :=
  (if_neg (Nat.not_lt.mpr h2)).trans (if_neg (Nat.not_le.mpr h1))

/-- Settles O27: the rows of the table of R55, one lemma each. -/
theorem frequencyJudgement : Obligations.FrequencyJudgement :=
  fun _ before _ _ => ⟨rfl, fun _ => ⟨(judgeFreq_above · before), (judgeFreq_cleared · before), (judgeFreq_held · · before)⟩⟩

end Sys2Proof.Machine
end

section
/-! PROOFS. The state after reset meets the laws of the device (R64, R102, R108, R113, R160, R181). -/

namespace Sys2Proof.Machine

theorem ShelvesLaw.reset : ShelvesLaw State.reset := fun i => by
  rw [State.reset_shelves, ofFn_at]; exact ShelfLaw.reset i

theorem CandsLaw.reset : CandsLaw State.reset := fun k => by
  rw [State.reset_cands, replicate_at]; exact CandLaw.reset _

theorem ServiceLaw.reset : ServiceLaw State.reset := fun k _ => by
  rw [State.reset_cands, replicate_at]; rfl

theorem ClockLaw.reset : ClockLaw State.reset where
  clock := Nat.zero_le _
  prescaler := by decide
  sweep := by simp [timely, State.reset, Intake.reset]
  cands := ClockLaw.reset_cands
  shelves := ClockLaw.reset_shelves

theorem RangeLaw.reset : RangeLaw State.reset where
  queue := List.nodup_nil
  publication := by decide
  applied := by decide
  pending := by simp [State.reset, Intake.reset]

/-- Settles O4: the tables hold their reset entries, and no list or evaluation stands. -/
theorem resetMeetsEveryLaw : Obligations.ResetMeetsEveryLaw :=
  ⟨rfl, ShelvesLaw.reset, CandsLaw.reset, ServiceLaw.reset, GraphLaw.clear rfl rfl,
    WriteLaw.clear rfl rfl (by simp [State.reset, Arbiter.reset]), ClockLaw.reset, RangeLaw.reset⟩

end Sys2Proof.Machine
end

section
/-! PROOFS. Stage 4 of an evaluation: what the target does to the shelf (R68 to R70, R101). -/

namespace Sys2Proof.Machine

/-- An acquisition has lapsed when the shelf is ACQUIRING without a deadline (R64). -/
theorem Shelf.lapsed_iff (sh : Shelf) : sh.lapsed = true ↔ sh.state = .acquiring ∧ sh.acqDeadline = none := by
  simp [Shelf.lapsed]

/-- A target is new when it is not the selection, or when the acquisition has lapsed (section 4.4). -/
theorem Shelf.isNew_iff (sh : Shelf) (k : Fin 8) :
    sh.isNew k = true ↔ sh.selected ≠ some k ∨ (sh.state = .acquiring ∧ sh.acqDeadline = none) := by
  simp [Shelf.isNew, Shelf.lapsed_iff]

section
variable {now : Nat} {why : ChangeReason} {kind : Fin 8 → Kind} {sh : Shelf}

/-- A new target is acquired (R68). -/
theorem Shelf.applyTarget_new {k : Fin 8} (h : sh.isNew k = true) : Shelf.applyTarget now why kind (some k) sh =
    (sh.acquire now why (kind k) k, some (.select, sh.selected, some k)) := if_pos h

/-- The selection of a live acquisition or a lock changes nothing (R70). -/
theorem Shelf.applyTarget_kept {k : Fin 8} (h : ¬ sh.isNew k = true) :
    Shelf.applyTarget now why kind (some k) sh = (sh, none) := if_neg h

/-- Without a target a shelf leaves ACQUIRING or LOCKED (R69). -/
theorem Shelf.applyTarget_leaves (h : sh.state = .acquiring ∨ sh.state = .locked) : Shelf.applyTarget now why kind none sh =
    (sh.leave now why, some (if sh.historyValid then .holdover else .freeRun, sh.selected, none)) := by
  unfold Shelf.applyTarget; rcases h with h | h <;> rw [h]

/-- Without a target a shelf without a selection stays as it is (R70). -/
theorem Shelf.applyTarget_rests (h : sh.state = .holdover ∨ sh.state = .freeRun ∨ sh.state = .disabled) :
    Shelf.applyTarget now why kind none sh = (sh, none) := by
  unfold Shelf.applyTarget; rcases h with h | h | h <;> rw [h]

/-- A shelf with a valid history leaves to HOLDOVER (R69). -/
theorem Shelf.leave_holdover (h : sh.historyValid = true) : sh.leave now why = { sh with
    selected := none, state := .holdover, acqDeadline := none, learnDeadline := none
    holdDeadline := some (deadlineAt now (sh.config.holdoverLimit * 60000)), lastReason := why, lastTime := now
    followed := none } := if_pos h

/-- A shelf without one leaves to FREE_RUN (R69). -/
theorem Shelf.leave_freeRun (h : sh.historyValid = false) : sh.leave now why = { sh with
    selected := none, state := .freeRun, acqDeadline := none, learnDeadline := none, lastReason := why, lastTime := now
    followed := none } := if_neg (ne_true_of_eq_false h)

end

/-- Settles O51: the target is new, is the selection that stands, or is absent. -/
theorem shelfMovesToItsTarget : Obligations.ShelfMovesToItsTarget := by
  intro now why kind sh lapsed
  refine ⟨fun k h => ?new, fun k hk hl => Shelf.applyTarget_kept ?kept, fun h => ⟨fun hv => ?holdover, fun hv => ?freeRun⟩,
    fun h => Shelf.applyTarget_rests h⟩
  case new =>
    refine (Shelf.applyTarget_new ((sh.isNew_iff k).mpr h)).trans ?_
    unfold Shelf.acquire sourceOf
    cases kind k <;> rfl
  case kept => rw [Shelf.isNew_iff]; exact not_or.mpr ⟨not_not.mpr hk, hl⟩
  case holdover => rw [Shelf.applyTarget_leaves h, Shelf.leave_holdover hv, hv]; rfl
  case freeRun => rw [Shelf.applyTarget_leaves h, Shelf.leave_freeRun hv, hv]; rfl

end Sys2Proof.Machine
end

section
/-! PROOFS. Where the records of the Exchange Memory stand and how the input records are read (R71, R118, R138, R140). -/

namespace Sys2Proof.Machine

/-! ### Addresses (R138) -/

/-- The byte offset of a word of a region that lies within the 64 KiB, its base and record size being whole words. -/
theorem wordAddr_offset {base size i n : Nat} (hb : base % 4 = 0) (hs : size % 4 = 0) (h : base + size * i + 4 * n < 65536) :
    4 * (wordAddr base size i n).toNat = base + size * i + 4 * n := by
  obtain ⟨r, rfl⟩ := Nat.dvd_of_mod_eq_zero hs
  rw [Nat.mul_assoc] at h ⊢
  rw [wordAddr, BitVec.toNat_ofNat, Nat.mul_assoc, Nat.mod_eq_of_lt (by omega)]
  omega

/-! ### Readings of codes (R71, R118) -/

theorem slotOfNat_eq_some {n : Nat} {j : Fin 8} : slotOfNat n = some j ↔ n = j.val := by
  unfold slotOfNat
  split
  · simp [Fin.ext_iff]
  · refine ⟨fun h => absurd h (by simp), fun h => ?_⟩; omega

theorem slotOfNat_eq_none {n : Nat} : slotOfNat n = none ↔ 7 < n := by
  unfold slotOfNat; split <;> simp <;> omega

/-- The state word of a slot by its code; undefined codes read as EMPTY (R118). -/
theorem readSlotState_iff (m : Memory) (i : Fin 32) :
    let n := field (m.readWord (slotAddr i 0)) 0 4
    (readSlotState m i = .posted ↔ n = 1) ∧ (readSlotState m i = .taken ↔ n = 2) ∧ (readSlotState m i = .done ↔ n = 3) ∧
      (readSlotState m i = .empty ↔ n = 0 ∨ 3 < n) := by
  intro n
  have hr : readSlotState m i = if n = 1 then .posted else if n = 2 then .taken else if n = 3 then .done else .empty := rfl
  rw [hr]
  (repeat' split) <;> simp <;> omega

/-- Settles O53: the offsets region by region, then the fields record by record. -/
theorem recordsStandAtTheirOffsets : Obligations.RecordsStandAtTheirOffsets := by
  refine ⟨⟨fun n hn => ⟨?global, ?logControl⟩, fun i n hn => ⟨fun h4 => ⟨?slot, ?report⟩, ?shelfConfig, ?shelfResult⟩,
    fun k n hn => ⟨?candConfig, ?obs, ?candResult⟩, fun idx n hi hn => ?log⟩, fun m => ?fields⟩
  case global => exact (wordAddr_offset rfl rfl (by omega)).trans (by omega)
  case logControl => exact (wordAddr_offset rfl rfl (by omega)).trans (by omega)
  case slot => exact wordAddr_offset rfl rfl (by omega)
  case report => exact wordAddr_offset rfl rfl (by omega)
  case shelfConfig => exact wordAddr_offset rfl rfl (by omega)
  case shelfResult => exact wordAddr_offset rfl rfl (by omega)
  case candConfig => exact wordAddr_offset rfl rfl (by omega)
  case obs => exact wordAddr_offset rfl rfl (by omega)
  case candResult => exact wordAddr_offset rfl rfl (by omega)
  case log => exact wordAddr_offset rfl rfl (by omega)
  case fields =>
    intro bits
    refine ⟨?globalFields, fun i => ⟨?configFields, ⟨rfl, rfl, ?locked, fun j => ?slotFields, ?noSlot⟩, ?command, ?state⟩,
      fun k => ⟨?candFields, ?obsFields⟩⟩
    case globalFields => simp only [readGlobal, field_eq]; rfl
    case configFields => simp only [readShelfConfig, field_eq]; rfl
    case locked => simp only [readReport, field_eq, beq_iff_eq]; rfl
    case slotFields => simp only [readReport, field_eq, slotOfNat_eq_some]; rfl
    case noSlot => simp only [readReport, field_eq, slotOfNat_eq_none]; rfl
    case command => simp only [readCommand, field_eq]; rfl
    case state => have h := readSlotState_iff m i; simp only [field_eq] at h; exact h
    case candFields => simp only [readCandConfig, field_eq]; rfl
    case obsFields => simp only [readObservation, field_eq]; rfl

end Sys2Proof.Machine
end

section
/-! PROOFS. The expiries of a shelf's deadlines and the shelf reports (sections 4.5 to 4.8). -/

namespace Sys2Proof.Machine

/-! ### The row of an expiry -/

/-- What the row of a shelf's deadline does to the part: `deadline` is the one that expires, `st` the state in which it runs, `act`
what the shelf does at its end (R63, R181). -/
def State.expiryRow (s : State) (i : Fin 32) (deadline : Shelf → Option Deadline) (st : ShelfState)
    (act : State → State) : State :=
  if s.engine.acts ∧ isDue (deadline s.shelves[i]) then
    (if (s.settle i).shelves[i].state = st ∧ isDue (deadline (s.settle i).shelves[i]) then act (s.settle i) else s.settle i)
  else s

theorem exec_acquisitionExpiry (s : State) (i : Fin 32) : exec (.acquisitionExpiry i) s =
    .next (s.expiryRow i Shelf.acqDeadline .acquiring fun s => s.acquisitionFails i) := rfl

theorem exec_learningExpiry (s : State) (i : Fin 32) : exec (.learningExpiry i) s =
    .next (s.expiryRow i Shelf.learnDeadline .locked fun s => s.learned i) := rfl

theorem exec_holdoverDeadlineExpiry (s : State) (i : Fin 32) : exec (.holdoverDeadlineExpiry i) s =
    .next (s.expiryRow i Shelf.holdDeadline .holdover fun s => s.holdoverExpires i) := rfl

section
variable {s : State} {i : Fin 32} {deadline : Shelf → Option Deadline} {st : ShelfState} {act : State → State}

/-- The shelf acts when its deadline has come due and no evaluation holds it. -/
theorem State.expiryRow_acts (ha : s.engine.acts = true) (hn : s.notEvaluating i) (hst : s.shelves[i].state = st)
    (hdue : isDue (deadline s.shelves[i]) = true) : s.expiryRow i deadline st act = act s := by
  unfold State.expiryRow
  rw [State.settle_of_notEvaluating hn, if_pos ⟨ha, hdue⟩, if_pos ⟨hst, hdue⟩]

/-- The row has no effect when owners do not act or the deadline has not come due (R173, R181). -/
theorem State.expiryRow_idle (h : s.engine.acts = false ∨ isDue (deadline s.shelves[i]) = false) :
    s.expiryRow i deadline st act = s :=
  if_neg fun ⟨h1, h2⟩ => h.elim (ne_false_of_eq_true h1) (ne_false_of_eq_true h2)

end

/-! ### The shelf at the end of a deadline (R74 to R76) -/

/-- An acquisition of slot `j` fails (R74). -/
theorem State.acquisitionFails_eq {s : State} {i : Fin 32} {j : Fin 8} (h : s.shelves[i].selected = some j) :
    s.acquisitionFails i = { s with
      requests := s.requests ++ [.acqFailure (flat i j)]
      shelves := s.shelves.set i (s.shelves[i].lapse s.clock .acqFail)
      writer := s.writer.noted s.arbiter.servesItem s.clock i
        { kind := .acqFail, previous := some j, new := none, cls := s.shelves[i].acquiringClass, reason := .acqFail }
      queue := joined s.queue i } := by
  unfold State.acquisitionFails
  rw [h, State.place_eq, State.log_eq]
  rfl

/-- Learning ends (R75). -/
theorem State.learned_eq (s : State) (i : Fin 32) : s.learned i = { s with
    shelves := s.shelves.set i { s.shelves[i] with learnDeadline := none, historyValid := true }
    queue := joined s.queue i } := by
  unfold State.learned; rw [State.place_eq]; rfl

/-- Holdover ends (R76). -/
theorem State.holdoverExpires_eq (s : State) (i : Fin 32) : s.holdoverExpires i = { s with
    shelves := s.shelves.set i (s.shelves[i].holdoverEnds s.clock)
    writer := s.writer.noted s.arbiter.servesItem s.clock i
      { kind := .holdoverExpired, previous := none, new := none, cls := .qc4, reason := .holdoverExpiry }
    queue := joined s.queue i } := by
  unfold State.holdoverExpires; rw [State.place_eq, State.log_eq]; rfl

/-- The lapse of an ACQUIRING shelf's acquisition leaves it ACQUIRING (R74). -/
theorem Shelf.lapse_acquiring {sh : Shelf} (h : sh.state = .acquiring) (now : Nat) (why : ChangeReason) :
    sh.lapse now why = { sh with
      acqDeadline := none, learnDeadline := none, pendingReason := some why, lastReason := why, lastTime := now } := by
  unfold Shelf.lapse; rw [← h]

/-- Settles O23: the row of each expiry, then the event at the shelf. -/
theorem shelfDeadlinesExpire : Obligations.ShelfDeadlinesExpire := by
  refine ⟨fun s i j d ha hn hst hsel hd hdue => ?acquisition,
    fun s i d ha hn hdue => ⟨fun hst hd => ?learning, fun hst hd => ?holdover⟩⟩
  case acquisition =>
    rw [exec_acquisitionExpiry, State.expiryRow_acts ha hn hst (isDue_some hd hdue), State.acquisitionFails_eq hsel,
      Shelf.lapse_acquiring hst]
    rfl
  case learning => rw [exec_learningExpiry, State.expiryRow_acts ha hn hst (isDue_some hd hdue), State.learned_eq]
  case holdover =>
    rw [exec_holdoverDeadlineExpiry, State.expiryRow_acts ha hn hst (isDue_some hd hdue), State.holdoverExpires_eq]
    rfl

/-! ### Shelf reports (R71 to R73) -/

/-- A report confirms the selection when it is LOCKED to the selected slot (R71). -/
theorem Report.confirms_iff (r : Report) (sel : Option (Fin 8)) :
    r.confirms sel = true ↔ ∃ j, r.locked = true ∧ r.slot = some j ∧ sel = some j := by
  unfold Report.confirms
  cases r.slot <;> simp [@eq_comm _ sel]

section
variable {s : State} {i : Fin 32} {r : Report}

/-- A confirming report in a live acquisition (R72). -/
theorem State.reported_locks (hn : s.notEvaluating i) (hst : s.shelves[i].state = .acquiring)
    (hlive : s.shelves[i].acqDeadline.isSome = true) (hr : r.confirms s.shelves[i].selected = true) :
    s.reported i r = (s.lockShelf i).place i := by
  have hl : s.shelves[i].lapsed = false := by unfold Shelf.lapsed; rw [Option.isNone_eq_false_iff.mpr hlive, Bool.and_false]
  unfold State.reported
  rw [State.settle_of_notEvaluating hn]
  simp [-Fin.getElem_fin, hst, hl, hr]

/-- Any other report in LOCKED (R73). -/
theorem State.reported_losesLock (hn : s.notEvaluating i) (hst : s.shelves[i].state = .locked)
    (hr : ¬ r.confirms s.shelves[i].selected = true) : s.reported i r = (s.loseLock i).place i := by
  unfold State.reported
  rw [State.settle_of_notEvaluating hn]
  simp [-Fin.getElem_fin, hst, hr]

/-- A report that only queues the shelf (R71 to R73). -/
theorem State.reported_queues (hn : s.notEvaluating i)
    (hacq : s.shelves[i].state = .acquiring → s.shelves[i].lapsed = true ∨ ¬ r.confirms s.shelves[i].selected = true)
    (hlock : s.shelves[i].state = .locked → r.confirms s.shelves[i].selected = true) : s.reported i r = s.place i := by
  unfold State.reported
  rw [State.settle_of_notEvaluating hn]
  cases hst : s.shelves[i].state with
  | acquiring => rcases hacq hst with h | h <;> simp [-Fin.getElem_fin, hst, h]
  | locked => simp [-Fin.getElem_fin, hst, hlock hst]
  | disabled | freeRun | holdover => simp [-Fin.getElem_fin, hst]

/-- A shelf locks to slot `j` (R72). -/
theorem State.lockShelf_eq {j : Fin 8} (h : s.shelves[i].selected = some j) : s.lockShelf i = { s with
    shelves := s.shelves.set i (s.shelves[i].lock s.clock)
    writer := s.writer.noted s.arbiter.servesItem s.clock i
      { kind := .lock, previous := none, new := some j, cls := s.judged[flat i j].cls, reason := s.shelves[i].lastReason } } := by
  unfold State.lockShelf State.selectedClass; rw [h, State.log_eq]; rfl

/-- A shelf loses its lock to slot `j` (R73). -/
theorem State.loseLock_eq {j : Fin 8} (h : s.shelves[i].selected = some j) : s.loseLock i = { s with
    requests := s.requests ++ [.lockLost (flat i j)]
    shelves := s.shelves.set i (s.shelves[i].lapse s.clock .lockLost)
    writer := s.writer.noted s.arbiter.servesItem s.clock i
      { kind := .lockLost, previous := some j, new := none, cls := s.shelves[i].acquiringClass, reason := .lockLost } } := by
  unfold State.loseLock; rw [h, State.log_eq]; rfl

/-- A fresh report is handed to the Engine (R71, R142). -/
theorem State.takeReport_fresh (hf : fresh (readReport s.mem i).seq (readReport s.mem i).echo s.intake.lastReport[i]) :
    s.takeReport i = (s.setLastReport i (some (readReport s.mem i).seq)).reported i (readReport s.mem i) := by
  unfold State.takeReport; exact if_pos ((takes_iff_fresh _ _ _).mpr hf)

/-- The row at the end of its transaction, for what the report does to the part (R148). -/
theorem exec_shelfReport (hat : s.sweepingAt (.report i)) {f : State} (hf : s.takeReport i = f)
    (fp : f.intake.position = some (.report i)) (fa : f.intake.applied = s.intake.applied) (fe : f.engine = s.engine)
    (farb : f.arbiter = s.arbiter) :
    ∃ t x, exec (.shelfReport .finish) s = .next t ∧
      t = { f with
        intake := { f.intake with position := (Position.report i).next s.intake.applied.shelfCount }
        arbiter := x } ∧ s.portPassed t := by
  subst hf
  exact State.sweepRow_done hat (fun s => s.takeReport i) (execSweepRow s (.report i) hat.1 .finish) fp fa fe farb (.inl (by simp))

end

/-- What a lock makes of a shelf, learning begun where the history is not valid and learning takes time (R72). -/
theorem Shelf.lock_eq (now : Nat) (sh : Shelf) : sh.lock now = { sh with
    state := .locked, acqDeadline := none, holdoverExpired := false
    historyValid := sh.historyValid || sh.config.learningTime == 0
    learnDeadline := if sh.historyValid = false ∧ sh.config.learningTime ≠ 0
      then some (deadlineAt now (sh.config.learningTime * 1000)) else sh.learnDeadline } := by
  unfold Shelf.lock
  simp [Bool.and_eq_true]

/-- Settles O39: the report handed over, by whether it confirms the selection, and the position moved on. -/
theorem shelfReportLocksOrLosesLock : Obligations.ShelfReportLocksOrLosesLock := by
  intro s i hat hn hf r sh v
  have hx := State.takeReport_fresh hf
  refine ⟨fun j hst hlive hsel hl hslot => ?locks, fun j hst hsel hr => ?loses, fun h => ?queues⟩
  case locks =>
    have hc : r.confirms sh.selected = true := (r.confirms_iff _).mpr ⟨j, hl, hslot, hsel⟩
    rw [State.reported_locks (s := s.setLastReport i _) hn hst hlive hc, State.lockShelf_eq (s := s.setLastReport i _) hsel,
      State.place_eq, Shelf.lock_eq] at hx
    obtain ⟨t, x, ht, rfl, hport⟩ := exec_shelfReport hat hx hat.1 rfl rfl rfl
    exact ⟨_, ht, by constructor <;> simp, ⟨rfl, hport⟩, rfl, rfl, rfl⟩
  case loses =>
    have hc : ¬ r.confirms sh.selected = true := fun hc => by
      obtain ⟨j', hl, hslot, hsel'⟩ := (r.confirms_iff _).mp hc
      exact hr ⟨hl, hslot.trans (hsel'.symm.trans hsel)⟩
    rw [State.reported_losesLock (s := s.setLastReport i _) hn hst hc, State.loseLock_eq (s := s.setLastReport i _) hsel,
      State.place_eq] at hx
    obtain ⟨t, x, ht, rfl, hport⟩ := exec_shelfReport hat hx hat.1 rfl rfl rfl
    exact ⟨_, ht, by constructor <;> simp, ⟨rfl, hport⟩, rfl, rfl, rfl, rfl⟩
  case queues =>
    have hacq : sh.state = .acquiring → sh.lapsed = true ∨ ¬ r.confirms sh.selected = true := fun hst => by
      rw [Shelf.lapsed_iff, Report.confirms_iff]
      rcases h with h | h | h | h | ⟨-, h⟩ | ⟨h, -⟩
      case inr.inr.inr.inl => exact .inl h
      case inr.inr.inr.inr.inl => exact .inr fun ⟨j, hl, hslot, hsel⟩ => h j hslot ⟨hl, hsel⟩
      all_goals rw [h] at hst; cases hst
    have hlock : sh.state = .locked → r.confirms sh.selected = true := fun hst => by
      rw [Report.confirms_iff]
      rcases h with h | h | h | ⟨h, -⟩ | ⟨h, -⟩ | ⟨-, j, hsel, hl, hslot⟩
      case inr.inr.inr.inr.inr => exact ⟨j, hl, hslot, hsel⟩
      all_goals rw [h] at hst; cases hst
    rw [State.reported_queues (s := s.setLastReport i _) hn hacq hlock, State.place_eq] at hx
    obtain ⟨t, x, ht, rfl, hport⟩ := exec_shelfReport hat hx hat.1 rfl rfl rfl
    exact ⟨_, ht, by constructor <;> simp, ⟨rfl, hport⟩, rfl⟩

end Sys2Proof.Machine
end

section
/-! PROOFS. What waits for the evaluation of its shelf (R63, R67, R155), and when an expiry has no effect (R173, R181). -/

namespace Sys2Proof.Machine

/-! ### The evaluation ends first (R63) -/

/-- An event for the shelf under evaluation lets the evaluation end (log entry 10). -/
theorem State.settle_evaluating {s : State} {e : EvalInputs} (he : s.evaluating = some e) :
    s.settle e.shelf = s.endEvaluation e := by
  unfold State.settle; rw [he]; exact if_pos rfl

theorem State.endEvaluation_notEvaluating (s : State) (e : EvalInputs) (i : Fin 32) : (s.endEvaluation e).notEvaluating i :=
  fun _ h => absurd (s.endEvaluation_evaluating e ▸ h) (by simp)

section
variable (s : State) (e : EvalInputs) (i : Fin 32) (v : Option Word)

/-- An evaluation rests neither on the Last-Taken Table nor on the attention causes. -/
theorem State.endEvaluation_setLastReport : (s.setLastReport i v).endEvaluation e = (s.endEvaluation e).setLastReport i v := by
  simp only [State.endEvaluation_eq]; rfl

theorem State.endEvaluation_setLastShelfConfig :
    (s.setLastShelfConfig i v).endEvaluation e = (s.endEvaluation e).setLastShelfConfig i v := by
  simp only [State.endEvaluation_eq]; rfl

theorem State.endEvaluation_raiseIntake : s.raiseIntake.endEvaluation e = (s.endEvaluation e).raiseIntake := by
  simp only [State.endEvaluation_eq]; rfl

end

theorem State.reported_settle (s : State) (i : Fin 32) (r : Report) : (s.settle i).reported i r = s.reported i r := by
  unfold State.reported; rw [State.settle_of_notEvaluating (s.settle_notEvaluating i)]

theorem State.shelfRefused_settle (s : State) (i : Fin 32) (cause : RejectCause) (seq : Word) :
    (s.settle i).shelfRefused i cause seq = s.shelfRefused i cause seq := by
  unfold State.shelfRefused; rw [State.settle_of_notEvaluating (s.settle_notEvaluating i)]

theorem State.shelfConfigured_settle (s : State) (i : Fin 32) (cfg : ShelfConfig) (out : CfgOutcome) (seq : Word) :
    (s.settle i).shelfConfigured i cfg out seq = s.shelfConfigured i cfg out seq := by
  unfold State.shelfConfigured; rw [State.settle_of_notEvaluating (s.settle_notEvaluating i)]

theorem State.outOfService_settle (s : State) (i : Fin 32) : (s.settle i).outOfService i = s.outOfService i := by
  unfold State.outOfService; rw [State.settle_of_notEvaluating (s.settle_notEvaluating i)]

section
variable {s : State} {e : EvalInputs} (he : s.evaluating = some e)
include he

/-- The row of an expiry is the row on the state the evaluation leaves. -/
theorem State.expiryRow_evaluating {deadline : Shelf → Option Deadline} {st : ShelfState} {act : State → State}
    (ha : s.engine.acts = true) (hdue : isDue (deadline s.shelves[e.shelf]) = true) :
    s.expiryRow e.shelf deadline st act = (s.endEvaluation e).expiryRow e.shelf deadline st act := by
  have ha' : (s.endEvaluation e).engine.acts = true := by rw [State.endEvaluation_eq]; exact ha
  unfold State.expiryRow
  rw [State.settle_evaluating he, State.settle_of_notEvaluating (s.endEvaluation_notEvaluating e e.shelf), if_pos ⟨ha, hdue⟩]
  by_cases hd : isDue (deadline (s.endEvaluation e).shelves[e.shelf]) = true
  · have hact : (s.endEvaluation e).engine.acts = true ∧ isDue (deadline (s.endEvaluation e).shelves[e.shelf]) = true :=
      ⟨ha', hd⟩
    rw [if_pos hact]
  · rw [if_neg fun h => hd h.2, if_neg fun h => hd h.2]

/-- A shelf report is taken from the state the evaluation leaves. -/
theorem State.takeReport_evaluating
    (hf : fresh (readReport s.mem e.shelf).seq (readReport s.mem e.shelf).echo s.intake.lastReport[e.shelf]) :
    s.takeReport e.shelf = (s.endEvaluation e).takeReport e.shelf := by
  have hmem : (s.endEvaluation e).mem = s.mem := by simp
  have hintake : (s.endEvaluation e).intake = s.intake := by simp
  rw [State.takeReport_fresh hf, State.takeReport_fresh (s := s.endEvaluation e) (by rw [hmem, hintake]; exact hf), hmem,
    ← State.endEvaluation_setLastReport, ← State.reported_settle, State.settle_evaluating (s := s.setLastReport e.shelf _) he]

/-- A shelf configuration record is taken from the state the evaluation leaves. -/
theorem State.takeShelfConfig_evaluating
    (hf : fresh (readShelfConfig s.mem e.shelf).seq (readShelfConfig s.mem e.shelf).echo s.intake.lastShelfConfig[e.shelf]) :
    s.takeShelfConfig e.shelf = (s.endEvaluation e).takeShelfConfig e.shelf := by
  have hmem : (s.endEvaluation e).mem = s.mem := by simp
  have hintake : (s.endEvaluation e).intake = s.intake := by simp
  have hf' : fresh (readShelfConfig (s.endEvaluation e).mem e.shelf).seq (readShelfConfig (s.endEvaluation e).mem e.shelf).echo
      (s.endEvaluation e).intake.lastShelfConfig[e.shelf] := by rw [hmem, hintake]; exact hf
  cases hv : (readShelfConfig s.mem e.shelf).validate with
  | refused cause =>
    rw [State.takeShelfConfig_refused hf hv, State.takeShelfConfig_refused hf' (hmem ▸ hv), hmem,
      ← State.endEvaluation_setLastShelfConfig, ← State.endEvaluation_raiseIntake, ← State.shelfRefused_settle,
      State.settle_evaluating (s := (s.setLastShelfConfig e.shelf _).raiseIntake) he]
  | accepted cfg clamped =>
    rw [State.takeShelfConfig_accepted hf hv, State.takeShelfConfig_accepted hf' (hmem ▸ hv), hmem,
      ← State.endEvaluation_setLastShelfConfig, ← State.shelfConfigured_settle,
      State.settle_evaluating (s := s.setLastShelfConfig e.shelf _) he]

end

/-- The end of a sweep's transaction rests on what its handover leaves alone (R148). -/
theorem State.sweepTransaction_congr {s s' : State} {f : State → State} (h : f s = f s') :
    s.sweepTransaction f = s'.sweepTransaction f :=
  congrArg (fun u : State => u.advanceSweep.releaseRecord.endStopping) h

/-! ### A fall of the shelf count (R155) -/

theorem mem_foldl_joined {α : Type} [DecidableEq α] {l is : List α} {x : α} : x ∈ is.foldl joined l ↔ x ∈ l ∨ x ∈ is := by
  induction is generalizing l with
  | nil => simp
  | cons a is ih => rw [List.foldl_cons, ih, mem_joined, List.mem_cons, or_assoc]

/-- The shelf under evaluation falls out of service among others: those before it leave what the evaluation reads and keeps, it is
disabled from the entry the evaluation leaves, and those after it find no evaluation in progress (R63, R67). -/
theorem State.outOfService_fold_evaluating {l : List (Fin 32)} (hl : l.Nodup) {s : State} {e : EvalInputs}
    (he : s.evaluating = some e) (hm : e.shelf ∈ l) :
    let t := l.foldl State.outOfService s
    let sh := (s.endEvaluation e).shelves[e.shelf]
    t.evaluating = none ∧ t.judged = (s.endEvaluation e).judged ∧ t.intake.lastShelfConfig[e.shelf] = none ∧
      t.shelves[e.shelf] = (if sh.state ≠ .disabled then sh.disableAt s.clock else sh) ∧
      (sh.state ≠ .disabled → e.shelf ∈ t.queue) := by
  obtain ⟨l1, l2, rfl⟩ := List.append_of_mem hm
  obtain ⟨hnot, hl12⟩ := List.nodup_cons.mp (List.nodup_middle.mp hl)
  obtain ⟨hnot1, hnot2⟩ := not_or.mp (mt List.mem_append.mpr hnot)
  obtain ⟨hl1, hl2, -⟩ := List.nodup_append.mp hl12
  have before := State.outOfService_fold l1 hl1 s fun i hi x hx hs => by
    rw [he] at hx; cases hx; exact hnot1 (hs ▸ hi)
  have hfold : ∀ v : State, v.evaluating = some e →
      (e.shelf :: l2).foldl State.outOfService v = (e.shelf :: l2).foldl State.outOfService (v.endEvaluation e) := fun v hv => by
    rw [List.foldl_cons, List.foldl_cons, ← v.outOfService_settle, State.settle_evaluating hv]
  rw [List.foldl_append]
  generalize l1.foldl State.outOfService s = v at before
  have hev : v.evaluating = some e := (before.rest.evaluating.resolve_left (by decide)).trans he
  have hclock : v.clock = s.clock := before.rest.clock.resolve_left (by decide)
  have hjudged : v.judged = s.judged := before.rest.judged.resolve_left (by decide)
  have hentry : v.shelves[e.shelf] = s.shelves[e.shelf] := (before.shelves e.shelf).trans (if_neg fun h => hnot1 h.1)
  have hsh : (v.endEvaluation e).shelves[e.shelf] = (s.endEvaluation e).shelves[e.shelf] := by
    simp only [State.endEvaluation_shelves, set_at, if_true, hentry]
  have after := State.outOfService_fold (e.shelf :: l2) (List.nodup_cons.mpr ⟨hnot2, hl2⟩) (v.endEvaluation e)
    fun i _ => v.endEvaluation_notEvaluating e i
  rw [hfold v hev]
  generalize (e.shelf :: l2).foldl State.outOfService (v.endEvaluation e) = t at after
  have hmem : e.shelf ∈ e.shelf :: l2 := List.mem_cons_self
  refine ⟨?evaluating, ?judged, ?last, ?entry, fun hon => ?queue⟩
  case evaluating => exact (after.rest.evaluating.resolve_left (by decide)).trans (v.endEvaluation_evaluating e)
  case judged =>
    rw [after.rest.judged.resolve_left (by decide), State.endEvaluation_judged, State.endEvaluation_judged, hjudged, hentry]
  case last => exact (after.last e.shelf).trans (if_pos hmem)
  case entry =>
    rw [after.shelves, hsh, show (v.endEvaluation e).clock = s.clock by rw [State.endEvaluation_eq]; exact hclock]
    exact if_congr (and_iff_right hmem) rfl rfl
  case queue =>
    rw [after.queue, mem_foldl_joined, List.mem_filter]
    exact .inr ⟨hmem, decide_eq_true (hsh ▸ hon)⟩

/-- A sweep that starts with global values waiting, whether an evaluation of a falling shelf is in progress or not (R147, R154). -/
theorem State.startSweep_fold {u : State} {g : Globals} (hg : u.intake.pendingGlobals = some g) :
    ∃ v, v = (fallen g.shelfCount u.intake.applied.shelfCount).foldl State.outOfService (u.withGlobals g) ∧
      u.startSweep = { v with intake := { v.intake with
        sweepDeadline := some (deadlineAt v.clock v.intake.applied.period), position := some .global } } := by
  refine ⟨_, rfl, ?_⟩
  unfold State.startSweep State.applyPending
  rw [hg]
  rfl

/-! ### Expiries that have no effect (R173, R181) -/

theorem EngineState.acts_of_rest {en : EngineState} (h : en = .halted ∨ en = .stopping ∨ en = .starting .readGlobal) :
    en.acts = false := by rcases h with rfl | rfl | rfl <;> rfl

section
variable {s : State} {k : Fin 256}

theorem exec_reportDeadlineExpiry_idle (h : s.engine.acts = false ∨ isDue s.cands[k].reportDeadline = false) :
    exec (.reportDeadlineExpiry k) s = .next s :=
  congrArg _ (if_neg fun ⟨h1, h2⟩ => h.elim (ne_false_of_eq_true h1) (ne_false_of_eq_true h2))

theorem exec_holdOffExpiry_idle (h : s.engine.acts = false ∨ isDue s.cands[k].stateDeadline = false) :
    exec (.holdOffExpiry k) s = .next s :=
  congrArg _ (if_neg fun ⟨h1, _, h2⟩ => h.elim (ne_false_of_eq_true h1) (ne_false_of_eq_true h2))

theorem exec_wtrExpiry_idle (h : s.engine.acts = false ∨ isDue s.cands[k].stateDeadline = false) :
    exec (.wtrExpiry k) s = .next s :=
  congrArg _ (if_neg fun ⟨h1, _, h2⟩ => h.elim (ne_false_of_eq_true h1) (ne_false_of_eq_true h2))

end

section
variable {s : State} {i : Fin 32}

theorem exec_acquisitionExpiry_idle (h : s.engine.acts = false ∨ isDue s.shelves[i].acqDeadline = false) :
    exec (.acquisitionExpiry i) s = .next s := by rw [exec_acquisitionExpiry, State.expiryRow_idle h]

theorem exec_learningExpiry_idle (h : s.engine.acts = false ∨ isDue s.shelves[i].learnDeadline = false) :
    exec (.learningExpiry i) s = .next s := by rw [exec_learningExpiry, State.expiryRow_idle h]

theorem exec_holdoverDeadlineExpiry_idle (h : s.engine.acts = false ∨ isDue s.shelves[i].holdDeadline = false) :
    exec (.holdoverDeadlineExpiry i) s = .next s := by rw [exec_holdoverDeadlineExpiry, State.expiryRow_idle h]

end

theorem exec_sweepDeadlineExpiry_idle {s : State} (h : isDue s.intake.sweepDeadline = false) :
    exec .sweepDeadlineExpiry s = .next s := congrArg _ (if_neg (ne_true_of_eq_false h))

/-- Settles O24: the evaluation ends within the row of the event, and an expiry that is not due or not acted on changes nothing. -/
theorem expiriesWaitForTheirTime : Obligations.ExpiriesWaitForTheirTime := by
  refine ⟨fun s e ha he => ⟨fun hd => ?acquisition, fun hd => ?learning, fun hd => ?holdover⟩,
    fun s e he ho => ⟨fun hp hf => ?report, fun hp hf => ?config⟩, fun s u c e g hstart he hg h1 h2 => ?falls,
    fun s k i => ⟨fun h => ?rests, fun h => exec_reportDeadlineExpiry_idle (.inr h),
      fun h => ⟨exec_holdOffExpiry_idle (.inr h), exec_wtrExpiry_idle (.inr h)⟩,
      fun h => exec_acquisitionExpiry_idle (.inr h), fun h => exec_learningExpiry_idle (.inr h),
      fun h => exec_holdoverDeadlineExpiry_idle (.inr h), exec_sweepDeadlineExpiry_idle⟩⟩
  case acquisition => rw [exec_acquisitionExpiry, exec_acquisitionExpiry, State.expiryRow_evaluating he ha hd]
  case learning => rw [exec_learningExpiry, exec_learningExpiry, State.expiryRow_evaluating he ha hd]
  case holdover => rw [exec_holdoverDeadlineExpiry, exec_holdoverDeadlineExpiry, State.expiryRow_evaluating he ha hd]
  case report =>
    have hx := exec_handover (s := s.endEvaluation e) (p := .report e.shelf) (by simpa using hp) (by simpa using ho)
    refine (exec_handover hp ho).trans (Eq.trans (congrArg _ ?_) hx.symm)
    exact State.sweepTransaction_congr (State.takeReport_evaluating he hf)
  case config =>
    have hx := exec_handover (s := s.endEvaluation e) (p := .shelfConfig e.shelf) (by simpa using hp) (by simpa using ho)
    refine (exec_handover hp ho).trans (Eq.trans (congrArg _ ?_) hx.symm)
    exact State.sweepTransaction_congr (State.takeShelfConfig_evaluating he hf)
  case falls =>
    obtain ⟨v, hv, hw⟩ := State.startSweep_fold hg
    have harb : v.arbiter = u.arbiter := by rw [hv]; exact (State.outOfService_foldBusy _ _).arbiter
    obtain ⟨t, hx, ht, -⟩ := State.startsSweep_port hstart (by rw [hw]; exact harb)
    obtain ⟨hev, hjudged, hlast, hshelf, hqueue⟩ := State.outOfService_fold_evaluating (fallen_nodup _ _)
      (s := u.withGlobals g) he (mem_fallen.mpr ⟨h1, h2⟩)
    have hend : ((u.withGlobals g).endEvaluation e).shelves = (u.endEvaluation e).shelves := by
      simp only [State.endEvaluation_shelves]; rfl
    rw [← hv] at hev hjudged hlast hshelf hqueue
    rw [hend] at hshelf hqueue
    rw [hw] at ht
    refine ⟨t, hx, by rw [ht]; exact hev, ?_, by rw [ht]; exact hlast, fun hoff => ?_, fun hon => ⟨?_, ?_⟩⟩
    · rw [ht]; exact hjudged.trans (by simp only [State.endEvaluation_judged]; rfl)
    · rw [ht]; exact hshelf.trans (if_neg (not_not.mpr hoff))
    · rw [ht]; exact hshelf.trans (if_pos hon)
    · rw [ht]; exact hqueue hon
  case rests =>
    have ha := EngineState.acts_of_rest h
    exact ⟨exec_reportDeadlineExpiry_idle (.inl ha), exec_holdOffExpiry_idle (.inl ha), exec_wtrExpiry_idle (.inl ha),
      exec_acquisitionExpiry_idle (.inl ha), exec_learningExpiry_idle (.inl ha), exec_holdoverDeadlineExpiry_idle (.inl ha)⟩

end Sys2Proof.Machine
end

section
/-! PROOFS. Stage 1 of an evaluation: the taken command (R83, R124, R127 to R135). -/

namespace Sys2Proof.Machine

/-- The codes 0 and above 7 spell no command (R124, check 2). -/
theorem Command.ofCode_eq_none {n : Nat} : Command.ofCode n = none ↔ n = 0 ∨ 7 < n := by
  unfold Command.ofCode; (repeat' split) <;> simp <;> omega

/-- What stage 1 leaves of each command that passes checks 1 and 2 of R124. -/
def Command.apply (e : EvalInputs) (sh : Shelf) (arg : Nat) : Command → Stage1
  | .manual => withSlot e sh arg (applyManual e sh)
  | .forced => withSlot e sh arg (applyForced e sh)
  | .hold => applyHold e sh
  | .clear => applyClear e sh
  | .lockout => withSlot e sh arg (applyLockout e sh)
  | .unlock => withSlot e sh arg (applyUnlock e sh)
  | .clearWtr => withSlot e sh arg (applyClearWtr e sh)

/-! ### The checks of R124 -/

section
variable {e : EvalInputs} {sh : Shelf}

theorem stage1_none (h : e.taken = none) : stage1 e sh = Stage1.unchanged e sh none := by
  unfold stage1; rw [h]

variable {c : TakenCommand} (ht : e.taken = some c)
include ht

theorem stage1_disabled (hs : sh.state = .disabled) : stage1 e sh = Stage1.unchanged e sh (some .shelfOff) := by
  unfold stage1; rw [ht]; exact if_pos (by simp [Shelf.enabled, hs])

variable (hs : sh.state ≠ .disabled)
include hs

theorem stage1_enabled : stage1 e sh =
    (Command.ofCode c.code).elim (Stage1.unchanged e sh (some .badCommand)) (Command.apply e sh c.arg) := by
  unfold stage1
  rw [ht]
  refine (if_neg (by simpa [Shelf.enabled] using hs)).trans ?_
  cases Command.ofCode c.code with
  | none => rfl
  | some cmd => cases cmd <;> rfl

theorem stage1_badCommand (hc : c.code = 0 ∨ 7 < c.code) : stage1 e sh = Stage1.unchanged e sh (some .badCommand) := by
  rw [stage1_enabled ht hs, Command.ofCode_eq_none.mpr hc]; rfl

theorem stage1_command {cmd : Command} (hc : Command.ofCode c.code = some cmd) : stage1 e sh = cmd.apply e sh c.arg := by
  rw [stage1_enabled ht hs, hc]; rfl

end

/-- Check 3 of R124 fails: the slot argument is above 7. -/
theorem withSlot_badSlot {e : EvalInputs} {sh : Shelf} {arg : Nat} (h : 7 < arg) (f : Fin 8 → Stage1) :
    withSlot e sh arg f = Stage1.unchanged e sh (some .badSlot) := dif_neg (by omega)

theorem withSlot_slot {e : EvalInputs} {sh : Shelf} (k : Fin 8) (f : Fin 8 → Stage1) : withSlot e sh k.val f = f k :=
  dif_pos k.isLt

/-! ### The commands with a slot argument -/

section
variable {e : EvalInputs} {sh : Shelf} {k : Fin 8}

/-- A FORCED choice and HOLD override MANUAL(k) (R127). -/
theorem applyManual_overridden (h : (∃ j, sh.mode = .forced j) ∨ sh.mode = .hold) :
    applyManual e sh k = Stage1.unchanged e sh (some .overridden) := by
  unfold applyManual; rcases h with ⟨j, h⟩ | h <;> rw [h]

/-- MANUAL(k) under AUTO and MANUAL: the lockout set, then the new judgement (R127). -/
theorem applyManual_eq (h : sh.mode = .auto ∨ ∃ j, sh.mode = .manual j) : applyManual e sh k =
    if sh.lockout[k] = true then Stage1.unchanged e sh (some .lockedOut)
    else if (e.ctx sh sh.lockout e.cands).newCode k = .eligible then
      { Stage1.unchanged e sh (some .accepted) with mode := .manual k }
    else Stage1.unchanged e sh (some .ineligible) := by
  unfold applyManual EvalCtx.newEligible
  simp only [beq_iff_eq]
  rcases h with h | ⟨j, h⟩ <;> rw [h]

end

/-- Settles O46: the checks of R124, then each command by its own rule. -/
theorem takenCommandIsApplied : Obligations.TakenCommandIsApplied := by
  refine fun e sh => ⟨stage1_none, fun c ht hs => stage1_disabled ht hs, fun c ht hs => ⟨stage1_badCommand ht hs, ?badSlot,
    fun hc => stage1_command ht hs (cmd := .hold) (by rw [hc]; rfl),
    fun hc => stage1_command ht hs (cmd := .clear) (by rw [hc]; rfl), fun k hk => ?slot⟩⟩
  case badSlot =>
    intro hc harg
    rw [stage1_enabled ht hs]
    rcases hc with hc | hc | hc | hc | hc <;> rw [hc] <;> exact withSlot_badSlot harg _
  case slot =>
    have applied {cmd : Command} (hc : Command.ofCode c.code = some cmd) : stage1 e sh = cmd.apply e sh k :=
      hk ▸ stage1_command ht hs hc
    refine ⟨fun hc => ?manual, fun hc => ?forced, fun hc => ?lockout, fun hc => ?unlock, fun hc => ?clearWtr⟩
    all_goals rw [applied (by rw [hc]; rfl), Command.apply, withSlot_slot]
    case manual =>
      refine ⟨applyManual_overridden, fun hm => ?_⟩
      rw [applyManual_eq hm]
      exact ⟨fun hl => if_pos hl, fun hl hn => (if_neg (ne_true_of_eq_false hl)).trans (if_pos hn),
        fun hl hn => (if_neg (ne_true_of_eq_false hl)).trans (if_neg hn)⟩
    case forced =>
      exact ⟨fun hl => if_pos hl, fun hl hoff => (if_neg (ne_true_of_eq_false hl)).trans (if_pos hoff),
        fun hl hoff => (if_neg (ne_true_of_eq_false hl)).trans (if_neg hoff)⟩
    case lockout => exact ⟨fun hm => if_pos hm, fun hm => if_neg hm⟩
    case unlock => exact ⟨fun hl => if_pos hl, fun hl => if_neg (ne_true_of_eq_false hl)⟩
    case clearWtr => exact ⟨fun hr => if_pos hr, fun hr => if_neg hr⟩

end Sys2Proof.Machine
end

section
/-! PROOFS. The new, remain and forced judgements: the first check that fails (R84 to R86, R104, R105). -/

namespace Sys2Proof.Machine

/-! ### The checks in their order (R84) -/

@[simp] theorem firstFailing_nil : firstFailing [] = .eligible := rfl

@[simp] theorem firstFailing_cons (fails : Bool) (code : EligCode) (rest : List (Bool × EligCode)) :
    firstFailing ((fails, code) :: rest) = if fails = true then code else firstFailing rest := rfl

/-- A chain of checks passes when its first check does and the rest pass. -/
theorem ite_code_eligible {p : Prop} [Decidable p] {code rest : EligCode} (h : code ≠ .eligible) :
    (if p then code else rest) = .eligible ↔ ¬ p ∧ rest = .eligible := by
  split <;> simp_all

/-! ### Checks 7 to 9 (R104, R105) -/

/-- The code of checks 7 to 9; ELIGIBLE for a candidate that is not PEER. -/
def EvalCtx.linkCode (x : EvalCtx) (j : Fin 8) : EligCode := firstFailing (x.peerChecks j)

section
variable {x : EvalCtx} {j : Fin 8}

theorem EvalCtx.linkCode_alone (h : ∀ b, x.cands[j].config.kind ≠ .peer b) : x.linkCode j = .eligible := by
  have hoff : x.sourceOff j = false := by
    unfold EvalCtx.sourceOff
    split
    · exact absurd ‹_› (h _)
    all_goals rfl
  simp [EvalCtx.linkCode, EvalCtx.peerChecks, EvalCtx.loops, EvalCtx.tooDeep, EvalCtx.walkOf_none h, hoff]

/-- The three checks of a PEER candidate, in their order. -/
theorem EvalCtx.linkCode_peer {b : Fin 32} (h : x.cands[j].config.kind = .peer b) : x.linkCode j =
    if x.shelves[b].state = .disabled ∨ x.shelfCount ≤ b.val then .sourceOff
    else if (liveWalk x.shelves x.shelf b).2 = true then .loop
    else if 8 < (liveWalk x.shelves x.shelf b).1.length + 1 then .tooDeep
    else .eligible := by
  have hoff : x.sourceOff j = true ↔ x.shelves[b].state = .disabled ∨ x.shelfCount ≤ b.val := by
    unfold EvalCtx.sourceOff; rw [h]; simp [Shelf.enabled]
  simp only [EvalCtx.linkCode, EvalCtx.peerChecks, firstFailing_cons, firstFailing_nil, hoff, EvalCtx.loops, EvalCtx.tooDeep,
    EvalCtx.walkOf_peer h, decide_eq_true_eq]

/-- The code of the first of checks 7 to 9 that fails. -/
theorem EvalCtx.linkCode_failing {b : Fin 32} (h : x.cands[j].config.kind = .peer b) :
    let bad := x.shelves[b].state = .disabled ∨ x.shelfCount ≤ b.val
    let found := (liveWalk x.shelves x.shelf b).2 = true
    let deep := 8 < (liveWalk x.shelves x.shelf b).1.length + 1
    (bad → x.linkCode j = .sourceOff) ∧ (¬ bad → found → x.linkCode j = .loop) ∧
      (¬ bad → ¬ found → deep → x.linkCode j = .tooDeep) := by
  rw [EvalCtx.linkCode_peer h]
  exact ⟨fun hb => if_pos hb, fun hb hf => (if_neg hb).trans (if_pos hf),
    fun hb hf hd => (if_neg hb).trans ((if_neg hf).trans (if_pos hd))⟩

/-- Checks 7 to 9 pass when the source of a PEER candidate fails none of them. -/
theorem EvalCtx.linkCode_eligible : x.linkCode j = .eligible ↔ ∀ b, x.cands[j].config.kind = .peer b →
    ¬ (x.shelves[b].state = .disabled ∨ x.shelfCount ≤ b.val) ∧ ¬ (liveWalk x.shelves x.shelf b).2 = true ∧
      ¬ 8 < (liveWalk x.shelves x.shelf b).1.length + 1 := by
  by_cases h : ∀ b, x.cands[j].config.kind ≠ .peer b
  · simp only [EvalCtx.linkCode_alone h, true_iff]
    exact fun b hb => absurd hb (h b)
  · push Not at h
    obtain ⟨b, hb⟩ := h
    rw [EvalCtx.linkCode_peer hb]
    refine Iff.trans ?_ ⟨fun hp b' hb' => ?_, fun hp => hp b hb⟩
    · simp [ite_code_eligible]
    · cases hb.symm.trans hb'; exact hp

end

/-! ### The judgements -/

section
variable (x : EvalCtx) (j : Fin 8)

/-- The nine checks of the new judgement (R84, R85). -/
theorem EvalCtx.newCode_eq : x.newCode j =
    if x.cands[j].state = .off then .off else if x.lockout[j] = true then .lockedOut
    else if x.cands[j].state = .unknown ∨ x.cands[j].state = .failed ∨ x.cands[j].state = .restoring then .notReady
    else if x.cands[j].state = .suspect then .holdingOff
    else if x.cls j = .qc6 then .barred else if x.floorClass.code < (x.cls j).code then .belowFloor
    else x.linkCode j := by
  simp [EvalCtx.newCode, EvalCtx.linkCode, belowFloor, Quality.worseThan, or_assoc]

/-- The remain judgement leaves check 4 out (R85). -/
theorem EvalCtx.remainCode_eq : x.remainCode j =
    if x.cands[j].state = .off then .off else if x.lockout[j] = true then .lockedOut
    else if x.cands[j].state = .unknown ∨ x.cands[j].state = .failed ∨ x.cands[j].state = .restoring then .notReady
    else if x.cls j = .qc6 then .barred else if x.floorClass.code < (x.cls j).code then .belowFloor
    else x.linkCode j := by
  simp [EvalCtx.remainCode, EvalCtx.linkCode, belowFloor, Quality.worseThan, or_assoc]

/-- The checks of the forced judgement (R86). -/
theorem EvalCtx.forcedCode_eq : x.forcedCode j =
    if x.cands[j].state = .off then .off else if x.lockout[j] = true then .lockedOut
    else if x.cands[j].state = .unknown ∨ x.cands[j].reasons.signal = true ∨ x.cands[j].reasons.stale = true then .notReady
    else x.linkCode j := by
  simp [EvalCtx.forcedCode, EvalCtx.linkCode, or_assoc]

end

section
variable {x : EvalCtx} {j : Fin 8}

theorem EvalCtx.newCode_eligible : x.newCode j = .eligible ↔ x.cands[j].state = .available ∧ x.lockout[j] = false ∧
    (x.cls j ≠ .qc6 ∧ (x.cls j).code ≤ x.floorClass.code) ∧ x.linkCode j = .eligible := by
  rw [EvalCtx.newCode_eq]
  cases x.cands[j].state <;> simp [ite_code_eligible, and_assoc]

theorem EvalCtx.remainCode_eligible : x.remainCode j = .eligible ↔
    (x.cands[j].state = .available ∨ x.cands[j].state = .suspect) ∧ x.lockout[j] = false ∧
    (x.cls j ≠ .qc6 ∧ (x.cls j).code ≤ x.floorClass.code) ∧ x.linkCode j = .eligible := by
  rw [EvalCtx.remainCode_eq]
  cases x.cands[j].state <;> simp [ite_code_eligible, and_assoc]

theorem EvalCtx.forcedCode_eligible : x.forcedCode j = .eligible ↔ x.cands[j].state ≠ .off ∧ x.cands[j].state ≠ .unknown ∧
    x.cands[j].reasons.signal = false ∧ x.cands[j].reasons.stale = false ∧ x.lockout[j] = false ∧ x.linkCode j = .eligible := by
  rw [EvalCtx.forcedCode_eq]
  simp only [ite_code_eligible, ne_eq, reduceCtorEq, not_false_eq_true, not_or, Bool.not_eq_true]
  tauto

/-- Without check 4 the judgements agree (R85). -/
theorem EvalCtx.remainCode_eq_newCode (h : x.cands[j].state ≠ .suspect) : x.remainCode j = x.newCode j := by
  rw [EvalCtx.remainCode_eq, EvalCtx.newCode_eq, if_neg h]

/-- An AVAILABLE candidate that is not locked out passes checks 1 to 4 (R84). -/
theorem EvalCtx.newCode_available (hs : x.cands[j].state = .available) (hl : x.lockout[j] = false) : x.newCode j =
    if x.cls j = .qc6 then .barred else if x.floorClass.code < (x.cls j).code then .belowFloor else x.linkCode j := by
  rw [EvalCtx.newCode_eq, hs, if_neg (ne_true_of_eq_false hl)]; rfl

/-- It passes checks 5 and 6 too: those of the source decide. -/
theorem EvalCtx.newCode_linkCode (hs : x.cands[j].state = .available) (hl : x.lockout[j] = false)
    (hq : x.cls j ≠ .qc6 ∧ (x.cls j).code ≤ x.floorClass.code) : x.newCode j = x.linkCode j := by
  rw [EvalCtx.newCode_available hs hl, if_neg hq.1, if_neg (Nat.not_lt.mpr hq.2)]

/-- The candidate passes the checks of R86 before those of its source. -/
theorem EvalCtx.forcedCode_linkCode (hoff : x.cands[j].state ≠ .off) (hu : x.cands[j].state ≠ .unknown)
    (hsig : x.cands[j].reasons.signal = false) (hstale : x.cands[j].reasons.stale = false) (hl : x.lockout[j] = false) :
    x.forcedCode j = x.linkCode j := by
  have hready : ¬ (x.cands[j].state = .unknown ∨ x.cands[j].reasons.signal = true ∨ x.cands[j].reasons.stale = true) :=
    not_or.mpr ⟨hu, not_or.mpr ⟨ne_true_of_eq_false hsig, ne_true_of_eq_false hstale⟩⟩
  rw [EvalCtx.forcedCode_eq, if_neg hoff, if_neg (ne_true_of_eq_false hl), if_neg hready]

end

/-- Settles O47: each judgement is its chain of checks, and the checks of a PEER candidate's source come last. -/
theorem judgementsFailAtTheFirstCheck : Obligations.JudgementsFailAtTheFirstCheck := by
  intro x j c bad found deep quality link
  have hlink : x.linkCode j = .eligible ↔ link := EvalCtx.linkCode_eligible
  refine ⟨?new, ?remain, ?forced, EvalCtx.remainCode_eq_newCode, fun hs => ?off, fun hs hl => ?locked, fun hl =>
    ⟨fun hs => ?notReady, fun hs => ?holdingOff, fun hs hq => (EvalCtx.newCode_available hs hl).trans (if_pos hq),
      fun hs hq hf => (EvalCtx.newCode_available hs hl).trans ((if_neg hq).trans (if_pos hf)),
      fun hs => ?forcedNotReady, fun b hb => ⟨fun hs hq => ?newLink, fun hoff hu hsig hstale => ?forcedLink⟩⟩⟩
  case new => rw [← hlink]; exact EvalCtx.newCode_eligible
  case remain => rw [← hlink]; exact EvalCtx.remainCode_eligible
  case forced => rw [← hlink]; exact EvalCtx.forcedCode_eligible
  case off =>
    rw [EvalCtx.newCode_eq, EvalCtx.forcedCode_eq]
    exact ⟨if_pos hs, if_pos hs⟩
  case locked =>
    rw [EvalCtx.newCode_eq, EvalCtx.remainCode_eq, EvalCtx.forcedCode_eq]
    exact ⟨(if_neg hs).trans (if_pos hl), (if_neg hs).trans (if_pos hl), (if_neg hs).trans (if_pos hl)⟩
  all_goals have hfree : ¬ x.lockout[j] = true := ne_true_of_eq_false hl
  case notReady =>
    have hoff : x.cands[j].state ≠ .off := by rcases hs with h | h | h <;> exact ne_of_eq_of_ne h (by decide)
    rw [EvalCtx.newCode_eq, if_neg hoff, if_neg hfree]
    exact if_pos hs
  case holdingOff =>
    rw [EvalCtx.newCode_eq, show x.cands[j].state = .suspect from hs, if_neg hfree]; rfl
  case forcedNotReady =>
    have hoff : x.cands[j].state ≠ .off := hs.elim (ne_of_eq_of_ne · (by decide)) And.left
    rw [EvalCtx.forcedCode_eq, if_neg hoff, if_neg hfree]
    exact if_pos (hs.imp_right And.right)
  case newLink => rw [EvalCtx.newCode_linkCode hs hl hq]; exact EvalCtx.linkCode_failing hb
  case forcedLink => rw [EvalCtx.forcedCode_linkCode hoff hu hsig hstale hl]; exact EvalCtx.linkCode_failing hb

end Sys2Proof.Machine
end

section
/-! PROOFS. The ranking and the best candidate (R88, R106). -/

namespace Sys2Proof.Machine

/-! ### The key (R88) -/

/-- The key of a slot: class, priority, path length and slot, in the order in which R88 compares them. -/
def EvalCtx.key (x : EvalCtx) (j : Fin 8) : ℕ ×ₗ ℕ ×ₗ ℕ ×ₗ Fin 8 :=
  toLex ((x.cls j).code, toLex (x.cands[j].config.priority, toLex (x.pathLength j, j)))

/-- The slot is part of its key. -/
theorem EvalCtx.key_injective (x : EvalCtx) : Function.Injective x.key := fun a b h => by
  simp only [EvalCtx.key, EmbeddingLike.apply_eq_iff_eq, Prod.mk.injEq] at h
  exact h.2.2.2

/-- A smaller key, at the first part in which two slots differ. -/
theorem EvalCtx.key_lt_iff (x : EvalCtx) (a b : Fin 8) : x.key a < x.key b ↔
    (x.cls a).code < (x.cls b).code ∨ ((x.cls a).code = (x.cls b).code ∧
      (x.cands[a].config.priority < x.cands[b].config.priority ∨ (x.cands[a].config.priority = x.cands[b].config.priority ∧
        (x.pathLength a < x.pathLength b ∨ (x.pathLength a = x.pathLength b ∧ a < b))))) := by
  simp only [EvalCtx.key, Prod.Lex.toLex_lt_toLex]

/-- One slot ranks above another when its key is smaller (R88). -/
theorem EvalCtx.ranksAbove_iff (x : EvalCtx) (a b : Fin 8) : x.ranksAbove a b = true ↔ x.key a < x.key b := by
  rw [EvalCtx.key_lt_iff]
  unfold EvalCtx.ranksAbove
  split_ifs <;> simp only [decide_eq_true_eq] <;> omega

theorem EvalCtx.ranksAbove_eq_false_iff (x : EvalCtx) (a b : Fin 8) : x.ranksAbove a b = false ↔ x.key b ≤ x.key a := by
  rw [← Bool.not_eq_true, EvalCtx.ranksAbove_iff, not_lt]

/-- Two slots never rank alike. -/
theorem EvalCtx.ranksAbove_comm (x : EvalCtx) {a b : Fin 8} (h : a ≠ b) : x.ranksAbove a b = !x.ranksAbove b a := by
  rw [Bool.eq_iff_iff, Bool.not_eq_true', EvalCtx.ranksAbove_iff, EvalCtx.ranksAbove_eq_false_iff]
  exact ((x.key_injective.ne h).le_iff_lt).symm

/-- A candidate that is not PEER has path length 1 (R106). -/
theorem EvalCtx.pathLength_alone {x : EvalCtx} {j : Fin 8} (h : ∀ b, x.cands[j].config.kind ≠ .peer b) : x.pathLength j = 1 := by
  unfold EvalCtx.pathLength; rw [EvalCtx.walkOf_none h]

/-- The path of a remain-eligible PEER candidate: its live walk and the shelf itself (R106). -/
theorem EvalCtx.pathLength_peer {x : EvalCtx} {j : Fin 8} {b : Fin 32} (h : x.cands[j].config.kind = .peer b)
    (hr : x.remainCode j = .eligible) : x.pathLength j = (liveWalk x.shelves x.shelf b).1.length + 1 := by
  unfold EvalCtx.pathLength; rw [EvalCtx.walkOf_peer h]; exact if_pos (.inl hr)

/-! ### The best candidate (R88) -/

/-- What has been found among some slots is the new-eligible one with the smallest key, or there is none. -/
def EvalCtx.BestAmong (x : EvalCtx) (l : List (Fin 8)) : Option (Fin 8) → Prop
  | none => ∀ c ∈ l, x.newCode c ≠ .eligible
  | some b => x.newCode b = .eligible ∧ ∀ c ∈ l, x.newCode c = .eligible → x.key b ≤ x.key c

/-- One more slot is compared with what has been found. -/
theorem EvalCtx.bestAmong_better {x : EvalCtx} {l : List (Fin 8)} {found : Option (Fin 8)} (h : x.BestAmong l found) (j : Fin 8) :
    x.BestAmong (l ++ [j]) (x.better found j) := by
  unfold EvalCtx.better EvalCtx.newEligible
  by_cases hj : x.newCode j = .eligible
  · rw [if_pos (beq_iff_eq.mpr hj)]
    cases found with
    | none =>
      refine ⟨hj, fun c hc he => ?_⟩
      rcases List.mem_append.mp hc with hc | hc
      · exact absurd he (h c hc)
      · rw [List.mem_singleton.mp hc]
    | some b =>
      obtain ⟨hb, hmin⟩ := h
      dsimp only
      split
      · have hlt := (x.ranksAbove_iff j b).mp ‹_›
        refine ⟨hj, fun c hc he => ?_⟩
        rcases List.mem_append.mp hc with hc | hc
        · exact hlt.le.trans (hmin c hc he)
        · rw [List.mem_singleton.mp hc]
      · have hle := (x.ranksAbove_eq_false_iff j b).mp (Bool.not_eq_true _ ▸ ‹_›)
        refine ⟨hb, fun c hc he => ?_⟩
        rcases List.mem_append.mp hc with hc | hc
        · exact hmin c hc he
        · rwa [List.mem_singleton.mp hc]
  · rw [if_neg (mt beq_iff_eq.mp hj)]
    cases found with
    | none => simpa [EvalCtx.BestAmong, or_imp, forall_and] using ⟨h, hj⟩
    | some b =>
      obtain ⟨hb, hmin⟩ := h
      refine ⟨hb, fun c hc he => ?_⟩
      rcases List.mem_append.mp hc with hc | hc
      · exact hmin c hc he
      · exact absurd (List.mem_singleton.mp hc ▸ he) hj

/-- The best candidate is the best among all eight slots. -/
theorem EvalCtx.bestAmong_best (x : EvalCtx) : x.BestAmong (List.finRange 8) x.best := by
  have h (l : List (Fin 8)) : x.BestAmong l (l.foldl x.better none) := by
    induction l using List.reverseRecOn with
    | nil => exact fun c hc => absurd hc List.not_mem_nil
    | append_singleton l j ih => rw [List.foldl_concat]; exact EvalCtx.bestAmong_better ih j
  exact h _

theorem EvalCtx.best_eq_none (x : EvalCtx) : x.best = none ↔ ∀ j, x.newCode j ≠ .eligible := by
  have h := x.bestAmong_best
  refine ⟨fun hb j => ?_, fun hn => ?_⟩
  · rw [hb] at h; exact h j (List.mem_finRange j)
  · cases hb : x.best with
    | none => rfl
    | some b => rw [hb] at h; exact absurd h.1 (hn b)

/-- The best candidate is the new-eligible one with the smallest key (R88). -/
theorem EvalCtx.best_eq_some (x : EvalCtx) (j : Fin 8) : x.best = some j ↔
    x.newCode j = .eligible ∧ ∀ b, x.newCode b = .eligible → x.key j ≤ x.key b := by
  have h := x.bestAmong_best
  refine ⟨fun hj => ?_, fun ⟨hj, hmin⟩ => ?_⟩
  · rw [hj] at h; exact ⟨h.1, fun b => h.2 b (List.mem_finRange b)⟩
  · cases hb : x.best with
    | none => exact absurd hj (x.best_eq_none.mp hb j)
    | some b =>
      rw [hb] at h
      exact congrArg some (x.key_injective ((h.2 j (List.mem_finRange j) hj).antisymm (hmin b h.1)))

/-- Settles O49: ranking above is the order of the keys, and the best candidate has the smallest. -/
theorem bestCandidateHasTheSmallestKey : Obligations.BestCandidateHasTheSmallestKey := by
  refine fun x => ⟨fun a b => (x.ranksAbove_iff a b).trans (x.key_lt_iff a b), fun a b h => x.ranksAbove_comm h,
    fun a b c => ?trans, fun j => EvalCtx.pathLength_alone, fun j b => EvalCtx.pathLength_peer, x.best_eq_none, fun j => ?best⟩
  case trans => simp only [EvalCtx.ranksAbove_iff]; exact lt_trans
  case best =>
    rw [EvalCtx.best_eq_some]
    refine and_congr_right fun _ => ⟨fun h b hb he => ?above, fun h b he => ?least⟩
    case above => exact (x.ranksAbove_iff j b).mpr ((h b he).lt_of_ne (x.key_injective.ne hb.symm))
    case least =>
      rcases eq_or_ne b j with rfl | hb
      · exact le_rfl
      · exact ((x.ranksAbove_iff j b).mp (h b hb he)).le

end Sys2Proof.Machine
end

section
/-! PROOFS. The target by mode and policy (R89 to R95, R99). -/

namespace Sys2Proof.Machine

/-- The best candidate has the best class among the new-eligible ones (R88). -/
theorem EvalCtx.best_cls_le {x : EvalCtx} {b j : Fin 8} (hb : x.best = some b) (hj : x.newCode j = .eligible) :
    (x.cls b).code ≤ (x.cls j).code := by
  have hle := ((x.best_eq_some b).mp hb).2 j hj
  rw [← not_lt, x.key_lt_iff, not_or] at hle
  exact Nat.not_lt.mp hle.1

/-- The selection that can remain (R92). -/
theorem EvalCtx.cur_eq (x : EvalCtx) (selected : Option (Fin 8)) :
    x.cur selected = selected.filter fun c => x.remainCode c == .eligible := by
  cases selected with
  | none => rfl
  | some c => rfl

/-! ### The policies (R93 to R95) -/

section
variable {x : EvalCtx} {guardClass : Quality}

/-- Without a current selection DIRECT takes the best (R93). -/
theorem EvalCtx.policyTarget_direct_none : x.policyTarget .direct guardClass none = x.best := rfl

/-- DIRECT leaves the current selection for a best that ranks above it (R93). -/
theorem EvalCtx.policyTarget_direct_some {b c : Fin 8} (hb : x.best = some b) :
    x.policyTarget .direct guardClass (some c) = if x.ranksAbove b c = true then some b else some c := by
  unfold EvalCtx.policyTarget; rw [hb]

/-- Without a best DIRECT stays (R93). -/
theorem EvalCtx.policyTarget_direct_stays {c : Fin 8} (hb : x.best = none) :
    x.policyTarget .direct guardClass (some c) = some c := by
  unfold EvalCtx.policyTarget; rw [hb]

/-- Without a current selection GUARDED takes the best (R94). -/
theorem EvalCtx.policyTarget_guarded_none : x.policyTarget .guarded guardClass none = x.best := rfl

/-- GUARDED leaves the current selection outside the guard for a strictly better class (R94). -/
theorem EvalCtx.policyTarget_guarded_some (c : Fin 8) : x.policyTarget .guarded guardClass (some c) =
    if guardClass.code < (x.cls c).code ∧ ∃ j, x.newCode j = .eligible ∧ (x.cls j).code < (x.cls c).code then x.best
    else some c := by
  have hany : ((List.finRange 8).any fun j => x.newEligible j && (x.cls j).betterThan (x.cls c)) = true ↔
      ∃ j, x.newCode j = .eligible ∧ (x.cls j).code < (x.cls c).code := by
    simp [EvalCtx.newEligible, Quality.betterThan]
  have hguard : withinGuard (x.cls c) guardClass = true ↔ ¬ guardClass.code < (x.cls c).code := by
    simp [withinGuard, Quality.noWorseThan]
  unfold EvalCtx.policyTarget
  dsimp only
  simp only [hany, hguard, ite_not]
  split_ifs <;> simp_all

/-- FIXED never makes a new selection (R95). -/
theorem EvalCtx.policyTarget_fixed (cur : Option (Fin 8)) : x.policyTarget .fixed guardClass cur = cur := rfl

end

/-! ### The modes (R89 to R92, R99) -/

section
variable {x : EvalCtx} {sh : Shelf} {mode : Mode}

/-- A DISABLED shelf has no target (R99). -/
theorem EvalCtx.stage3_disabled (h : sh.state = .disabled) :
    x.stage3 sh mode = { target := none, mode := mode, dropped := false } :=
  if_neg (by simp [Shelf.enabled, h])

theorem EvalCtx.stage3_enabled (h : sh.state ≠ .disabled) : x.stage3 sh mode = x.chooseTarget sh.config mode sh.selected :=
  if_pos (by simpa [Shelf.enabled] using h)

variable {cfg : ShelfConfig} {selected : Option (Fin 8)} {k : Fin 8}

/-- MANUAL keeps its slot while that can remain (R91). -/
theorem EvalCtx.chooseTarget_manual (h : x.remainCode k = .eligible) :
    x.chooseTarget cfg (.manual k) selected = { target := some k, mode := .manual k, dropped := false } :=
  if_pos (beq_iff_eq.mpr h)

/-- A manual choice that cannot remain is dropped, and the policy decides (R91). -/
theorem EvalCtx.chooseTarget_dropped (h : x.remainCode k ≠ .eligible) : x.chooseTarget cfg (.manual k) selected =
    { target := x.policyTarget cfg.policy cfg.guardClass (x.cur selected), mode := .auto, dropped := true } :=
  if_neg (mt beq_iff_eq.mp h)

end

/-- Settles O50: the mode in force, then the policy. -/
theorem targetByModeAndPolicy : Obligations.TargetByModeAndPolicy := by
  intro x sh mode cur p
  have hcur : x.cur sh.selected = cur := x.cur_eq sh.selected
  refine ⟨EvalCtx.stage3_disabled, fun hs => ?modes, fun hp => ?direct, fun hp => ?guarded, fun hp => ?fixed⟩
  case modes =>
    rw [EvalCtx.stage3_enabled hs]
    refine ⟨?_, ?_, ?_, ?_, ?_⟩
    · rintro rfl; rfl
    · rintro k rfl; rfl
    · rintro k rfl hk; exact EvalCtx.chooseTarget_manual hk
    · rintro k rfl hk; rw [EvalCtx.chooseTarget_dropped hk, hcur]
    · rintro rfl; rw [EvalCtx.chooseTarget, hcur]
  all_goals simp only [p, hp]
  case direct =>
    refine ⟨fun b hb h => ?_, fun c hc h => ?_, fun hc hb => ?_⟩
    · rcases h with hc | ⟨c, hc, hr⟩
      · rw [hc, EvalCtx.policyTarget_direct_none, hb]
      · rw [hc, EvalCtx.policyTarget_direct_some hb, if_pos hr]
    · rw [hc]
      cases hb : x.best with
      | none => exact EvalCtx.policyTarget_direct_stays hb
      | some b => rw [EvalCtx.policyTarget_direct_some hb, if_neg (ne_true_of_eq_false (h b hb))]
    · rw [hc, EvalCtx.policyTarget_direct_none, hb]
  case guarded =>
    refine ⟨fun hc => by rw [hc, EvalCtx.policyTarget_guarded_none], fun c hc => ⟨fun h => ?stays, fun h => ?leaves⟩⟩
    all_goals rw [hc, EvalCtx.policyTarget_guarded_some]
    case stays =>
      refine if_neg fun ⟨hg, j, hj, hlt⟩ => ?_
      rcases h with h | h
      · exact absurd hg (Nat.not_lt.mpr h)
      · exact absurd hlt (Nat.not_lt.mpr (h j hj))
    case leaves =>
      rw [if_pos h]
      obtain ⟨-, j, hj, hlt⟩ := h
      obtain ⟨b, hb⟩ := Option.ne_none_iff_exists'.mp fun hn => x.best_eq_none.mp hn j hj
      exact ⟨rfl, b, hb, (EvalCtx.best_cls_le hb hj).trans_lt hlt⟩
  case fixed => exact EvalCtx.policyTarget_fixed cur

end Sys2Proof.Machine
end

section
/-! PROOFS. The live walk along the timing graph, and the graph kept free of rings (chapter 6). -/

namespace Sys2Proof.Machine

/-- Settles O59: every event of the part keeps the law of the graph, so every step does. -/
theorem noTimingRingArises : Obligations.NoTimingRingArises :=
  fun s t h => graphLaw_kept.step s t h

/-! ### The live walk (R103) -/

section
variable (shelves : Vector Shelf 32) (i : Fin 32)

/-- A walk with fuel starts at its first shelf. -/
theorem walk_head (n : Nat) (b : Fin 32) : (walk shelves i (n + 1) b).1.head? = some b := by
  unfold walk
  split
  · rfl
  · split <;> rfl

theorem walk_isChain (n : Nat) (b : Fin 32) : (walk shelves i n b).1.IsChain (follows shelves) := by
  fun_induction walk shelves i n b with
  | case1 => exact .nil
  | case2 => exact .singleton _
  | case3 => exact .singleton _
  | case4 n b _ c hc ih =>
    refine List.isChain_cons.mpr ⟨fun y hy => ?_, ih⟩
    cases n with
    | zero => cases hy
    | succ n =>
      rw [walk_head] at hy
      cases hy
      exact hc

/-- A walk that has found the shelf ends at it. -/
theorem walk_found (n : Nat) (b : Fin 32) (h : (walk shelves i n b).2 = true) :
    (walk shelves i n b).1.getLast? = some i := by
  fun_induction walk shelves i n b with
  | case1 => cases h
  | case2 => rfl
  | case3 => cases h
  | case4 n b _ c _ ih => rw [List.getLast?_cons, ih h]; rfl

/-- A walk that has not found the shelf and ends before its fuel does so at a shelf that follows nothing. -/
theorem walk_lost (n : Nat) (b : Fin 32) (h : (walk shelves i n b).2 = false) (hl : (walk shelves i n b).1.length < n) :
    ∃ y, (walk shelves i n b).1.getLast? = some y ∧ shelves[y].followed = none := by
  fun_induction walk shelves i n b with
  | case1 => cases hl
  | case2 => cases h
  | case3 n b _ hb => exact ⟨b, rfl, hb⟩
  | case4 n b _ c _ ih =>
    obtain ⟨y, hy, hroot⟩ := ih h (Nat.lt_of_succ_lt_succ hl)
    exact ⟨y, by rw [List.getLast?_cons, hy]; rfl, hroot⟩

end

/-- Settles O48. A walk that has not found the shelf holds at most the 31 other shelves, so that its fuel of 32 does not end it. -/
theorem liveWalkFollowsThePointers : Obligations.LiveWalkFollowsThePointers := by
  intro shelves i b hring
  have hnodup : (walk shelves i 32 b).1.Nodup := walk_nodup hring
  refine ⟨walk_head shelves i 31 b, walk_isChain shelves i 32 b, hnodup, walk_found shelves i 32 b, fun hlost => ?_⟩
  have havoids : i ∉ (walk shelves i 32 b).1 := walk_avoids hlost
  have hshort : (walk shelves i 32 b).1.length + 1 ≤ 32 := by
    simpa using (List.nodup_cons.mpr ⟨havoids, hnodup⟩).length_le_card
  exact ⟨havoids, walk_lost shelves i 32 b hlost hshort⟩

end Sys2Proof.Machine
end

section
/-! PROOFS. The clock across every command and step (R180). -/

namespace Sys2Proof.Machine

/-- The commands that can return the clock to 0: power-on, the reset pin, and those that write a RUN_CTL word with FULL_RESET
(R172, R179). -/
def ClearsClock (c : Instr) : Prop :=
  c = .powerOn ∨ (∃ n, c = .resetN n) ∨
    ∃ w : Word, w.getLsbD 3 = true ∧ ((∃ n, c = .fullReset w n) ∨ (∃ n, c = .restart w n) ∨ c = .runSet w ∨
      c = .runClear w ∨ c = .sweepNow w ∨ c = .registerWriteRefused 1 (.write w))

/-! ### The rows of the port -/

theorem State.intakeRow_clock (s : State) (fits : Bool) (ph : Phase) {act : State → State} (hact : ∀ u, (act u).clock = u.clock) :
    (s.intakeRow fits ph act).clock = s.clock := by
  unfold State.intakeRow
  cases ph <;> dsimp only <;> (repeat' split) <;> simp [hact]

theorem State.sweepRow_clock (s : State) (fits : Bool) (ph : Phase) {f : State → State} (hf : ∀ u, (f u).clock = u.clock) :
    (s.intakeRow fits ph fun u => u.sweepTransaction f).clock = s.clock :=
  s.intakeRow_clock fits ph fun u => by simp [State.sweepTransaction, hf]

theorem State.writerRow_clock (s : State) (ph : Phase) {act : State → State} (hact : ∀ u, (act u).clock = u.clock) :
    (s.writerRow ph act).clock = s.clock := by
  unfold State.writerRow
  cases ph <;> dsimp only <;> (repeat' split) <;> simp [hact]

/-! ### The registers -/

theorem State.writeRunCtl_clock (s : State) (w : Word) (made : Nat) :
    (s.writeRunCtl w made).clock = s.clock ∨ ((s.writeRunCtl w made).clock = 0 ∧ w.getLsbD 3 = true) := by
  unfold State.writeRunCtl State.runCtlBits
  dsimp only
  split
  · exact .inl rfl
  · split
    · exact .inr ⟨rfl, ‹_›⟩
    · refine .inl ?_
      (repeat' split) <;> simp

theorem State.registerAccess_clock (s : State) (reg : BitVec 14) (op : BusOp) :
    (s.registerAccess reg op).clock = s.clock ∨
      ((s.registerAccess reg op).clock = 0 ∧ reg = 1 ∧ ∃ w : Word, op = .write w ∧ w.getLsbD 3 = true) := by
  cases op with
  | read =>
    refine .inl ?_
    unfold State.registerAccess
    dsimp only
    (repeat' split) <;> simp
  | write w =>
    by_cases h1 : reg = 1
    · subst h1
      exact (s.writeRunCtl_clock w 0).imp_right fun ⟨h0, hw⟩ => ⟨h0, rfl, w, rfl, hw⟩
    · refine .inl ?_
      unfold State.registerAccess
      dsimp only
      rw [if_neg h1]
      (repeat' split) <;> simp

/-! ### Every command -/

/-- A command leaves the clock alone, or it is a tick, or it returns the clock to 0. -/
theorem exec_clock {c : Instr} {s t : State} (h : exec c s = .next t) :
    t.clock = s.clock ∨ t = s.tickNow ∨ (t.clock = 0 ∧ ClearsClock c) := by
  cases c with
  | powerOn => cases h; exact .inr (.inr ⟨rfl, .inl rfl⟩)
  | resetN n => cases h; exact .inr (.inr ⟨rfl, .inr (.inl ⟨n, rfl⟩)⟩)
  | fullReset w n =>
    cases h
    exact (s.writeRunCtl_clock w n).imp_right fun ⟨h0, hw⟩ => .inr ⟨h0, .inr (.inr ⟨w, hw, .inl ⟨n, rfl⟩⟩)⟩
  | restart w n =>
    cases h
    exact (s.writeRunCtl_clock w n).imp_right fun ⟨h0, hw⟩ => .inr ⟨h0, .inr (.inr ⟨w, hw, .inr (.inl ⟨n, rfl⟩)⟩)⟩
  | runSet w =>
    cases h
    exact (s.writeRunCtl_clock w 0).imp_right fun ⟨h0, hw⟩ => .inr ⟨h0, by simp [ClearsClock, hw]⟩
  | runClear w =>
    cases h
    exact (s.writeRunCtl_clock w 0).imp_right fun ⟨h0, hw⟩ => .inr ⟨h0, by simp [ClearsClock, hw]⟩
  | sweepNow w =>
    cases h
    exact (s.writeRunCtl_clock w 0).imp_right fun ⟨h0, hw⟩ => .inr ⟨h0, by simp [ClearsClock, hw]⟩
  | registerWriteRefused reg op =>
    cases h
    refine (s.registerAccess_clock reg op).imp_right fun ⟨h0, hreg, w, hop, hw⟩ => .inr ⟨h0, ?_⟩
    simp [ClearsClock, hreg, hop, hw]
  | tick =>
    cases h
    split
    exacts [.inl rfl, .inr (.inl rfl)]
  | resetNRelease | attnWrite w | shelfChgWrite w | attnEnWrite w | msclkLRead => cases h; exact .inl (by simp)
  | hostMemoryAccess a ph => cases ph <;> cases h <;> exact .inl (by simp)
  | reportDeadlineExpiry k | holdOffExpiry k | wtrExpiry k | sweepDeadlineExpiry | acquisitionFailureRequest k
  | lockLostRequest k | clearWtrRequest k =>
    cases h
    split
    exacts [.inl (by simp), .inl rfl]
  | acquisitionExpiry i | learningExpiry i | holdoverDeadlineExpiry i =>
    cases h
    (repeat' split) <;> exact .inl (by simp)
  | globalRecord ph => cases h; exact .inl (s.sweepRow_clock _ ph fun u => by simp)
  | commandTake ph | shelfConfiguration ph | candidateConfiguration ph | shelfReport ph | observation ph =>
    simp only [exec, execCommandTake, execShelfConfiguration, execCandidateConfiguration, execShelfReport,
      execObservation] at h
    split at h <;> cases h
    exacts [.inl (s.sweepRow_clock _ ph fun u => by simp), .inl rfl]
  | evaluation ph =>
    cases ph <;> cases h
    · split <;> exact .inl (by simp)
    · exact .inl (by simp)
    · exact .inl (by simp)
  | shelfResultWrite ph | candidateResultWrite ph | logEntryWrite ph | logControlWrite ph | commandCompletion ph =>
    simp only [exec, execShelfResultWrite, execCandidateResultWrite, execLogEntryWrite, execLogControlWrite,
      execCommandCompletion] at h
    split at h <;> cases h
    exacts [.inl (s.writerRow_clock ph fun u => by simp), .inl rfl]
  | abortedCompletion ph =>
    cases ph <;> cases h <;> dsimp only <;> (repeat' split) <;> exact .inl (by simp)
  | startupGlobalRead ph => cases h; exact .inl (s.intakeRow_clock _ ph fun u => by simp)

/-- Only a command of `ClearsClock` makes the clock smaller, and it makes it 0. -/
theorem step_clock {s t : State} (h : step s = .next t) (hmax : s.clock ≤ maxClock) :
    s.clock ≤ t.clock ∨ (t.clock = 0 ∧ ∃ c rest, s.pending = c :: rest ∧ ClearsClock c) := by
  have htick : ∀ u : State, u.clock = s.clock → s.clock ≤ u.tickNow.clock := fun u hu => by
    simp only [State.tickNow, nextClock, hu]
    omega
  unfold step at h
  split at h
  · cases h
    refine .inl ?_
    unfold State.clockCycle
    (repeat' split)
    exacts [le_rfl, le_rfl, htick s rfl]
  · rename_i c rest hp
    rcases exec_clock h with hsame | rfl | ⟨h0, hc⟩
    · exact .inl hsame.ge
    · exact .inl (htick _ rfl)
    · exact .inr ⟨h0, c, rest, hp, hc⟩

/-- Settles O60: every event of the part keeps the two laws; the clock is followed through every command. -/
theorem clockAndCountersKeepTheirRanges : Obligations.ClockAndCountersKeepTheirRanges :=
  fun s t h => ⟨clockLaw_kept.step s t h, rangeLaw_kept.step s t h, fun hmax hlt =>
    (step_clock h hmax).resolve_left (Nat.not_le.mpr hlt)⟩

end Sys2Proof.Machine
end

section
/-! PROOFS. The registers as the Local Bus Port answers and shows them (R171). -/

namespace Sys2Proof.Machine

/-! ### Which accesses are the register's own -/

section
variable (s : State) {reg : BitVec 14}

theorem State.registerAccess_read_refused (h : 8 ≤ reg.toNat) : s.registerAccess reg .read = s.answer (some 0) true :=
  if_pos (decide_eq_true h)

theorem State.registerAccess_read (h : reg.toNat < 8) (h6 : reg ≠ 6) :
    s.registerAccess reg .read = s.answer (some (s.regValue reg)) false :=
  (if_neg (by simpa [busRefused] using h)).trans (if_neg h6)

theorem State.registerAccess_write_refused (w : Word) (h : 8 ≤ reg.toNat ∨ reg = 0 ∨ reg = 2 ∨ reg = 6 ∨ reg = 7) :
    s.registerAccess reg (.write w) = s.answer none true :=
  if_pos (by simpa [busRefused, or_assoc] using h)

end

/-! ### ATTN and ATTN_EN -/

/-- The fields of ATTN and of ATTN_EN: a bit for each cause, and ALARM (R171). -/
def Causes.fields (c : Causes) (alarm : Bool) : List (Nat × Nat × Nat) :=
  [(c.result.toNat, 0, 1), (c.command.toNat, 1, 1), (c.log.toNat, 2, 1), (c.intake.toNat, 3, 1), (c.halt.toNat, 4, 1),
    (alarm.toNat, 8, 1)]

theorem Causes.word_alarm (c : Causes) (alarm : Bool) :
    c.word ||| BitVec.ofNat 32 (256 * alarm.toNat) = packWord (c.fields alarm) := by
  obtain ⟨r, m, l, n, h⟩ := c
  revert r m l n h alarm
  decide

theorem State.regValue_attn (s : State) : s.regValue 3 = packWord (s.causes.fields s.alarm) := s.causes.word_alarm s.alarm

theorem State.regValue_attnEn (s : State) : s.regValue 4 = packWord (s.enables.causes.fields s.enables.alarm) :=
  s.enables.causes.word_alarm s.enables.alarm

/-- ATTN and ATTN_EN hold no bit but those of the causes and of ALARM. -/
theorem Causes.fields_unnamed (c : Causes) (alarm : Bool) {n : Nat} (h5 : 5 ≤ n) (h8 : n ≠ 8) :
    (packWord (c.fields alarm)).getLsbD n = false := by
  rcases Nat.lt_or_ge n 32 with hn | hn
  · refine flag_holds ?_ ?_
    · simp [Causes.fields, laidOut]; omega
    · have hne : ∀ l, l < 5 ∨ l = 8 → (l == n) = false := fun l hl => by simp; omega
      simp [Causes.fields, fieldIn, hne]
  · exact BitVec.getLsbD_of_ge _ _ hn

/-! ### ENGINE_STS -/

theorem EngineState.code_lt (en : EngineState) : en.code < 16 := by cases en <;> simp [EngineState.code]

/-- ENGINE_STS field by field; the queue depth is taken modulo 64. -/
theorem State.engineSts_eq (s : State) : s.engineSts = packWord
    [(s.engine.code, 0, 4), (if s.haltCause = .layout then 1 else 0, 4, 4), (s.queue.length, 8, 6),
      (s.intake.position.isSome.toNat, 16, 1)] := by
  have hcode := s.engine.code_lt
  have hbit := Bool.toNat_lt s.intake.position.isSome
  unfold State.engineSts packWord
  congr 1
  cases s.haltCause <;> simp <;> omega

/-- The Evaluation Queue holds at most the 32 shelves (R113). -/
theorem RangeLaw.queue_length {s : State} (h : RangeLaw s) : s.queue.length ≤ 32 := by
  simpa using h.queue.length_le_card

/-- Settles O17: the refusals of the port, then the registers that show several fields. -/
theorem registerAccessesAnswer : Obligations.RegisterAccessesAnswer := by
  refine ⟨fun s reg h => ?_, fun s reg w h => ?_, fun s reg h h6 => ?_, fun s => rfl, fun s w => ⟨rfl, rfl, rfl, rfl⟩,
    fun s => ⟨rfl, ?run, rfl, rfl, ?msclkH⟩, fun s => ?attn, fun s law => ?engineSts⟩
  · exact congrArg _ (s.registerAccess_read_refused h)
  · exact congrArg _ (s.registerAccess_write_refused w h)
  · exact congrArg _ (s.registerAccess_read h h6)
  case run => show BitVec.ofNat 32 s.run.toNat = _; cases s.run <;> rfl
  case msclkH => exact BitVec.toNat_setWidth_of_le (show 16 ≤ 32 by decide)
  case attn =>
    rw [s.regValue_attn, s.regValue_attnEn]
    exact ⟨flag_holds rfl rfl, flag_holds rfl rfl, flag_holds rfl rfl, flag_holds rfl rfl, flag_holds rfl rfl,
      flag_holds rfl rfl, flag_holds rfl rfl, flag_holds rfl rfl, flag_holds rfl rfl, flag_holds rfl rfl,
      flag_holds rfl rfl, flag_holds rfl rfl,
      fun n h5 h8 => ⟨Causes.fields_unnamed _ _ h5 h8, Causes.fields_unnamed _ _ h5 h8⟩⟩
  case engineSts =>
    have hlen := law.queue_length
    rw [show s.regValue 2 = s.engineSts from rfl, s.engineSts_eq]
    refine ⟨?_, field_holds rfl rfl (by split <;> decide), field_holds rfl rfl (by omega), flag_holds rfl rfl⟩
    rw [field_holds rfl rfl s.engine.code_lt]
    cases s.engine <;> rfl

end Sys2Proof.Machine
end

section
/-! PROOFS. The canonical memory and the single write list across every step (R120, R138, R160). -/

namespace Sys2Proof.Machine

/-- Settles O57: every event of the part keeps the two laws. -/
theorem memoryAndWriteListKeepTheirForm : Obligations.MemoryAndWriteListKeepTheirForm :=
  fun s t h => ⟨memoryLaw_kept.step s t h, writeLaw_kept.step s t h⟩

end Sys2Proof.Machine
end

section
/-! PROOFS. Records that a sweep passes over, and the take of a posted command (R119, R141, R148). -/

namespace Sys2Proof.Machine

/-! ### Nothing is taken of a record (R119, R141) -/

section
variable {s : State}

theorem State.takeGlobal_stale (h : ¬ fresh (readGlobal s.mem).seq (readGlobal s.mem).echo s.intake.lastGlobal) :
    s.takeGlobal = s := if_neg ((takes_iff_fresh _ _ _).not.mpr h)

theorem State.takeShelfConfig_stale {i : Fin 32}
    (h : ¬ fresh (readShelfConfig s.mem i).seq (readShelfConfig s.mem i).echo s.intake.lastShelfConfig[i]) :
    s.takeShelfConfig i = s := if_neg ((takes_iff_fresh _ _ _).not.mpr h)

theorem State.takeCandConfig_stale {k : Fin 256}
    (h : ¬ fresh (readCandConfig s.mem k).seq (readCandConfig s.mem k).echo s.intake.lastCandConfig[k]) :
    s.takeCandConfig k = s := if_neg ((takes_iff_fresh _ _ _).not.mpr h)

theorem State.takeReport_stale {i : Fin 32}
    (h : ¬ fresh (readReport s.mem i).seq (readReport s.mem i).echo s.intake.lastReport[i]) :
    s.takeReport i = s := if_neg ((takes_iff_fresh _ _ _).not.mpr h)

theorem State.takeObs_stale {k : Fin 256}
    (h : ¬ fresh (readObservation s.mem k).seq (readObservation s.mem k).echo s.intake.lastObs[k]) :
    s.takeObs k = s := if_neg ((takes_iff_fresh _ _ _).not.mpr h)

theorem State.takeSlot_refused {i : Fin 32} (h : readSlotState s.mem i ≠ .posted ∨ s.commandInHand i = true) :
    s.takeSlot i = s :=
  if_neg fun ⟨hposted, hfree⟩ => h.elim (· hposted) fun hinHand => by rw [hfree] at hinHand; cases hinHand

/-- The take of a posted command (R119): the slot's state word becomes TAKEN, the shelf holds the command and is queued. -/
theorem State.takeSlot_posted {i : Fin 32} (hposted : readSlotState s.mem i = .posted) (hfree : s.commandInHand i = false) :
    s.takeSlot i = { s with
      mem := s.mem.writeWord (slotAddr i 0) 2
      shelves := s.shelves.set i { s.shelves[i] with taken := some (readCommand s.mem i) }
      queue := joined s.queue i } := by
  unfold State.takeSlot
  rw [if_pos ⟨hposted, hfree⟩, State.place_eq]
  rfl

/-- The transaction of a record whose handover changes nothing moves only the position and the port (R148). -/
theorem exec_passesOver {p : Position} {c : Instr} (hat : s.sweepingAt p)
    (hlast : p ≠ .obs 255 ∨ (s.engine = .running ∧ s.intake.furtherSweep = false)) {f : State → State} (hf : f s = s)
    (hrow : exec c s = .next (s.intakeRow true .finish fun s => s.sweepTransaction f)) :
    ∃ t, exec c s = .next t ∧ Keeps [.arbiter, .intake] s t ∧ s.sweptTo t p s.intake := by
  have done := State.sweepRow_done hat f hrow
  rw [hf] at done
  obtain ⟨t, x, ht, rfl, hport⟩ := done hat.1 rfl rfl rfl hlast
  exact ⟨_, ht, by constructor <;> first | (left; decide) | exact .inr rfl, rfl, hport⟩

end

/-- Settles O30: position by position, the handover changes nothing. -/
theorem untakenRecordsArePassedOver : Obligations.UntakenRecordsArePassedOver := by
  intro s p row hat hlast hrow
  have hex := execSweepRow s p hat.1 .finish
  cases p with
  | global =>
    obtain ⟨rfl, hstale⟩ := hrow
    exact exec_passesOver hat hlast (State.takeGlobal_stale hstale) hex
  | slot i =>
    obtain ⟨rfl, hrefused⟩ := hrow
    exact exec_passesOver hat hlast (State.takeSlot_refused hrefused) hex
  | shelfConfig i =>
    obtain ⟨rfl, hstale⟩ := hrow
    exact exec_passesOver hat hlast (State.takeShelfConfig_stale hstale) hex
  | candConfig k =>
    obtain ⟨rfl, hstale⟩ := hrow
    exact exec_passesOver hat hlast (State.takeCandConfig_stale hstale) hex
  | report i =>
    obtain ⟨rfl, hstale⟩ := hrow
    exact exec_passesOver hat hlast (State.takeReport_stale hstale) hex
  | obs k =>
    obtain ⟨rfl, hstale⟩ := hrow
    exact exec_passesOver hat hlast (State.takeObs_stale hstale) hex

/-- A transaction that writes one word leaves it there, and every other byte as it was. -/
theorem wrote_of_writeWord {s t : State} (hm : MemoryLaw s) {w : BitVec 14} {v : Word} (ht : t.mem = s.mem.writeWord w v) :
    s.wrote t (fun _ => w) [v] :=
  wrote_of_accesses hm [v] (fun n n' hn hn' _ => by simp at hn hn'; omega) ht

/-- Settles O32: the handover of the slot as a whole state, at a position that is not the last one. -/
theorem postedCommandIsTaken : Obligations.PostedCommandIsTaken := by
  intro s i hat hm hposted hfree
  have done := State.sweepRow_done hat (fun s => s.takeSlot i) (execSweepRow s (.slot i) hat.1 .finish)
  rw [State.takeSlot_posted hposted hfree] at done
  obtain ⟨t, x, ht, rfl, hport⟩ := done hat.1 rfl rfl rfl (.inl (by simp))
  exact ⟨_, ht, by constructor <;> first | (left; decide) | exact .inr rfl, wrote_of_writeWord hm rfl, rfl, rfl, rfl, hport⟩

end Sys2Proof.Machine
end

section
/-! PROOFS. The completion of a command in its slot, whole (R121, R123, R174) or cut by a reset (R146). -/

namespace Sys2Proof.Machine

/-! ### The words of a completion (R121) -/

/-- The outcome word of a slot holds nothing but the outcome's code (R125). -/
theorem packWord_outcome (o : CmdOutcome) : packWord [(o.code, 0, 8)] = BitVec.ofNat 32 o.code := by cases o <;> rfl

section
variable {s t : State} {i : Fin 32} {o : CmdOutcome}

/-- A completion of a slot that reads TAKEN writes the outcome, the time and DONE. -/
theorem wrote_completion_taken (hm : MemoryLaw s) (hslot : readSlotState s.mem i = .taken)
    (ht : t.mem = s.mem.makeAccesses (completionAccesses s.mem s.clock i o)) :
    s.wrote t (fun n => slotAddr i ((n + 2) % 4)) [BitVec.ofNat 32 o.code, BitVec.ofNat 32 s.clock, 3] := by
  refine wrote_of_accesses hm _ (fun n n' hn hn' h => ?_) ?_
  · have := slotAddr_inj i (by omega) (by omega) h
    simp at hn hn'
    omega
  · rw [ht, completionAccesses, if_pos hslot, packWord_outcome]
    rfl

/-- A completion of any other slot leaves its state word. -/
theorem wrote_completion_other (hm : MemoryLaw s) (hslot : readSlotState s.mem i ≠ .taken)
    (ht : t.mem = s.mem.makeAccesses (completionAccesses s.mem s.clock i o)) :
    s.wrote t (fun n => slotAddr i (n + 2)) [BitVec.ofNat 32 o.code, BitVec.ofNat 32 s.clock] := by
  refine wrote_of_accesses hm _ (fun n n' hn hn' h => ?_) ?_
  · simp at hn hn'
    have := slotAddr_inj i (by omega) (by omega) h
    omega
  · rw [ht, completionAccesses, if_neg hslot, packWord_outcome]
    rfl

/-- A cut completion has read the state word with its first access, then written the outcome and the time (R146). -/
theorem Memory.makeAccesses_cutCompletion (m m' : Memory) (now : Nat) (made : Nat) :
    m.makeAccesses (cutAccesses made (completionAccesses m' now i o)) =
      m.makeAccesses (((([BitVec.ofNat 32 o.code, BitVec.ofNat 32 now] : List Word).take (made - 1)).zipIdx).map
        fun p => some (slotAddr i (2 + p.2), p.1)) := by
  rw [completionAccesses, packWord_outcome]
  match made with
  | 0 => rfl
  | 1 => rfl
  | 2 => rfl
  | n + 3 => simp [cutAccesses, Memory.makeAccesses]

theorem wrote_cutCompletion (hm : MemoryLaw s) {made : Nat}
    (ht : t.mem = s.mem.makeAccesses (cutAccesses made (completionAccesses s.mem s.clock i o))) :
    s.wrote t (fun n => slotAddr i (2 + n)) ([BitVec.ofNat 32 o.code, BitVec.ofNat 32 s.clock].take (made - 1)) := by
  refine wrote_of_accesses hm _ (fun n n' hn hn' h => ?_) (ht.trans (Memory.makeAccesses_cutCompletion _ _ _ _))
  simp at hn hn'
  have := slotAddr_inj i (by omega) (by omega) h
  omega

/-! ### Step 3 of STARTING (R123, R174) -/

theorem State.abortsSlot_iff :
    s.abortsSlot i = true ↔ readSlotState s.mem i = .taken ∧ s.commandInHand i = false := by simp [State.abortsSlot]

/-- The accesses for a slot that is left TAKEN without a command in hand. -/
theorem State.abortAccesses_left (h : readSlotState s.mem i = .taken ∧ s.commandInHand i = false) :
    s.abortAccesses i = completionAccesses s.mem s.clock i .aborted := if_pos (State.abortsSlot_iff.mpr h)

/-- Any other slot is only read. -/
theorem State.abortAccesses_other (h : ¬ (readSlotState s.mem i = .taken ∧ s.commandInHand i = false)) :
    s.abortAccesses i = [none] := if_neg (State.abortsSlot_iff.not.mpr h)

/-- The transaction on a slot changes the memory and COMMAND. -/
theorem State.slotExamined_eq (s : State) (i : Fin 32) : s.slotExamined i = { s with
    mem := s.mem.makeAccesses (s.abortAccesses i)
    causes := if s.abortsSlot i then { s.causes with command := true } else s.causes } := by
  unfold State.slotExamined
  split <;> rfl

/-- Step 3 goes on to the next slot. -/
theorem State.afterSlot_next (h : i.val + 1 < 32) :
    s.afterSlot i = { s with engine := .starting (.slots ⟨i.val + 1, h⟩) } := dif_pos h

/-- After the last slot come the request for the log control record and the sweep of step 5, here without waiting global values. -/
theorem State.afterSlot_last (hi : i.val = 31) (hg : s.intake.pendingGlobals = none) : s.afterSlot i = { s with
    engine := .starting .sweep
    writer := s.writer.asked .logControl
    intake := { s.intake with
      position := some .global, sweepDeadline := some (deadlineAt s.clock s.intake.applied.period) } } := by
  unfold State.afterSlot
  rw [dif_neg (by omega), State.ask_eq]
  exact State.startSweep_plain hg

/-- The end of the transaction granted for a slot. -/
theorem exec_abortedCompletion {live : Bool} (ho : s.arbiter.owner = .writer (.abort i live)) :
    exec (.abortedCompletion .finish) s = .next (s.endAbort i live) := by simp [exec, execAbortedCompletion, ho]

/-- The port, the memory and the causes do not rest on whether step 3 is still in progress. -/
theorem State.endAbort_port (s : State) (i : Fin 32) (live : Bool) :
    s.portPassed (s.endAbort i live) ∧ (s.endAbort i live).mem = s.mem.makeAccesses (s.abortAccesses i) ∧
      (s.endAbort i live).causes = if s.abortsSlot i then { s.causes with command := true } else s.causes := by
  have hu := s.slotExamined_eq i
  unfold State.endAbort
  refine ⟨State.portPassed_of ?_ rfl, ?_, ?_⟩ <;> cases live <;> simp [hu]

/-- The end of the transaction of the completion at the head of the list. -/
theorem exec_commandCompletion {rest : List WriteItem} (ho : s.arbiter.owner = .writer .item)
    (hl : s.writer.list = .completion i o :: rest) :
    exec (.commandCompletion .finish) s = .next (s.completionMade i o).releaseRecord := by
  rw [← State.writerRow_finish ho fun s => s.completionMade i o]
  simp [exec, execCommandCompletion, hl]

/-- The transaction of a completion as a whole state (R121). -/
theorem State.completionMade_eq {rest : List WriteItem} (hl : s.writer.list = .completion i o :: rest) :
    s.completionMade i o = { s with
      mem := s.mem.makeAccesses (completionAccesses s.mem s.clock i o)
      causes := { s.causes with command := true }
      writer := { s.writer with list := rest } } := by
  unfold State.completionMade State.writeItem State.popItem
  rw [hl]
  rfl

end

/-- Settles O56: the completion as a whole state; then step 3 by what the slot reads and by how the step goes on. -/
theorem commandsAreCompleted : Obligations.CommandsAreCompleted := by
  intro s i hm
  refine ⟨fun o rest ho hl => ?completion, fun live ho => ?aborted⟩
  case completion =>
    have hx := exec_commandCompletion ho hl
    have hport : s.portPassed (s.completionMade i o).releaseRecord := State.portPassed_of (by simp) rfl
    rw [State.releaseRecord_eq, State.completionMade_eq hl] at hx hport
    exact ⟨_, hx, by constructor <;> first | (left; decide) | exact .inr rfl, rfl, rfl, hport,
      fun h => wrote_completion_taken hm h rfl, fun h => wrote_completion_other hm h rfl⟩
  case aborted =>
    intro left
    obtain ⟨hport, hmem, hcauses⟩ := s.endAbort_port i live
    refine ⟨_, exec_abortedCompletion ho, hport, fun h => ⟨?_, ?_⟩, fun h => ⟨?_, ?_⟩, ?cut, ?next, ?last⟩
    · rw [hcauses, if_pos (State.abortsSlot_iff.mpr h)]
    · exact wrote_completion_taken hm h.1 (o := .aborted) (by rw [hmem, State.abortAccesses_left h])
    · rw [hcauses, if_neg (State.abortsSlot_iff.not.mpr h)]
    · rw [hmem, State.abortAccesses_other h]; rfl
    case cut =>
      rintro rfl
      rw [State.endAbort, if_neg (by simp), State.releaseRecord_eq, State.slotExamined_eq]
      constructor <;> first | (left; decide) | exact .inr rfl
    case next =>
      rintro h rfl
      rw [State.endAbort, if_pos rfl, State.releaseRecord_eq, State.afterSlot_next h, State.slotExamined_eq]
      exact ⟨by constructor <;> first | (left; decide) | exact .inr rfl, rfl⟩
    case last =>
      rintro hi rfl hg
      rw [State.endAbort, if_pos rfl, State.releaseRecord_eq, State.afterSlot_last hi (by simpa using hg), State.slotExamined_eq]
      exact ⟨by constructor <;> first | (left; decide) | exact .inr rfl, rfl, rfl, rfl⟩

/-! ### What a reset leaves of the transaction in progress (R146) -/

section
variable {s t : State} {made : Nat}

theorem State.cutMemory_idle (h : ∀ job, s.arbiter.owner ≠ .writer job) : s.cutMemory made = s.mem := by
  unfold State.cutMemory
  cases ho : s.arbiter.owner with
  | writer job => exact absurd ho (h job)
  | none | localBus | intake => rfl

theorem State.cutMemory_item {item : WriteItem} {rest : List WriteItem} (ho : s.arbiter.owner = .writer .item)
    (hl : s.writer.list = item :: rest) : s.cutMemory made = s.mem.makeAccesses (cutAccesses made (s.itemAccesses item)) := by
  unfold State.cutMemory
  rw [ho, hl]

theorem State.cutMemory_abort {i : Fin 32} {live : Bool} (ho : s.arbiter.owner = .writer (.abort i live)) :
    s.cutMemory made = s.mem.makeAccesses (cutAccesses made (s.abortAccesses i)) := by
  unfold State.cutMemory
  rw [ho]

theorem State.cutPublication_item {item : WriteItem} {rest : List WriteItem} (ho : s.arbiter.owner = .writer .item)
    (hl : s.writer.list = item :: rest) :
    s.cutPublication = if item.publishes then nextPublication s.writer.publication else s.writer.publication := by
  unfold State.cutPublication
  rw [ho, hl]

/-- Without a transaction for an item of the list the publication counter stands. -/
theorem State.cutPublication_of_ne (ho : s.arbiter.owner ≠ .writer .item) : s.cutPublication = s.writer.publication := by
  unfold State.cutPublication
  split
  · exact absurd ‹_› ho
  · rfl

/-- A cut transaction for a record of at most 16 words leaves its first words. -/
theorem wrote_cutRecord (hm : MemoryLaw s) {addr : Nat → BitVec 14} {first : Word} {body : List Word}
    (hinj : ∀ n n', n < 16 → n' < 16 → addr n = addr n' → n = n') (hlen : body.length ≤ 14)
    (ht : t.mem = s.mem.makeAccesses (cutAccesses made (recordAccesses addr first body))) :
    s.wrote t addr ((framed first body).dropLast.take made) := by
  refine wrote_of_accesses hm _ (fun n n' hn hn' => hinj n n' ?_ ?_) ?_
  · simp [framed] at hn; omega
  · simp [framed] at hn'; omega
  · rw [ht, recordAccesses_eq, cutAccesses_record]

/-- A word written to RUN_CTL with FULL_RESET (R172, R179). -/
theorem State.writeRunCtl_fullReset {w : Word} (hpin : s.resetLow = false) (hfull : w.getLsbD 3 = true) :
    s.writeRunCtl w made = (s.answer none false).fullReset made := by
  simp only [State.writeRunCtl, State.answer_resetLow, fullResetBit, hpin, hfull, Bool.false_eq_true, if_false, if_true]

/-- A word written to RUN_CTL with RESTART and without FULL_RESET: the restart takes RUN as written (R172, R178). -/
theorem State.writeRunCtl_restart {w : Word} (hpin : s.resetLow = false) (hfull : w.getLsbD 3 = false)
    (hrestart : w.getLsbD 2 = true) :
    s.writeRunCtl w made = ({ s.answer none false with run := runBit w } : State).restart made := by
  simp only [State.writeRunCtl, State.answer_resetLow, State.runCtlBits, fullResetBit, restartBit, hpin, hfull, hrestart,
    Bool.false_eq_true, if_false, if_true]

/-- RESTART and the full resets cut the transaction and set the counters of the Result Writer (R178, R179). -/
theorem exec_cuts {c : Instr} {made : Fin 16} {full : Bool}
    (h : (full = false ∧ ∃ w : Word, c = .restart w made ∧ s.resetLow = false ∧ w.getLsbD 3 = false ∧ w.getLsbD 2 = true) ∨
      (full = true ∧ (c = .resetN made ∨ ∃ w : Word, c = .fullReset w made ∧ s.resetLow = false ∧ w.getLsbD 3 = true))) :
    ∃ t, exec c s = .next t ∧ t.mem = s.cutMemory made ∧
      t.writer.publication = (if full then 1 else s.cutPublication) ∧
      t.writer.loggedEntry = (if full then 0 else s.writer.loggedEntry) ∧ t.writer.nextEntry = t.writer.loggedEntry := by
  rcases h with ⟨rfl, w, rfl, hpin, hfull, hrestart⟩ | ⟨rfl, rfl | ⟨w, rfl, hpin, hfull⟩⟩
  · exact ⟨_, congrArg Host.Outcome.next (State.writeRunCtl_restart hpin hfull hrestart), rfl, rfl, rfl, rfl⟩
  · exact ⟨_, rfl, rfl, rfl, rfl, rfl⟩
  · exact ⟨_, congrArg Host.Outcome.next (State.writeRunCtl_fullReset hpin hfull), rfl, rfl, rfl, rfl⟩

end

/-- Settles O9: what is cut by the owner of the port, and for an item of the list by its kind. -/
theorem resetCutsTheTransactionInProgress : Obligations.ResetCutsTheTransactionInProgress := by
  intro s c made full hm hc
  obtain ⟨t, ht, hmem, hpub, hlogged, hnext⟩ := exec_cuts hc
  refine ⟨t, ht, ?_⟩
  intro counted cut
  refine ⟨hlogged, hnext, fun hidle => ⟨?_, ?_⟩, fun rest ho => ?item, fun i live ho => ?abort⟩
  · rw [hmem, State.cutMemory_idle hidle]
  · rwa [State.cutPublication_of_ne (hidle _)] at hpub
  case item =>
    have key : ∀ item, s.writer.list = item :: rest →
        counted (if item.publishes then nextPublication s.writer.publication else s.writer.publication) ∧
          t.mem = s.mem.makeAccesses (cutAccesses made (s.itemAccesses item)) := fun item hl =>
      ⟨by rwa [State.cutPublication_item ho hl] at hpub, by rw [hmem, State.cutMemory_item ho hl]⟩
    refine ⟨fun i hl => ?_, fun k hl => ?_, fun hl => ?_, fun e hl => ?_, fun i o hl => ?_⟩
    · exact (key _ hl).imp_right (wrote_cutRecord hm (fun _ _ => shelfResultAddr_inj i) (by simp [shelfResultBody]))
    · exact (key _ hl).imp_right (wrote_cutRecord hm (fun _ _ => candResultAddr_inj k) (by simp [candResultBody]))
    · exact (key _ hl).imp_right (wrote_cutRecord hm (fun _ _ => logControlAddr_inj) (by simp [logControlBody]))
    · exact (key _ hl).imp_right
        (wrote_cutRecord hm (fun _ _ => logAddr_inj (logIndex_lt e.number)) (by simp [logEntryBody]))
    · exact (key _ hl).imp_right (wrote_cutCompletion hm)
  case abort =>
    rw [State.cutMemory_abort ho] at hmem
    refine ⟨by rwa [State.cutPublication_of_ne (by simp [ho])] at hpub, fun h => ?_, fun h => ?_⟩
    · rw [State.abortAccesses_left h] at hmem
      exact wrote_cutCompletion hm hmem
    · rw [hmem, State.abortAccesses_other h]
      simp [cutAccesses, Memory.makeAccesses]

end Sys2Proof.Machine
end

section
/-! PROOFS. Power-on, the full resets and the restart as whole states (R138, R146, R158, R159, R172, R178, R179). -/

namespace Sys2Proof.Machine

/-- A full reset cuts the transaction in progress (R146, R158). -/
theorem State.fullReset_cutTo (s : State) (made : Nat) : s.cutTo (s.fullReset made) made := ⟨rfl, rfl, rfl, rfl⟩

/-- A restart cuts the transaction in progress (R146, R158). -/
theorem State.restart_cutTo (s : State) (made : Nat) : s.cutTo (s.restart made) made := ⟨rfl, rfl, rfl, rfl⟩

/-- The answer at the bus and a new value of RUN are no part of what a reset cuts. -/
theorem State.cutTo_of_answer {s t : State} {run : Bool} {made : Nat}
    (h : ({ s.answer none false with run := run } : State).cutTo t made) : s.cutTo t made := h

/-- Settles O6: power-on, FULL_RESET and RESET_N by the values that each writes over those of State.reset. -/
theorem fullResetsLeaveTheResetValues : Obligations.FullResetsLeaveTheResetValues := by
  refine ⟨fun s => ⟨_, rfl, ?powerOn, rfl, rfl, rfl, rfl, Memory.wf_ofCells _⟩,
    fun s made => ⟨fun w hpin hfull => ?fullReset, ⟨_, rfl, ?resetN, rfl, rfl, s.fullReset_cutTo made⟩⟩⟩
  case powerOn => constructor <;> simp [State.powerOn]
  case fullReset =>
    refine ⟨_, congrArg Host.Outcome.next (State.writeRunCtl_fullReset hpin hfull), ?_, rfl,
      State.cutTo_of_answer ((s.answer none false).fullReset_cutTo made)⟩
    constructor <;> simp [State.fullReset, hpin]
  case resetN => constructor <;> simp [State.fullReset]

/-- Settles O8: the restart of a part whose run control bit has the value written (State.writeRunCtl_restart). -/
theorem restartKeepsWhatItMust : Obligations.RestartKeepsWhatItMust := by
  intro s w made hpin hfull hrestart
  refine ⟨_, congrArg Host.Outcome.next (State.writeRunCtl_restart hpin hfull hrestart), ?keeps, rfl, rfl, rfl, rfl, rfl, rfl,
    rfl, rfl, rfl, State.cutTo_of_answer (State.restart_cutTo _ made), rfl⟩
  case keeps => constructor <;> simp [State.restart, hpin]

end Sys2Proof.Machine
end

section
/-! PROOFS. RUN set, and the requests that start a sweep or mark a further one (R147, R154, R157, R172, R174, R177). -/

namespace Sys2Proof.Machine

/-! ### RUN_CTL without a reset bit (R172) -/

section
variable {s : State}

/-- A word written to RUN_CTL without FULL_RESET and RESTART: RUN takes its value, then a sweep is requested if SWEEP_NOW is set. -/
theorem State.writeRunCtl_run {w : Word} (hpin : s.resetLow = false) (hrestart : w.getLsbD 2 = false)
    (hfull : w.getLsbD 3 = false) : s.writeRunCtl w 0 = if w.getLsbD 1 then
      ((s.answer none false).writeRun (w.getLsbD 0)).sweepRequest else (s.answer none false).writeRun (w.getLsbD 0) := by
  simp only [State.writeRunCtl, State.answer_resetLow, State.runCtlBits, fullResetBit, restartBit, sweepNowBit, runBit, hpin,
    hfull, hrestart, Bool.false_eq_true, if_false]
  rfl

/-- RUN set in HALTED enters STARTING at step 1 (R157, R174). -/
theorem State.writeRun_starts (hrun : s.run = false) (he : s.engine = .halted) : s.writeRun true = { s with
    run := true, engine := .starting .readGlobal, haltCause := .none
    intake := { s.intake with pendingGlobals := none } } := by
  unfold State.writeRun State.runSet
  rw [hrun, if_neg (by simp), if_pos rfl, he]
  rfl

/-- RUN written 1 in another engine state, or when it was set already, changes RUN alone (R172, R177). -/
theorem State.writeRun_other (h : s.run = true ∨ s.engine ≠ .halted) : s.writeRun true = { s with run := true } := by
  unfold State.writeRun
  by_cases hrun : s.run = true
  · rw [if_pos hrun.symm, ← hrun]
  · rw [if_neg (Ne.symm hrun), if_pos rfl]
    have he := h.resolve_left hrun
    unfold State.runSet
    split
    · contradiction
    · rfl
    · rfl
    · rfl

/-! ### A sweep request (R147) -/

/-- A sweep request has no effect in these engine states. -/
theorem State.sweepRequest_none (h : s.engine = .halted ∨ s.engine = .stopping ∨ s.engine = .starting .readGlobal ∨
    ∃ i, s.engine = .starting (.slots i)) : s.sweepRequest = s := by
  unfold State.sweepRequest
  rcases h with h | h | h | ⟨i, h⟩ <;> rw [h]

/-- A sweep request in RUNNING starts a sweep when none is in progress. -/
theorem State.sweepRequest_starts (he : s.engine = .running) (hp : s.intake.position = none) :
    s.sweepRequest = s.startSweep := by
  unfold State.sweepRequest
  rw [he, hp]
  rfl

/-- A sweep request during a sweep in RUNNING or in step 5 of STARTING marks a further sweep. -/
theorem State.sweepRequest_marks
    (h : (s.engine = .running ∧ s.intake.position.isSome = true) ∨ s.engine = .starting .sweep) :
    s.sweepRequest = s.markFurther := by
  unfold State.sweepRequest
  rcases h with ⟨he, hp⟩ | he
  · rw [he]
    exact if_pos hp
  · rw [he]

/-- A sweep that starts with global values waiting under which no shelf falls (R147, R154). -/
theorem State.startSweep_rising {g : Globals} (hg : s.intake.pendingGlobals = some g)
    (hle : s.intake.applied.shelfCount ≤ g.shelfCount) : s.startSweep = { s with
      intake := { s.intake with applied := g, pendingGlobals := none,
                                sweepDeadline := some (deadlineAt s.clock g.period), position := some .global }
      writer := { s.writer with logEnable := g.logEnable } } := by
  have hnone : fallen g.shelfCount s.intake.applied.shelfCount = [] :=
    List.eq_nil_iff_forall_not_mem.mpr fun i hi => by have := mem_fallen.mp hi; omega
  have fell := State.outOfService_fold _ (fallen_nodup g.shelfCount s.intake.applied.shelfCount) (s.withGlobals g)
    (by rw [hnone]; simp)
  rw [State.startSweep_globals hg fell rfl, hnone]
  rfl

/-- How the part is found by a sweep request made of it. -/
theorem State.requestsSweep_finds {c : Instr} {u : State} (h : s.requestsSweep c u) :
    u.engine = s.engine ∧ u.clock = s.clock ∧ u.writer = s.writer ∧ u.intake.position = s.intake.position ∧
      u.intake.pendingGlobals = s.intake.pendingGlobals ∧ u.intake.applied = s.intake.applied := by
  rcases h with ⟨w, -, -, -, -, -, -, -, rfl⟩ | ⟨-, -, rfl⟩
  · exact ⟨rfl, rfl, rfl, rfl, rfl, rfl⟩
  · exact ⟨rfl, rfl, rfl, rfl, rfl, rfl⟩

/-- SWEEP_NOW and the expiry of the sweep deadline each make a sweep request. -/
theorem State.requestsSweep_exec {c : Instr} {u : State} (h : s.requestsSweep c u) : exec c s = .next u.sweepRequest := by
  rcases h with ⟨w, rfl, hpin, hrun, h0, h1, h2, h3, rfl⟩ | ⟨rfl, ⟨d, hd, hdue⟩, rfl⟩
  · have hset : (s.answer none false).writeRun true = s.answer none false := if_pos hrun.symm
    refine congrArg Host.Outcome.next ((State.writeRunCtl_run hpin h2 h3).trans ?_)
    rw [h0, h1, if_pos rfl, hset]
    rfl
  · exact congrArg Host.Outcome.next (if_pos (by rw [hd]; exact hdue))

end

/-- Settles O10: what RUN does to the engine is State.writeRun_starts and State.writeRun_other; a SWEEP_NOW of the same word finds no
engine state in which it acts. -/
theorem runSetBeginsStarting : Obligations.RunSetBeginsStarting := by
  intro s w hpin h0 h2 h3 h1
  have hword := State.writeRunCtl_run hpin h2 h3
  rw [h0] at hword
  by_cases hstart : s.run = false ∧ s.engine = .halted
  · have hset := State.writeRun_starts (s := s.answer none false) hstart.1 hstart.2
    rw [State.sweepRequest_none (by rw [hset]; simp), ite_self, hset] at hword
    refine ⟨_, congrArg Host.Outcome.next hword, ?_, rfl, rfl, fun _ _ => ⟨rfl, rfl, rfl⟩, fun h => ?_⟩
    · constructor <;> simp
    · simp [hstart] at h
  · have hother : s.run = true ∨ s.engine ≠ .halted := by
      rwa [not_and_or, Bool.not_eq_false] at hstart
    have hset := State.writeRun_other (s := s.answer none false) hother
    have hreq : s.writeRunCtl w 0 = (s.answer none false).writeRun true := by
      rw [hword]
      rcases h1 with h1 | h1
      · rw [h1, if_neg Bool.false_ne_true]
      · rw [State.sweepRequest_none (by rw [hset]; exact h1.imp_right .inl), ite_self]
    rw [hset] at hreq
    refine ⟨_, congrArg Host.Outcome.next hreq, ?_, rfl, rfl, fun hr he => absurd ⟨hr, he⟩ hstart, fun _ => ⟨rfl, rfl, rfl⟩⟩
    constructor <;> simp

/-- Settles O12: a request by what it finds the engine and the Intake Unit at. -/
theorem sweepRequestsStartOrMarkASweep : Obligations.SweepRequestsStartOrMarkASweep := by
  intro s u c h
  obtain ⟨hengine, hclock, hwriter, hpos, hpending, happlied⟩ := State.requestsSweep_finds h
  rw [State.requestsSweep_exec h, ← hengine, ← hpos, ← hpending, ← hclock, ← hwriter, ← happlied]
  refine ⟨fun he hp hg => ?plain, fun g he hp hg hle => ?rising, fun h => ?marked, fun h => ?idle⟩
  case plain => rw [State.sweepRequest_starts he hp, State.startSweep_plain hg]
  case rising => rw [State.sweepRequest_starts he hp, State.startSweep_rising hg hle]
  case marked => exact congrArg Host.Outcome.next (State.sweepRequest_marks h)
  case idle => rw [State.sweepRequest_none h]

end Sys2Proof.Machine
end

section
/-! PROOFS. The memory port: host accesses, and the requests of the rows that use it (R123, R138, R144, R145, R160). -/

namespace Sys2Proof.Machine

/-! ### Requests at the port (R145) -/

section
variable {s : State}

/-- A host access is granted at once when the port is free. -/
theorem State.requestHost_granted {a : HostAccess} (hhost : s.arbiter.host = none) (ho : s.arbiter.owner = .none) :
    s.requestHost a = { s with arbiter := { s.arbiter with owner := .localBus, host := some a } } := by
  unfold State.requestHost
  rw [if_neg (by simp [hhost])]
  dsimp only
  rw [ho]
  rfl

/-- A host access waits while the port is in use. -/
theorem State.requestHost_waits {a : HostAccess} (hhost : s.arbiter.host = none) (ho : s.arbiter.owner ≠ .none) :
    s.requestHost a = { s with arbiter := { s.arbiter with host := some a } } := by
  unfold State.requestHost
  rw [if_neg (by simp [hhost])]
  dsimp only
  split
  · contradiction
  · rfl
  · rfl
  · rfl

/-- A request of the Intake Unit waits while another owner has the port. -/
theorem State.requestIntake_waits (h : s.arbiter.owner = .localBus ∨ ∃ job, s.arbiter.owner = .writer job) :
    s.requestIntake = { s with arbiter := { s.arbiter with intakeWaits := true } } := by
  unfold State.requestIntake
  rcases h with h | ⟨job, h⟩ <;> simp only [h]

/-- A request of the Intake Unit is granted when the port is free. -/
theorem State.requestIntake_granted (ho : s.arbiter.owner = .none) : s.requestIntake = s.grantIntake := by
  unfold State.requestIntake
  rw [ho]

/-- A request of the Intake Unit while it has the port has no effect. -/
theorem State.requestIntake_owner (ho : s.arbiter.owner = .intake) : s.requestIntake = s := by
  unfold State.requestIntake
  rw [ho]

/-- A request of the Result Writer waits while another owner has the port. -/
theorem State.requestWriter_waits {job : WriterJob} (h : s.arbiter.owner = .localBus ∨ s.arbiter.owner = .intake) :
    s.requestWriter job = { s with arbiter := { s.arbiter with writerWaits := true } } := by
  unfold State.requestWriter
  rcases h with h | h <;> simp only [h]

/-- A request of the Result Writer is granted when the port is free. -/
theorem State.requestWriter_granted {job : WriterJob} (ho : s.arbiter.owner = .none) : s.requestWriter job = s.grantWriter job := by
  unfold State.requestWriter
  rw [ho]

/-! ### The end of a host access (R144, R145) -/

/-- Only the arbiter changes when the free port goes to the internal requester that waits. -/
theorem State.grantInternal_eq (ho : s.arbiter.owner = .none) (hhost : s.arbiter.host = none) :
    s.grantInternal = { s with arbiter := s.arbiter.handedOn s.intakeWants s.writerJob } := by
  rw [← State.grantInternal_arbiter s ho hhost]
  unfold State.grantInternal State.grantIntake State.grantWriter
  dsimp only
  (repeat' split) <;> rfl

/-- A read answers with the word, and the port is handed on. -/
theorem State.makeAccess_read {a : HostAccess} (h : a.op = .read) : s.makeAccess a = { s with
    bus := ⟨some (s.mem.readWord a.word), false⟩
    arbiter := ({ s.arbiter with host := none } : Arbiter).handedOn s.intakeWants s.writerJob } := by
  unfold State.makeAccess
  rw [h]
  exact State.grantInternal_eq rfl rfl

/-- A write stores the word, and the port is handed on. -/
theorem State.makeAccess_write {a : HostAccess} {v : Word} (h : a.op = .write v) : s.makeAccess a = { s with
    bus := ⟨none, false⟩
    mem := s.mem.writeWord a.word v
    arbiter := ({ s.arbiter with host := none } : Arbiter).handedOn s.intakeWants s.writerJob } := by
  unfold State.makeAccess
  rw [h]
  exact State.grantInternal_eq rfl rfl

end

/-- Settles O18: the request by the owner of the port, and the access made by its operation. -/
theorem hostAccessesReadAndWriteWords : Obligations.HostAccessesReadAndWriteWords := by
  intro s a
  refine ⟨fun hhost ho => congrArg Host.Outcome.next (State.requestHost_granted hhost ho),
    fun hhost ho => congrArg Host.Outcome.next (State.requestHost_waits hhost ho),
    fun hhost => congrArg Host.Outcome.next (if_pos hhost),
    fun h => congrArg Host.Outcome.next (if_neg (not_and_or.mpr h)), fun ho hhost hm => ?made⟩
  have hx : exec (.hostMemoryAccess a .finish) s = .next (s.makeAccess a) := congrArg Host.Outcome.next (if_pos ⟨ho, hhost⟩)
  cases hop : a.op with
  | read =>
    rw [State.makeAccess_read hop] at hx
    exact ⟨_, hx, rfl, fun _ => ⟨by constructor <;> simp, rfl⟩, fun _ h => by cases h⟩
  | write v =>
    rw [State.makeAccess_write hop] at hx
    refine ⟨_, hx, rfl, fun h => (by cases h), fun v' h => ?_⟩
    cases h
    exact ⟨by constructor <;> simp, rfl, wrote_of_writeWord hm rfl⟩

/-! ### A row's request and its end (log entry 3) -/

/-- The whole form of a row is its request followed by its end. -/
def SplitsAtRequest (row : Phase → Instr) : Prop :=
  ∀ s u : State, exec (row .request) s = .next u → exec (row .whole) s = exec (row .finish) u

/-- A row that acts only in the states that fit it, whose request leaves a state that still fits. -/
theorem SplitsAtRequest.of_fits {α : Type} {row : Phase → Instr} {fits : α → State → Prop} {effect : α → Phase → State → State}
    (hfit : ∀ x s ph, fits x s → exec (row ph) s = .next (effect x ph s))
    (hmisfit : ∀ s ph, (∀ x, ¬ fits x s) → exec (row ph) s = .next s)
    (hkeep : ∀ x s, fits x s → fits x (effect x .request s))
    (hwhole : ∀ x s, effect x .whole s = effect x .finish (effect x .request s)) : SplitsAtRequest row := by
  intro s u hu
  by_cases h : ∃ x, fits x s
  · obtain ⟨x, h⟩ := h
    rw [hfit x s .request h] at hu
    cases hu
    rw [hfit x s .whole h, hfit x _ .finish (hkeep x s h), hwhole]
  · have hmis := fun ph => hmisfit s ph (not_exists.mp h)
    rw [hmis .request] at hu
    cases hu
    rw [hmis .whole, hmis .finish]

theorem State.intakeRow_whole (s : State) (act : State → State) :
    s.intakeRow true .whole act = (s.intakeRow true .request act).intakeRow true .finish act := rfl

/-- A row of a sweep acts at the positions of its kind (R148). -/
theorem SplitsAtRequest.of_position {α : Type} {row : Phase → Instr} (kind : α → Position) {take : α → State → State}
    (hfit : ∀ s x ph, s.intake.position = some (kind x) →
      exec (row ph) s = .next (s.intakeRow true ph fun s => s.sweepTransaction (take x)))
    (hmisfit : ∀ s ph, (∀ x, s.intake.position ≠ some (kind x)) → exec (row ph) s = .next s) : SplitsAtRequest row :=
  .of_fits (fits := fun x s => s.intake.position = some (kind x)) (fun x s ph h => hfit s x ph h) hmisfit
    (fun x s h => (congrArg Intake.position (by simp [State.intakeRow])).trans h) fun _ s => s.intakeRow_whole _

/-- A row of the Result Writer acts when an item of its kind is at the head of the write list (R160). -/
theorem SplitsAtRequest.of_item {α : Type} {row : Phase → Instr} (kind : α → WriteItem) {act : α → State → State}
    (hfit : ∀ s x ph, s.writer.list.head? = some (kind x) → exec (row ph) s = .next (s.writerRow ph (act x)))
    (hmisfit : ∀ s ph, (∀ x, s.writer.list.head? ≠ some (kind x)) → exec (row ph) s = .next s) : SplitsAtRequest row := by
  refine .of_fits (fits := fun x s => s.writer.list.head? = some (kind x)) (fun x s ph h => hfit s x ph h) hmisfit
    (fun x s h => ?_) fun _ _ => rfl
  have hwriter : (s.writerRow .request (act x)).writer = s.writer := by unfold State.writerRow; dsimp only; split <;> simp
  rw [hwriter, h]

/-- The six rows of a sweep. -/
theorem splitsAtRequest_sweep {row : Phase → Instr} (h : row = .globalRecord ∨ row = .commandTake ∨ row = .shelfConfiguration ∨
    row = .candidateConfiguration ∨ row = .shelfReport ∨ row = .observation) : SplitsAtRequest row := by
  rcases h with rfl | rfl | rfl | rfl | rfl | rfl
  · exact .of_position (fun _ : Unit => .global) (fun s _ ph h => execSweepRow s .global h ph) fun s ph h => by
      simp [exec, execGlobalRecord, h (), State.intakeRow]
  · exact .of_position .slot (fun s i ph h => execSweepRow s (.slot i) h ph) fun s ph h => by
      simp [exec, execCommandTake]
  · exact .of_position .shelfConfig (fun s i ph h => execSweepRow s (.shelfConfig i) h ph) fun s ph h => by
      simp [exec, execShelfConfiguration]
  · exact .of_position .candConfig (fun s i ph h => execSweepRow s (.candConfig i) h ph) fun s ph h => by
      simp [exec, execCandidateConfiguration]
  · exact .of_position .report (fun s i ph h => execSweepRow s (.report i) h ph) fun s ph h => by
      simp [exec, execShelfReport]
  · exact .of_position .obs (fun s i ph h => execSweepRow s (.obs i) h ph) fun s ph h => by
      simp [exec, execObservation]

/-- The row in which the Result Writer serves an item of its list (R160). -/
def WriteItem.row : WriteItem → Phase → Instr
  | .shelfResult _ => .shelfResultWrite
  | .candResult _ => .candidateResultWrite
  | .logControl => .logControlWrite
  | .completion _ _ => .commandCompletion
  | .logEntry _ => .logEntryWrite

/-- What the transaction for an item does besides handing the port on (R121, R161, R165). -/
def State.itemServed (s : State) : WriteItem → State
  | .shelfResult i => s.shelfResultWritten i
  | .candResult k => s.candResultWritten k
  | .logControl => s.logControlWritten
  | .completion i o => s.completionMade i o
  | .logEntry e => s.logEntryWritten e

/-- What the row of the item at the head of the list does. -/
theorem WriteItem.exec_row {s : State} {item : WriteItem} (h : s.writer.list.head? = some item) (ph : Phase) :
    exec (item.row ph) s = .next (s.writerRow ph fun s => s.itemServed item) := by
  cases item <;> simp only [WriteItem.row, State.itemServed, exec, execShelfResultWrite, execCandidateResultWrite,
    execLogControlWrite, execCommandCompletion, execLogEntryWrite, h]

/-- The rows of the Result Writer for the items of its list. -/
theorem splitsAtRequest_writer {row : Phase → Instr} (h : row = .shelfResultWrite ∨ row = .candidateResultWrite ∨
    row = .logEntryWrite ∨ row = .logControlWrite ∨ row = .commandCompletion) : SplitsAtRequest row := by
  rcases h with rfl | rfl | rfl | rfl | rfl
  · exact .of_item .shelfResult (fun s x ph h => WriteItem.exec_row h ph) fun s ph h => by
      simp [exec, execShelfResultWrite]
  · exact .of_item .candResult (fun s x ph h => WriteItem.exec_row h ph) fun s ph h => by
      simp [exec, execCandidateResultWrite]
  · exact .of_item .logEntry (fun s x ph h => WriteItem.exec_row h ph) fun s ph h => by
      simp [exec, execLogEntryWrite]
  · exact .of_item (fun _ : Unit => .logControl) (fun s x ph h => WriteItem.exec_row h ph) fun s ph h => by
      have hhead := h ()
      simp [exec, execLogControlWrite]
  · exact .of_item (fun p : Fin 32 × CmdOutcome => .completion p.1 p.2) (fun s x ph h => WriteItem.exec_row h ph) fun s ph h => by
      have hhead := fun i o => h (i, o)
      simp [exec, execCommandCompletion]

/-- The read of step 1 fits after its request where it fits before. -/
theorem State.stepOneFits_requestIntake {s : State} (h : s.stepOneFits = true) : s.requestIntake.stepOneFits = true := by
  by_cases he : s.engine = .starting .readGlobal
  · simp [State.stepOneFits, he]
  · have ho : s.arbiter.owner = .intake := by simp [State.stepOneFits, he] at h; exact h.1.2
    rw [State.requestIntake_owner ho, h]

theorem splitsAtRequest_startupGlobalRead : SplitsAtRequest .startupGlobalRead := by
  refine .of_fits (α := Unit) (fits := fun _ s => s.stepOneFits = true)
    (effect := fun _ ph s => s.intakeRow true ph fun s => s.stepOne.releaseRecord.endStopping) (fun _ s ph h => ?_)
    (fun s ph h => ?_) (fun _ s h => State.stepOneFits_requestIntake h) fun _ s => s.intakeRow_whole _
  · simp only [exec, execStartupGlobalRead, h]
  · simp only [exec, execStartupGlobalRead, Bool.not_eq_true _ ▸ h ()]
    rfl

theorem splitsAtRequest_abortedCompletion : SplitsAtRequest .abortedCompletion := fun _ _ hu => by cases hu; rfl

theorem splitsAtRequest_hostMemoryAccess (a : HostAccess) : SplitsAtRequest (.hostMemoryAccess a) := fun _ _ hu => by
  cases hu; rfl

/-- The Result Writer serves its list outside step 3 of STARTING (R123, R160). -/
theorem State.servesList_of_item {s : State} {item : WriteItem} {rest : List WriteItem} (hl : s.writer.list = item :: rest)
    (he : ∀ i, s.engine ≠ .starting (.slots i)) : s.servesList = true := by
  unfold State.servesList State.writerJob
  split
  · exact absurd ‹_› (he _)
  all_goals rw [hl]; rfl

/-- Settles O19: the whole form of a row by its kind (SplitsAtRequest), then each request by the owner of the port. -/
theorem requestsAreGrantedOrWait : Obligations.RequestsAreGrantedOrWait := by
  refine ⟨⟨fun s u row hrow => ?splits, fun s u he hu => ?evaluation⟩, fun s p row hp hrow => ?sweep,
    fun s item rest row hl hrow he => ?item, fun s he => ?stepOne, fun s i he => ?stepThree⟩
  case splits =>
    have hsplit : SplitsAtRequest row := by
      rcases hrow with h | h | h | h | h | h | rfl | h | h | h | h | h | rfl | ⟨a, rfl⟩
      iterate 6 exact splitsAtRequest_sweep (by simp [h])
      · exact splitsAtRequest_startupGlobalRead
      iterate 5 exact splitsAtRequest_writer (by simp [h])
      · exact splitsAtRequest_abortedCompletion
      · exact splitsAtRequest_hostMemoryAccess a
    exact hsplit s u
  case evaluation =>
    cases hu
    exact congrArg Host.Outcome.next (if_neg (by simp [he]))
  case sweep =>
    have hx : exec (row .request) s = .next s.requestIntake := by
      have h := execSweepRow s p hp .request
      rw [hrow]
      cases p <;> exact h
    rw [hx]
    exact ⟨fun ho => congrArg Host.Outcome.next (State.requestIntake_granted ho),
      fun h => congrArg Host.Outcome.next (State.requestIntake_waits h)⟩
  case item =>
    have hx : exec (row .request) s = .next (s.requestWriter .item) := by
      have hitem : row = item.row := by cases item <;> exact hrow
      rw [hitem, WriteItem.exec_row (by rw [hl]; rfl)]
      exact congrArg Host.Outcome.next (if_pos (State.servesList_of_item hl he))
    rw [hx]
    exact ⟨fun ho => congrArg Host.Outcome.next (State.requestWriter_granted ho),
      fun h => congrArg Host.Outcome.next (State.requestWriter_waits h)⟩
  case stepOne =>
    have hx : exec (.startupGlobalRead .request) s = .next s.requestIntake :=
      congrArg Host.Outcome.next (if_pos (by simp [State.stepOneFits, he]))
    rw [hx]
    exact ⟨fun ho => congrArg Host.Outcome.next (State.requestIntake_granted ho),
      fun h => congrArg Host.Outcome.next (State.requestIntake_waits h)⟩
  case stepThree =>
    have hx : exec (.abortedCompletion .request) s = .next (s.requestWriter (.abort i true)) := by
      simp only [exec, execAbortedCompletion, he]
    rw [hx]
    exact ⟨fun ho => congrArg Host.Outcome.next (State.requestWriter_granted ho),
      fun h => congrArg Host.Outcome.next (State.requestWriter_waits h)⟩

end Sys2Proof.Machine
end

section
/-! PROOFS. The order in which a sweep visits the records (R148). -/

namespace Sys2Proof.Machine

/-! ### Regions one after another, each in ascending index -/

/-- A list whose elements lead each to the next, and its last element. -/
structure LeadsTo {α : Type} (R : α → α → Prop) (l : List α) (last : α) : Prop where
  chain : l.IsChain R
  ends : l.getLast? = some last

section
variable {α : Type} {R : α → α → Prop} {n : Nat}

/-- A region is a chain when each of its records leads to the one after it. -/
theorem isChain_map_finRange {f : Fin n → α} (h : ∀ (k : Nat) (hk : k + 1 < n), R (f ⟨k, by omega⟩) (f ⟨k + 1, hk⟩)) :
    ((List.finRange n).map f).IsChain R := by
  rw [List.isChain_iff_getElem]
  intro k hk
  simp only [List.length_map, List.length_finRange] at hk
  simpa using h k hk

/-- A region joins the regions before it when their last record leads to its first one. -/
theorem LeadsTo.append_region {l : List α} {x : α} (hl : LeadsTo R l x) {f : Fin (n + 1) → α} (hx : R x (f 0))
    (hf : ∀ (k : Nat) (hk : k + 1 < n + 1), R (f ⟨k, by omega⟩) (f ⟨k + 1, hk⟩)) :
    LeadsTo R (l ++ (List.finRange (n + 1)).map f) (f (Fin.last n)) where
  chain := by
    refine hl.chain.append (isChain_map_finRange hf) fun a ha b hb => ?_
    rw [hl.ends, Option.mem_some_iff] at ha
    rw [List.finRange_succ, List.map_cons, List.head?_cons, Option.mem_some_iff] at hb
    rwa [← ha, ← hb]
  ends := by simp [List.finRange_succ_last]

/-- The numbers below a bound, in ascending order. -/
theorem filter_lt_finRange {count : Nat} (h : count ≤ n) :
    (List.finRange n).filter (fun i => decide (i.val < count)) = (List.finRange count).map (Fin.castLE h) := by
  refine List.Pairwise.eq_of_mem_iff (r := (· < ·)) ((List.sortedLT_finRange n).pairwise.filter _)
    ((List.sortedLT_finRange count).pairwise.map _ fun _ _ hlt => hlt) fun i => ?_
  simp only [List.mem_filter, List.mem_finRange, true_and, decide_eq_true_eq, List.mem_map]
  exact ⟨fun hi => ⟨⟨i, hi⟩, rfl⟩, fun ⟨j, hj⟩ => hj ▸ j.isLt⟩

end

/-! ### The regions of a sweep -/

/-- One position comes next after the other in a sweep under a shelf count. -/
def Position.Before (count : Nat) (p q : Position) : Prop := p.next count = some q

/-- The positions of the global record, the slots and the configuration records of the shelves below the shelf count. -/
def shelfPositions (count : Nat) : List Position :=
  [.global] ++ (List.finRange 32).map .slot ++ ((List.finRange 32).filter fun i => decide (i.val < count)).map .shelfConfig

/-- All positions of a sweep. -/
def sweepPositions (count : Nat) : List Position :=
  shelfPositions count ++ (List.finRange 256).map .candConfig ++ (List.finRange 32).map .report ++
    (List.finRange 256).map .obs

section
variable {count : Nat}

theorem sweepPositions_length (h : count ≤ 32) : (sweepPositions count).length = 577 + count := by
  simp only [sweepPositions, shelfPositions, filter_lt_finRange h, List.length_append, List.length_map, List.length_finRange,
    List.length_singleton]
  omega

/-- After the last slot, or the last shelf configuration record, come the candidate configuration records. -/
theorem shelfPositions_leadsTo (h : count ≤ 32) :
    ∃ x, LeadsTo (Position.Before count) (shelfPositions count) x ∧ x.Before count (.candConfig 0) := by
  have hslots : LeadsTo (Position.Before count) ([.global] ++ (List.finRange 32).map .slot) (.slot 31) :=
    LeadsTo.append_region ⟨List.isChain_singleton _, rfl⟩ rfl fun _ hk => dif_pos hk
  unfold shelfPositions
  rw [filter_lt_finRange h, List.map_map]
  cases count with
  | zero => exact ⟨.slot 31, by simpa using hslots, rfl⟩
  | succ c =>
    exact ⟨_, hslots.append_region rfl fun _ hk => (dif_pos (hk.trans_le h)).trans (if_pos hk), by
      simp [Position.Before, Position.next]⟩

/-- Each position of a sweep leads to the next one, up to the last observation. -/
theorem sweepPositions_leadsTo (h : count ≤ 32) : LeadsTo (Position.Before count) (sweepPositions count) (.obs 255) := by
  obtain ⟨x, hshelves, hx⟩ := shelfPositions_leadsTo h
  have hcands := hshelves.append_region (f := .candConfig) hx fun _ hk => dif_pos hk
  have hreports := hcands.append_region (f := .report) rfl fun _ hk => dif_pos hk
  exact hreports.append_region (f := .obs) rfl fun _ hk => dif_pos hk

end

/-- Settles O29: the order of sweepPositions, region by region (LeadsTo.append_region). -/
theorem sweepVisitsTheRecordsInOrder : Obligations.SweepVisitsTheRecordsInOrder := by
  intro count h order
  have hchain : order.IsChain (Position.Before count) := (sweepPositions_leadsTo h).chain
  exact ⟨sweepPositions_length h, List.isChain_iff_getElem.mp hchain, rfl⟩

end Sys2Proof.Machine
end

section
/-! PROOFS. The global record taken in a sweep, and the end of a sweep at its last record (R141, R147, R148, R153, R154, R174). -/

namespace Sys2Proof.Machine

/-! ### The global record (R154) -/

theorem GlobalRecord.refused_iff (r : GlobalRecord) :
    r.refused = false ↔ r.version = 1 ∧ 1 ≤ r.shelfCount ∧ r.shelfCount ≤ 32 := by
  simp [GlobalRecord.refused, Nat.one_le_iff_ne_zero, and_assoc]

section
variable {s : State}

/-- A fresh record that is not refused waits for the next sweep. -/
theorem State.takeGlobal_held (hfresh : fresh (readGlobal s.mem).seq (readGlobal s.mem).echo s.intake.lastGlobal)
    (h : (readGlobal s.mem).refused = false) : s.takeGlobal = { s with
      intake := { s.intake with lastGlobal := some (readGlobal s.mem).seq, pendingGlobals := some (readGlobal s.mem).values }
      writer := ({ s.writer with
        globalSeq := (readGlobal s.mem).seq, globalOutcome := (readGlobal s.mem).outcome } : Writer).asked .logControl } := by
  unfold State.takeGlobal State.globalOutcome
  rw [if_pos ((takes_iff_fresh _ _ _).mpr hfresh), if_neg (by rw [h]; exact Bool.false_ne_true), State.ask_eq]

/-- A fresh record that is refused raises INTAKE. -/
theorem State.takeGlobal_refused (hfresh : fresh (readGlobal s.mem).seq (readGlobal s.mem).echo s.intake.lastGlobal)
    (h : (readGlobal s.mem).refused = true) : s.takeGlobal = { s with
      causes := { s.causes with intake := true }
      intake := { s.intake with lastGlobal := some (readGlobal s.mem).seq }
      writer := ({ s.writer with
        globalSeq := (readGlobal s.mem).seq, globalOutcome := .rejected } : Writer).asked .logControl } := by
  unfold State.takeGlobal State.globalOutcome
  rw [if_pos ((takes_iff_fresh _ _ _).mpr hfresh), if_pos h, State.ask_eq]
  rfl

end

/-- Settles O31: the handover of the global record as a whole state, at a position that is not the last one. -/
theorem globalRecordIsHeldOrRefused : Obligations.GlobalRecordIsHeldOrRefused := by
  intro s hat hfresh r
  have done := State.sweepRow_done hat State.takeGlobal (execSweepRow s .global hat.1 .finish)
  refine ⟨fun h => ?held, fun h => ?refused⟩
  case held =>
    have hok := r.refused_iff.mpr h
    rw [State.takeGlobal_held hfresh hok, GlobalRecord.outcome_of_passed hok] at done
    obtain ⟨t, x, ht, rfl, hport⟩ := done hat.1 rfl rfl rfl (.inl (by simp))
    exact ⟨_, ht, by constructor <;> simp, ⟨rfl, hport⟩, rfl⟩
  case refused =>
    rw [State.takeGlobal_refused hfresh ((Bool.not_eq_false _).mp (r.refused_iff.not.mpr h))] at done
    obtain ⟨t, x, ht, rfl, hport⟩ := done hat.1 rfl rfl rfl (.inl (by simp))
    exact ⟨_, ht, by constructor <;> simp, rfl, ⟨rfl, hport⟩, rfl⟩

/-! ### The end of a sweep (R147, R148, R174) -/

section
variable {s : State}

/-- What the end of a sweep leaves of the sweep itself and of the global values: the last record is an observation, which touches
neither. -/
theorem State.swept_sweep (s : State) : s.swept.engine = .running ∧ s.swept.clock = s.clock ∧ s.swept.intake.position = none ∧
    s.swept.intake.furtherSweep = false ∧ s.swept.intake.pendingGlobals = s.intake.pendingGlobals ∧
    s.swept.intake.applied = s.intake.applied := by
  refine ⟨rfl, ?_, rfl, rfl, ?_, State.handover_applied s _⟩
  · simp [State.swept, State.handover]
  · unfold State.swept State.handover State.takeObs
    dsimp only
    split <;> simp [State.setLastObs]

/-- The end of a sweep whose last record is passed over. -/
theorem State.swept_stale
    (h : ¬ fresh (readObservation s.mem 255).seq (readObservation s.mem 255).echo s.intake.lastObs[(255 : Fin 256)]) :
    s.swept = { s with
      engine := .running
      intake := { s.intake with furtherSweep := false, position := none }
      writer := if s.engine = .running then s.writer
        else ((List.finRange 32).map WriteItem.shelfResult ++ (List.finRange 256).map WriteItem.candResult).foldl
          Writer.asked s.writer } := by
  have hover : s.handover (.obs 255) = s := State.takeObs_stale h
  unfold State.swept
  rw [hover]

/-- The sweep ends without a further one. -/
theorem State.observation_lastSweep (hat : s.sweepingAt (.obs 255)) (he : s.engine = .running ∨ s.engine = .starting .sweep)
    (hf : s.intake.furtherSweep = false) : exec (.observation .finish) s = .next s.swept.releaseRecord := by
  rw [State.observation_ends hat he, hf]
  rfl

/-- The sweep ends with a further one. -/
theorem State.observation_furtherSweep (hat : s.sweepingAt (.obs 255))
    (he : s.engine = .running ∨ s.engine = .starting .sweep) (hf : s.intake.furtherSweep = true) :
    exec (.observation .finish) s = .next s.swept.startSweep.releaseRecord := by
  rw [State.observation_ends hat he, hf]
  rfl

/-- The row at the last position when its record is passed over and no global values wait. -/
theorem State.observation_lastStale (hat : s.sweepingAt (.obs 255))
    (he : s.engine = .running ∨ s.engine = .starting .sweep)
    (hstale : ¬ fresh (readObservation s.mem 255).seq (readObservation s.mem 255).echo s.intake.lastObs[(255 : Fin 256)])
    (hg : s.intake.pendingGlobals = none) :
    ∃ t, exec (.observation .finish) s = .next t ∧ s.portPassed t ∧ t = { s with
      engine := .running
      arbiter := t.arbiter
      intake := if s.intake.furtherSweep then { s.intake with
          furtherSweep := false, position := some .global
          sweepDeadline := some (deadlineAt s.clock s.intake.applied.period) }
        else { s.intake with position := none }
      writer := s.swept.writer } := by
  have hswept := State.swept_stale hstale
  cases hf : s.intake.furtherSweep with
  | true =>
    have harb : s.swept.startSweep.arbiter = s.arbiter := by rw [hswept]; simp
    refine ⟨_, State.observation_furtherSweep hat he hf, State.portPassed_of harb rfl, ?_⟩
    rw [State.releaseRecord_eq, State.startSweep_plain (by rw [hswept]; exact hg), hswept]
    rfl
  | false =>
    refine ⟨_, State.observation_lastSweep hat he hf, State.portPassed_of (by rw [hswept]) rfl, ?_⟩
    rw [State.releaseRecord_eq, hswept, if_neg Bool.false_ne_true, ← hf]

end

/-- Settles O41: the part at the end of the sweep is State.swept, from which a further sweep starts with or without global values. -/
theorem sweepEndsAfterItsLastRecord : Obligations.SweepEndsAfterItsLastRecord := by
  refine ⟨fun s hat hstale hg => ?stale, fun s hat he => ?taken⟩
  case stale =>
    intro again ended
    refine ⟨fun he => ?running, fun he => ?starting⟩
    case running =>
      obtain ⟨t, hx, hport, ht⟩ := State.observation_lastStale hat (.inl he) hstale hg
      have hwriter : s.swept.writer = s.writer := by rw [State.swept_stale hstale]; exact if_pos he
      refine ⟨t, hx, ?_, hport, by rw [ht]⟩
      rw [ht, hwriter, ← he]
      constructor <;> simp
    case starting =>
      obtain ⟨t, hx, hport, ht⟩ := State.observation_lastStale hat (.inr he) hstale hg
      have hwriter := congrArg State.writer (State.swept_stale hstale)
      refine ⟨t, hx, ?_, hport, by rw [ht], by rw [ht], ?_⟩
      · rw [ht]
        constructor <;> simp
      · rw [ht]
        exact hwriter.trans (if_neg (by simp [he]))
  case taken =>
    obtain ⟨hrunning, hclock, hpos, hfurther, hpending, happlied⟩ := s.swept_sweep
    refine ⟨s.swept, (State.sweepEndsIn_iff hat he).mpr rfl, hrunning, hpos, hfurther, hpending, happlied,
      fun hf => ?last, fun hf hg => ?plain, fun g hf hg hle => ?rising⟩
    case last =>
      have hport : s.swept.portPassed s.swept.releaseRecord := State.portPassed_of rfl rfl
      refine ⟨_, State.observation_lastSweep hat he hf, ?_, hport⟩
      rw [State.releaseRecord_eq]
      constructor <;> simp
    case plain =>
      have hx := State.observation_furtherSweep hat he hf
      have hport : s.swept.portPassed s.swept.startSweep.releaseRecord := State.portPassed_of (by simp) rfl
      rw [State.startSweep_plain (hpending.trans hg), State.releaseRecord_eq] at hx hport
      exact ⟨_, hx, by constructor <;> simp, hport, by rw [← hclock, ← happlied]⟩
    case rising =>
      have hx := State.observation_furtherSweep hat he hf
      have hport : s.swept.portPassed s.swept.startSweep.releaseRecord := State.portPassed_of (by simp) rfl
      rw [State.startSweep_rising (hpending.trans hg) (happlied ▸ hle), State.releaseRecord_eq] at hx hport
      exact ⟨_, hx, by constructor <;> simp, hport, by rw [← hclock], rfl⟩

end Sys2Proof.Machine
end

section
/-! PROOFS. The attention registers bit by bit, SHELF_CHG, and the ATTN line (R167, R169, R171). -/

namespace Sys2Proof.Machine

/-! ### Bit by bit -/

/-- Bit `n` of ATTN for the causes and ALARM, or of ATTN_EN for their enables (R171). -/
def Causes.bit (c : Causes) (alarm : Bool) : Nat → Bool
  | 0 => c.result
  | 1 => c.command
  | 2 => c.log
  | 3 => c.intake
  | 4 => c.halt
  | 8 => alarm
  | _ => false

theorem Causes.bit_unnamed (c : Causes) (alarm : Bool) {n : Nat} (h5 : 5 ≤ n) (h8 : n ≠ 8) : c.bit alarm n = false := by
  unfold Causes.bit
  split <;> first | omega | rfl

/-- The bits without a name, and the six that have one, ALARM first (R171). -/
theorem bit_unnamed_or (n : Nat) : (5 ≤ n ∧ n ≠ 8) ∨ n = 8 ∨ n = 0 ∨ n = 1 ∨ n = 2 ∨ n = 3 ∨ n = 4 := by omega

theorem Causes.getLsbD_fields (c : Causes) (alarm : Bool) (n : Nat) :
    (packWord (c.fields alarm)).getLsbD n = c.bit alarm n := by
  rcases bit_unnamed_or n with ⟨h5, h8⟩ | rfl | rfl | rfl | rfl | rfl | rfl
  · rw [Causes.fields_unnamed c alarm h5 h8, Causes.bit_unnamed c alarm h5 h8]
  all_goals exact flag_holds rfl rfl

theorem State.getLsbD_attn (s : State) (n : Nat) : (s.regValue 3).getLsbD n = s.causes.bit s.alarm n := by
  rw [State.regValue_attn, Causes.getLsbD_fields]

theorem State.getLsbD_attnEn (s : State) (n : Nat) : (s.regValue 4).getLsbD n = s.enables.causes.bit s.enables.alarm n := by
  rw [State.regValue_attnEn, Causes.getLsbD_fields]

/-- A write to ATTN clears the latched causes whose bits are written 1 (R167). -/
theorem Causes.bit_clear (c : Causes) (w : Word) (alarm : Bool) {n : Nat} (hn : n < 8) :
    (c.clear w).bit alarm n = (c.bit alarm n && !w.getLsbD n) := by
  rcases bit_unnamed_or n with ⟨h5, h8⟩ | rfl | rfl | rfl | rfl | rfl | rfl
  · rw [Causes.bit_unnamed _ _ h5 h8, Causes.bit_unnamed _ _ h5 h8, Bool.false_and]
  · exact absurd hn (by decide)
  all_goals rfl

/-- A write to ATTN_EN sets the six enables and nothing else (R169). -/
theorem Enables.bit_ofWord (w : Word) (n : Nat) :
    (Enables.ofWord w).causes.bit (Enables.ofWord w).alarm n = (w &&& 0x11F).getLsbD n := by
  rw [BitVec.getLsbD_and]
  rcases bit_unnamed_or n with ⟨h5, h8⟩ | rfl | rfl | rfl | rfl | rfl | rfl
  · have hmask : ∀ m < 32, 5 ≤ m → m ≠ 8 → (0x11F : Word).getLsbD m = false := by decide
    have hzero : (0x11F : Word).getLsbD n = false := by
      rcases Nat.lt_or_ge n 32 with hn | hn
      · exact hmask n hn h5 h8
      · exact BitVec.getLsbD_of_ge _ _ hn
    rw [Causes.bit_unnamed _ _ h5 h8, hzero, Bool.and_false]
  all_goals exact (Bool.and_true _).symm

/-! ### The ATTN line (R169) -/

theorem and_ne_zero_iff (x y : Word) : x &&& y ≠ 0 ↔ ∃ n, x.getLsbD n = true ∧ y.getLsbD n = true := by
  simp only [← Bool.and_eq_true, ← BitVec.getLsbD_and]
  refine ⟨fun h => ?_, fun ⟨n, hn⟩ h => by simp [h] at hn⟩
  by_contra hno
  exact h (BitVec.eq_of_getLsbD_eq fun n _ => (Bool.eq_false_of_not_eq_true (not_exists.mp hno n)).trans BitVec.getLsbD_zero.symm)

/-- The line is asserted while some cause or ALARM meets its enable. -/
theorem State.attnAsserted_iff (s : State) : s.attnAsserted = true ↔
    ∃ n, s.causes.bit s.alarm n = true ∧ s.enables.causes.bit s.enables.alarm n = true := by
  unfold State.attnAsserted
  simp only [Bool.or_eq_true, Bool.and_eq_true]
  constructor
  · rintro (((((h | h) | h) | h) | h) | h)
    exacts [⟨0, h⟩, ⟨1, h⟩, ⟨2, h⟩, ⟨3, h⟩, ⟨4, h⟩, ⟨8, h⟩]
  · rintro ⟨n, h⟩
    rcases bit_unnamed_or n with ⟨h5, h8⟩ | rfl | rfl | rfl | rfl | rfl | rfl
    · rw [Causes.bit_unnamed _ _ h5 h8] at h; exact absurd h.1 Bool.false_ne_true
    all_goals simp only [Causes.bit] at h; simp [h]

/-! ### The three writes with the RESET_N pin high (R167, R169) -/

section
variable {s : State} (w : Word) (hpin : s.resetLow = false)
include hpin

theorem State.writeAttn_causes : (s.writeAttn w).causes = s.causes.clear w := if_neg (by simp [hpin])

theorem State.writeShelfChg_shelfChg : (s.writeShelfChg w).shelfChg = clearBits s.shelfChg w := if_neg (by simp [hpin])

theorem State.writeAttnEn_enables : (s.writeAttnEn w).enables = .ofWord w := if_neg (by simp [hpin])

end

/-- Settles O14: the line by the bits that meet their enables, then the three registers bit by bit. -/
theorem attentionRegistersAndLine : Obligations.AttentionRegistersAndLine := by
  refine ⟨fun s => ?line, fun s w hpin => ⟨⟨_, rfl, ?_, rfl, fun n hn => ?attn, ?alarm⟩,
    ⟨_, rfl, ?_, rfl, fun n hn => ?shelfChg⟩, ⟨_, rfl, ?_, rfl, ?attnEn⟩⟩⟩
  case line => simp only [and_ne_zero_iff, State.getLsbD_attn, State.getLsbD_attnEn, State.attnAsserted_iff]
  case attn =>
    rw [State.getLsbD_attn, State.getLsbD_attn, State.writeAttn_causes w hpin]
    exact s.causes.bit_clear w s.alarm hn
  case alarm => rw [State.getLsbD_attn, State.getLsbD_attn]; rfl
  case shelfChg =>
    show (s.writeShelfChg w).shelfChg.getLsbD n = (s.shelfChg.getLsbD n && !w.getLsbD n)
    simp [State.writeShelfChg_shelfChg w hpin, clearBits, hn]
  case attnEn =>
    refine BitVec.eq_of_getLsbD_eq fun n _ => ?_
    rw [State.getLsbD_attnEn, State.writeAttnEn_enables w hpin, Enables.bit_ofWord]
  all_goals constructor <;> simp

end Sys2Proof.Machine
end

section
/-! PROOFS. ALARM and the written shelf states (R159, R168). -/

namespace Sys2Proof.Machine

/-! ### The written shelf states across requests, completions and log entries (R160, R164) -/

@[simp] theorem Writer.asked_written (w : Writer) (item : WriteItem) : (w.asked item).written = w.written := rfl

@[simp] theorem Writer.completed_written (w : Writer) (i : Fin 32) (o : CmdOutcome) : (w.completed i o).written = w.written := rfl

@[simp] theorem Writer.noted_written (w : Writer) (served : Bool) (now : Nat) (i : Fin 32) (n : LogNote) :
    (w.noted served now i n).written = w.written := by unfold Writer.noted; split <;> rfl

@[simp] theorem Writer.askedAll_written (w : Writer) (items : List WriteItem) :
    (items.foldl Writer.asked w).written = w.written := foldl_same Writer.written _ Writer.asked_written items w

@[simp] theorem Writer.evaluated_written (w : Writer) (served : Bool) (now : Nat) (i : Fin 32) (slots : List (Fin 8)) (changed : Bool)
    (note : Option LogNote) (outcome : Option CmdOutcome) :
    (w.evaluated served now i slots changed note outcome).written = w.written := by
  unfold Writer.evaluated
  cases changed <;> cases note <;> cases outcome <;> simp

/-! ### The Candidate Monitor -/

section
variable (s : State)

@[simp] theorem State.observation_written (k : Fin 256) (o : Observation) :
    (s.observation k o).writer.written = s.writer.written := by unfold State.observation; split <;> simp

@[simp] theorem State.reportExpiry_written (k : Fin 256) : (s.reportExpiry k).writer.written = s.writer.written := by
  unfold State.reportExpiry; split <;> simp

@[simp] theorem State.condemnCand_written (k : Fin 256) : (s.condemnCand k).writer.written = s.writer.written := by
  unfold State.condemnCand; split <;> simp

@[simp] theorem State.clearWtr_written (k : Fin 256) : (s.clearWtr k).writer.written = s.writer.written := by
  unfold State.clearWtr; split <;> simp

@[simp] theorem State.takeRequest_written (r : Request) : (s.takeRequest r).writer.written = s.writer.written := by
  cases r <;> simp [State.takeRequest, State.actOn]

@[simp] theorem State.takeRequests_written : s.takeRequests.writer.written = s.writer.written :=
  foldl_same (fun t : State => t.writer.written) _ State.takeRequest_written _ s

@[simp] theorem State.candConfigured_written (k : Fin 256) (cfg : CandConfig) (out : CfgOutcome) :
    (s.candConfigured k cfg out).writer.written = s.writer.written := by simp [State.candConfigured]

@[simp] theorem State.candRefused_written (k : Fin 256) (cause : RejectCause) :
    (s.candRefused k cause).writer.written = s.writer.written := by simp [State.candRefused]

/-! ### The Selection Engine -/

@[simp] theorem State.settle_written (i : Fin 32) : (s.settle i).writer.written = s.writer.written := by
  rcases s.settle_cases i with hs | ⟨e, hs⟩ <;> simp [hs]

@[simp] theorem State.setMonitoring_written (i : Fin 32) (p : MonitorParams) :
    (s.setMonitoring i p).writer.written = s.writer.written := by simp [State.setMonitoring_writer]

@[simp] theorem State.disableShelf_written (i : Fin 32) : (s.disableShelf i).writer.written = s.writer.written := by
  rw [State.disableShelf_eq]; simp [apply_ite Writer.written]

@[simp] theorem State.enableShelf_written (i : Fin 32) : (s.enableShelf i).writer.written = s.writer.written := by
  simp [State.enableShelf_eq]

@[simp] theorem State.shelfConfigured_written (i : Fin 32) (cfg : ShelfConfig) (out : CfgOutcome) (seq : Word) :
    (s.shelfConfigured i cfg out seq).writer.written = s.writer.written := by
  unfold State.shelfConfigured
  dsimp only
  (repeat' split) <;> simp

@[simp] theorem State.shelfRefused_written (i : Fin 32) (cause : RejectCause) (seq : Word) :
    (s.shelfRefused i cause seq).writer.written = s.writer.written := by simp [State.shelfRefused]

@[simp] theorem State.lockShelf_written (i : Fin 32) : (s.lockShelf i).writer.written = s.writer.written := by
  simp [State.lockShelf]

@[simp] theorem State.loseLock_written (i : Fin 32) : (s.loseLock i).writer.written = s.writer.written := by
  unfold State.loseLock; dsimp only; split <;> simp

@[simp] theorem State.reported_written (i : Fin 32) (r : Report) : (s.reported i r).writer.written = s.writer.written := by
  unfold State.reported; dsimp only; (repeat' split) <;> simp

@[simp] theorem State.acquisitionFails_written (i : Fin 32) : (s.acquisitionFails i).writer.written = s.writer.written := by
  unfold State.acquisitionFails; dsimp only; split <;> simp

@[simp] theorem State.learned_written (i : Fin 32) : (s.learned i).writer.written = s.writer.written := by
  simp [State.learned]

@[simp] theorem State.holdoverExpires_written (i : Fin 32) : (s.holdoverExpires i).writer.written = s.writer.written := by
  simp [State.holdoverExpires]

/-! ### The Intake Unit -/

@[simp] theorem State.outOfService_written (i : Fin 32) : (s.outOfService i).writer.written = s.writer.written := by
  unfold State.outOfService
  dsimp only
  split
  · rw [State.disableShelf_written]; exact s.settle_written i
  · exact s.settle_written i

@[simp] theorem State.applyGlobals_written (g : Globals) : (s.applyGlobals g).writer.written = s.writer.written :=
  foldl_same (fun t : State => t.writer.written) _ State.outOfService_written _ _

@[simp] theorem State.globalOutcome_written (o : GlobalOutcome) (seq : Word) :
    (s.globalOutcome o seq).writer.written = s.writer.written := by simp [State.globalOutcome]

@[simp] theorem State.applyPending_written : s.applyPending.writer.written = s.writer.written := by
  unfold State.applyPending; split <;> simp

@[simp] theorem State.startSweep_written : s.startSweep.writer.written = s.writer.written := by simp [State.startSweep]

@[simp] theorem State.furtherSweep_written : s.furtherSweep.writer.written = s.writer.written := by
  unfold State.furtherSweep; split <;> simp

@[simp] theorem State.sweepRequest_written : s.sweepRequest.writer.written = s.writer.written := by
  unfold State.sweepRequest State.markFurther; (repeat' split) <;> simp

@[simp] theorem State.publishAll_written : s.publishAll.writer.written = s.writer.written := by simp [State.publishAll]

@[simp] theorem State.sweepEnds_written : s.sweepEnds.writer.written = s.writer.written := by
  unfold State.sweepEnds; dsimp only; split <;> simp

@[simp] theorem State.advanceSweep_written : s.advanceSweep.writer.written = s.writer.written := by
  unfold State.advanceSweep; (repeat' split) <;> simp

@[simp] theorem State.takeGlobal_written : s.takeGlobal.writer.written = s.writer.written := by
  unfold State.takeGlobal; dsimp only; (repeat' split) <;> simp [State.raiseIntake]

@[simp] theorem State.takeShelfConfig_written (i : Fin 32) : (s.takeShelfConfig i).writer.written = s.writer.written := by
  unfold State.takeShelfConfig; dsimp only; (repeat' split) <;> simp [State.raiseIntake, State.setLastShelfConfig]

@[simp] theorem State.takeCandConfig_written (k : Fin 256) : (s.takeCandConfig k).writer.written = s.writer.written := by
  unfold State.takeCandConfig; dsimp only; (repeat' split) <;> simp [State.raiseIntake, State.setLastCandConfig]

@[simp] theorem State.takeReport_written (i : Fin 32) : (s.takeReport i).writer.written = s.writer.written := by
  unfold State.takeReport; dsimp only; split <;> simp [State.setLastReport]

@[simp] theorem State.takeObs_written (k : Fin 256) : (s.takeObs k).writer.written = s.writer.written := by
  unfold State.takeObs; dsimp only; split <;> simp [State.setLastObs]

/-! ### Run control and start-up -/

@[simp] theorem State.endStopping_written : s.endStopping.writer.written = s.writer.written := by
  unfold State.endStopping State.leaveStopping; (repeat' split) <;> simp

@[simp] theorem State.enterStopping_written : s.enterStopping.writer.written = s.writer.written := by
  unfold State.enterStopping; dsimp only; split <;> simp

@[simp] theorem State.writeRun_written (v : Bool) : (s.writeRun v).writer.written = s.writer.written := by
  unfold State.writeRun State.runClear; (repeat' split) <;> simp

@[simp] theorem State.stepOne_written : s.stepOne.writer.written = s.writer.written := by
  unfold State.stepOne; dsimp only; (repeat' split) <;> simp [State.startWith]

@[simp] theorem State.afterSlot_written (i : Fin 32) : (s.afterSlot i).writer.written = s.writer.written := by
  unfold State.afterSlot; split <;> simp

@[simp] theorem State.endAbort_written (i : Fin 32) (live : Bool) : (s.endAbort i live).writer.written = s.writer.written := by
  unfold State.endAbort; split <;> simp

@[simp] theorem State.finishEvaluation_written : s.finishEvaluation.writer.written = s.writer.written := by
  unfold State.finishEvaluation; split <;> simp

/-! ### The Result Writer -/

@[simp] theorem State.candResultWritten_written (k : Fin 256) : (s.candResultWritten k).writer.written = s.writer.written := rfl

@[simp] theorem State.logControlWritten_written : s.logControlWritten.writer.written = s.writer.written := rfl

@[simp] theorem State.logEntryWritten_written (e : LogEntry) : (s.logEntryWritten e).writer.written = s.writer.written := by
  rw [State.logEntryWritten, State.ask_writer]; rfl

@[simp] theorem State.completionMade_written (i : Fin 32) (o : CmdOutcome) :
    (s.completionMade i o).writer.written = s.writer.written := rfl

end

/-! ### Every command -/

/-- The commands that can change a written shelf state: the write of a shelf result, and the resets with the words written to RUN_CTL
that ask for one (R168, R172). -/
def SetsWritten (c : Instr) : Prop :=
  (∃ ph, c = .shelfResultWrite ph) ∨ c = .powerOn ∨ (∃ n, c = .resetN n) ∨ (∃ w n, c = .fullReset w n) ∨
    (∃ w n, c = .restart w n) ∨ (∃ w : Word, (c = .runSet w ∨ c = .runClear w ∨ c = .sweepNow w ∨
      c = .registerWriteRefused 1 (.write w)) ∧ (w.getLsbD 2 = true ∨ w.getLsbD 3 = true))

/-- A word written to RUN_CTL without a reset bit leaves the written shelf states alone (R172). -/
theorem State.writeRunCtl_written (s : State) (w : Word) (made : Nat) :
    (s.writeRunCtl w made).writer.written = s.writer.written ∨ w.getLsbD 2 = true ∨ w.getLsbD 3 = true := by
  unfold State.writeRunCtl State.runCtlBits
  dsimp only
  split
  · exact .inl rfl
  · split
    · exact .inr (.inr ‹_›)
    · split
      · exact .inr (.inl ‹_›)
      · refine .inl ?_
        split <;> simp

theorem State.registerAccess_written (s : State) (reg : BitVec 14) (op : BusOp) :
    (s.registerAccess reg op).writer.written = s.writer.written ∨
      ∃ w : Word, reg = 1 ∧ op = .write w ∧ (w.getLsbD 2 = true ∨ w.getLsbD 3 = true) := by
  cases op with
  | read =>
    refine .inl ?_
    unfold State.registerAccess
    dsimp only
    (repeat' split) <;> simp
  | write w =>
    by_cases h1 : reg = 1
    · subst h1
      exact (s.writeRunCtl_written w 0).imp_right fun hw => ⟨w, rfl, rfl, hw⟩
    · refine .inl ?_
      unfold State.registerAccess
      dsimp only
      rw [if_neg h1]
      (repeat' split) <;> simp

theorem State.intakeRow_written (s : State) (fits : Bool) (ph : Phase) {act : State → State}
    (hact : ∀ u, (act u).writer.written = u.writer.written) : (s.intakeRow fits ph act).writer.written = s.writer.written := by
  unfold State.intakeRow
  cases ph <;> dsimp only <;> (repeat' split) <;> simp [hact]

theorem State.sweepRow_written (s : State) (fits : Bool) (ph : Phase) {f : State → State}
    (hf : ∀ u, (f u).writer.written = u.writer.written) :
    (s.intakeRow fits ph fun u => u.sweepTransaction f).writer.written = s.writer.written :=
  s.intakeRow_written fits ph fun u => by simp [State.sweepTransaction, hf]

theorem State.writerRow_written (s : State) (ph : Phase) {act : State → State}
    (hact : ∀ u, (act u).writer.written = u.writer.written) : (s.writerRow ph act).writer.written = s.writer.written := by
  unfold State.writerRow
  cases ph <;> dsimp only <;> (repeat' split) <;> simp [hact]

/-- Every other command leaves the written shelf states alone. -/
theorem exec_written {c : Instr} {s t : State} (h : exec c s = .next t) :
    t.writer.written = s.writer.written ∨ SetsWritten c := by
  cases c with
  | powerOn | resetN | fullReset | restart | shelfResultWrite => exact .inr (by simp [SetsWritten])
  | runSet w | runClear w | sweepNow w =>
    cases h
    exact (s.writeRunCtl_written w 0).imp_right fun hw => by simpa [SetsWritten] using hw
  | registerWriteRefused reg op =>
    cases h
    exact (s.registerAccess_written reg op).imp_right fun ⟨w, hreg, hop, hw⟩ => by simpa [SetsWritten, hreg, hop] using hw
  | resetNRelease | attnWrite w | shelfChgWrite w | attnEnWrite w | msclkLRead => cases h; exact .inl (by simp)
  | hostMemoryAccess a ph => cases ph <;> cases h <;> exact .inl (by simp)
  | tick => cases h; split <;> exact .inl (by simp)
  | reportDeadlineExpiry k | holdOffExpiry k | wtrExpiry k | sweepDeadlineExpiry | acquisitionFailureRequest k
  | lockLostRequest k | clearWtrRequest k =>
    cases h
    split
    exacts [.inl (by simp), .inl rfl]
  | acquisitionExpiry i | learningExpiry i | holdoverDeadlineExpiry i =>
    cases h
    (repeat' split) <;> exact .inl (by simp)
  | globalRecord ph => cases h; exact .inl (s.sweepRow_written _ ph fun u => by simp)
  | commandTake ph | shelfConfiguration ph | candidateConfiguration ph | shelfReport ph | observation ph =>
    simp only [exec, execCommandTake, execShelfConfiguration, execCandidateConfiguration, execShelfReport,
      execObservation] at h
    split at h <;> cases h
    exacts [.inl (s.sweepRow_written _ ph fun u => by simp), .inl rfl]
  | evaluation ph =>
    cases ph <;> cases h
    · split <;> exact .inl (by simp)
    · exact .inl (by simp)
    · exact .inl (by simp)
  | candidateResultWrite ph | logEntryWrite ph | logControlWrite ph | commandCompletion ph =>
    simp only [exec, execCandidateResultWrite, execLogEntryWrite, execLogControlWrite, execCommandCompletion] at h
    split at h <;> cases h
    exacts [.inl (s.writerRow_written ph fun u => by simp), .inl rfl]
  | abortedCompletion ph =>
    cases ph <;> cases h <;> dsimp only <;> (repeat' split) <;> exact .inl (by simp)
  | startupGlobalRead ph => cases h; exact .inl (s.intakeRow_written _ ph fun u => by simp)

/-! ### ALARM (R168) -/

theorem ShelfState.alarms_iff (st : ShelfState) : st.alarms = true ↔ st = .holdover ∨ st = .freeRun := by
  cases st <;> simp [ShelfState.alarms]

theorem State.alarm_iff (s : State) :
    s.alarm = true ↔ ∃ i : Fin 32, s.writer.written[i] = .holdover ∨ s.writer.written[i] = .freeRun := by
  simp only [State.alarm, Vector.any_eq_true, ShelfState.alarms_iff, Fin.exists_iff, Fin.getElem_fin]

/-- Settles O15: ALARM is read off the written shelf states, which only the commands of `SetsWritten` change (exec_written). -/
theorem alarmFollowsTheWrittenShelfStates : Obligations.AlarmFollowsTheWrittenShelfStates := by
  refine ⟨fun s => ?reads, fun c s t h hne => ?changes, State.reset_alarm,
    fun s n => ⟨State.reset_alarm, State.reset_alarm, State.reset_alarm⟩⟩
  case reads => rw [State.getLsbD_attn]; exact s.alarm_iff
  case changes => exact (exec_written h).resolve_left fun hsame => hne (by rw [State.alarm, hsame, State.alarm])

end Sys2Proof.Machine
end

section
/-! PROOFS. The end of a write of a shelf result, a candidate result, the log control record or a log entry (R160 to R166). -/

namespace Sys2Proof.Machine

section
variable {s t : State} {rest : List WriteItem}

/-- The end of the transaction of the item at the head of the write list (R145, R160). -/
theorem WriteItem.exec_row_finish {item : WriteItem} (ho : s.arbiter.owner = .writer .item) (hl : s.writer.list = item :: rest) :
    exec (item.row .finish) s = .next (s.itemServed item).releaseRecord := by
  rw [WriteItem.exec_row (by rw [hl]; rfl), State.writerRow_finish ho]

/-- The transaction of a record of at most 16 words leaves the record whole. -/
theorem wrote_record (hm : MemoryLaw s) {addr : Nat → BitVec 14} {first : Word} {body : List Word}
    (hinj : ∀ n n', n < 16 → n' < 16 → addr n = addr n' → n = n') (hlen : body.length ≤ 14)
    (ht : t.mem = s.mem.makeAccesses (recordAccesses addr first body)) : s.wrote t addr (framed first body) := by
  have hwords : (framed first body).length ≤ 16 := by simp [framed]; omega
  exact wrote_of_accesses hm _ (fun n n' hn hn' => hinj n n' (by omega) (by omega)) ht

end

/-! ### What each write changes -/

section
variable (s : State)

/-- The words of the item are in the memory (R160). -/
theorem State.writeItem_mem (item : WriteItem) : (s.writeItem item).mem = s.mem.makeAccesses (s.itemAccesses item) := rfl

/-- A shelf result raises RESULT and sets the SHELF_CHG bit of its shelf (R162). -/
theorem State.shelfResultWritten_causes (i : Fin 32) :
    (s.shelfResultWritten i).causes = { s.causes with result := true } ∧
      (s.shelfResultWritten i).shelfChg = setShelfBit s.shelfChg i := ⟨rfl, rfl⟩

/-- A shelf result records the state written (R159, R161). -/
theorem State.shelfResultWritten_writer (i : Fin 32) : (s.shelfResultWritten i).writer = { s.writer with
    list := s.writer.list.tail
    publication := nextPublication s.writer.publication
    written := s.writer.written.set i s.shelves[i].published.state } := rfl

theorem State.candResultWritten_writer (k : Fin 256) : (s.candResultWritten k).writer = { s.writer with
    list := s.writer.list.tail, publication := nextPublication s.writer.publication } := rfl

theorem State.logControlWritten_writer : s.logControlWritten.writer = { s.writer with
    list := s.writer.list.tail, publication := nextPublication s.writer.publication } := rfl

/-- A log entry asks for the log control record, behind the items that already wait (R165, R166). -/
theorem State.logEntryWritten_writer (e : LogEntry) : (s.logEntryWritten e).writer = { s.writer with
    list := joined s.writer.list.tail .logControl, loggedEntry := e.number + 1, lastEntryTime := e.time } := by
  rw [State.logEntryWritten, State.ask_writer]
  rfl

/-- A log entry raises LOG (R165). -/
theorem State.logEntryWritten_causes (e : LogEntry) : (s.logEntryWritten e).causes = { s.causes with log := true } := by
  simp [State.logEntryWritten, State.raiseLog]

/-- Whatever else the transaction for an item does, it makes the accesses of that item (R121, R161, R165). -/
theorem State.itemServed_mem (item : WriteItem) :
    (s.itemServed item).releaseRecord.mem = s.mem.makeAccesses (s.itemAccesses item) := by
  rw [← State.writeItem_mem]
  cases item <;> simp [State.itemServed, State.shelfResultWritten, State.candResultWritten, State.logControlWritten,
    State.completionMade, State.logEntryWritten, State.advancePublication, State.raiseResult, State.raiseCommand, State.raiseLog]

/-- The port is handed on at the end of the transaction for an item (R145). -/
theorem State.itemServed_port (item : WriteItem) : s.portPassed (s.itemServed item).releaseRecord :=
  State.portPassed_of (by cases item <;> simp [State.itemServed]) rfl

end

/-- The SHELF_CHG bits once that of one shelf has been set (R162). -/
theorem getLsbD_setShelfBit (bits : Word) (i : Fin 32) {n : Nat} (hn : n < 32) :
    (setShelfBit bits i).getLsbD n = (bits.getLsbD n || decide (n = i.val)) := by
  simp [setShelfBit, hn]

/-- The publication counter goes up by one and passes over 0 (R161). -/
theorem nextPublication_of_ne {v : Word} (h : v ≠ 4294967295) : nextPublication v = v + 1 := if_neg h

/-- Settles O55: kind by kind, what the write changes besides the memory and the port. -/
theorem recordsAreWritten : Obligations.RecordsAreWritten := by
  intro s rest ho hm
  refine ⟨fun i hl => ?shelfResult, fun k hl => ?candResult, fun hl => ?logControl, fun e hl => ?logEntry,
    nextPublication_of_ne, fun h => if_pos h⟩
  case shelfResult =>
    obtain ⟨hcauses, hchg⟩ := s.shelfResultWritten_causes i
    refine ⟨_, WriteItem.exec_row_finish ho hl, by constructor <;> simp [State.itemServed], ?raised, fun n hn => ?bit,
      wrote_record hm (fun _ _ => shelfResultAddr_inj i) (by simp [shelfResultBody]) (s.itemServed_mem _), ?list,
      s.itemServed_port _⟩
    case raised => simp [State.itemServed, hcauses]
    case bit => rw [← getLsbD_setShelfBit _ _ hn, ← hchg]; simp [State.itemServed]
    case list => simp [State.itemServed, State.shelfResultWritten_writer, hl]
  case candResult =>
    refine ⟨_, WriteItem.exec_row_finish ho hl, by constructor <;> simp [State.itemServed],
      wrote_record hm (fun _ _ => candResultAddr_inj k) (by simp [candResultBody]) (s.itemServed_mem _), ?list,
      s.itemServed_port _⟩
    case list => simp [State.itemServed, State.candResultWritten_writer, hl]
  case logControl =>
    refine ⟨_, WriteItem.exec_row_finish ho hl, by constructor <;> simp [State.itemServed],
      wrote_record hm (fun _ _ => logControlAddr_inj) (by simp [logControlBody]) (s.itemServed_mem _), ?list,
      s.itemServed_port _⟩
    case list => simp [State.itemServed, State.logControlWritten_writer, hl]
  case logEntry =>
    refine ⟨_, WriteItem.exec_row_finish ho hl, by constructor <;> simp [State.itemServed], ?raised,
      wrote_record hm (fun _ _ => logAddr_inj (logIndex_lt e.number)) (by simp [logEntryBody]) (s.itemServed_mem _), ?list,
      s.itemServed_port _⟩
    case raised => simp [State.itemServed, State.logEntryWritten_causes]
    case list => simp [State.itemServed, State.logEntryWritten_writer, hl]

end Sys2Proof.Machine
end

section
/-! PROOFS. The input clock, TICK and the deadlines, and MSCLK_L and MSCLK_H read in turn (R180, R181). -/

namespace Sys2Proof.Machine

/-! ### Input cycles and TICK (R180) -/

section
variable {s : State}

/-- With no command waiting, a step is one cycle of the input clock (log entry 2). -/
theorem step_of_empty (h : s.pending = []) : step s = .next s.clockCycle := by rw [step, h]

/-- The clock rests while RESET_N is low (R179). -/
theorem State.clockCycle_low (hpin : s.resetLow = true) : s.clockCycle = s := if_pos hpin

theorem State.clockCycle_count (hpin : s.resetLow = false) (hlt : s.prescaler < 49999) :
    s.clockCycle = { s with prescaler := s.prescaler + 1 } := (if_neg (by simp [hpin])).trans (if_pos hlt)

/-- The 50,000th cycle is a tick (R180). -/
theorem State.clockCycle_tick (hpin : s.resetLow = false) (hge : 49999 ≤ s.prescaler) : s.clockCycle = s.tickNow :=
  (if_neg (by simp [hpin])).trans (if_neg (Nat.not_lt.mpr hge))

/-- A tick while RESET_N is low changes nothing (R179). -/
theorem exec_tick_low (hpin : s.resetLow = true) : exec .tick s = .next s := congrArg Host.Outcome.next (if_pos hpin)

theorem exec_tick_high (hpin : s.resetLow = false) : exec .tick s = .next s.tickNow :=
  congrArg Host.Outcome.next (if_neg (by simp [hpin]))

end

/-- Settles O2: the three forms of State.clockCycle, the last of them the row TICK. -/
theorem emptyQueueMakesOneInputCycle : Obligations.EmptyQueueMakesOneInputCycle := by
  intro s hempty
  rw [step_of_empty hempty]
  refine ⟨fun hpin => ?low, fun hpin hlt => ?count, fun hpin hge => ?tick⟩
  case low => rw [State.clockCycle_low hpin]
  case count => rw [State.clockCycle_count hpin hlt]
  case tick => rw [State.clockCycle_tick hpin hge, exec_tick_high hpin]

/-! ### The clock and the deadlines across a tick (R181) -/

theorem nextClock_of_lt {now : Nat} (h : now < maxClock) : nextClock now = now + 1 := Nat.min_eq_left h

/-- The clock stops at its highest value. -/
theorem nextClock_maxClock : nextClock maxClock = maxClock := Nat.min_eq_right (Nat.le_succ _)

theorem Deadline.tick_reached {now : Nat} {d : Deadline} (h : d.time ≤ now) : d.tick now = { d with due := true } := if_pos h

theorem Deadline.tick_ahead {now : Nat} {d : Deadline} (h : now < d.time) : d.tick now = d := if_neg (Nat.not_le.mpr h)

/-- Each of the optional deadlines across a tick: absent, come due, or as it was (R181). -/
theorem ticked_tick (now : Nat) (d : Option Deadline) : ticked now d (d.map (Deadline.tick now)) := by
  refine ⟨fun hnone => by rw [hnone]; rfl, fun x hsome => ⟨fun hreached => ?_, fun hahead => ?_⟩⟩
  · rw [hsome, Option.map_some, Deadline.tick_reached hreached]
  · rw [hsome, Option.map_some, Deadline.tick_ahead hahead]

/-- Settles O20: the tick as a whole state, its tables entry by entry and each deadline by ticked_tick. -/
theorem tickAdvancesTheClock : Obligations.TickAdvancesTheClock := by
  refine ⟨fun _ _ => rfl, fun s hpin => ⟨s.tickNow, exec_tick_high hpin, by constructor <;> simp, rfl, nextClock_of_lt,
    fun hmax => ?top, fun k => ⟨_, _, map_at _ _ _, ticked_tick _ _, ticked_tick _ _⟩,
    fun i => ⟨_, _, _, map_at _ _ _, ticked_tick _ _, ticked_tick _ _, ticked_tick _ _⟩, _, rfl, ticked_tick _ _⟩⟩
  case top =>
    show nextClock s.clock = s.clock
    rw [hmax]
    exact nextClock_maxClock

/-! ### MSCLK_L and MSCLK_H (R180) -/

/-- A tick leaves MSCLK_H as the read of MSCLK_L made it. -/
theorem exec_tick_msclkH (s : State) : ∃ t, exec .tick s = .next t ∧ t.msclkH = s.msclkH := by
  cases hpin : s.resetLow with
  | true => exact ⟨s, exec_tick_low hpin, rfl⟩
  | false => exact ⟨s.tickNow, exec_tick_high hpin, rfl⟩

/-- A read of MSCLK_H answers the register, whatever the clock has come to. -/
theorem exec_read_msclkH {s : State} {v : BitVec 16} (h : s.msclkH = v) :
    exec (.registerWriteRefused 7 .read) s = .next { s with bus := ⟨some (v.zeroExtend 32), false⟩ } := by
  rw [← h]
  exact congrArg Host.Outcome.next (s.registerAccess_read (reg := 7) (by decide) (by decide))

/-- The two halves of the 48-bit clock make up its value. -/
theorem clockHalves_toNat {now : Nat} (h : now ≤ maxClock) :
    ((BitVec.ofNat 16 (now / 4294967296)).zeroExtend 32).toNat * 2 ^ 32 + (BitVec.ofNat 32 now).toNat = now := by
  have hhigh : ((BitVec.ofNat 16 (now / 4294967296)).zeroExtend 32).toNat = now / 4294967296 := by
    rw [BitVec.toNat_setWidth_of_le (show 16 ≤ 32 by decide), BitVec.toNat_ofNat]
    exact Nat.mod_eq_of_lt (by unfold maxClock at h; omega)
  rw [hhigh, BitVec.toNat_ofNat]
  exact Nat.div_add_mod' now (2 ^ 32)

/-- Settles O16: the read of MSCLK_L keeps the high half in MSCLK_H, where a tick does not reach it (exec_tick_msclkH). -/
theorem clockReadsAsOneValue : Obligations.ClockReadsAsOneValue := by
  intro s hclock
  obtain ⟨u, htick, hkept⟩ := exec_tick_msclkH s.readMsclkL
  exact ⟨s.readMsclkL, u, _, _, rfl, by constructor <;> simp, rfl, htick, exec_read_msclkH rfl, exec_read_msclkH hkept,
    clockHalves_toNat hclock⟩

end Sys2Proof.Machine
end

section
/-! PROOFS. The part while RESET_N is low (R179). -/

namespace Sys2Proof.Machine

/-! ### A write while the pin is low has its answer at the bus alone -/

section
variable {s : State} (hpin : s.resetLow = true) (w : Word)
include hpin

theorem State.writeRunCtl_low (made : Nat) : s.writeRunCtl w made = s.answer none false := if_pos hpin

theorem State.writeAttn_low : s.writeAttn w = s.answer none false := by
  rw [State.writeAttn, if_pos hpin]
  rfl

theorem State.writeShelfChg_low : s.writeShelfChg w = s.answer none false := by
  rw [State.writeShelfChg, if_pos hpin]
  rfl

theorem State.writeAttnEn_low : s.writeAttnEn w = s.answer none false := by
  rw [State.writeAttnEn, if_pos hpin]
  rfl

end

/-- Settles O7: the five rows of RUN_CTL by State.writeRunCtl_low, the other three registers by their own writes. -/
theorem pinHeldLowIgnoresWrites : Obligations.PinHeldLowIgnoresWrites := by
  refine ⟨fun s => rfl, fun s hpin => ⟨fun w made => ?writes, exec_tick_low hpin⟩⟩
  case writes =>
    have hrunCtl := State.writeRunCtl_low hpin w
    exact ⟨congrArg _ (hrunCtl made), congrArg _ (hrunCtl made), congrArg _ (hrunCtl 0), congrArg _ (hrunCtl 0),
      congrArg _ (hrunCtl 0), congrArg _ (State.writeAttn_low hpin w), congrArg _ (State.writeShelfChg_low hpin w),
      congrArg _ (State.writeAttnEn_low hpin w)⟩

end Sys2Proof.Machine
end

section
/-! PROOFS. A step runs the command at the front of the queue, and every command answers and keeps the queue of those that wait (log
entry 27). -/

namespace Sys2Proof.Machine

/-- Settles O1: the branch of step for a queue that is not empty. -/
theorem stepRunsTheFrontCommand : Obligations.StepRunsTheFrontCommand := by
  intro c rest s hfront
  rw [step, hfront]

section
variable (s : State)

/-! ### The registers -/

@[simp] theorem State.writeRunCtl_pending (w : Word) (made : Nat) : (s.writeRunCtl w made).pending = s.pending := by
  unfold State.writeRunCtl State.runCtlBits
  dsimp only
  (repeat' split) <;> simp

theorem State.registerAccess_pending (reg : BitVec 14) (op : BusOp) : (s.registerAccess reg op).pending = s.pending := by
  unfold State.registerAccess
  cases op <;> dsimp only <;> (repeat' split) <;> simp

/-! ### The rows of the port -/

theorem State.intakeRow_pending (fits : Bool) (ph : Phase) {act : State → State} (hact : ∀ u, (act u).pending = u.pending) :
    (s.intakeRow fits ph act).pending = s.pending := by
  unfold State.intakeRow
  cases ph <;> dsimp only <;> (repeat' split) <;> simp [hact]

theorem State.sweepRow_pending (fits : Bool) (ph : Phase) {f : State → State} (hf : ∀ u, (f u).pending = u.pending) :
    (s.intakeRow fits ph fun u => u.sweepTransaction f).pending = s.pending :=
  s.intakeRow_pending fits ph fun u => by simp [State.sweepTransaction, hf]

theorem State.writerRow_pending (ph : Phase) {act : State → State} (hact : ∀ u, (act u).pending = u.pending) :
    (s.writerRow ph act).pending = s.pending := by
  unfold State.writerRow
  cases ph <;> dsimp only <;> (repeat' split) <;> simp [hact]

end

/-! ### Every command -/

/-- Settles O3, command by command: each arm of exec answers a next state, whose queue is followed through the arm's operations. -/
theorem everyCommandAnswersAndKeepsTheQueue : Obligations.EveryCommandAnswersAndKeepsTheQueue := by
  intro c s
  cases c with
  | powerOn | resetN _ | resetNRelease | attnWrite _ | shelfChgWrite _ | attnEnWrite _ | msclkLRead =>
    exact ⟨_, rfl, by simp⟩
  | fullReset w made | restart w made => exact ⟨_, rfl, s.writeRunCtl_pending w made⟩
  | runSet w | runClear w | sweepNow w => exact ⟨_, rfl, s.writeRunCtl_pending w 0⟩
  | registerWriteRefused reg op => exact ⟨_, rfl, s.registerAccess_pending reg op⟩
  | hostMemoryAccess a ph => cases ph <;> exact ⟨_, rfl, by simp⟩
  | tick | reportDeadlineExpiry _ | holdOffExpiry _ | wtrExpiry _ | acquisitionExpiry _ | learningExpiry _
  | holdoverDeadlineExpiry _ | sweepDeadlineExpiry | acquisitionFailureRequest _ | lockLostRequest _ | clearWtrRequest _ =>
    refine ⟨_, rfl, ?_⟩
    (repeat' split) <;> simp
  | globalRecord ph => exact ⟨_, rfl, s.sweepRow_pending _ ph fun u => by simp⟩
  | commandTake ph | shelfConfiguration ph | candidateConfiguration ph | shelfReport ph | observation ph =>
    simp only [exec, execCommandTake, execShelfConfiguration, execCandidateConfiguration, execShelfReport, execObservation]
    split
    exacts [⟨_, rfl, s.sweepRow_pending _ ph fun u => by simp⟩, ⟨_, rfl, rfl⟩]
  | evaluation ph =>
    cases ph <;> refine ⟨_, rfl, ?_⟩
    case whole => split <;> simp
    all_goals simp
  | shelfResultWrite ph | candidateResultWrite ph | logEntryWrite ph | logControlWrite ph | commandCompletion ph =>
    simp only [exec, execShelfResultWrite, execCandidateResultWrite, execLogEntryWrite, execLogControlWrite,
      execCommandCompletion]
    split
    exacts [⟨_, rfl, s.writerRow_pending ph fun u => by simp⟩, ⟨_, rfl, rfl⟩]
  | abortedCompletion ph =>
    cases ph <;> refine ⟨_, rfl, ?_⟩ <;> dsimp only <;> (repeat' split) <;> simp
  | startupGlobalRead ph => exact ⟨_, rfl, s.intakeRow_pending _ ph fun u => by simp⟩

end Sys2Proof.Machine
end
